-- ==== Sys2Proof/Word.lean ====
section
/-! DEFINITION. The word types of the PF6230 (00_scope, "Addresses and words" and "Serials"). -/

namespace Sys2Proof

/-- One byte of the memory path. -/
abbrev Byte := BitVec 8

/-- A word of the governor page: 32 bits, little-endian in the page. -/
abbrev Word := BitVec 32

/-- A tick counter value (R41): 32 bits, wrapping. -/
abbrev Tick := BitVec 32

/-- A session's announce number for a fetch (R50): 16 bits, wrapping. -/
abbrev Serial := BitVec 16

/-- An initiator tag (R1), 0 to 15. -/
abbrev Tag := BitVec 4

/-- A set of initiator tags (R11): bit `t` says that tag `t` is in it. -/
abbrev TagSet := BitVec 16

/-- A session number, 0 to 3. -/
abbrev SessionId := Fin 4

/-- A slot of the fetch table (R49), 0 to 15. -/
abbrev Slot := Fin 16

end Sys2Proof
end

