-- ==== Sys2Proof/Config.lean ====
section
/-! DEFINITION. The fixed sizes and limits of the part. The manual leaves no value to the implementation, so there is no free value here. -/

namespace Sys2Proof.Config

/-- Bitrates and throughput figures saturate here (00_scope, "Bitrates"). -/
def maxRate : Nat := 16777215

/-- Bytes of the governor page (R3). -/
def pageSize : Nat := 4096

/-- Bytes of the order aperture at the start of the page (R4); the report aperture follows. -/
def orderApertureSize : Nat := 512

/-- The straps place the page at a multiple of this (R3). -/
def pageAlignment : Nat := 65536

/-- One more than the highest byte address of the channel (R1). -/
def channelSize : Nat := 2 ^ 36

/-- Page offset of the event window, whose first byte pops (R186). -/
def popOffset : Nat := 0x240

/-- Events the queue holds (R184). -/
def queueDepth : Nat := 32

/-- Records plus held segments a session may track (R34, R76). -/
def trackedLimit : Nat := 24

/-- Largest landing range (R34). -/
def maxFetchSize : Nat := 67108864

/-- The credited bytes stop here (R96): a 48-bit count. -/
def creditLimit : Nat := 281474976710655

/-- Saturating 16-bit counts stop here (00_scope, "Counters"). -/
def countLimit : Nat := 65535

/-- Ticks in one millisecond of an order field (00_scope, "Time"). -/
def ticksPerMs : Nat := 10

end Sys2Proof.Config
end

