-- ==== Sys2Proof/Syntax.lean ====
section
/-! DEFINITION. The commands of the PF6230: one constructor of `Instr` for each row of spec/opcode_table.json, with the operands each command carries. -/

namespace Sys2Proof

/-- The direction of a transaction (R1). -/
inductive Direction where
  | read
  | write
  deriving DecidableEq, Repr

/-- One byte position of a transaction (R1): its byte enable, and its data. For a write the data is the write
data; for a read it is the byte that memory returns, and the enable takes no part. -/
structure Lane where
  enabled : Bool
  data    : Byte
  deriving DecidableEq, Repr

/-- A memory-path transaction with memory's answer (R1, R2, R13). Its length is the number of its lanes. -/
structure Transaction where
  address   : BitVec 36
  direction : Direction
  tag       : Tag
  lanes     : List Lane
  /-- memory answers with an error status (R13) -/
  error     : Bool
  deriving DecidableEq, Repr

/-- When the blocks take what a step hands them (DESIGN CHOICE, log entry 3): within the step itself, or left in
flight for a later command, which is how the sender decides the orders that the manual leaves open. -/
inductive Delivery where
  | atOnce
  | deferred
  deriving DecidableEq, Repr

/-- The fields of a SETUP body as written (R194), before the clamps of R25. -/
structure SetupFields where
  arrivalTags : TagSet
  orderTags   : TagSet
  divider     : BitVec 16
  window      : BitVec 16
  safety      : BitVec 16
  minProbe    : BitVec 16
  tFirst      : BitVec 16
  tGap        : BitVec 16
  /-- bit `k - 1` enables the event kind of code `k` -/
  mask        : BitVec 12
  kFast       : BitVec 4
  kSlow       : BitVec 4
  deriving DecidableEq, Repr

/-- The fields of an OPEN body as written (R194), before the clamps of R26. The ladder length n is the
ladder's length, and the seed-present flag says whether there is a seed. -/
structure OpenFields where
  lo          : BitVec 3
  hi          : BitVec 3
  weight      : BitVec 8
  upCount     : BitVec 4
  /-- clip mode: true for STOP -/
  stop        : Bool
  recoverMode : BitVec 2
  resumeMode  : BitVec 2
  panic       : BitVec 16
  consumerTag : Tag
  autoRecover : BitVec 4
  comfort     : BitVec 16
  ladder      : List (BitVec 24)
  seed        : Option Word
  deriving DecidableEq, Repr

/-- The fields of a WINDOW body as written (R194). -/
structure WindowFields where
  lo     : BitVec 3
  hi     : BitVec 3
  weight : BitVec 8
  deriving DecidableEq, Repr

/-- The fields of a FETCH body as written (R194, R33). -/
structure FetchFields where
  base     : BitVec 36
  rung     : BitVec 4
  size     : Word
  duration : BitVec 16
  deriving DecidableEq, Repr

/-- The thirteen order kinds (R21) with the fields their bodies carry. -/
inductive Order where
  | setup (f : SetupFields)
  | openSession (f : OpenFields)
  | closeSession
  | window (f : WindowFields)
  | pause (measure : Bool)
  | resume
  | recover
  | continueRung
  | fetch (f : FetchFields)
  | abort (base : BitVec 36)
  | flush
  | reset
  | reacquire
  deriving DecidableEq, Repr

/-- The refusal causes, in the order of their codes 0x01 to 0x12 (R196). -/
inductive Cause where
  | badCheck | truncated | outOfSequence | badWrite | unknownKind | badLength | notIdle | noSession
  | sessionOpen | badLadder | tableFull | listFull | overlap | badRange | badRung | wrongState | noFetch
  | noReference
  deriving DecidableEq, Repr

/-- The commands: one constructor per row of spec/opcode_table.json. -/
inductive Instr where
  /-- POWER_ON_RESET (R12): the reset input is asserted, the transactions of `during` pass, and it is released
  with the straps at `straps`. -/
  | powerOnReset (straps : BitVec 12) (during : List Transaction)
  /-- TRANSACTION (R6): a transaction passes the path classifier. -/
  | transaction (t : Transaction) (d : Delivery)
  /-- ORDER_HEADER_WORD (R16): the assembler takes the next order word in flight, a whole word at offset 0. -/
  | orderHeaderWord
  /-- ORDER_BODY_WORD (R17): the assembler, ASSEMBLING, takes the next order word in flight, another word. -/
  | orderBodyWord
  /-- ORDER_STRAY_WORD (R18): the assembler, IDLE, takes the next order word in flight, another word. -/
  | orderStrayWord
  /-- SETUP (R24), given whole by `tag` with the header's session field as written. -/
  | setupOrder (tag : Tag) (session : BitVec 4) (f : SetupFields)
  /-- OPEN (R26, R132). -/
  | openOrder (tag : Tag) (session : BitVec 4) (f : OpenFields)
  /-- CLOSE (R27, R135). -/
  | closeOrder (tag : Tag) (session : BitVec 4)
  /-- WINDOW (R28, R147). -/
  | windowOrder (tag : Tag) (session : BitVec 4) (f : WindowFields)
  /-- PAUSE (R29, R142). -/
  | pauseOrder (tag : Tag) (session : BitVec 4) (measure : Bool)
  /-- RESUME (R30, R145). -/
  | resumeOrder (tag : Tag) (session : BitVec 4)
  /-- RECOVER (R31, R140). -/
  | recoverOrder (tag : Tag) (session : BitVec 4)
  /-- CONTINUE (R32, R149). -/
  | continueOrder (tag : Tag) (session : BitVec 4)
  /-- FETCH (R33, R52). -/
  | fetchOrder (tag : Tag) (session : BitVec 4) (f : FetchFields)
  /-- ABORT (R35, R73). -/
  | abortOrder (tag : Tag) (session : BitVec 4) (base : BitVec 36)
  /-- FLUSH (R36). -/
  | flushOrder (tag : Tag) (session : BitVec 4)
  /-- RESET (R37). -/
  | resetOrder (tag : Tag) (session : BitVec 4)
  /-- REACQUIRE (R38, R47). -/
  | reacquireOrder (tag : Tag) (session : BitVec 4)
  /-- ARRIVAL (R54): the fetch tracker takes the arrival at place `n` of those in flight. -/
  | arrival (n : Nat)
  /-- CONSUMER_READ (R82): the held-segment unit takes the consumer read at place `n` of those in flight. -/
  | consumerRead (n : Nat)
  /-- EVENT_POP (R186): a read of the page from `offset`, one byte of `memory` for each byte of its span, that
  covers offset 0x240. -/
  | eventPop (tag : Tag) (offset : BitVec 12) (memory : List Byte) (error : Bool)
  /-- ADVICE_SLOT_READ (R182): a read of the page from `offset` that overlaps an advice slot. -/
  | adviceSlotRead (tag : Tag) (offset : BitVec 12) (memory : List Byte) (error : Bool)
  /-- TICK (R41). -/
  | tick (d : Delivery)
  /-- REFERENCE_LOSS (R45): 100 µs of internal time have passed with no rising edge of the reference. -/
  | referenceLoss
  /-- FIRST_BYTE_DEADLINE_EXPIRY (R65): the tick reached the first-byte deadline of the record in `slot`. -/
  | firstByteDeadlineExpiry (slot : Slot)
  /-- GAP_DEADLINE_EXPIRY (R65): the tick reached the gap deadline of the record in `slot`. -/
  | gapDeadlineExpiry (slot : Slot)
  /-- WINDOW_END (R98): the link meter takes the tick that ends its window. -/
  | windowEnd
  /-- REFERENCE_RETURN (R44): a rising edge of the reference while its presence is ABSENT. -/
  | referenceReturn
  deriving DecidableEq, Repr

end Sys2Proof
end

