-- ==== Sys2Proof/WellFormed.lean ====
section
/-! DEFINITION. Which commands can be given at all: the ranges that R1, R14 and R22 give their operands, and, for the two
page reads, that the read is the one its row names (R182, R186). -/

namespace Sys2Proof

/-- A transaction the memory path can carry (R1): 1 to 64 bytes, its span inside the channel. -/
def Transaction.wellFormed (t : Transaction) : Bool :=
  decide (1 ≤ t.lanes.length) && decide (t.lanes.length ≤ 64)
    && decide (t.address.toNat + t.lanes.length ≤ Config.channelSize)

/-- An OPEN whose record fits the longest body, 15 words (R14): three words, the ladder and the seed. -/
def OpenFields.wellFormed (f : OpenFields) : Bool :=
  decide (3 + f.ladder.length + (if f.seed.isSome then 1 else 0) ≤ 15)

/-- A read of 1 to 64 bytes from a page offset that overlaps the offsets `first` to `last`. -/
def pageReadOverlaps (offset : BitVec 12) (memory : List Byte) (first last : Nat) : Bool :=
  decide (1 ≤ memory.length) && decide (memory.length ≤ 64)
    && decide (offset.toNat ≤ last) && decide (first < offset.toNat + memory.length)

/-- The commands that can be given. -/
def Instr.wellFormed : Instr → Bool
  | .powerOnReset _ during => during.all Transaction.wellFormed
  | .transaction t _ => t.wellFormed
  | .openOrder _ _ f => f.wellFormed
  | .eventPop _ offset memory _ => pageReadOverlaps offset memory Config.popOffset Config.popOffset
  | .adviceSlotRead _ offset memory _ => pageReadOverlaps offset memory 0x280 0x2FF
  | .orderHeaderWord | .orderBodyWord | .orderStrayWord | .setupOrder .. | .closeOrder .. | .windowOrder ..
  | .pauseOrder .. | .resumeOrder .. | .recoverOrder .. | .continueOrder .. | .fetchOrder .. | .abortOrder ..
  | .flushOrder .. | .resetOrder .. | .reacquireOrder .. | .arrival _ | .consumerRead _ | .tick _
  | .referenceLoss | .firstByteDeadlineExpiry _ | .gapDeadlineExpiry _ | .windowEnd | .referenceReturn => true

end Sys2Proof
end

