-- ==== Sys2Proof/Decode.lean ====
section
/-! DEFINITION. The bit layout of orders (R14, R194): reading a record's words as an order, and writing an order as a record's
words. The opcode table gives no row any bits, so no word spells a command (`decodeTableWord`). -/

namespace Sys2Proof

/-- The command that a word spells by the table's bits. No row of spec/opcode_table.json has bits. -/
def decodeTableWord (_nbits _w : Nat) : Option Instr := none

/-- The kind field of a header word (R194). -/
def headerKind (h : Word) : BitVec 8 := h.extractLsb' 0 8

/-- The session field of a header word (R194). -/
def headerSession (h : Word) : BitVec 4 := h.extractLsb' 8 4

/-- The body length of a header word (R194). -/
def headerLength (h : Word) : Nat := (h.extractLsb' 12 4).toNat

/-- The check word of a record (R15): the complement of the sum of the header and the body words. -/
def checkWord (header : Word) (body : List Word) : Word := ~~~ ((header :: body).foldl (· + ·) 0)

/-- The code of an order's kind (R21, R194). -/
def Order.kind : Order → BitVec 8
  | .setup _ => 0x01
  | .openSession _ => 0x02
  | .closeSession => 0x03
  | .window _ => 0x04
  | .pause _ => 0x05
  | .resume => 0x06
  | .recover => 0x07
  | .continueRung => 0x08
  | .fetch _ => 0x09
  | .abort _ => 0x0A
  | .flush => 0x0B
  | .reset => 0x0C
  | .reacquire => 0x0D

/-- SETUP's five body words (R194). -/
def decodeSetup (w1 w2 w3 w4 w5 : Word) : SetupFields where
  arrivalTags := w1.extractLsb' 0 16
  orderTags := w1.extractLsb' 16 16
  divider := w2.extractLsb' 0 16
  window := w2.extractLsb' 16 16
  safety := w3.extractLsb' 0 16
  minProbe := w3.extractLsb' 16 16
  tFirst := w4.extractLsb' 0 16
  tGap := w4.extractLsb' 16 16
  mask := w5.extractLsb' 1 12
  kFast := w5.extractLsb' 16 4
  kSlow := w5.extractLsb' 20 4

/-- OPEN's body: three words, then the ladder, then the seed if its flag is set. The required length is 3 + n + s
with n from 1 to 8 (R22). -/
def decodeOpen (body : List Word) : Except Cause OpenFields :=
  match body with
  | w1 :: w2 :: w3 :: rest =>
    let n := (w1.extractLsb' 0 4).toNat
    let seeded := w1.getLsbD 4
    if 1 ≤ n ∧ n ≤ 8 ∧ rest.length = n + (if seeded then 1 else 0) then
      .ok { lo := w1.extractLsb' 8 3
            hi := w1.extractLsb' 12 3
            weight := w1.extractLsb' 16 8
            upCount := w1.extractLsb' 24 4
            stop := w1.getLsbD 5
            recoverMode := w1.extractLsb' 6 2
            resumeMode := w1.extractLsb' 28 2
            panic := w2.extractLsb' 0 16
            consumerTag := w2.extractLsb' 16 4
            autoRecover := w2.extractLsb' 20 4
            comfort := w3.extractLsb' 0 16
            ladder := (rest.take n).map (·.extractLsb' 0 24)
            seed := if seeded then rest[n]? else none }
    else .error .badLength
  | _ => .error .badLength

/-- An order of a kind that has no body, or BAD_LENGTH (R22). -/
def withoutBody (o : Order) : List Word → Except Cause Order
  | [] => .ok o
  | _ :: _ => .error .badLength

/-- The framing and kind stages of R21 on a record whose check word matches: the order its words spell, or
BAD_LENGTH where the body length does not match the kind (R22), or UNKNOWN_KIND. -/
def decodeOrder (kind : BitVec 8) (body : List Word) : Except Cause Order :=
  match kind.toNat with
  | 0x01 =>
    match body with
    | [w1, w2, w3, w4, w5] => .ok (.setup (decodeSetup w1 w2 w3 w4 w5))
    | _ => .error .badLength
  | 0x02 => (decodeOpen body).map .openSession
  | 0x03 => withoutBody .closeSession body
  | 0x04 =>
    match body with
    | [w] => .ok (.window { lo := w.extractLsb' 8 3, hi := w.extractLsb' 12 3, weight := w.extractLsb' 16 8 })
    | _ => .error .badLength
  | 0x05 =>
    match body with
    | [w] => .ok (.pause (w.getLsbD 0))
    | _ => .error .badLength
  | 0x06 => withoutBody .resume body
  | 0x07 => withoutBody .recover body
  | 0x08 => withoutBody .continueRung body
  | 0x09 =>
    match body with
    | [w1, w2, w3, w4] =>
      .ok (.fetch { base := w2.extractLsb' 0 4 ++ w1, rung := w4.extractLsb' 0 4, size := w3,
                    duration := w4.extractLsb' 16 16 })
    | _ => .error .badLength
  | 0x0A =>
    match body with
    | [w1, w2] => .ok (.abort (w2.extractLsb' 0 4 ++ w1))
    | _ => .error .badLength
  | 0x0B => withoutBody .flush body
  | 0x0C => withoutBody .reset body
  | 0x0D => withoutBody .reacquire body
  | _ => .error .unknownKind

/-- The body words of an order, every ignored bit zero (R194). -/
def Order.body : Order → List Word
  | .setup f =>
    [f.orderTags ++ f.arrivalTags, f.window ++ f.divider, f.minProbe ++ f.safety, f.tGap ++ f.tFirst,
      0#8 ++ f.kSlow ++ f.kFast ++ 0#3 ++ f.mask ++ 0#1]
  | .openSession f =>
    [0#2 ++ f.resumeMode ++ f.upCount ++ f.weight ++ 0#1 ++ f.hi ++ 0#1 ++ f.lo ++ f.recoverMode
        ++ BitVec.ofBool f.stop ++ BitVec.ofBool f.seed.isSome ++ BitVec.ofNat 4 f.ladder.length,
      0#8 ++ f.autoRecover ++ f.consumerTag ++ f.panic,
      0#16 ++ f.comfort]
      ++ f.ladder.map (fun r => 0#8 ++ r) ++ f.seed.toList
  | .window f => [0#8 ++ f.weight ++ 0#1 ++ f.hi ++ 0#1 ++ f.lo ++ 0#8]
  | .pause m => [0#31 ++ BitVec.ofBool m]
  | .fetch f =>
    [f.base.extractLsb' 0 32, 0#28 ++ f.base.extractLsb' 32 4, f.size, f.duration ++ 0#12 ++ f.rung]
  | .abort base => [base.extractLsb' 0 32, 0#28 ++ base.extractLsb' 32 4]
  | .closeSession | .resume | .recover | .continueRung | .flush | .reset | .reacquire => []

/-- The header word of an order with the given session field, its upper half zero (R14, R194). -/
def Order.header (session : BitVec 4) (o : Order) : Word :=
  0#16 ++ BitVec.ofNat 4 o.body.length ++ session ++ o.kind

/-- The whole record of an order (R14): header, body and check word. -/
def Order.record (session : BitVec 4) (o : Order) : List Word :=
  o.header session :: o.body ++ [checkWord (o.header session) o.body]

end Sys2Proof
end

