-- ==== Sys2Proof/Machine/State.lean ====
section
/-! DEFINITION. The state of the PF6230, block by block (00_scope, "Blocks and how they work together"), as plain data, and its
value after power-on reset. -/

namespace Sys2Proof.Machine

/-- Why the machine would stop. The PF6230 has no such reason: a bad order is refused with a cause, which is an effect
(R20), and an error status of memory undoes nothing (R13). So this type has no constructor, and no command raises a fault. -/
inductive Fault where
  deriving DecidableEq, Repr

/-- Why a command would have no meaning. -/
inductive Refusal where
  /-- Raised by an arm of `exec` that has no meaning yet; safe, since the machine then stops. No arm raises it. -/
  | notModelled (mnemonic : String)
  deriving DecidableEq, Repr

/-! ### Event records -/

/-- The event kinds (R196), in the order of their codes 0x00 to 0x0C. -/
inductive EventKind where
  | none | orderRefused | stall | revive | recovered | probeDone | rungChange | boundary | underrun | refilled
  | starved | coarse | fetchDone
  deriving DecidableEq, Repr

/-- One event record (R184). -/
structure EventRecord where
  kind    : EventKind
  session : BitVec 4
  code    : BitVec 8
  stamp   : Tick
  valueA  : Word
  valueB  : Word
  deriving DecidableEq, Repr

/-- A record of all zeros, kind NONE (R187, R188). -/
def EventRecord.zero : EventRecord := ⟨.none, 0, 0, 0, 0, 0⟩

/-! ### Path classifier and memory path -/

/-- What the path classifier holds (R3, R11): the sampled straps, which give the page base, and the two tag sets. -/
structure Classifier where
  straps      : BitVec 12
  orderTags   : TagSet
  arrivalTags : TagSet
  deriving DecidableEq, Repr

/-- One touched word of an order write (R7, R16): who wrote it, its page offset, whether all four bytes are enabled,
and its data, the bytes that are not enabled as zero. -/
structure OrderWord where
  tag    : Tag
  offset : Nat
  whole  : Bool
  data   : Word
  deriving DecidableEq, Repr

/-- An arrival write (R8): the entry's slot, the first and end offsets from its base, and whether the record it was
yielded for still stands (R54). -/
structure Arrival where
  slot      : Slot
  first     : Nat
  endOffset : Nat
  standing  : Bool
  deriving DecidableEq, Repr

/-- One part of a consumer read (R9): the session, the slot while the range is a fetch-table entry's (none for a held segment, and
from the completion of the fetch on, R82), the range's serial, the end offset, and whether no order has freed the range since the
part was yielded (R82, R91). -/
structure ConsumerPart where
  session   : SessionId
  slot      : Option Slot
  serial    : Serial
  endOffset : Nat
  standing  : Bool
  deriving DecidableEq, Repr

/-- Observations the classifier has yielded and their blocks have not yet taken (R6, R54, R82), oldest first. -/
structure InFlight where
  orderWords    : List OrderWord
  arrivals      : List Arrival
  consumerReads : List (List ConsumerPart)
  deriving DecidableEq, Repr

/-- A transaction as it leaves the downstream port (R2). A read carries no data downstream. -/
structure Request where
  address   : BitVec 36
  direction : Direction
  tag       : Tag
  enables   : List Bool
  data      : List Byte
  deriving DecidableEq, Repr

/-- A response as it returns at the upstream port (R2, R5): the read data, none for a write, and the status. -/
structure Response where
  data  : List Byte
  error : Bool
  deriving DecidableEq, Repr

/-- What has left the part at its two ports, oldest first (R2). The MODEL's own trace (log entry 11). -/
structure Ports where
  downstream : List Request
  upstream   : List Response
  deriving DecidableEq, Repr

/-! ### Order assembler -/

/-- The assembly state (R16). -/
inductive Assembly where
  | idle
  | assembling (header : Word) (body : List Word)
  deriving DecidableEq, Repr

/-- The last order result (R20). -/
structure OrderResult where
  kind    : BitVec 8
  session : BitVec 4
  code    : BitVec 8
  slot    : BitVec 8
  count   : BitVec 16
  deriving DecidableEq, Repr

/-- What the order assembler holds. -/
structure Assembler where
  assembly : Assembly
  last     : OrderResult
  deriving DecidableEq, Repr

/-! ### Timebase -/

/-- The clock source (R39, R46). -/
inductive ClockSource where
  | reference
  | internal
  deriving DecidableEq, Repr

/-- The presence of the reference clock (R44). -/
inductive Presence where
  | present
  | absent
  deriving DecidableEq, Repr

/-- What the timebase and its reference monitor hold (R39 to R48). `tickLength` is the number of cycles of the tick in
progress: the divider plus one as it stood when the tick began (R40; log entry 13). -/
structure Timebase where
  divider    : Nat
  cycleCount : Nat
  tickLength : Nat
  tick       : Tick
  source     : ClockSource
  coarse     : Bool
  presence   : Presence
  deriving DecidableEq, Repr

/-! ### Fetch tracker -/

/-- The kind of a fetch (R49): the rung and the duration are absent for OTHER. -/
inductive FetchKind where
  | media (rung duration : Nat)
  | other
  deriving DecidableEq, Repr

/-- The state of a fetch record (R49). -/
inductive FetchState where
  | pending
  | landing
  | stalled
  deriving DecidableEq, Repr

/-- A fetch record (R49). -/
structure FetchRecord where
  session      : SessionId
  serial       : Serial
  kind         : FetchKind
  base         : Nat
  size         : Nat
  landed       : Nat
  consumed     : Nat
  state        : FetchState
  announce     : Tick
  firstArrival : Option Tick
  lastArrival  : Option Tick
  deadline     : Option Tick
  stalls       : Nat
  deriving DecidableEq, Repr

/-- What the fetch tracker holds part-wide: the fetch table and the two timeouts in ticks (R49, R51). -/
structure Tracker where
  table  : Vector (Option FetchRecord) 16
  tFirst : Nat
  tGap   : Nat
  deriving DecidableEq, Repr

/-! ### Link meter -/

/-- What the link meter holds (R96). `set` is the meter state. `tickOwed` says that the current tick has been delivered
and the meter has not yet taken it (R43, R101, R115; log entry 5). -/
structure Meter where
  window   : Nat
  kFast    : Nat
  kSlow    : Nat
  safety   : Nat
  elapsed  : Nat
  busy     : Nat
  credited : Nat
  vFast    : Nat
  vSlow    : Nat
  set      : Bool
  link     : Option Nat
  tickOwed : Bool
  deriving DecidableEq, Repr

/-! ### Share arbiter -/

/-- What the share arbiter holds part-wide (R116). The shares stand with their sessions. -/
structure Arbiter where
  headroom : Nat
  starved  : Bool
  received : Option Nat
  deriving DecidableEq, Repr

/-- One session's part in the rounds of a division (R122). -/
structure Claim where
  weight    : Nat
  remaining : Nat
  given     : Nat
  deriving DecidableEq, Repr

/-! ### Sessions -/

/-- The states of a session (R131). -/
inductive SessionState where
  | closed | probing | steady | boundary | fallback | paused
  deriving DecidableEq, Repr

/-- The recover and resume modes (R26). -/
inductive Mode where
  | hold | safe | probe
  deriving DecidableEq, Repr

/-- The clip modes (R26). -/
inductive ClipMode where
  | clamp | stop
  deriving DecidableEq, Repr

/-- Why an advice was published (R155, R157). -/
inductive Reason where
  | none | throughput | panic | fallback | window | resume | recover | probe
  deriving DecidableEq, Repr

/-- The programmed half of a session context (R129). The ladder length n is the ladder's length. -/
structure Programmed where
  ladder      : List Nat
  lo          : Nat
  hi          : Nat
  weight      : Nat
  upCount     : Nat
  clip        : ClipMode
  recoverMode : Mode
  autoRecover : Nat
  resumeMode  : Mode
  consumerTag : Tag
  panic       : Nat
  comfort     : Nat
  deriving DecidableEq, Repr

/-- The working half of a session context (R130), less the advised rung and the decision count, whose one home is the
published advice. -/
structure Working where
  state       : SessionState
  prePause    : SessionState
  measure     : Bool
  current     : Nat
  a           : Nat
  b           : Nat
  probeSteps  : Nat
  upStreak    : Nat
  preFallback : Nat
  recovering  : Nat
  rebuffers   : Nat
  stalls      : Nat
  skips       : Nat
  overrides   : Nat
  deriving DecidableEq, Repr

/-- The published advice (R155). -/
structure Advice where
  rung       : Nat
  reason     : Reason
  count      : BitVec 16
  superseded : Bool
  buffer     : Nat
  tick       : Tick
  state      : SessionState
  deriving DecidableEq, Repr

/-- A held segment (R76). -/
structure HeldSegment where
  serial   : Serial
  base     : Nat
  size     : Nat
  duration : Nat
  consumed : Nat
  deriving DecidableEq, Repr

/-- Everything the blocks hold for one session: its context and published advice (session governor), its held list,
consumer position and REBUFFERING (held-segment unit), its next serial (fetch tracker), its share (share arbiter) and
its advice-taken flag (report unit). -/
structure Session where
  prog        : Programmed
  work        : Working
  advice      : Advice
  held        : List HeldSegment
  position    : Option Serial
  rebuffering : Bool
  nextSerial  : Serial
  share       : Nat
  taken       : Bool
  deriving DecidableEq, Repr

/-- A programmed half of zeros (R129). -/
def Programmed.zero : Programmed := ⟨[], 0, 0, 0, 0, .clamp, .hold, 0, .hold, 0, 0, 0⟩

/-- A working half of zeros, CLOSED (R130). -/
def Working.zero : Working := ⟨.closed, .closed, false, 0, 0, 0, 0, 0, 0, 0, 0, 0, 0, 0⟩

/-- No published advice: the slot reads zeros (R155). -/
def Advice.zero : Advice := ⟨0, .none, 0, false, 0, 0, .closed⟩

/-- A CLOSED session (R75, R94, R128, R153, R175, R193). -/
def Session.closed : Session where
  prog := .zero
  work := .zero
  advice := .zero
  held := []
  position := none
  rebuffering := false
  nextSerial := 0
  share := 0
  taken := false

/-! ### Report unit -/

/-- What the report unit holds part-wide (R184 to R193). Bit `k` of the mask enables the kind of code `k`. -/
structure Report where
  events : List EventRecord
  lost   : Bool
  latch  : EventRecord
  mask   : BitVec 16
  deriving DecidableEq, Repr

/-! ### The part -/

/-- The whole state: the nine blocks, the two ports, the observations in flight, and the queue of waiting commands. -/
structure State where
  classifier : Classifier
  inFlight   : InFlight
  ports      : Ports
  assembler  : Assembler
  timebase   : Timebase
  tracker    : Tracker
  meter      : Meter
  arbiter    : Arbiter
  sessions   : Vector Session 4
  /-- the minimum probe ticks (R24, R25) -/
  minProbe   : Nat
  report     : Report
  pending    : List Instr
  deriving DecidableEq, Repr

/-- The machine right after power-on reset (R12): every block at the value its chapter gives (R11, R16, R20, R25, R48,
R75, R94, R114, R128, R153, R175, R193). DESIGN CHOICE: the straps read 0 (log entry 9). -/
def State.reset : State where
  classifier := { straps := 0, orderTags := 0xFFFF, arrivalTags := 0 }
  inFlight := { orderWords := [], arrivals := [], consumerReads := [] }
  ports := { downstream := [], upstream := [] }
  assembler := { assembly := .idle, last := { kind := 0, session := 0, code := 0, slot := 0, count := 0 } }
  timebase :=
    { divider := 2499, cycleCount := 0, tickLength := 2500, tick := 0, source := .reference, coarse := false,
      presence := .present }
  tracker := { table := Vector.replicate 16 none, tFirst := 30000, tGap := 10000 }
  meter :=
    { window := 2000, kFast := 2, kSlow := 4, safety := 218, elapsed := 0, busy := 0, credited := 0, vFast := 0,
      vSlow := 0, set := false, link := none, tickOwed := false }
  arbiter := { headroom := 0, starved := false, received := none }
  sessions := Vector.replicate 4 Session.closed
  minProbe := 50
  report := { events := [], lost := false, latch := .zero, mask := 0x0FFE }
  pending := []

end Sys2Proof.Machine
end

