-- ==== Sys2Proof/Machine/Ops.lean ====
section
/-! DEFINITION. The named operations over the state that the blocks share: counters and serials, a session's and a slot's place,
posting an event, freeing records, and the buffer level. -/

namespace Sys2Proof.Machine

/-- A saturating 16-bit count, raised by one (00_scope, "Counters"). -/
def bump (n : Nat) : Nat := min Config.countLimit (n + 1)

/-- `value` brought into `low` to `high` (R25). -/
def clampTo (low high value : Nat) : Nat := if value < low then low else if high < value then high else value

/-- Serial `s` is older than serial `p` (R78). -/
def older (s p : Serial) : Bool := decide (1 ≤ (p - s).toNat) && decide ((p - s).toNat ≤ 32767)

/-- A session number given by a header's session field of 0 to 3. -/
def sessionOf (field : BitVec 4) : SessionId := Fin.ofNat 4 field.toNat

/-- Tag `t` is in the set (R11). -/
def inTagSet (set : TagSet) (t : Tag) : Bool := set.getLsbD t.toNat

/-- The governor page base (R3). -/
def pageBase (s : State) : Nat := s.classifier.straps.toNat * Config.pageAlignment

/-! ### Sessions and slots -/

/-- Session `i`. -/
def State.session (s : State) (i : SessionId) : Session := s.sessions[i]

/-- The state with session `i` replaced. -/
def State.setSession (s : State) (i : SessionId) (x : Session) : State := { s with sessions := s.sessions.set i x }

/-- The state with the working half of session `i` replaced. -/
def State.setWork (s : State) (i : SessionId) (w : Working) : State := s.setSession i { s.session i with work := w }

/-- The record in slot `k`, or none while it is free (R49). -/
def State.slot (s : State) (k : Slot) : Option FetchRecord := s.tracker.table[k]

/-- The state with slot `k` replaced. -/
def State.setSlot (s : State) (k : Slot) (r : Option FetchRecord) : State :=
  { s with tracker := { s.tracker with table := s.tracker.table.set k r } }

/-- The session is open: in any state but CLOSED (R131). -/
def isOpen (x : Session) : Bool := x.work.state != .closed

/-- The session is active: open and not PAUSED (R117). -/
def isActive (x : Session) : Bool := x.work.state != .closed && x.work.state != .paused

/-- The session is measuring: not PAUSED with its measure flag clear (R56). -/
def isMeasuring (x : Session) : Bool := x.work.state != .paused || x.work.measure

/-- The slots that are free, in ascending order. -/
def freeSlots (s : State) : List Slot := (List.finRange 16).filter fun k => (s.slot k).isNone

/-- The records of session `i`, by slot. -/
def recordsOf (s : State) (i : SessionId) : List FetchRecord :=
  (List.finRange 16).filterMap fun k =>
    match s.slot k with
    | some r => if r.session = i then some r else none
    | none => none

/-- The landing set holds no record: none is LANDING with its session measuring (R69). -/
def landingSetEmpty (s : State) : Bool :=
  (List.finRange 16).all fun k =>
    match s.slot k with
    | some r => !(r.state == .landing && isMeasuring (s.session r.session))
    | none => true

/-! ### Events -/

/-- The code of an event kind (R196). -/
def EventKind.code : EventKind → BitVec 8
  | .none => 0x00
  | .orderRefused => 0x01
  | .stall => 0x02
  | .revive => 0x03
  | .recovered => 0x04
  | .probeDone => 0x05
  | .rungChange => 0x06
  | .boundary => 0x07
  | .underrun => 0x08
  | .refilled => 0x09
  | .starved => 0x0A
  | .coarse => 0x0B
  | .fetchDone => 0x0C

/-- The session field of an event that names a session. -/
def sessionField (i : SessionId) : BitVec 4 := BitVec.ofNat 4 i.val

/-- The session field of an event that names none (R184). -/
def noSession : BitVec 4 := 0xF

/-- Posting an event (R184): dropped if its kind is not enabled; discarded with LOST set if the queue holds 32
records; otherwise appended, stamped with the tick counter. -/
def post (kind : EventKind) (session : BitVec 4) (code : BitVec 8) (valueA valueB : Word) (s : State) : State :=
  if s.report.mask.getLsbD kind.code.toNat then
    if Config.queueDepth ≤ s.report.events.length then
      { s with report := { s.report with lost := true } }
    else
      { s with report := { s.report with
          events := s.report.events ++ [⟨kind, session, code, s.timebase.tick, valueA, valueB⟩] } }
  else s

/-! ### Freeing records -/

/-- Slot `k` becomes free (R60 step 4, R72): the record leaves the table with its deadline, and the arrivals in flight
that were yielded for it no longer have a standing record (R54). -/
def freeSlot (k : Slot) (s : State) : State :=
  { s.setSlot k none with
    inFlight := { s.inFlight with
      arrivals := s.inFlight.arrivals.map fun a => if a.slot = k then { a with standing := false } else a } }

/-- Every part of the consumer reads in flight is made another. -/
def mapParts (f : ConsumerPart → ConsumerPart) (s : State) : State :=
  { s with inFlight := { s.inFlight with consumerReads := s.inFlight.consumerReads.map (List.map f) } }

/-- The parts of consumer reads in flight that meet `p` no longer have a standing range (R82). -/
def dropParts (p : ConsumerPart → Bool) (s : State) : State :=
  mapParts (fun c => if p c then { c with standing := false } else c) s

/-- The fetch of slot `k` has completed: the parts in flight yielded for its record are now for the segment it became (R82). -/
def passParts (k : Slot) (s : State) : State :=
  mapParts (fun c => if c.slot = some k then { c with slot := none } else c) s

/-- An order frees the record of slot `k` (R72): the slot, and the parts of consumer reads in flight yielded for that record (R82); a
part for a held segment is not affected (R91). -/
def freeRecord (k : Slot) (s : State) : State := dropParts (fun c => c.slot == some k) (freeSlot k s)

/-- Slot `k` is freed if its record meets `p`. -/
def freeIf (p : FetchRecord → Bool) (s : State) (k : Slot) : State :=
  match s.slot k with
  | some r => if p r then freeRecord k s else s
  | none => s

/-- Every slot whose record meets `p` is freed by an order (R72). -/
def freeWhere (p : FetchRecord → Bool) (s : State) : State := (List.finRange 16).foldl (freeIf p) s

/-! ### Buffer level -/

/-- The buffer level of a held list, in ms (R79): the durations, less the consumed part of the head. -/
def bufferLevel : List HeldSegment → Nat
  | [] => 0
  | h :: rest => ((h :: rest).map (·.duration)).sum - h.duration * h.consumed / h.size

end Sys2Proof.Machine
end

