-- ==== Sys2Proof/Machine/Flags.lean ====
section
/-! DEFINITION. Every status flag and count that the summary word shows (R178), the event line (R190), and the codes of the
coded fields (R196). -/

namespace Sys2Proof.Machine

/-- The event line: asserted while the queue holds a record (R190). -/
def eventLine (s : State) : Bool := !s.report.events.isEmpty

/-- The fetch count: the slots that hold a record (R49). -/
def fetchCount (s : State) : Nat := (List.finRange 16).countP fun k => (s.slot k).isSome

/-- The open-session mask (R152): bit `i` set while session `i` is not CLOSED. -/
def openMask (s : State) : Nat :=
  ((List.finRange 4).map fun i => if isOpen (s.session i) then 2 ^ i.val else 0).sum

/-- The assembler is ASSEMBLING (R16). -/
def isAssembling (s : State) : Bool := s.assembler.assembly != .idle

/-- The number a flag shows: 1 set, 0 clear. -/
def flag (b : Bool) : Nat := if b then 1 else 0

/-- `value` in a field of `width` bits that begins at bit `at`. -/
def field (value width start : Nat) : Nat := value % 2 ^ width * 2 ^ start

/-- The summary word (R178, R195). -/
def summaryWord (s : State) : Word :=
  BitVec.ofNat 32 <|
    field s.report.events.length 6 0 + field (flag s.report.lost) 1 6 + field (flag s.timebase.coarse) 1 7
      + field (flag s.arbiter.starved) 1 8 + field (flag s.meter.set) 1 9 + field (flag (isAssembling s)) 1 10
      + field (openMask s) 4 16 + field (fetchCount s) 5 24

/-- The code of a session state (R196). -/
def SessionState.code : SessionState → Nat
  | .closed => 0
  | .probing => 1
  | .steady => 2
  | .boundary => 3
  | .fallback => 4
  | .paused => 5

/-- The code of a fetch state (R196); 0 names a free slot. -/
def FetchState.code : FetchState → Nat
  | .pending => 1
  | .landing => 2
  | .stalled => 3

/-- The code of a recover or resume mode (R196). -/
def Mode.code : Mode → Nat
  | .hold => 0
  | .safe => 1
  | .probe => 2

/-- The code of a clip mode (R196). -/
def ClipMode.code : ClipMode → Nat
  | .clamp => 0
  | .stop => 1

/-- The code of a reason (R196). -/
def Reason.code : Reason → Nat
  | .none => 0
  | .throughput => 1
  | .panic => 2
  | .fallback => 3
  | .window => 4
  | .resume => 5
  | .recover => 6
  | .probe => 7

/-- The code of a refusal cause (R196). -/
def causeCode : Cause → BitVec 8
  | .badCheck => 0x01
  | .truncated => 0x02
  | .outOfSequence => 0x03
  | .badWrite => 0x04
  | .unknownKind => 0x05
  | .badLength => 0x06
  | .notIdle => 0x07
  | .noSession => 0x08
  | .sessionOpen => 0x09
  | .badLadder => 0x0A
  | .tableFull => 0x0B
  | .listFull => 0x0C
  | .overlap => 0x0D
  | .badRange => 0x0E
  | .badRung => 0x0F
  | .wrongState => 0x10
  | .noFetch => 0x11
  | .noReference => 0x12

/-- The mode a two-bit mode field names; the fourth encoding is taken as SAFE (R26, R196). -/
def modeOf (m : BitVec 2) : Mode :=
  match m.toNat with
  | 0 => .hold
  | 2 => .probe
  | _ => .safe

end Sys2Proof.Machine
end

