-- ==== Sys2Proof/Machine/Governor.lean ====
section
/-! DEFINITION. The session governor: publishing advice (R155 to R158), the steady decision (R159 to R168), the probe (R169 to R173),
fallback and recovery (R136 to R140), and what a media completion or a stall does in each state. -/

namespace Sys2Proof.Machine

/-! ### Rungs -/

/-- The bitrate of rung `i` of a ladder. -/
def rate (p : Programmed) (i : Nat) : Nat := p.ladder.getD i 0

/-- The highest rung from `low` to `high` with a bitrate at or below `x`, or `low` if none qualifies (R133, R160). -/
def highestRung (p : Programmed) (low high x : Nat) : Nat :=
  ((List.range (high + 1)).filter fun i => decide (low ≤ i) && decide (rate p i ≤ x)).getLast?.getD low

/-- A rung clamped into the window [lo, hi] (R139, R164). -/
def clampRung (p : Programmed) (rung : Nat) : Nat := clampTo p.lo p.hi rung

/-- The midpoint a probe advises (R169). -/
def probeMidpoint (a b : Nat) : Nat := a + (b - a + 1) / 2

/-! ### Publication -/

/-- Publishing `rung` with `reason` for session `i`, in the state the decision has left (R156, R157): SUPERSEDED if the
advice-taken flag is clear, the decision count raised, the flag cleared, and RUNG_CHANGE posted if the rung moved. -/
def publish (i : SessionId) (rung : Nat) (reason : Reason) (s : State) : State :=
  let x := s.session i
  let published := s.setSession i { x with
    advice :=
      { rung := rung, reason := reason, count := x.advice.count + 1, superseded := !x.taken,
        buffer := bufferLevel x.held, tick := s.timebase.tick, state := x.work.state }
    taken := false }
  if rung = x.advice.rung then published
  else
    post .rungChange (sessionField i) (BitVec.ofNat 8 reason.code) (BitVec.ofNat 32 x.advice.rung)
      (BitVec.ofNat 32 rung) published

/-- Posting PROBE_DONE for session `i` with its result rung and step count (R174). -/
def postProbeDone (i : SessionId) (rung steps : Nat) (s : State) : State :=
  post .probeDone (sessionField i) 0 (BitVec.ofNat 32 rung) (BitVec.ofNat 32 steps) s

/-! ### The steady decision -/

/-- The throughput candidate t (R160). -/
def throughputCandidate (x : Session) : Nat := highestRung x.prog x.prog.lo x.prog.hi x.share

/-- The full candidate t_full, over the whole ladder, from the share plus the headroom (R160). -/
def fullCandidate (headroom : Nat) (x : Session) : Nat :=
  highestRung x.prog 0 (x.prog.ladder.length - 1) (x.share + headroom)

/-- Steps two to five of the steady decision (R161 to R164): the target before the clamp, and the up streak. -/
def steadyTarget (coarse : Bool) (x : Session) : Nat × Nat :=
  let p := x.prog
  let level := bufferLevel x.held
  let t := throughputCandidate x
  let c := x.work.current
  let raised := min p.upCount (x.work.upStreak + 1)
  if level < p.panic then (p.lo, 0)
  else if c < t then
    if coarse || x.rebuffering || decide (level < p.comfort) then (c, 0)
    else if raised < p.upCount then (c, raised)
    else (c + 1, 0)
  else if t < c then
    if p.comfort ≤ level then (max t (c - 1), 0) else (t, 0)
  else (c, 0)

/-- The rung a steady decision advises: the target clamped into the window (R164). -/
def steadyRung (coarse : Bool) (x : Session) : Nat := clampRung x.prog (steadyTarget coarse x).1

/-- The three conditions of the clip step (R165). -/
def holdsBoundary (coarse : Bool) (headroom : Nat) (x : Session) : Bool :=
  x.prog.clip == .stop && decide (x.prog.hi < fullCandidate headroom x) && steadyRung coarse x == x.prog.hi

/-- The steady decision of session `i` (R159 to R167), `before` being its state before the decision (the pre-pause
state at a RESUME): it enters, keeps or leaves BOUNDARY, publishes, and posts BOUNDARY on entry. -/
def steadyDecision (i : SessionId) (before : SessionState) (reason : Reason) (s : State) : State :=
  let x := s.session i
  let rung := steadyRung s.timebase.coarse x
  if holdsBoundary s.timebase.coarse s.arbiter.headroom x then
    let decided := publish i rung reason
      (s.setWork i { x.work with state := .boundary, upStreak := x.prog.upCount })
    if before = .boundary then decided
    else
      post .boundary (sessionField i) 0 (BitVec.ofNat 32 x.prog.hi)
        (BitVec.ofNat 32 (fullCandidate s.arbiter.headroom x)) decided
  else
    publish i rung reason
      (s.setWork i { x.work with state := .steady, upStreak := (steadyTarget s.timebase.coarse x).2 })

/-- The reason of a steady decision at a media completion (R157). -/
def completionReason (x : Session) : Reason :=
  if bufferLevel x.held < x.prog.panic then .panic else .throughput

/-! ### The probe -/

/-- A probe of session `i` ends: STEADY at `rung` with streak 0, published with `reason`, then PROBE_DONE (R172). -/
def convergeProbe (i : SessionId) (rung : Nat) (reason : Reason) (s : State) : State :=
  let w := (s.session i).work
  postProbeDone i rung w.probeSteps (publish i rung reason (s.setWork i { w with state := .steady, upStreak := 0 }))

/-- A probe of session `i` starts over its window (R169), published with `reason`; with lo = hi it ends at once. -/
def startProbe (i : SessionId) (reason : Reason) (s : State) : State :=
  let x := s.session i
  let started := s.setWork i
    { x.work with state := .probing, a := x.prog.lo, b := x.prog.hi, probeSteps := 0, upStreak := 0 }
  if x.prog.lo = x.prog.hi then convergeProbe i x.prog.lo reason started
  else publish i (probeMidpoint x.prog.lo x.prog.hi) reason started

/-- A probe goes on with its bounds (R145, R172): converged if they have met, the midpoint published otherwise. -/
def continueProbe (i : SessionId) (reason : Reason) (s : State) : State :=
  let w := (s.session i).work
  if w.a = w.b then convergeProbe i w.a reason s
  else publish i (probeMidpoint w.a w.b) reason (s.setWork i { w with state := .probing })

/-- The fetch sample of a completed fetch (R61). -/
def fetchSample (size landing : Nat) : Nat := min Config.maxRate (size * 80 / max 1 landing)

/-- The completed fetch supports rung `f` (R170). -/
def supports (minProbe safety : Nat) (p : Programmed) (f landing sample : Nat) : Bool :=
  decide (landing < minProbe) || decide (rate p f ≤ sample * safety / 256)

/-- The probe bounds after a test of rung `f` (R171). -/
def narrowed (lo a b f : Nat) (supported : Bool) : Nat × Nat :=
  if supported then (max a f, max b (max a f))
  else if f = lo then (min a lo, lo)
  else (min a (min b (f - 1)), min b (f - 1))

/-- A probe step of session `i` (R170 to R172) for a fetch of `rung` with its landing ticks and sample. -/
def probeStep (i : SessionId) (rung landing sample : Nat) (s : State) : State :=
  let x := s.session i
  let f := clampRung x.prog rung
  let bounds := narrowed x.prog.lo x.work.a x.work.b f (supports s.minProbe s.meter.safety x.prog f landing sample)
  continueProbe i .probe
    (s.setWork i { x.work with a := bounds.1, b := bounds.2, probeSteps := bump x.work.probeSteps })

/-! ### Fallback and recovery -/

/-- Publishing lo for session `i` with `reason`. -/
def publishLo (i : SessionId) (reason : Reason) (s : State) : State := publish i (s.session i).prog.lo reason s

/-- Entry to FALLBACK at a stall (R136). -/
def enterFallback (i : SessionId) (s : State) : State :=
  let w := (s.session i).work
  publishLo i .fallback
    (s.setWork i { w with preFallback := w.current, state := .fallback, recovering := 0, upStreak := 0 })

/-- Posting RECOVERED for session `i`, with its recover mode and the rung it now advises (R139). -/
def postRecovered (i : SessionId) (s : State) : State :=
  post .recovered (sessionField i) (BitVec.ofNat 8 (s.session i).prog.recoverMode.code)
    (BitVec.ofNat 32 (s.session i).advice.rung) 0 s

/-- Recovery from FALLBACK under the recover mode (R139). -/
def recoverSession (i : SessionId) (s : State) : State :=
  let x := s.session i
  let steady := s.setWork i { x.work with state := .steady, upStreak := 0, recovering := 0 }
  postRecovered i <|
    match x.prog.recoverMode with
    | .hold => publish i (clampRung x.prog x.work.preFallback) .recover steady
    | .safe => publish i x.prog.lo .recover steady
    | .probe => startProbe i .recover steady

/-- A media completion in FALLBACK (R138): the recovery if it brings the counter to K, else lo again. -/
def fallbackCompletion (i : SessionId) (s : State) : State :=
  let x := s.session i
  let counted := min 15 (x.work.recovering + 1)
  let s := s.setWork i { x.work with recovering := counted }
  if 1 ≤ x.prog.autoRecover ∧ counted = x.prog.autoRecover then recoverSession i s else publishLo i .fallback s

/-- A media completion offered to the session governor (R62): a decision point by the session's state, none while
PAUSED (R143). -/
def offerCompletion (i : SessionId) (rung landing sample : Nat) (s : State) : State :=
  match (s.session i).work.state with
  | .probing => probeStep i rung landing sample s
  | .steady => steadyDecision i .steady (completionReason (s.session i)) s
  | .boundary => steadyDecision i .boundary (completionReason (s.session i)) s
  | .fallback => fallbackCompletion i s
  | .paused | .closed => s

/-- A panic crossing of session `i` (R86): a decision point in STEADY and BOUNDARY, nothing in the other states. -/
def panicCrossing (i : SessionId) (s : State) : State :=
  match (s.session i).work.state with
  | .steady => steadyDecision i .steady .panic s
  | .boundary => steadyDecision i .boundary .panic s
  | .probing | .fallback | .paused | .closed => s

/-- The consequence a stall has in a session state, as its code (R66, R196): 1 FALLBACK ENTERED, 2 ALREADY IN
FALLBACK, 3 PAUSED. No record belongs to a CLOSED session (R49); the code there is PAUSED's (log entry 18). -/
def stallConsequence : SessionState → Nat
  | .probing | .steady | .boundary => 1
  | .fallback => 2
  | .paused | .closed => 3

/-- What a stall does to its session, after STALL is posted (R136, R137, R143). -/
def takeStall (i : SessionId) (s : State) : State :=
  match (s.session i).work.state with
  | .probing | .steady | .boundary => enterFallback i s
  | .fallback => s.setWork i { (s.session i).work with recovering := 0 }
  | .paused | .closed => s

end Sys2Proof.Machine
end

