-- ==== Sys2Proof/Machine/ShareArbiter.lean ====
section
/-! DEFINITION. The share arbiter: dividing the link estimate among the active sessions (R116 to R126). -/

namespace Sys2Proof.Machine

/-- A session's floor r[lo] (R118). -/
def floorRate (x : Session) : Nat := rate x.prog x.prog.lo

/-- A session's cap r[hi] (R118). -/
def capRate (x : Session) : Nat := rate x.prog x.prog.hi

/-- The floor of an active session; a session that is not active claims nothing (R117). -/
def activeFloor (x : Session) : Nat := if isActive x then floorRate x else 0

/-- F, the sum of the floors of the active sessions, exact (R118). -/
def floorSum (s : State) : Nat := (s.sessions.toList.map activeFloor).sum

/-- Some session is active (R117). -/
def someActive (s : State) : Bool := s.sessions.toList.any isActive

/-- A session's claim before the first round: its weight and its demand, none for a session that is not active. -/
def claimOf (x : Session) : Claim :=
  if isActive x then { weight := x.prog.weight, remaining := capRate x - floorRate x, given := 0 }
  else { weight := 0, remaining := 0, given := 0 }

/-- W_u, the sum of the weights of the unsaturated sessions (R122). -/
def unsaturatedWeight (cs : List Claim) : Nat := ((cs.filter fun c => decide (0 < c.remaining)).map (·.weight)).sum

/-- One session's part of a round (R122): its gift floor(R × w / W_u), or its remaining demand if that is less. -/
def giveTo (r weights : Nat) (c : Claim) : Claim :=
  let gift := min (r * c.weight / weights) c.remaining
  { c with remaining := c.remaining - gift, given := c.given + gift }

/-- What has been given so far. -/
def givenSum (cs : List Claim) : Nat := (cs.map (·.given)).sum

/-- The rounds (R122, R123), from a remainder `r`: they end when it is 0, when every session is saturated, or after a
round that gave nothing. Each round that does not end them lowers `r`, so `fuel = r` is enough. The result is the final
remainder, which is the headroom, and the claims. -/
def rounds : Nat → Nat → List Claim → Nat × List Claim
  | 0, r, cs => (r, cs)
  | fuel + 1, r, cs =>
    if r = 0 ∨ cs.all (fun c => c.remaining == 0) then (r, cs)
    else
      let cs' := cs.map (giveTo r (unsaturatedWeight cs))
      let gave := givenSum cs' - givenSum cs
      if gave = 0 then (r, cs') else rounds fuel (r - gave) cs'

/-- The outcome of a recompute (R121, R122): headroom, STARVED, and what each session is given above its floor. -/
def divide (s : State) : Nat × Bool × List Nat :=
  match s.arbiter.received with
  | none => (0, false, [])
  | some l =>
    if !someActive s then (l, false, [])
    else if l ≤ floorSum s then (0, true, [])
    else
      let out := rounds (l - floorSum s) (l - floorSum s) (s.sessions.toList.map claimOf)
      (out.1, false, out.2.map (·.given))

/-- Every session takes its share: its floor if it is active, and what it was given (R117, R121, R123). -/
def setShares (given : List Nat) (s : State) : State :=
  { s with sessions := Vector.ofFn fun i =>
      { s.session i with share := activeFloor (s.session i) + given.getD i.val 0 } }

/-- Posting STARVED (R125): ON or OFF, the received L and F. -/
def postStarved (on : Bool) (s : State) : State :=
  post .starved noSession (if on then 1 else 0) (BitVec.ofNat 32 (s.arbiter.received.getD 0))
    (BitVec.ofNat 32 (floorSum s)) s

/-- A recompute (R119 to R125): the shares, the headroom and STARVED afresh from the received L and the sessions, with
STARVED posted if the flag moved. -/
def recompute (s : State) : State :=
  let d := divide s
  let divided := setShares d.2.2 { s with arbiter := { s.arbiter with headroom := d.1, starved := d.2.1 } }
  if d.2.1 = s.arbiter.starved then divided else postStarved d.2.1 divided

/-- The link meter hands its link estimate over (R108): a recompute if it differs from the one last received. -/
def handOverLink (s : State) : State :=
  if s.meter.link = s.arbiter.received then s
  else recompute { s with arbiter := { s.arbiter with received := s.meter.link } }

end Sys2Proof.Machine
end

