-- ==== Sys2Proof/Machine/LinkMeter.lean ====
section
/-! DEFINITION. The link meter: credits, busy ticks, windows, the two estimates, the link estimate and seeding (R96 to R115). -/

namespace Sys2Proof.Machine

/-- A credit of `n` bytes joins the window in progress (R99), held at the count's limit (R96). -/
def credit (n : Nat) (s : State) : State :=
  { s with meter := { s.meter with credited := min Config.creditLimit (s.meter.credited + n) } }

/-- The window in progress is abandoned and a new one starts with every count 0 (R98, R111). -/
def restartWindow (m : Meter) : Meter := { m with elapsed := 0, busy := 0, credited := 0 }

/-- The link estimate of the two estimates (R107). -/
def linkEstimate (m : Meter) : Nat := min m.vFast m.vSlow * m.safety / 4096

/-- The meter with its link estimate computed afresh (R107). -/
def withLink (m : Meter) : Meter := { m with link := some (linkEstimate m) }

/-- One update of an estimate `v` toward a sample `x` with shift count `k` (R104): v + floor((16x − v) / 2^k). -/
def smoothed (v x k : Nat) : Nat := ((v : Int) + (16 * (x : Int) - (v : Int)) / (2 : Int) ^ k).toNat

/-- The window in progress is discarded at its end (R100): busy for less than half its length. -/
def windowDiscarded (m : Meter) : Bool := decide (2 * m.busy < m.window)

/-- The window sample X (R100). -/
def windowSample (m : Meter) : Nat := min Config.maxRate (m.credited * 80 / m.busy)

/-- The meter after a sample (R103, R104, R106): UNSET, both estimates take it whole; SET, they move toward it, v_f held
still while COARSE is set. -/
def takeSample (coarse : Bool) (x : Nat) (m : Meter) : Meter :=
  if m.set then
    withLink { m with
      vFast := if coarse then m.vFast else smoothed m.vFast x m.kFast
      vSlow := smoothed m.vSlow x m.kSlow }
  else withLink { m with vFast := 16 * x, vSlow := 16 * x, set := true }

/-- The window ends (R98, R100): it is judged, and the next one starts. -/
def endWindow (s : State) : State :=
  let m := s.meter
  if windowDiscarded m then { s with meter := restartWindow m }
  else handOverLink { s with meter := restartWindow (takeSample s.timebase.coarse (windowSample m) m) }

/-- The link meter takes the tick it is owed (R97, R98): one elapsed tick, one busy tick if the landing set is not empty,
and the end of the window if that makes W. -/
def meterTick (s : State) : State :=
  let m := s.meter
  let counted := { s with meter := { m with
    tickOwed := false
    elapsed := m.elapsed + 1
    busy := if landingSetEmpty s then m.busy else m.busy + 1 } }
  if m.elapsed + 1 = m.window then endWindow counted else counted

/-- The meter takes the tick it is owed, if it is owed one. -/
def takeOwedTick (s : State) : State := if s.meter.tickOwed then meterTick s else s

/-- A seed, clamped (R26, R109). -/
def seedValue (seed : Word) : Nat := clampTo 1 Config.maxRate seed.toNat

/-- A seed given with an OPEN (R109): taken while the meter is UNSET, otherwise it leaves the meter as it is. -/
def takeSeed (seed : Nat) (m : Meter) : Meter :=
  if m.set then m else withLink { m with vFast := 16 * seed, vSlow := 16 * seed, set := true }

/-- WINDOW_END (R98): the link meter takes the tick that ends its window. With no tick owed no window can end. -/
def execWindowEnd (s : State) : Host.Outcome State Fault Refusal := .next (takeOwedTick s)

end Sys2Proof.Machine
end

