-- ==== Sys2Proof/Machine/HeldSegments.lean ====
section
/-! DEFINITION. The held-segment unit: completed segments (R80, R81), consumer reads (R82 to R89), underrun and refill. -/

namespace Sys2Proof.Machine

/-! ### Completed segments -/

/-- A segment joins a held list at its serial's place (R81): before the first segment that it is older than, at the end if
there is none. DESIGN CHOICE (log entry 26): R81 names this place only where R78's comparison orders the segments; where it does not
(two serials exactly 32,768 apart, or a list that spans more than half the serials), the place is still this one. -/
def insertHeld (h : HeldSegment) : List HeldSegment → List HeldSegment
  | [] => [h]
  | g :: rest => if older h.serial g.serial then h :: g :: rest else g :: insertHeld h rest

/-- Serial `q` is older than the consumer position (R77): no serial is older than NONE. -/
def behindPosition (position : Option Serial) (q : Serial) : Bool :=
  match position with
  | none => false
  | some p => older q p

/-- The refill test after a held insertion (R88). -/
def refillTest (i : SessionId) (s : State) : State :=
  let x := s.session i
  if x.rebuffering ∧ x.prog.comfort ≤ bufferLevel x.held then
    post .refilled (sessionField i) 0 (BitVec.ofNat 32 (bufferLevel x.held)) 0
      (s.setSession i { x with rebuffering := false })
  else s

/-- A completed segment of session `i` reaches the unit (R80, R81): declined with a skip if it is older than the consumer
position, declined if it was already read to its end, held otherwise. -/
def completeSegment (i : SessionId) (h : HeldSegment) (s : State) : State :=
  let x := s.session i
  if behindPosition x.position h.serial then s.setWork i { x.work with skips := bump x.work.skips }
  else if h.consumed = h.size then s
  else refillTest i (s.setSession i { x with held := insertHeld h x.held })

/-! ### Consumer reads -/

/-- A record is the MEDIA record of session `i` with serial `q` (R82). -/
def isRecordOf (i : SessionId) (q : Serial) (r : FetchRecord) : Bool :=
  r.session == i && r.serial == q && r.kind != .other

/-- The slot of the MEDIA record of session `i` with serial `q` (R82), the lowest if there are several. -/
def recordSlot (i : SessionId) (q : Serial) (s : State) : Option Slot :=
  (List.finRange 16).find? fun k => (s.slot k).any (isRecordOf i q)

/-- A held segment of the session bears serial `q` (R82). -/
def holdsSerial (q : Serial) (x : Session) : Bool := x.held.any fun h => h.serial == q

/-- The slot of the MEDIA record that a part matches by its session and serial, or none (R82). DESIGN CHOICE (log entry 28): where
two ranges of the session bear the serial, the part matches the one it was yielded for: the record of its own slot, or, having no slot,
a held segment. -/
def matchedSlot (part : ConsumerPart) (s : State) : Option Slot :=
  let lowest := recordSlot part.session part.serial s
  match part.slot with
  | some k => if (s.slot k).any (isRecordOf part.session part.serial) then some k else lowest
  | none => if holdsSerial part.serial (s.session part.session) then none else lowest

/-- Steps 2 and 3 of R83 on a session, for a range of serial `q`: older held segments are skipped, and the consumer
position is raised. -/
def skipTo (q : Serial) (x : Session) : Session :=
  { x with
    held := x.held.filter fun h => !older h.serial q
    work := { x.work with
      skips := min Config.countLimit (x.work.skips + x.held.countP fun h => older h.serial q) }
    position :=
      match x.position with
      | none => some q
      | some p => if older p q then some q else some p }

/-- Step 1 of R83 on a held list: the segment of serial `q` has its consumed HWM raised, never past its size (R76). DESIGN CHOICE
(log entry 28): where two segments bear the serial, both do. -/
def raiseHeld (q : Serial) (e : Nat) (held : List HeldSegment) : List HeldSegment :=
  held.map fun h => if h.serial = q then { h with consumed := min h.size (max h.consumed e) } else h

/-- The held segment of serial `q` has been read to its size (R83 step 4). DESIGN CHOICE (log entry 28): where two segments bear the
serial, either of them has. -/
def readToEnd (q : Serial) (held : List HeldSegment) : Bool :=
  held.any fun h => h.serial == q && h.consumed == h.size

/-- The matched range is the record `r` of slot `k` (R83 steps 1 to 3). -/
def readRecord (k : Slot) (r : FetchRecord) (e : Nat) (s : State) : State :=
  (s.setSlot k (some { r with consumed := min r.size (max r.consumed e) })).setSession r.session
    (skipTo r.serial (s.session r.session))

/-- What a read of the held segment of serial `q` to end offset `e` makes of its session (R83). DESIGN CHOICE (log entry 28): where two
segments bear the serial, step 4 removes both once either has been read to its size. -/
def readHeld (q : Serial) (e : Nat) (x : Session) : Session :=
  let y := skipTo q { x with held := raiseHeld q e x.held }
  if readToEnd q y.held then { y with held := y.held.filter fun h => h.serial != q } else y

/-- One part of a consumer read (R82, R83). A part that matches nothing, or whose range an order has freed, is
dropped. -/
def applyPart (part : ConsumerPart) (s : State) : State :=
  if part.standing then
    match (matchedSlot part s).bind fun k => (s.slot k).map fun r => (k, r) with
    | some kr => readRecord kr.1 kr.2 part.endOffset s
    | none =>
      let x := s.session part.session
      if holdsSerial part.serial x then
        s.setSession part.session (readHeld part.serial part.endOffset x)
      else s
  else s

/-- Part `part` removes a held segment of its session by consumption (R83 step 4), in state `s`. -/
def removesByConsumption (part : ConsumerPart) (s : State) : Bool :=
  part.standing && (matchedSlot part s).isNone &&
    readToEnd part.serial (raiseHeld part.serial part.endOffset (s.session part.session).held)

/-- The parts of one read applied in order (R82), and the sessions that had a segment removed by consumption. -/
def applyParts : List ConsumerPart → State → State × List SessionId
  | [], s => (s, [])
  | part :: rest, s =>
    let out := applyParts rest (applyPart part s)
    (out.1, if removesByConsumption part s then part.session :: out.2 else out.2)

/-- An underrun of session `i` (R87): counted, REBUFFERING set, UNDERRUN posted. -/
def underrun (i : SessionId) (s : State) : State :=
  let x := s.session i
  let n := bump x.work.rebuffers
  post .underrun (sessionField i) 0 (BitVec.ofNat 32 n) 0
    (s.setSession i { x with work := { x.work with rebuffers := n }, rebuffering := true })

/-- The judgements of R84 for session `i` once every part has been applied, from its buffer level `before` the read:
an underrun unless it is PAUSED (R89), then a panic crossing (R86). -/
def judgeRead (before : Nat) (consumed : Bool) (i : SessionId) (s : State) : State :=
  let x := s.session i
  let after := bufferLevel x.held
  let s := if consumed && x.held.isEmpty && x.work.state != .paused then underrun i s else s
  if x.prog.panic ≤ before ∧ after < x.prog.panic then panicCrossing i s else s

/-- A whole consumer read (R82 to R84): every part in order, then the judgement of each session its parts name, by
session number (log entry 14). -/
def takeConsumerRead (parts : List ConsumerPart) (s : State) : State :=
  let out := applyParts parts s
  (List.finRange 4).foldl
    (fun t i =>
      if parts.any (fun p => p.session == i) then
        judgeRead (bufferLevel (s.session i).held) (out.2.contains i) i t
      else t) out.1

/-- The held-segment unit takes the consumer read at place `n` of those in flight. -/
def takeConsumerReadAt (n : Nat) (s : State) : State :=
  match s.inFlight.consumerReads[n]? with
  | none => s
  | some parts =>
    takeConsumerRead parts
      { s with inFlight := { s.inFlight with consumerReads := s.inFlight.consumerReads.eraseIdx n } }

/-- CONSUMER_READ (R82). With no consumer read at that place there is none to take. -/
def execConsumerRead (n : Nat) (s : State) : Host.Outcome State Fault Refusal := .next (takeConsumerReadAt n s)

end Sys2Proof.Machine
end

