-- ==== Sys2Proof/Machine/FetchTracker.lean ====
section
/-! DEFINITION. The fetch tracker: announcing, arrivals, completion, stalls and revivals (R49 to R75). -/

namespace Sys2Proof.Machine

/-! ### Announcing a fetch -/

/-- The kind a FETCH announces (R33, R52): OTHER for a duration of 0, else MEDIA with the duration clamped. -/
def announcedKind (f : FetchFields) : FetchKind :=
  if f.duration.toNat = 0 then .other else .media f.rung.toNat (clampTo 100 20000 f.duration.toNat)

/-- The record a taken FETCH of session `i` fills (R52). -/
def announcedRecord (i : SessionId) (f : FetchFields) (s : State) : FetchRecord where
  session := i
  serial := (s.session i).nextSerial
  kind := announcedKind f
  base := f.base.toNat
  size := f.size.toNat
  landed := 0
  consumed := 0
  state := .pending
  announce := s.timebase.tick
  firstArrival := none
  lastArrival := none
  deadline := some (s.timebase.tick + BitVec.ofNat 32 s.tracker.tFirst)
  stalls := 0

/-- A consumer position that lags the next serial by 32,768 becomes NONE (R78). -/
def withinReach (next : Serial) (position : Option Serial) : Option Serial :=
  match position with
  | none => none
  | some p => if (next - p).toNat = 32768 then none else some p

/-- What a taken FETCH does to its session (R50, R53, R78): the next serial, the consumer position, and for MEDIA the
current rung and the override count. -/
def announceTo (kind : FetchKind) (x : Session) : Session :=
  let y := { x with nextSerial := x.nextSerial + 1, position := withinReach (x.nextSerial + 1) x.position }
  match kind with
  | .other => y
  | .media rung _ =>
    { y with work := { y.work with
        current := rung
        overrides := if rung = x.advice.rung then y.work.overrides else bump y.work.overrides } }

/-- The effect of a taken FETCH (R52, R53): the lowest free slot is filled, and named in the last order result. -/
def fetchEffect (i : SessionId) (f : FetchFields) (s : State) : State × Option Slot :=
  match (freeSlots s).head? with
  | none => (s, none)
  | some k =>
    ((s.setSlot k (some (announcedRecord i f s))).setSession i (announceTo (announcedKind f) (s.session i)), some k)

/-! ### Arrivals and completion -/

/-- A record after a counted arrival that does not complete it (R57 to R59). -/
def landedRecord (now : Tick) (tGap : Nat) (landed : Nat) (r : FetchRecord) : FetchRecord :=
  { r with
    landed := landed
    state := .landing
    firstArrival := some (r.firstArrival.getD now)
    lastArrival := some now
    deadline := some (now + BitVec.ofNat 32 tGap) }

/-- The landing ticks of a fetch that completes now (R61). -/
def landingTicks (now : Tick) (r : FetchRecord) : Tick := now - r.firstArrival.getD now

/-- Posting FETCH_DONE (R64): the slot, the size and the landing ticks. -/
def postFetchDone (k : Slot) (r : FetchRecord) (landing : Tick) (s : State) : State :=
  post .fetchDone (sessionField r.session) (BitVec.ofNat 8 k.val) (BitVec.ofNat 32 r.size) landing s

/-- The last steps of a MEDIA completion (R60 step 6, R62): the segment goes to the held-segment unit, and the completion
is offered to the session governor. An OTHER completion ends before them (R63). -/
def handOverCompletion (r : FetchRecord) (landing : Tick) (s : State) : State :=
  match r.kind with
  | .other => s
  | .media rung duration =>
    offerCompletion r.session rung landing.toNat (fetchSample r.size landing.toNat)
      (completeSegment r.session
        { serial := r.serial, base := r.base, size := r.size, duration := duration, consumed := r.consumed } s)

/-- A fetch completes (R60): its slot is freed, the consumer parts in flight for it pass to its segment (R82), FETCH_DONE is posted,
and a MEDIA segment is handed over. -/
def completeFetch (k : Slot) (r : FetchRecord) (s : State) : State :=
  let landing := landingTicks s.timebase.tick r
  handOverCompletion r landing (postFetchDone k r landing (passParts k (freeSlot k s)))

/-- REVIVE is posted for a record that was STALLED (R59). -/
def postRevive (k : Slot) (r : FetchRecord) (s : State) : State :=
  if r.state = .stalled then
    post .revive (sessionField r.session) 0 (BitVec.ofNat 32 k.val) (r.serial.setWidth 32) s
  else s

/-- The rise of a landed HWM is credited if the record's session is measuring (R56). -/
def creditRise (r : FetchRecord) (landed : Nat) (s : State) : State :=
  if isMeasuring (s.session r.session) then credit (landed - r.landed) s else s

/-- A counted arrival with end offset `e` for the record `r` of slot `k` (R55 to R60). The landed HWM never exceeds the
size (R55). -/
def countArrival (k : Slot) (e : Nat) (r : FetchRecord) (s : State) : State :=
  let landed := min r.size (max r.landed e)
  let s := creditRise r landed (postRevive k r s)
  if landed = r.size then completeFetch k { r with landed := landed } s
  else s.setSlot k (some (landedRecord s.timebase.tick s.tracker.tGap landed r))

/-- An arrival is taken (R54): counted if its record still stands, dropped otherwise. -/
def takeArrival (a : Arrival) (s : State) : State :=
  match s.slot a.slot with
  | some r => if a.standing then countArrival a.slot a.endOffset r s else s
  | none => s

/-- The fetch tracker takes the arrival at place `n` of those in flight (R54). -/
def takeArrivalAt (n : Nat) (s : State) : State :=
  match s.inFlight.arrivals[n]? with
  | none => s
  | some a => takeArrival a { s with inFlight := { s.inFlight with arrivals := s.inFlight.arrivals.eraseIdx n } }

/-! ### Stalls -/

/-- The code of STALL (R196): the consequence, and bit 4 set for GAP. -/
def stallCode (gap : Bool) (x : Session) : BitVec 8 :=
  BitVec.ofNat 8 (stallConsequence x.work.state + if gap then 0x10 else 0)

/-- The record of slot `k` stalls (R65, R66): it becomes STALLED, the session counts the stall, STALL is posted, and the
session governor carries out the consequence. -/
def stallRecord (gap : Bool) (k : Slot) (r : FetchRecord) (s : State) : State :=
  let x := s.session r.session
  let stalled := s.setSlot k (some { r with state := .stalled, deadline := none, stalls := bump r.stalls })
  let counted := stalled.setWork r.session { x.work with stalls := bump x.work.stalls }
  takeStall r.session
    (post .stall (sessionField r.session) (stallCode gap x) (BitVec.ofNat 32 k.val) (r.serial.setWidth 32) counted)

/-- The record of a slot has its deadline at the current tick in state `state` (R42): its expiry is due. -/
def expiryDue (state : FetchState) (s : State) (r : FetchRecord) : Bool :=
  r.state == state && r.deadline == some s.timebase.tick

/-- The first-byte deadline of slot `k` expires, if it is due (R65). -/
def expireFirstByte (k : Slot) (s : State) : State :=
  match s.slot k with
  | some r => if expiryDue .pending s r then stallRecord false k r s else s
  | none => s

/-- The gap deadline of slot `k` expires, if it is due (R65). -/
def expireGap (k : Slot) (s : State) : State :=
  match s.slot k with
  | some r => if expiryDue .landing s r then stallRecord true k r s else s
  | none => s

/-- Every expiry that the current tick reaches is taken, in slot order (R65; log entry 4). -/
def expireAll (s : State) : State := (List.finRange 16).foldl (fun s k => expireGap k (expireFirstByte k s)) s

/-! ### Withdrawing -/

/-- Session `i` has a STALLED record (R144). -/
def hasStalled (i : SessionId) (s : State) : Bool := (recordsOf s i).any fun r => r.state == .stalled

/-- The record of session `i` with this base (R35). -/
def matchesBase (i : SessionId) (base : Nat) (r : FetchRecord) : Bool := r.session == i && r.base == base

/-- The effect of a taken ABORT (R73). -/
def abortEffect (i : SessionId) (base : Nat) (s : State) : State := freeWhere (matchesBase i base) s

/-- Every record of session `i` is freed (R74), and no range of the session is tracked for a read in flight (R92). -/
def freeSession (i : SessionId) (s : State) : State :=
  dropParts (fun c => c.session == i) (freeWhere (fun r => r.session == i) s)

/-! ### Commands -/

/-- ARRIVAL (R54). With no arrival at that place there is none to take. -/
def execArrival (n : Nat) (s : State) : Host.Outcome State Fault Refusal := .next (takeArrivalAt n s)

/-- FIRST_BYTE_DEADLINE_EXPIRY (R65). A deadline the tick has not reached does not expire. -/
def execFirstByteDeadlineExpiry (k : Slot) (s : State) : Host.Outcome State Fault Refusal :=
  .next (expireFirstByte k s)

/-- GAP_DEADLINE_EXPIRY (R65). A deadline the tick has not reached does not expire. -/
def execGapDeadlineExpiry (k : Slot) (s : State) : Host.Outcome State Fault Refusal := .next (expireGap k s)

end Sys2Proof.Machine
end

