-- ==== Sys2Proof/Machine/Timebase.lean ====
section
/-! DEFINITION. The timebase and the reference monitor: ticks, their delivery, losing and regaining the reference (R39 to R48). -/

namespace Sys2Proof.Machine

/-- What the current tick still owes is taken: the expiries it reached, then the link meter's tick (R43; log entry 4). -/
def settleTick (s : State) : State := takeOwedTick (expireAll s)

/-- A tick occurs (R39, R41): the counter advances, the cycle count starts again, the new tick lasts the divider now held
plus one (R40), and the meter is owed the tick. -/
def advanceTick (s : State) : State :=
  { s with
    timebase := { s.timebase with
      tick := s.timebase.tick + 1
      cycleCount := 0
      tickLength := s.timebase.divider + 1 }
    meter := { s.meter with tickOwed := true } }

/-- A tick and its delivery (R41, R43). What an earlier tick still owes is taken first (log entry 5). -/
def tickOnce (d : Delivery) (s : State) : State :=
  let advanced := advanceTick (settleTick s)
  match d with
  | .atOnce => settleTick advanced
  | .deferred => advanced

/-- The presence of the reference becomes ABSENT (R44, R45): on the reference, the source becomes INTERNAL, COARSE is set
and posted, and the cycle count is abandoned; on the internal oscillator nothing more. -/
def loseReference (s : State) : State :=
  match s.timebase.presence, s.timebase.source with
  | .absent, _ => s
  | .present, .internal => { s with timebase := { s.timebase with presence := .absent } }
  | .present, .reference =>
    post .coarse noSession 0 s.timebase.tick 0
      { s with timebase := { s.timebase with
          presence := .absent, source := .internal, coarse := true, cycleCount := 0 } }

/-- A rising edge of the reference is seen by its monitor (R44): the presence is PRESENT, and the source is kept (R46). -/
def returnReference (s : State) : State := { s with timebase := { s.timebase with presence := .present } }

/-- The effect of a taken REACQUIRE (R47). -/
def reacquireEffect (s : State) : State :=
  match s.timebase.source with
  | .reference => s
  | .internal =>
    { s with timebase := { s.timebase with
        source := .reference, coarse := false, cycleCount := 0, tickLength := s.timebase.divider + 1 } }

/-- The clock source advances by one period of its own (R39, R46): a rising edge of the reference, which makes a tick when
the cycle count reaches the tick's length, or a period of the internal oscillator, which is a tick. This is what a step does
when no command waits (log entry 2). -/
def clockPeriod (s : State) : State :=
  match s.timebase.source, s.timebase.presence with
  | .internal, _ => tickOnce .atOnce s
  | .reference, .absent => s
  | .reference, .present =>
    if s.timebase.tickLength ≤ s.timebase.cycleCount + 1 then tickOnce .atOnce s
    else { s with timebase := { s.timebase with cycleCount := s.timebase.cycleCount + 1 } }

/-- TICK (R41). -/
def execTick (d : Delivery) (s : State) : Host.Outcome State Fault Refusal := .next (tickOnce d s)

/-- REFERENCE_LOSS (R45). -/
def execReferenceLoss (s : State) : Host.Outcome State Fault Refusal := .next (loseReference s)

/-- REFERENCE_RETURN (R44). -/
def execReferenceReturn (s : State) : Host.Outcome State Fault Refusal := .next (returnReference s)

end Sys2Proof.Machine
end

