-- ==== Sys2Proof/Machine/Operands.lean ====
section
/-! DEFINITION. The operand forms of the orders: the clamps of SETUP (R25), OPEN (R26) and WINDOW (R28). -/

namespace Sys2Proof.Machine

/-- The shift counts after their clamps and the adjustment that keeps k_f below k_s (R25). -/
def shiftCounts (kFast kSlow : BitVec 4) : Nat × Nat :=
  let f := clampTo 1 6 kFast.toNat
  let g := clampTo 1 6 kSlow.toNat
  if f < g then (f, g) else if f = 6 then (5, 6) else (f, f + 1)

/-- The order tag set SETUP leaves (R11): the one it carries, and the writer's tag. -/
def orderTagsWith (carried : TagSet) (writer : Tag) : TagSet := carried ||| (1#16 <<< writer.toNat)

/-- The event enable mask SETUP leaves (R185, R194): bit `k` for the kind of code `k`. -/
def enableMask (mask : BitVec 12) : BitVec 16 := 0#3 ++ mask ++ 0#1

/-- A timeout field in ms, clamped, in ticks (R25, R51). -/
def timeoutTicks (ms : BitVec 16) : Nat := clampTo 100 65535 ms.toNat * Config.ticksPerMs

/-- hi after its clamp against a ladder of `n` rungs (R26). -/
def clampedHi (n : Nat) (hi : BitVec 3) : Nat := if n ≤ hi.toNat then n - 1 else hi.toNat

/-- lo after its clamp against hi (R26). -/
def clampedLo (hi : Nat) (lo : BitVec 3) : Nat := if hi < lo.toNat then hi else lo.toNat

/-- A weight after its clamp (R26). -/
def clampedWeight (weight : BitVec 8) : Nat := max 1 weight.toNat

/-- The programmed half an OPEN writes (R26, R129). -/
def programmedOf (f : OpenFields) : Programmed where
  ladder := f.ladder.map (·.toNat)
  lo := clampedLo (clampedHi f.ladder.length f.hi) f.lo
  hi := clampedHi f.ladder.length f.hi
  weight := clampedWeight f.weight
  upCount := clampTo 1 8 f.upCount.toNat
  clip := if f.stop then .stop else .clamp
  recoverMode := modeOf f.recoverMode
  autoRecover := f.autoRecover.toNat
  resumeMode := modeOf f.resumeMode
  consumerTag := f.consumerTag
  panic := f.panic.toNat
  comfort := max f.panic.toNat f.comfort.toNat

/-- The programmed half after a WINDOW (R28, R129). -/
def windowedBy (f : WindowFields) (p : Programmed) : Programmed :=
  { p with
    lo := clampedLo (clampedHi p.ladder.length f.hi) f.lo
    hi := clampedHi p.ladder.length f.hi
    weight := clampedWeight f.weight }

end Sys2Proof.Machine
end

