-- ==== Sys2Proof/Machine/Orders.lean ====
section
/-! DEFINITION. The thirteen orders: validation (R21 to R23 and the content checks of each kind) and the effect of each order once
taken. -/

namespace Sys2Proof.Machine

/-! ### Validation -/

/-- BAD_LENGTH for an OPEN whose ladder is not 1 to 8 rungs (R22). The other kinds' lengths are their own. -/
def lengthCause : Order → Option Cause
  | .openSession f => if 1 ≤ f.ladder.length ∧ f.ladder.length ≤ 8 then none else some .badLength
  | .setup _ | .closeSession | .window _ | .pause _ | .resume | .recover | .continueRung | .fetch _ | .abort _ | .flush
  | .reset | .reacquire => none

/-- The kind needs a session (R21). -/
def needsSession : Order → Bool
  | .setup _ | .reset | .reacquire => false
  | .openSession _ | .closeSession | .window _ | .pause _ | .resume | .recover | .continueRung | .fetch _ | .abort _
  | .flush => true

/-- NO_SESSION for a session field above 3 in a kind that needs a session (R21, R23). -/
def numberCause (field : BitVec 4) (o : Order) : Option Cause :=
  if needsSession o && decide (3 < field.toNat) then some .noSession else none

/-- NO_SESSION while CLOSED, then WRONG_STATE unless the state is the one the order needs (R23). -/
def stateMust (ok : SessionState → Bool) (st : SessionState) : Option Cause :=
  if st = .closed then some .noSession else if ok st then none else some .wrongState

/-- The session-state stage (R23). -/
def stateCause (i : SessionId) (o : Order) (s : State) : Option Cause :=
  let st := (s.session i).work.state
  match o with
  | .setup _ => if s.sessions.toList.any isOpen then some .notIdle else none
  | .openSession _ => if st = .closed then none else some .sessionOpen
  | .closeSession | .window _ | .fetch _ | .abort _ | .flush => if st = .closed then some .noSession else none
  | .pause _ => stateMust (· != .paused) st
  | .resume => stateMust (· == .paused) st
  | .recover => stateMust (· == .fallback) st
  | .continueRung => stateMust (· == .boundary) st
  | .reset | .reacquire => none

/-- The bitrates are not strictly increasing, or one is 0 (R26). -/
def badLadder (ladder : List Nat) : Bool :=
  ladder.any (· == 0) || !((ladder.zip ladder.tail).all fun p => decide (p.1 < p.2))

/-- Two ranges share a byte (R34). Ranges that merely touch do not. -/
def rangesMeet (base size base' size' : Nat) : Bool := decide (base < base' + size') && decide (base' < base + size)

/-- BAD_RANGE of a FETCH (R34). -/
def badRange (base size page : Nat) : Bool :=
  base % 16 != 0 || size == 0 || decide (Config.maxFetchSize < size) || decide (Config.channelSize < base + size)
    || rangesMeet base size page Config.pageSize

/-- The range meets a tracked range, of any session (R34). -/
def meetsTracked (base size : Nat) (s : State) : Bool :=
  ((List.finRange 16).any fun k => (s.slot k).any fun r => rangesMeet base size r.base r.size)
    || ((List.finRange 4).any fun i => (s.session i).held.any fun h => rangesMeet base size h.base h.size)

/-- The session's records and held segments together (R34, R76). -/
def trackedCount (i : SessionId) (s : State) : Nat := (recordsOf s i).length + (s.session i).held.length

/-- The content checks of a FETCH, in their order (R34). -/
def fetchCause (i : SessionId) (f : FetchFields) (s : State) : Option Cause :=
  let base := f.base.toNat
  let size := f.size.toNat
  if badRange base size (pageBase s) then some .badRange
  else if f.duration.toNat ≠ 0 ∧ (s.session i).prog.ladder.length ≤ f.rung.toNat then some .badRung
  else if meetsTracked base size s then some .overlap
  else if (freeSlots s).isEmpty then some .tableFull
  else if Config.trackedLimit ≤ trackedCount i s then some .listFull
  else none

/-- The content stage (R21): each kind's own checks. -/
def contentCause (i : SessionId) (o : Order) (s : State) : Option Cause :=
  match o with
  | .openSession f => if badLadder (f.ladder.map (·.toNat)) then some .badLadder else none
  | .fetch f => fetchCause i f s
  | .abort base => if (recordsOf s i).any (matchesBase i base.toNat) then none else some .noFetch
  | .reacquire => if s.timebase.presence = .absent then some .noReference else none
  | .setup _ | .closeSession | .window _ | .pause _ | .resume | .recover | .continueRung | .flush | .reset => none

/-- The cause an order is refused with: the first stage of R21 that finds one. -/
def refusalCause (field : BitVec 4) (o : Order) (s : State) : Option Cause :=
  lengthCause o <|> numberCause field o <|> stateCause (sessionOf field) o s <|> contentCause (sessionOf field) o s

/-! ### Effects -/

/-- The effect of a taken SETUP by writer `tag` (R24, R25, R40, R51, R111, R185). -/
def setupEffect (tag : Tag) (f : SetupFields) (s : State) : State :=
  let ks := shiftCounts f.kFast f.kSlow
  let m := restartWindow { s.meter with
    window := clampTo 500 60000 f.window.toNat
    kFast := ks.1
    kSlow := ks.2
    safety := clampTo 128 256 f.safety.toNat }
  let set := { s with
    classifier := { s.classifier with arrivalTags := f.arrivalTags, orderTags := orderTagsWith f.orderTags tag }
    timebase := { s.timebase with divider := clampTo 99 65535 f.divider.toNat }
    tracker := { s.tracker with tFirst := timeoutTicks f.tFirst, tGap := timeoutTicks f.tGap }
    minProbe := min 1000 f.minProbe.toNat
    report := { s.report with mask := enableMask f.mask }
    meter := m }
  if m.set then handOverLink { set with meter := withLink m } else set

/-- The first advised rung of an OPEN (R133). -/
def firstRung (p : Programmed) (safety : Nat) (seed : Option Nat) : Nat :=
  match seed with
  | some v => highestRung p p.lo p.hi (v * safety / 256)
  | none => if p.lo < p.hi then probeMidpoint p.lo p.hi else p.lo

/-- The state an OPEN starts in (R133). -/
def firstState (p : Programmed) (seed : Option Nat) : SessionState :=
  if seed.isNone && decide (p.lo < p.hi) then .probing else .steady

/-- The session an OPEN leaves (R133, R134): both halves written and the first advice published. -/
def openedSession (p : Programmed) (safety : Nat) (seed : Option Nat) (now : Tick) : Session :=
  let rung := firstRung p safety seed
  { Session.closed with
    prog := p
    work := { Working.zero with
      state := firstState p seed
      prePause := .steady
      current := rung
      a := p.lo
      b := p.hi
      preFallback := p.lo }
    advice := { Advice.zero with rung := rung, tick := now, state := firstState p seed } }

/-- The link meter's step of an OPEN (R109, R134): while UNSET it takes the seed, and the arbiter receives the L it gives. -/
def seedMeter (seed : Option Nat) (s : State) : State :=
  match seed with
  | none => s
  | some v =>
    if s.meter.set then s
    else
      let m := takeSeed v s.meter
      { s with meter := m, arbiter := { s.arbiter with received := m.link } }

/-- The effect of a taken OPEN (R132 to R134): the seed, the recompute with the session active, the first advice, and
PROBE_DONE for a window of one rung with no seed. -/
def openEffect (i : SessionId) (f : OpenFields) (s : State) : State :=
  let p := programmedOf f
  let seed := f.seed.map seedValue
  let opened := recompute
    ((seedMeter seed s).setSession i (openedSession p s.meter.safety seed s.timebase.tick))
  if seed.isNone && p.lo == p.hi then postProbeDone i p.lo 0 opened else opened

/-- The effect of a taken CLOSE (R135): the session's records freed, everything of it zero, and a recompute. -/
def closeEffect (i : SessionId) (s : State) : State :=
  recompute ((freeSession i s).setSession i Session.closed)

/-- What WINDOW does in each state, after its recompute (R147, R148). -/
def takeWindow (i : SessionId) (s : State) : State :=
  let x := s.session i
  match x.work.state with
  | .probing => startProbe i .window s
  | .steady | .boundary => steadyDecision i .steady .window s
  | .fallback => publishLo i .window s
  | .paused =>
    publish i (clampRung x.prog x.advice.rung) .window
      (if x.work.prePause = .probing then s.setWork i { x.work with a := x.prog.lo, b := x.prog.hi } else s)
  | .closed => s

/-- The effect of a taken WINDOW (R147): the new window and weight, the recompute, then the session's own answer. -/
def windowEffect (i : SessionId) (f : WindowFields) (s : State) : State :=
  let x := s.session i
  takeWindow i (recompute (s.setSession i { x with prog := windowedBy f x.prog }))

/-- The effect of a taken PAUSE (R142). -/
def pauseEffect (i : SessionId) (measure : Bool) (s : State) : State :=
  let w := (s.session i).work
  recompute (s.setWork i { w with prePause := w.state, measure := measure, state := .paused })

/-- RESUME with a STALLED record (R144). -/
def resumeToFallback (i : SessionId) (s : State) : State :=
  let w := (s.session i).work
  publishLo i .fallback <| recompute <| s.setWork i { w with
    state := .fallback
    recovering := 0
    upStreak := 0
    preFallback := if w.prePause = .fallback then w.preFallback else w.current }

/-- RESUME in HOLD mode (R145), the session already back in its pre-pause state. -/
def resumeHeld (i : SessionId) (s : State) : State :=
  match (s.session i).work.state with
  | .probing => continueProbe i .resume s
  | .fallback => publishLo i .resume s
  | st => steadyDecision i st .resume s

/-- RESUME with no STALLED record, by the resume mode (R145). -/
def resumeByMode (i : SessionId) (s : State) : State :=
  let x := s.session i
  let w := x.work
  let left := if w.prePause = .fallback then 0 else w.recovering
  match x.prog.resumeMode with
  | .hold => resumeHeld i (recompute (s.setWork i { w with state := w.prePause }))
  | .safe => publishLo i .resume (recompute (s.setWork i { w with state := .steady, upStreak := 0, recovering := left }))
  | .probe => startProbe i .resume (recompute (s.setWork i { w with state := .probing, recovering := left }))

/-- The effect of a taken RESUME (R144, R145). -/
def resumeEffect (i : SessionId) (s : State) : State :=
  if hasStalled i s then resumeToFallback i s else resumeByMode i s

/-- The effect of a taken CONTINUE (R149). -/
def continueEffect (i : SessionId) (s : State) : State :=
  s.setWork i { (s.session i).work with state := .steady }

/-- The effect of a taken FLUSH (R74, R92). -/
def flushEffect (i : SessionId) (s : State) : State :=
  let t := freeSession i s
  t.setSession i { t.session i with held := [], position := none, rebuffering := false }

/-- The meter after a RESET (R112). -/
def resetMeter (m : Meter) : Meter := restartWindow { m with vFast := 0, vSlow := 0, set := false, link := none }

/-- The effect of a taken RESET (R37, R75, R94, R112, R128, R151, R193). -/
def resetEffect (s : State) : State :=
  let t := dropParts (fun _ => true) (freeWhere (fun _ => true) s)
  { t with
    meter := resetMeter t.meter
    arbiter := { headroom := 0, starved := false, received := none }
    sessions := Vector.replicate 4 Session.closed
    report := { t.report with events := [], lost := false, latch := .zero } }

/-- The effect of a taken order, with the slot a FETCH is given (R19, R20). -/
def orderEffect (tag : Tag) (i : SessionId) (o : Order) (s : State) : State × Option Slot :=
  match o with
  | .setup f => (setupEffect tag f s, none)
  | .openSession f => (openEffect i f s, none)
  | .closeSession => (closeEffect i s, none)
  | .window f => (windowEffect i f s, none)
  | .pause m => (pauseEffect i m s, none)
  | .resume => (resumeEffect i s, none)
  | .recover => (recoverSession i s, none)
  | .continueRung => (continueEffect i s, none)
  | .fetch f => fetchEffect i f s
  | .abort base => (abortEffect i base.toNat s, none)
  | .flush => (flushEffect i s, none)
  | .reset => (resetEffect s, none)
  | .reacquire => (reacquireEffect s, none)

end Sys2Proof.Machine
end

