-- ==== Sys2Proof/Machine/Assembler.lean ====
section
/-! DEFINITION. The order assembler: framing, checking, the last order result (R14 to R20), and the thirteen orders given whole. -/

namespace Sys2Proof.Machine

/-- The session field of ORDER_REFUSED (R20): the header's, when it is 0 to 3 and the kind is one that names a session. -/
def refusedSession (kind : BitVec 8) (session : BitVec 4) : BitVec 4 :=
  if session.toNat ≤ 3 ∧ 0x02 ≤ kind.toNat ∧ kind.toNat ≤ 0x0B then session else noSession

/-- A record ends (R19, R20): the assembler is IDLE, the last order result is written whole, and a cause posts
ORDER_REFUSED. -/
def finishRecord (kind : BitVec 8) (session : BitVec 4) (cause : Option Cause) (slot : Option Slot) (s : State) : State :=
  let count := s.assembler.last.count + 1
  let code := (cause.map causeCode).getD 0
  let ended := { s with assembler :=
    { assembly := .idle
      last :=
        { kind := kind, session := session, code := code
          slot := (slot.map fun k => BitVec.ofNat 8 k.val).getD 0xFF, count := count } } }
  if cause.isSome then
    post .orderRefused (refusedSession kind session) code (kind.setWidth 32) (count.setWidth 32) ended
  else ended

/-- The record under assembly, if there is one, is discarded with `cause` (R16, R17). -/
def discardRecord (cause : Cause) (s : State) : State :=
  match s.assembler.assembly with
  | .idle => s
  | .assembling header _ => finishRecord (headerKind header) (headerSession header) (some cause) none s

/-- An order that has passed its check word, the framing and the kind stage is refused or taken (R19, R21). -/
def judgeOrder (tag : Tag) (session : BitVec 4) (o : Order) (s : State) : State :=
  match refusalCause session o s with
  | some cause => finishRecord o.kind session (some cause) none s
  | none =>
    let out := orderEffect tag (sessionOf session) o s
    finishRecord o.kind session none out.2 out.1

/-- The assembler takes a check word written by `tag` (R15, R19, R21). -/
def takeCheckWord (tag : Tag) (header : Word) (body : List Word) (check : Word) (s : State) : State :=
  if check = checkWord header body then
    match decodeOrder (headerKind header) body with
    | .ok o => judgeOrder tag (headerSession header) o s
    | .error cause => finishRecord (headerKind header) (headerSession header) (some cause) none s
  else finishRecord (headerKind header) (headerSession header) (some .badCheck) none s

/-- A word starts a new record (R16): whole and at offset 0. -/
def OrderWord.isHeader (w : OrderWord) : Bool := w.whole && w.offset == 0

/-- The assembler takes a header word (R16). -/
def takeHeaderWord (w : OrderWord) (s : State) : State :=
  let t := discardRecord .truncated s
  { t with assembler := { t.assembler with assembly := .assembling w.data [] } }

/-- The assembler, ASSEMBLING, takes another word (R17). -/
def takeBodyWord (header : Word) (body : List Word) (w : OrderWord) (s : State) : State :=
  if !w.whole then discardRecord .badWrite s
  else if w.offset ≠ 4 * (body.length + 1) then discardRecord .outOfSequence s
  else if body.length < headerLength header then
    { s with assembler := { s.assembler with assembly := .assembling header (body ++ [w.data]) } }
  else takeCheckWord w.tag header body w.data s

/-- The assembler takes one word (R16, R17, R18). -/
def takeWord (w : OrderWord) (s : State) : State :=
  if w.isHeader then takeHeaderWord w s
  else
    match s.assembler.assembly with
    | .idle => s
    | .assembling header body => takeBodyWord header body w s

/-- The next order word in flight leaves the flight. -/
def dropOrderWord (s : State) : State :=
  { s with inFlight := { s.inFlight with orderWords := s.inFlight.orderWords.tail } }

/-- The assembler takes the next order word in flight, if it is of the kind the command names (log entry 6). -/
def takeNextWord (named : OrderWord → Assembly → Bool) (s : State) : State :=
  match s.inFlight.orderWords with
  | [] => s
  | w :: _ => if named w s.assembler.assembly then takeWord w (dropOrderWord s) else s

/-- An order given whole by `tag` (R14 to R21; log entry 7): a tag outside the order tag set gives none (R7); a record under
assembly is truncated by its header (R16). -/
def giveOrder (tag : Tag) (session : BitVec 4) (o : Order) (s : State) : State :=
  if inTagSet s.classifier.orderTags tag then judgeOrder tag session o (discardRecord .truncated s) else s

/-! ### Commands -/

/-- ORDER_HEADER_WORD (R16). -/
def execOrderHeaderWord (s : State) : Host.Outcome State Fault Refusal :=
  .next (takeNextWord (fun w _ => w.isHeader) s)

/-- ORDER_BODY_WORD (R17). -/
def execOrderBodyWord (s : State) : Host.Outcome State Fault Refusal :=
  .next (takeNextWord (fun w a => !w.isHeader && a != .idle) s)

/-- ORDER_STRAY_WORD (R18). -/
def execOrderStrayWord (s : State) : Host.Outcome State Fault Refusal :=
  .next (takeNextWord (fun w a => !w.isHeader && a == .idle) s)

/-- SETUP (R24). -/
def execSetupOrder (tag : Tag) (session : BitVec 4) (f : SetupFields) (s : State) : Host.Outcome State Fault Refusal :=
  .next (giveOrder tag session (.setup f) s)

/-- OPEN (R26, R132). -/
def execOpenOrder (tag : Tag) (session : BitVec 4) (f : OpenFields) (s : State) : Host.Outcome State Fault Refusal :=
  .next (giveOrder tag session (.openSession f) s)

/-- CLOSE (R27, R135). -/
def execCloseOrder (tag : Tag) (session : BitVec 4) (s : State) : Host.Outcome State Fault Refusal :=
  .next (giveOrder tag session .closeSession s)

/-- WINDOW (R28, R147). -/
def execWindowOrder (tag : Tag) (session : BitVec 4) (f : WindowFields) (s : State) :
    Host.Outcome State Fault Refusal :=
  .next (giveOrder tag session (.window f) s)

/-- PAUSE (R29, R142). -/
def execPauseOrder (tag : Tag) (session : BitVec 4) (measure : Bool) (s : State) : Host.Outcome State Fault Refusal :=
  .next (giveOrder tag session (.pause measure) s)

/-- RESUME (R30, R145). -/
def execResumeOrder (tag : Tag) (session : BitVec 4) (s : State) : Host.Outcome State Fault Refusal :=
  .next (giveOrder tag session .resume s)

/-- RECOVER (R31, R140). -/
def execRecoverOrder (tag : Tag) (session : BitVec 4) (s : State) : Host.Outcome State Fault Refusal :=
  .next (giveOrder tag session .recover s)

/-- CONTINUE (R32, R149). -/
def execContinueOrder (tag : Tag) (session : BitVec 4) (s : State) : Host.Outcome State Fault Refusal :=
  .next (giveOrder tag session .continueRung s)

/-- FETCH (R33, R52). -/
def execFetchOrder (tag : Tag) (session : BitVec 4) (f : FetchFields) (s : State) : Host.Outcome State Fault Refusal :=
  .next (giveOrder tag session (.fetch f) s)

/-- ABORT (R35, R73). -/
def execAbortOrder (tag : Tag) (session : BitVec 4) (base : BitVec 36) (s : State) :
    Host.Outcome State Fault Refusal :=
  .next (giveOrder tag session (.abort base) s)

/-- FLUSH (R36). -/
def execFlushOrder (tag : Tag) (session : BitVec 4) (s : State) : Host.Outcome State Fault Refusal :=
  .next (giveOrder tag session .flush s)

/-- RESET (R37). -/
def execResetOrder (tag : Tag) (session : BitVec 4) (s : State) : Host.Outcome State Fault Refusal :=
  .next (giveOrder tag session .reset s)

/-- REACQUIRE (R38, R47). -/
def execReacquireOrder (tag : Tag) (session : BitVec 4) (s : State) : Host.Outcome State Fault Refusal :=
  .next (giveOrder tag session .reacquire s)

end Sys2Proof.Machine
end

