-- ==== Sys2Proof/Machine/Reports.lean ====
section
/-! DEFINITION. The report unit: every word of the report aperture (R178 to R183, R195, R196), the overlay (R5), and the effects of
a report read (R176, R182, R186 to R189). -/

namespace Sys2Proof.Machine

/-! ### The words of the report aperture, as numbers -/

/-- A figure shown saturated in a field of `width` bits (R195). -/
def shown (value width : Nat) : Nat := min value (2 ^ width - 1)

/-- Word `k` of the status block after the summary word (R179, R195). -/
def statusWord (s : State) (k : Nat) : Nat :=
  let r := s.assembler.last
  let serial := fun (i : SessionId) => (s.session i).nextSerial.toNat
  match k with
  | 1 => field r.kind.toNat 8 0 + field r.session.toNat 4 8 + field r.code.toNat 8 16 + field r.slot.toNat 8 24
  | 2 => field r.count.toNat 16 0
  | 3 => s.timebase.tick.toNat
  | 4 =>
    field (flag (s.timebase.source == .internal)) 1 0 + field (flag (s.timebase.presence == .absent)) 1 1
      + field s.classifier.straps.toNat 12 16
  | 5 => field (serial 0) 16 0 + field (serial 1) 16 16
  | 6 => field (serial 2) 16 0 + field (serial 3) 16 16
  | 8 => field s.timebase.divider 16 0 + field s.meter.window 16 16
  | 9 => field s.meter.safety 16 0 + field s.minProbe 16 16
  | 10 =>
    field (s.tracker.tFirst / Config.ticksPerMs) 16 0 + field (s.tracker.tGap / Config.ticksPerMs) 16 16
  | 11 => field s.report.mask.toNat 16 0 + field s.meter.kFast 4 16 + field s.meter.kSlow 4 20
  | _ => 0

/-- Word `j` of an event record (R195). -/
def eventWord (e : EventRecord) (j : Nat) : Nat :=
  match j with
  | 0 => field e.kind.code.toNat 8 0 + field e.session.toNat 4 8 + field e.code.toNat 8 16
  | 1 => e.stamp.toNat
  | 2 => e.valueA.toNat
  | 3 => e.valueB.toNat
  | _ => 0

/-- The record the event window shows: to a popping read the head of the queue, or zeros while it is empty (R186, R187);
to any other read the event latch (R188). -/
def windowRecord (pops : Bool) (s : State) : EventRecord :=
  if pops then s.report.events.headD .zero else s.report.latch

/-- Word `k` of the link block (R113, R180, R195). -/
def linkWord (s : State) (k : Nat) : Nat :=
  let m := s.meter
  match k with
  | 0 => m.link.getD 0
  | 1 => m.vFast / 16
  | 2 => m.vSlow / 16
  | 3 => s.arbiter.headroom
  | 4 => flag m.set
  | 5 => field m.elapsed 16 0 + field m.busy 16 16
  | 6 => shown m.credited 32
  | _ => 0

/-- Word `k` of an advice slot after the summary word (R181, R195); zero while the session is CLOSED. -/
def adviceWord (x : Session) (k : Nat) : Nat :=
  if isOpen x then
    match k with
    | 1 =>
      field x.advice.rung 3 0 + field x.advice.reason.code 4 8 + field x.advice.state.code 3 16
        + field (flag x.advice.superseded) 1 24 + field (flag x.taken) 1 25
    | 2 => x.advice.count.toNat
    | 3 => x.advice.buffer
    | 4 => x.advice.tick.toNat
    | 5 => x.share
    | _ => 0
  else 0

/-- Word `k` of the snapshot of an open session (R95, R152, R183, R195). -/
def openSnapshotWord (x : Session) (k : Nat) : Nat :=
  let p := x.prog
  let w := x.work
  match k with
  | 0 =>
    field p.ladder.length 4 0 + field p.clip.code 1 5 + field p.recoverMode.code 2 6 + field p.lo 3 8 + field p.hi 3 12
      + field p.weight 8 16 + field p.upCount 4 24 + field p.resumeMode.code 2 28
  | 1 => field p.panic 16 0 + field p.consumerTag.toNat 4 16 + field p.autoRecover 4 20
  | 2 => field p.comfort 16 0
  | 3 => 0
  | 12 =>
    field w.state.code 3 0 + field w.prePause.code 3 4 + field (flag w.measure) 1 7 + field w.current 3 8
      + field x.advice.rung 3 12 + field w.a 3 16 + field w.b 3 20 + field w.upStreak 4 24 + field w.preFallback 3 28
  | 13 => field w.recovering 4 0 + field w.probeSteps 16 16
  | 14 => field x.advice.count.toNat 16 0 + field w.rebuffers 16 16
  | 15 => field w.stalls 16 0 + field w.skips 16 16
  | 16 => field w.overrides 16 0
  | 17 => x.share
  | 18 =>
    field x.held.length 5 0 + field (flag x.rebuffering) 1 8 + field (flag x.position.isNone) 1 9
      + field (x.position.getD 0).toNat 16 16
  | 19 => bufferLevel x.held
  | 20 =>
    match x.held with
    | [] => 0
    | h :: _ => field h.serial.toNat 16 0 + field h.duration 16 16
  | 21 =>
    match x.held with
    | [] => 0
    | h :: _ => h.consumed
  | k => if k < 12 then field (p.ladder.getD (k - 4) 0) 24 0 else 0

/-- Word `k` of a session snapshot: zeros while the session is CLOSED (R183). -/
def snapshotWord (x : Session) (k : Nat) : Nat := if isOpen x then openSnapshotWord x k else 0

/-- The rung and the duration of a record as the fetch view shows them, 0 for OTHER. -/
def mediaFields : FetchKind → Nat × Nat
  | .media rung duration => (rung, duration)
  | .other => (0, 0)

/-- The first-arrival interval of a record (R196), 0 while the first-arrival tick is absent. -/
def arrivalInterval (r : FetchRecord) : Nat :=
  match r.firstArrival with
  | none => 0
  | some t => (t - r.announce).toNat

/-- Word `k` of the fetch view entry of a record (R71, R195, R196). -/
def recordWord (r : FetchRecord) (k : Nat) : Nat :=
  match k with
  | 0 =>
    field r.state.code 2 0 + field (flag (r.kind != .other)) 1 2 + field (flag r.firstArrival.isSome) 1 3
      + field (flag r.lastArrival.isSome) 1 4 + field r.session.val 2 5 + field (shown (arrivalInterval r) 24) 24 8
  | 1 => field r.serial.toNat 16 0 + field (mediaFields r.kind).2 15 16
  | 2 => r.base / 16
  | 3 => field r.size 27 0 + field (mediaFields r.kind).1 3 28
  | 4 => field r.landed 27 0 + field (shown r.stalls 5) 5 27
  | 5 => field r.consumed 27 0
  | 6 => r.announce.toNat
  | 7 => (r.lastArrival.getD 0).toNat
  | _ => 0

/-- Word `k` of a fetch view entry: zeros for a free slot (R71). -/
def fetchViewWord (s : State) (slot : Slot) (k : Nat) : Nat :=
  match s.slot slot with
  | none => 0
  | some r => recordWord r k

/-- The word at page offset `o`, a multiple of 4, of the report aperture (R178 to R183, R186 to R188, R195), as a read that
pops or does not pop sees it. -/
def reportWord (pops : Bool) (s : State) (o : Nat) : Word :=
  let k := o % 32 / 4
  if o < 0x240 then (if o = 0x200 then summaryWord s else BitVec.ofNat 32 (statusWord s ((o - 0x200) / 4)))
  else if o < 0x260 then
    (if k = 0 then summaryWord s
      else if k < 4 then 0 else BitVec.ofNat 32 (eventWord (windowRecord pops s) (k - 4)))
  else if o < 0x280 then BitVec.ofNat 32 (linkWord s k)
  else if o < 0x300 then
    (if k = 0 then summaryWord s
      else BitVec.ofNat 32 (adviceWord (s.session (Fin.ofNat 4 ((o - 0x280) / 32))) k))
  else if o < 0x500 then
    BitVec.ofNat 32 (snapshotWord (s.session (Fin.ofNat 4 ((o - 0x300) / 128))) (o % 128 / 4))
  else if o < 0x700 then BitVec.ofNat 32 (fetchViewWord s (Fin.ofNat 16 ((o - 0x500) / 32)) k)
  else 0

/-- The byte at page offset `o` of the report aperture: the words are little-endian (00_scope, Conventions). -/
def reportByte (pops : Bool) (s : State) (o : Nat) : Byte :=
  (reportWord pops s (o / 4 * 4)).extractLsb' (8 * (o % 4)) 8

/-! ### Reads -/

/-- The address lies in the report aperture (R4). -/
def inReportAperture (base a : Nat) : Bool :=
  decide (base + Config.orderApertureSize ≤ a) && decide (a < base + Config.pageSize)

/-- The span `address`, `length` shares a byte with the `n` bytes from `first` (R9, R182, R186). -/
def spanTouches (address length first n : Nat) : Bool := decide (address < first + n) && decide (first < address + length)

/-- The span covers page offset 0x240: the read pops (R186). -/
def readPops (s : State) (address length : Nat) : Bool :=
  spanTouches address length (pageBase s + Config.popOffset) 1

/-- The data a read returns upstream (R5, R176): overlay inside the report aperture, memory's bytes elsewhere, both from the
state as the read passes. -/
def overlay (s : State) (address : Nat) (memory : List Byte) : List Byte :=
  memory.mapIdx fun j m =>
    if inReportAperture (pageBase s) (address + j) then
      reportByte (readPops s address memory.length) s (address + j - pageBase s)
    else m

/-- A pop (R186, R187, R189): the head record moves into the event latch, and LOST clears if the queue is then empty. An
empty pop has no effect. -/
def popEvent (s : State) : State :=
  match s.report.events with
  | [] => s
  | e :: rest =>
    { s with report := { s.report with events := rest, latch := e, lost := s.report.lost && !rest.isEmpty } }

/-- The span overlaps the advice slot of session `i` (R182). -/
def overlapsSlot (s : State) (address length : Nat) (i : SessionId) : Bool :=
  spanTouches address length (pageBase s + 0x280 + 32 * i.val) 32

/-- The advice-taken flag of each open session whose slot the span overlaps is set (R182). -/
def markTaken (address length : Nat) (s : State) : State :=
  { s with sessions := Vector.ofFn fun i =>
      { s.session i with taken := (s.session i).taken || (isOpen (s.session i) && overlapsSlot s address length i) } }

/-- The effects of a report read, each once (R176). -/
def readEffects (address length : Nat) (s : State) : State :=
  markTaken address length (if readPops s address length then popEvent s else s)

end Sys2Proof.Machine
end

