-- ==== Sys2Proof/Machine/Classifier.lean ====
section
/-! DEFINITION. The path classifier: what passes it, the observations each transaction yields (R1 to R13), and the commands that are
transactions. -/

namespace Sys2Proof.Machine

/-! ### Passing through -/

/-- The transaction as it leaves the downstream port (R2). -/
def requestOf (t : Transaction) : Request where
  address := t.address
  direction := t.direction
  tag := t.tag
  enables := t.lanes.map (·.enabled)
  data := match t.direction with
    | .read => []
    | .write => t.lanes.map (·.data)

/-- The response upstream, with `data` for a read (R2, R5, R13). -/
def responseOf (t : Transaction) (data : List Byte) : Response where
  data := match t.direction with
    | .read => data
    | .write => []
  error := t.error

/-- A transaction leaves downstream and its response returns upstream (R2). -/
def forward (t : Transaction) (data : List Byte) (p : Ports) : Ports where
  downstream := p.downstream ++ [requestOf t]
  upstream := p.upstream ++ [responseOf t data]

/-! ### Order writes -/

/-- The lane of a transaction at byte address `a`, if its span covers it. -/
def laneAt (t : Transaction) (a : Nat) : Option Lane :=
  if t.address.toNat ≤ a then t.lanes[a - t.address.toNat]? else none

/-- The byte at address `a` is enabled. -/
def enabledAt (t : Transaction) (a : Nat) : Bool := ((laneAt t a).map (·.enabled)).getD false

/-- The data of the enabled byte at address `a`, zero if it is not enabled. -/
def dataAt (t : Transaction) (a : Nat) : Byte :=
  match laneAt t a with
  | some l => if l.enabled then l.data else 0
  | none => 0

/-- The word of the order aperture at page offset `o` as a write touches it (R7, R16), or none if it does not. -/
def touchedWord (base : Nat) (t : Transaction) (o : Nat) : Option OrderWord :=
  let e := fun j => enabledAt t (base + o + j)
  let d := fun j => dataAt t (base + o + j)
  if e 0 || e 1 || e 2 || e 3 then
    some { tag := t.tag, offset := o, whole := e 0 && e 1 && e 2 && e 3, data := d 3 ++ d 2 ++ d 1 ++ d 0 }
  else none

/-- The order write a write yields, as its touched words in ascending order (R7, R16). -/
def orderWrite (s : State) (t : Transaction) : List OrderWord :=
  if inTagSet s.classifier.orderTags t.tag then
    (List.range (Config.orderApertureSize / 4)).filterMap fun k => touchedWord (pageBase s) t (4 * k)
  else []

/-! ### Arrival writes -/

/-- The offsets from `base` of the enabled bytes inside a range of `size` bytes, ascending (R8). -/
def enabledOffsets (t : Transaction) (base size : Nat) : List Nat :=
  (List.range t.lanes.length).filterMap fun j =>
    let a := t.address.toNat + j
    if enabledAt t a && decide (base ≤ a) && decide (a < base + size) then some (a - base) else none

/-- The arrival write a write yields for the record in slot `k` (R8). -/
def arrivalFor (t : Transaction) (k : Slot) (r : FetchRecord) : Option Arrival :=
  match enabledOffsets t r.base r.size with
  | [] => none
  | o :: rest => some { slot := k, first := o, endOffset := rest.getLastD o + 1, standing := true }

/-- The arrival writes a write yields, by slot (R8). -/
def arrivalWrites (s : State) (t : Transaction) : List Arrival :=
  if inTagSet s.classifier.arrivalTags t.tag then
    (List.finRange 16).filterMap fun k => (s.slot k).bind (arrivalFor t k)
  else []

/-! ### Consumer reads -/

/-- The part a read yields for a range, with the range's base to order it by (R9). -/
def partFor (t : Transaction) (i : SessionId) (slot : Option Slot) (serial : Serial) (base size : Nat) :
    Option (Nat × ConsumerPart) :=
  let a := t.address.toNat
  let n := t.lanes.length
  if spanTouches a n base size then
    some (base, { session := i, slot := slot, serial := serial, endOffset := min (a + n) (base + size) - base, standing := true })
  else none

/-- The read's tag is the consumer tag of session `i`, which is open (R9). -/
def readBy (s : State) (t : Transaction) (i : SessionId) : Bool :=
  isOpen (s.session i) && (s.session i).prog.consumerTag == t.tag

/-- The parts a read yields for fetch-table records, all MEDIA (R9). -/
def tableParts (s : State) (t : Transaction) : List (Nat × ConsumerPart) :=
  (List.finRange 16).filterMap fun k =>
    match s.slot k with
    | some r =>
      if readBy s t r.session && r.kind != .other then partFor t r.session (some k) r.serial r.base r.size else none
    | none => none

/-- The parts a read yields for held segments (R9). -/
def heldParts (s : State) (t : Transaction) : List (Nat × ConsumerPart) :=
  (List.finRange 4).flatMap fun i =>
    if readBy s t i then (s.session i).held.filterMap fun h => partFor t i none h.serial h.base h.size else []

/-- A part takes its place in ascending address order (R9). -/
def insertPart (p : Nat × ConsumerPart) : List (Nat × ConsumerPart) → List (Nat × ConsumerPart)
  | [] => [p]
  | q :: rest => if p.1 < q.1 then p :: q :: rest else q :: insertPart p rest

/-- The consumer read a read yields: its parts in ascending address order, none if it touches no tracked range (R9). -/
def consumerParts (s : State) (t : Transaction) : List ConsumerPart :=
  ((tableParts s t ++ heldParts s t).foldr insertPart []).map (·.2)

/-! ### A transaction passes -/

/-- The first `n` order words in flight are taken, in order, each against the state the one before it left (R17). -/
def takeOrderWords : Nat → State → State
  | 0, s => s
  | n + 1, s => takeOrderWords n (takeNextWord (fun _ _ => true) s)

/-- The last `n` arrivals in flight are taken, the first of them first. -/
def takeLastArrivals : Nat → State → State
  | 0, s => s
  | n + 1, s => takeLastArrivals n (takeArrivalAt (s.inFlight.arrivals.length - (n + 1)) s)

/-- A write passes: it yields its order write and its arrival writes (R6), which join those in flight. -/
def yieldWrite (t : Transaction) (s : State) : State :=
  { s with inFlight := { s.inFlight with
      orderWords := s.inFlight.orderWords ++ orderWrite s t
      arrivals := s.inFlight.arrivals ++ arrivalWrites s t } }

/-- A read passes: it yields its consumer read, if it has parts (R6), which joins those in flight. -/
def yieldRead (t : Transaction) (s : State) : State :=
  match consumerParts s t with
  | [] => s
  | parts => { s with inFlight := { s.inFlight with consumerReads := s.inFlight.consumerReads ++ [parts] } }

/-- A write passes the path classifier (R6 to R8). Taken at once, the order words are taken first, then the arrivals by
slot (log entry 4). -/
def passWrite (d : Delivery) (t : Transaction) (s : State) : State :=
  let yielded := yieldWrite t s
  match d with
  | .deferred => yielded
  | .atOnce => takeLastArrivals (arrivalWrites s t).length
      (takeOrderWords yielded.inFlight.orderWords.length yielded)

/-- A read passes the path classifier (R6, R9, R10, R176): its consumer read is yielded, and the report read has its
effects. -/
def passRead (d : Delivery) (t : Transaction) (s : State) : State :=
  let passed := readEffects t.address.toNat t.lanes.length (yieldRead t s)
  match d, consumerParts s t with
  | .atOnce, _ :: _ => takeConsumerReadAt s.inFlight.consumerReads.length passed
  | _, _ => passed

/-- A transaction passes the path classifier (R2, R5, R6): it is forwarded, its response carries the overlay taken from the
state before any effect of its own, and it yields its observations. DESIGN CHOICE (log entry 27, unsafe): so does the response of a
read that passed before the reset input was asserted, were it to return meanwhile; R12 does not say. -/
def passTransaction (t : Transaction) (d : Delivery) (s : State) : State :=
  let data := overlay s t.address.toNat (t.lanes.map (·.data))
  let forwarded := { s with ports := forward t data s.ports }
  match t.direction with
  | .write => passWrite d t forwarded
  | .read => passRead d t forwarded

/-- A read of the governor page from `offset`, answered by memory with `memory`. -/
def pageRead (s : State) (tag : Tag) (offset : BitVec 12) (memory : List Byte) (error : Bool) : Transaction where
  address := BitVec.ofNat 36 (pageBase s + offset.toNat)
  direction := .read
  tag := tag
  lanes := memory.map fun m => { enabled := true, data := m }
  error := error

/-- While the reset input is asserted a transaction is forwarded and its response returned without overlay (R12). -/
def forwardDuringReset (p : Ports) (t : Transaction) : Ports := forward t (t.lanes.map (·.data)) p

/-- Power-on reset (R12): every block at its power-on value, the straps sampled at the release (R3). What passed the ports
before and meanwhile has left the part; the waiting commands are kept. -/
def powerOn (straps : BitVec 12) (during : List Transaction) (s : State) : State :=
  { State.reset with
    classifier := { State.reset.classifier with straps := straps }
    ports := during.foldl forwardDuringReset s.ports
    pending := s.pending }

/-! ### Commands -/

/-- POWER_ON_RESET (R12). -/
def execPowerOnReset (straps : BitVec 12) (during : List Transaction) (s : State) :
    Host.Outcome State Fault Refusal :=
  .next (powerOn straps during s)

/-- TRANSACTION (R6). -/
def execTransaction (t : Transaction) (d : Delivery) (s : State) : Host.Outcome State Fault Refusal :=
  .next (passTransaction t d s)

/-- EVENT_POP (R186, R187): a read of the page that covers offset 0x240. -/
def execEventPop (tag : Tag) (offset : BitVec 12) (memory : List Byte) (error : Bool) (s : State) :
    Host.Outcome State Fault Refusal :=
  .next (passTransaction (pageRead s tag offset memory error) .atOnce s)

/-- ADVICE_SLOT_READ (R182): a read of the page that overlaps an advice slot. -/
def execAdviceSlotRead (tag : Tag) (offset : BitVec 12) (memory : List Byte) (error : Bool) (s : State) :
    Host.Outcome State Fault Refusal :=
  .next (passTransaction (pageRead s tag offset memory error) .atOnce s)

end Sys2Proof.Machine
end

