-- ==== Sys2Proof/Machine/Dispatch.lean ====
section
/-! DEFINITION. `exec`: one arm per command, each a direct call of its meaning. -/

namespace Sys2Proof.Machine

def exec (i : Instr) (s : State) : Host.Outcome State Fault Refusal :=
  match i with
  | .powerOnReset straps during => Sys2Proof.Machine.execPowerOnReset straps during s
  | .transaction t d => Sys2Proof.Machine.execTransaction t d s
  | .orderHeaderWord => Sys2Proof.Machine.execOrderHeaderWord s
  | .orderBodyWord => Sys2Proof.Machine.execOrderBodyWord s
  | .orderStrayWord => Sys2Proof.Machine.execOrderStrayWord s
  | .setupOrder tag session f => Sys2Proof.Machine.execSetupOrder tag session f s
  | .openOrder tag session f => Sys2Proof.Machine.execOpenOrder tag session f s
  | .closeOrder tag session => Sys2Proof.Machine.execCloseOrder tag session s
  | .windowOrder tag session f => Sys2Proof.Machine.execWindowOrder tag session f s
  | .pauseOrder tag session measure => Sys2Proof.Machine.execPauseOrder tag session measure s
  | .resumeOrder tag session => Sys2Proof.Machine.execResumeOrder tag session s
  | .recoverOrder tag session => Sys2Proof.Machine.execRecoverOrder tag session s
  | .continueOrder tag session => Sys2Proof.Machine.execContinueOrder tag session s
  | .fetchOrder tag session f => Sys2Proof.Machine.execFetchOrder tag session f s
  | .abortOrder tag session base => Sys2Proof.Machine.execAbortOrder tag session base s
  | .flushOrder tag session => Sys2Proof.Machine.execFlushOrder tag session s
  | .resetOrder tag session => Sys2Proof.Machine.execResetOrder tag session s
  | .reacquireOrder tag session => Sys2Proof.Machine.execReacquireOrder tag session s
  | .arrival n => Sys2Proof.Machine.execArrival n s
  | .consumerRead n => Sys2Proof.Machine.execConsumerRead n s
  | .eventPop tag offset memory error => Sys2Proof.Machine.execEventPop tag offset memory error s
  | .adviceSlotRead tag offset memory error => Sys2Proof.Machine.execAdviceSlotRead tag offset memory error s
  | .tick d => Sys2Proof.Machine.execTick d s
  | .referenceLoss => Sys2Proof.Machine.execReferenceLoss s
  | .firstByteDeadlineExpiry k => Sys2Proof.Machine.execFirstByteDeadlineExpiry k s
  | .gapDeadlineExpiry k => Sys2Proof.Machine.execGapDeadlineExpiry k s
  | .windowEnd => Sys2Proof.Machine.execWindowEnd s
  | .referenceReturn => Sys2Proof.Machine.execReferenceReturn s

end Sys2Proof.Machine
end

