-- ==== Sys2Proof/Safety.lean ====
section
/-! DEFINITION. The laws the manual states of the whole part, as predicates on a state: each is meant to hold at reset and to be
kept by every step, and none is assumed by the machine. After them, the words the statements use. -/

namespace Sys2Proof.Machine

/-- The event queue never holds more than 32 events, and LOST is clear whenever it is empty (R184, R189). -/
abbrev QueueOk (s : State) : Prop :=
  s.report.events.length ≤ Config.queueDepth ∧ (s.report.lost = true → s.report.events ≠ [])

/-- The divider is in its range, COARSE is set exactly on the internal oscillator, an absent reference is never the source
(R39, R45 to R48), and the cycle count is below the length of the tick in progress (R39, R40). -/
abbrev TimebaseOk (s : State) : Prop :=
  (99 ≤ s.timebase.divider ∧ s.timebase.divider ≤ 65535)
    ∧ (s.timebase.coarse = true ↔ s.timebase.source = .internal)
    ∧ (s.timebase.presence = .absent → s.timebase.source = .internal)
    ∧ (100 ≤ s.timebase.tickLength ∧ s.timebase.tickLength ≤ 65536)
    ∧ s.timebase.cycleCount < s.timebase.tickLength

/-- The link meter's values are in the ranges of R96 and R102, L is absent exactly while the meter is UNSET and is
floor(min(v_f, v_s) × safety / 4096) otherwise (R96, R107), and the share arbiter has received it (R108). -/
abbrev MeterOk (s : State) : Prop :=
  (500 ≤ s.meter.window ∧ s.meter.window ≤ 60000)
    ∧ (1 ≤ s.meter.kFast ∧ s.meter.kFast < s.meter.kSlow ∧ s.meter.kSlow ≤ 6)
    ∧ (128 ≤ s.meter.safety ∧ s.meter.safety ≤ 256)
    ∧ (s.meter.elapsed < s.meter.window ∧ s.meter.busy ≤ s.meter.elapsed)
    ∧ s.meter.credited ≤ Config.creditLimit
    ∧ (s.meter.vFast ≤ 268435455 ∧ s.meter.vSlow ≤ 268435455)
    ∧ (s.meter.set = false → s.meter.link = none)
    ∧ (s.meter.set = true → s.meter.link = some (min s.meter.vFast s.meter.vSlow * s.meter.safety / 4096))
    ∧ s.arbiter.received = s.meter.link

/-- A ladder of 1 to 8 rungs, each 1 to 16,777,215 kbit/s, strictly increasing (R129). -/
abbrev LadderOk (ladder : List Nat) : Prop :=
  (1 ≤ ladder.length ∧ ladder.length ≤ 8) ∧ (∀ r ∈ ladder, 1 ≤ r ∧ r ≤ Config.maxRate) ∧ ladder.Pairwise (· < ·)

/-- The programmed half of an open session is in the ranges of R129. -/
abbrev ProgrammedOk (p : Programmed) : Prop :=
  LadderOk p.ladder ∧ (p.lo ≤ p.hi ∧ p.hi < p.ladder.length) ∧ (1 ≤ p.weight ∧ p.weight ≤ 255)
    ∧ (1 ≤ p.upCount ∧ p.upCount ≤ 8) ∧ p.autoRecover ≤ 15 ∧ (p.panic ≤ p.comfort ∧ p.comfort ≤ 65535)

/-- The session is searching, or will go on searching when its pause ends (R131, R148). -/
abbrev Searching (w : Working) : Prop := w.state = .probing ∨ (w.state = .paused ∧ w.prePause = .probing)

/-- An open session's context (R130, R131, R165, R168, R169): the advised rung lies in the window; FALLBACK advises lo;
BOUNDARY advises hi in STOP clip mode with the streak at U; PROBING advises the midpoint of its bounds, which lie in the
window; the counts are in their ranges. -/
abbrev OpenOk (x : Session) : Prop :=
  ProgrammedOk x.prog
    ∧ (x.prog.lo ≤ x.advice.rung ∧ x.advice.rung ≤ x.prog.hi)
    ∧ (x.work.prePause ≠ .closed ∧ x.work.prePause ≠ .paused)
    ∧ (x.work.state = .fallback → x.advice.rung = x.prog.lo)
    ∧ (x.work.state = .boundary →
        x.advice.rung = x.prog.hi ∧ x.work.upStreak = x.prog.upCount ∧ x.prog.clip = .stop)
    ∧ (Searching x.work → x.prog.lo ≤ x.work.a ∧ x.work.a ≤ x.work.b ∧ x.work.b ≤ x.prog.hi ∧ x.work.upStreak = 0)
    ∧ (x.work.state = .probing → x.advice.rung = probeMidpoint x.work.a x.work.b)
    ∧ (x.work.current ≤ 7 ∧ x.work.preFallback ≤ 7 ∧ x.work.upStreak ≤ x.prog.upCount ∧ x.work.recovering ≤ 15)
    ∧ (x.work.probeSteps ≤ Config.countLimit ∧ x.work.rebuffers ≤ Config.countLimit
        ∧ x.work.stalls ≤ Config.countLimit ∧ x.work.skips ≤ Config.countLimit
        ∧ x.work.overrides ≤ Config.countLimit)

/-- Every open session's context is as R131 says. -/
abbrev SessionsOk (s : State) : Prop := ∀ i, (s.session i).work.state ≠ .closed → OpenOk (s.session i)

/-- The rung and duration of a MEDIA record are in range, and an OTHER record has consumed nothing (R49). -/
def kindOk (r : FetchRecord) : Bool :=
  match r.kind with
  | .media rung duration => decide (rung ≤ 7) && decide (100 ≤ duration) && decide (duration ≤ 20000)
  | .other => r.consumed == 0

/-- A fetch record's fields are as R49 says. -/
abbrev RecordOk (r : FetchRecord) : Prop :=
  (1 ≤ r.size ∧ r.size ≤ Config.maxFetchSize ∧ r.base % 16 = 0 ∧ r.base + r.size ≤ Config.channelSize)
    ∧ (r.landed < r.size ∧ r.consumed ≤ r.size)
    ∧ (r.deadline = none ↔ r.state = .stalled)
    ∧ r.firstArrival.isSome = r.lastArrival.isSome
    ∧ (r.state = .pending → r.firstArrival = none ∧ r.landed = 0)
    ∧ (r.state = .landing → r.firstArrival ≠ none)
    ∧ kindOk r = true
    ∧ r.stalls ≤ Config.countLimit

/-- A held segment's fields are as R76 says. -/
abbrev HeldOk (h : HeldSegment) : Prop :=
  (1 ≤ h.size ∧ h.size ≤ Config.maxFetchSize ∧ h.base % 16 = 0 ∧ h.base + h.size ≤ Config.channelSize)
    ∧ (100 ≤ h.duration ∧ h.duration ≤ 20000) ∧ h.consumed < h.size

/-- Every record is as R49 says and belongs to an open session (R49), every held segment is as R76 says, and a CLOSED
session reads as zeros (R75, R94, R129, R130, R155). -/
abbrev TrackingOk (s : State) : Prop :=
  (∀ k, ∀ r ∈ s.slot k, RecordOk r ∧ (s.session r.session).work.state ≠ .closed)
    ∧ (∀ i, ∀ h ∈ (s.session i).held, HeldOk h)
    ∧ (∀ i, (s.session i).work.state = .closed → s.session i = Session.closed)

/-- No session tracks more than 24 records and held segments together (R76). -/
abbrev LimitOk (s : State) : Prop := ∀ i, trackedCount i s ≤ Config.trackedLimit

/-- Two ranges share no byte. -/
abbrev Apart (base size base' size' : Nat) : Prop := base + size ≤ base' ∨ base' + size' ≤ base

/-- No two tracked ranges overlap, of the same session or of different ones, and none overlaps the governor page (R49). -/
abbrev RangesOk (s : State) : Prop :=
  (∀ k k', k ≠ k' → ∀ r ∈ s.slot k, ∀ r' ∈ s.slot k', Apart r.base r.size r'.base r'.size)
    ∧ (∀ k, ∀ r ∈ s.slot k, ∀ i, ∀ h ∈ (s.session i).held, Apart r.base r.size h.base h.size)
    ∧ (∀ i, (s.session i).held.Pairwise fun h h' => Apart h.base h.size h'.base h'.size)
    ∧ (∀ i j, i ≠ j → ∀ h ∈ (s.session i).held, ∀ h' ∈ (s.session j).held, Apart h.base h.size h'.base h'.size)
    ∧ (∀ k, ∀ r ∈ s.slot k, Apart r.base r.size (pageBase s) Config.pageSize)
    ∧ (∀ i, ∀ h ∈ (s.session i).held, Apart h.base h.size (pageBase s) Config.pageSize)

/-- The sum of the shares of the four sessions. -/
def shareSum (s : State) : Nat := (s.sessions.toList.map (·.share)).sum

/-- The shares are as R124 says: 0 for a session that is not active, between r[lo] and r[hi] for one that is; each its
floor while STARVED is set or the meter is UNSET; otherwise, with the headroom, summing to L. -/
abbrev SharesOk (s : State) : Prop :=
  (∀ i, isActive (s.session i) = false → (s.session i).share = 0)
    ∧ (∀ i, isActive (s.session i) = true →
        rate (s.session i).prog (s.session i).prog.lo ≤ (s.session i).share
          ∧ (s.session i).share ≤ rate (s.session i).prog (s.session i).prog.hi)
    ∧ (s.arbiter.starved = true ∨ s.meter.set = false →
        ∀ i, isActive (s.session i) = true →
          (s.session i).share = rate (s.session i).prog (s.session i).prog.lo)
    ∧ (s.arbiter.starved = false → ∀ l, s.meter.link = some l → shareSum s + s.arbiter.headroom = l)

/-- The settings that the other laws do not name are in the ranges SETUP leaves them (R25, R51, R185): the minimum probe ticks, the two
timeouts, in ticks, whole ms, and an enable mask of the kinds 0x01 to 0x0C alone. -/
abbrev SettingsOk (s : State) : Prop :=
  s.minProbe ≤ 1000
    ∧ (1000 ≤ s.tracker.tFirst ∧ s.tracker.tFirst ≤ 655350 ∧ s.tracker.tFirst % 10 = 0)
    ∧ (1000 ≤ s.tracker.tGap ∧ s.tracker.tGap ≤ 655350 ∧ s.tracker.tGap % 10 = 0)
    ∧ s.report.mask &&& 0x1FFE = s.report.mask

/-- The buffer level of every published advice is 0 to 480,000 ms (R155). -/
abbrev AdviceOk (s : State) : Prop := ∀ i, (s.session i).advice.buffer ≤ 480000

/-- Every law of this file together. -/
abbrev AllOk (s : State) : Prop :=
  QueueOk s ∧ TimebaseOk s ∧ MeterOk s ∧ SessionsOk s ∧ TrackingOk s ∧ LimitOk s ∧ RangesOk s ∧ SharesOk s
    ∧ SettingsOk s ∧ AdviceOk s

/-! ### Words for the statements -/

/-- The command that gives an order whole, from `tag` with the session field `field`. -/
def orderCommand (tag : Tag) (field : BitVec 4) : Order → Instr
  | .setup f => .setupOrder tag field f
  | .openSession f => .openOrder tag field f
  | .closeSession => .closeOrder tag field
  | .window f => .windowOrder tag field f
  | .pause m => .pauseOrder tag field m
  | .resume => .resumeOrder tag field
  | .recover => .recoverOrder tag field
  | .continueRung => .continueOrder tag field
  | .fetch f => .fetchOrder tag field f
  | .abort base => .abortOrder tag field base
  | .flush => .flushOrder tag field
  | .reset => .resetOrder tag field
  | .reacquire => .reacquireOrder tag field

/-- Order writes of `tag` are observed, and no record is under assembly: an order given now is judged on its own. -/
abbrev Ready (tag : Tag) (s : State) : Prop :=
  inTagSet s.classifier.orderTags tag = true ∧ s.assembler.assembly = .idle

/-- The state with a record ended: the assembler IDLE, and the five fields of the last order result written together, the
result count one higher (R20). -/
def endedWith (kind : BitVec 8) (field : BitVec 4) (code slot : BitVec 8) (s : State) : State :=
  { s with assembler :=
    { assembly := .idle
      last := { kind := kind, session := field, code := code, slot := slot, count := s.assembler.last.count + 1 } } }

/-- The state with a record refused or discarded for `cause`: its last order result, and ORDER_REFUSED posted with the kind as
written and the result count after the update (R20). -/
def refusedWith (kind : BitVec 8) (field : BitVec 4) (cause : Cause) (s : State) : State :=
  post .orderRefused (if field.toNat ≤ 3 ∧ 2 ≤ kind.toNat ∧ kind.toNat ≤ 11 then field else 0xF) (causeCode cause)
    (kind.setWidth 32) ((s.assembler.last.count + 1).setWidth 32) (endedWith kind field (causeCode cause) 0xFF s)

/-- An order the record layout can carry: an OPEN has a ladder of 1 to 8 rungs (R22). -/
def orderFits : Order → Bool
  | .openSession f => decide (1 ≤ f.ladder.length) && decide (f.ladder.length ≤ 8)
  | .setup _ | .closeSession | .window _ | .pause _ | .resume | .recover | .continueRung | .fetch _ | .abort _ | .flush
  | .reset | .reacquire => true

/-- The words of a record as order words of `tag`, whole, at offsets 0, 4, 8 and upward (R14). -/
def orderWordsOf (tag : Tag) (words : List Word) : List OrderWord :=
  words.mapIdx fun n w => { tag := tag, offset := 4 * n, whole := true, data := w }

/-- Commands run one after another. -/
def execAll : List Instr → State → Host.Outcome State Fault Refusal
  | [], s => .next s
  | c :: rest, s =>
    match exec c s with
    | .next t => execAll rest t
    | .fault f => .fault f
    | .refused r => .refused r

/-- The command that takes the next order word in flight, by the word and the assembler's state (R16 to R18). -/
def wordCommand (s : State) : Instr :=
  match s.inFlight.orderWords with
  | [] => .orderStrayWord
  | w :: _ =>
    if w.whole ∧ w.offset = 0 then .orderHeaderWord
    else if s.assembler.assembly = .idle then .orderStrayWord else .orderBodyWord

/-- The next `n` order words in flight are taken, each by its own command. -/
def execWords : Nat → State → Host.Outcome State Fault Refusal
  | 0, s => .next s
  | n + 1, s =>
    match exec (wordCommand s) s with
    | .next t => execWords n t
    | .fault f => .fault f
    | .refused r => .refused r

end Sys2Proof.Machine
end

