-- ==== Sys2Proof/Certificates/Slice0/Obligations.lean ====
section
/-! DEFINITION. The statements about the model, one definition each. OBLIGATIONS.json gives each its tier, its basis and the rules it
formalises. -/

open Sys2Proof Sys2Proof.Machine

/-! ### The queue and the step -/

/-- A step with a command at the front of the queue is `exec` of that command with the queue's rest waiting. -/
def Obligations.StepRunsTheFrontCommand : Prop :=
  ∀ (c : Instr) (rest : List Instr) (s : State),
    step { s with pending := c :: rest } = exec c { s with pending := rest }

/-- A step with no command waiting is one period of the clock source: on the reference a rising edge, which is counted or
makes a tick (R39); on the internal oscillator a tick (R46); with the reference absent and still the source, nothing. That the
queue's emptiness lets the clock run is the model's choice (log entry 2). -/
def Obligations.StepOnEmptyQueueIsOneClockPeriod : Prop :=
  ∀ s : State, s.pending = [] →
    (s.timebase.source = .internal → step s = exec (.tick .atOnce) s)
    ∧ (s.timebase.source = .reference → s.timebase.presence = .absent → step s = .next s)
    ∧ (s.timebase.source = .reference → s.timebase.presence = .present →
        s.timebase.cycleCount + 1 < s.timebase.tickLength →
        step s = .next { s with timebase := { s.timebase with cycleCount := s.timebase.cycleCount + 1 } })
    ∧ (s.timebase.source = .reference → s.timebase.presence = .present →
        s.timebase.tickLength ≤ s.timebase.cycleCount + 1 → step s = exec (.tick .atOnce) s)

/-- No command puts anything on the queue of waiting commands or takes anything from it; only the commands in which transactions
pass put anything on the ports (R2); and no command but power-on reset moves the governor page, the RESET order included (R3). The
queue and the ports' history are the model's (log entries 1, 11). -/
def Obligations.CommandsKeepQueuePortsAndPage : Prop :=
  ∀ (c : Instr) (s t : State), exec c s = .next t →
    t.pending = s.pending
    ∧ (match c with
      | .powerOnReset _ _ | .transaction _ _ | .eventPop _ _ _ _ | .adviceSlotRead _ _ _ _ => True
      | _ => t.ports = s.ports)
    ∧ (match c with
      | .powerOnReset _ _ => True
      | _ => pageBase t = pageBase s)

/-! ### The laws of the whole part -/

/-- The state right after reset meets every law. -/
def Obligations.ResetMeetsEveryLaw : Prop := AllOk State.reset

/-- Every step keeps the event queue within 32 records, and LOST clear while it is empty (R184, R189); it keeps the divider in
range, COARSE set exactly on the internal oscillator, an absent reference never the source, and the cycle count inside the tick in
progress (R39, R45, R47); and it keeps the minimum probe ticks, the two timeouts and the enable mask in the ranges of R25. -/
def Obligations.StepsKeepTheQueueAndTimebaseLaws : Prop :=
  ∀ s t : State, step s = .next t →
    (QueueOk s → QueueOk t) ∧ (TimebaseOk s → TimebaseOk t) ∧ (SettingsOk s → SettingsOk t)

/-- Every step keeps the link meter's values in range, the estimates within 0 to 268,435,455 sixteenths, and L absent exactly
while UNSET, otherwise floor(min(v_f, v_s) × safety / 4096) and known to the share arbiter (R96, R102, R107, R108). -/
def Obligations.StepsKeepTheMeterLaw : Prop :=
  ∀ s t : State, MeterOk s → step s = .next t → MeterOk t

/-- Every step keeps every open session's context lawful: the window in the ladder, the advised rung in the window, lo advised
in FALLBACK, the probe bounds in the window (R129, R130, R131). -/
def Obligations.StepsKeepTheSessionLaw : Prop :=
  ∀ s t : State, SessionsOk s → step s = .next t → SessionsOk t

/-- Every step keeps every fetch record and held segment in range, every record in an open session, a CLOSED session all zeros,
and each session's records and held segments together at 24 or fewer (R49, R76, R129, R130); and so the buffer level of every
published advice within 0 to 480,000 ms (R155). -/
def Obligations.StepsKeepTheTrackingLaw : Prop :=
  ∀ s t : State, SessionsOk s → TrackingOk s → LimitOk s → step s = .next t →
    TrackingOk t ∧ LimitOk t ∧ (AdviceOk s → AdviceOk t)

/-- Every step keeps the tracked ranges apart from each other and from the governor page (R49). -/
def Obligations.StepsKeepTrackedRangesApart : Prop :=
  ∀ s t : State, RangesOk s → step s = .next t → RangesOk t

/-- Every step keeps the shares: each active session's between r[lo] and r[hi], 0 for the others; with the meter SET and STARVED
clear they sum with the headroom to L; STARVED or UNSET, each is its floor (R124). -/
def Obligations.StepsKeepTheShareLaw : Prop :=
  ∀ s t : State, MeterOk s → SessionsOk s → SharesOk s → step s = .next t → SharesOk t

/-! ### Power-on reset -/

/-- Power-on reset: every block at its power-on value (R12), in numbers (R11, R16, R20, R25, R48, R51, R114, R185), every session
CLOSED, the event line released, and the straps sampled, so that the page lies at 65,536 times their value, in the first
256 MiB (R3); what passed meanwhile was forwarded and answered with memory's own data. That the first tick lasts divider + 1 cycles,
and that the waiting commands and the ports' history stay, is the model's (log entries 10, 11, 13). -/
def Obligations.PowerOnReset : Prop :=
  ∀ (straps : BitVec 12) (during : List Transaction) (s : State),
    ∃ t, exec (.powerOnReset straps during) s = .next t
      ∧ t = {
          classifier := { straps := straps, orderTags := 0xFFFF, arrivalTags := 0 }
          inFlight := { orderWords := [], arrivals := [], consumerReads := [] }
          ports :=
            { downstream := s.ports.downstream ++ during.map requestOf
              upstream := s.ports.upstream ++ during.map fun t => responseOf t (t.lanes.map (·.data)) }
          assembler := { assembly := .idle, last := { kind := 0, session := 0, code := 0, slot := 0, count := 0 } }
          timebase :=
            { divider := 2499, cycleCount := 0, tickLength := 2500, tick := 0, source := .reference, coarse := false
              presence := .present }
          tracker := { table := Vector.replicate 16 none, tFirst := 30000, tGap := 10000 }
          meter :=
            { window := 2000, kFast := 2, kSlow := 4, safety := 218, elapsed := 0, busy := 0, credited := 0
              vFast := 0, vSlow := 0, set := false, link := none, tickOwed := false }
          arbiter := { headroom := 0, starved := false, received := none }
          sessions := Vector.replicate 4 Session.closed
          minProbe := 50
          report := { events := [], lost := false, latch := ⟨.none, 0, 0, 0, 0, 0⟩, mask := 0x0FFE }
          pending := s.pending }
      ∧ eventLine t = false
      ∧ pageBase t = straps.toNat * 65536 ∧ pageBase t + Config.pageSize ≤ 2 ^ 28

/-! ### Transactions -/

/-- A write passes: forwarded unchanged, answered with memory's status and no data (R2), it yields its order words and its
arrivals (R6), left in flight in order. -/
def Obligations.WriteTransactionYieldsItsObservations : Prop :=
  ∀ (t : Transaction) (s : State), t.direction = .write →
    exec (.transaction t .deferred) s = .next { s with
      ports :=
        { downstream := s.ports.downstream ++ [⟨t.address, .write, t.tag, t.lanes.map (·.enabled), t.lanes.map (·.data)⟩]
          upstream := s.ports.upstream ++ [⟨[], t.error⟩] }
      inFlight :=
        { orderWords := s.inFlight.orderWords ++ orderWrite s t
          arrivals := s.inFlight.arrivals ++ arrivalWrites s t
          consumerReads := s.inFlight.consumerReads } }

/-- A read passes: forwarded unchanged, answered with the overlay taken from the state before it (R2, R5, R176), it yields its
consumer read, if it has parts (R6, R9), and then has its report effects (R10): it pops exactly if its span covers page offset 0x240,
the head moving into the latch and LOST clearing with the last record (R186, R187, R189), and it sets the advice-taken flag of exactly
the open sessions whose advice slot it overlaps (R182). A read of anything else in the page, or outside it, has no report
effect. -/
def Obligations.ReadTransactionIsOverlaid : Prop :=
  ∀ (t : Transaction) (s : State), t.direction = .read →
    let first := t.address.toNat
    let pops := first ≤ pageBase s + 0x240 ∧ pageBase s + 0x240 < first + t.lanes.length
    (readPops s first t.lanes.length = true ↔ pops)
    ∧ ∃ u, exec (.transaction t .deferred) s = .next u
      ∧ u = { s with
          ports :=
            { downstream := s.ports.downstream ++ [⟨t.address, .read, t.tag, t.lanes.map (·.enabled), []⟩]
              upstream := s.ports.upstream ++ [⟨overlay s first (t.lanes.map (·.data)), t.error⟩] }
          inFlight :=
            { orderWords := s.inFlight.orderWords
              arrivals := s.inFlight.arrivals
              consumerReads := s.inFlight.consumerReads
                ++ (if consumerParts s t = [] then [] else [consumerParts s t]) }
          sessions := u.sessions
          report := u.report }
      ∧ (¬ pops ∨ s.report.events = [] → u.report = s.report)
      ∧ (∀ e rest, pops → s.report.events = e :: rest →
          u.report = { s.report with events := rest, latch := e, lost := s.report.lost && !rest.isEmpty })
      ∧ ∀ i : SessionId,
          let slot := pageBase s + 0x280 + 32 * i.val
          let covered := first < slot + 32 ∧ slot < first + t.lanes.length
          ((s.session i).work.state ≠ .closed → covered → u.session i = { s.session i with taken := true })
          ∧ ((s.session i).work.state = .closed ∨ ¬ covered → u.session i = s.session i)

/-- A transaction whose observations are taken at once is the same transaction followed by the taking of what it yielded: a read's
consumer read; a write's order words, all of them in their order, each by its own command, and then its arrivals, all of them, by
slot. That this is offered, and its order, is the model's choice (log entries 3 and 4). -/
def Obligations.AtOnceIsPassingThenTaking : Prop :=
  ∀ (t : Transaction) (s : State),
    ∃ u, exec (.transaction t .deferred) s = .next u
      ∧ (t.direction = .read → consumerParts s t = [] → exec (.transaction t .atOnce) s = .next u)
      ∧ (t.direction = .read → consumerParts s t ≠ [] →
          exec (.transaction t .atOnce) s = exec (.consumerRead s.inFlight.consumerReads.length) u)
      ∧ (t.direction = .write →
          ∃ v, execWords u.inFlight.orderWords.length u = .next v ∧ v.inFlight.orderWords = []
            ∧ exec (.transaction t .atOnce) s
              = execAll (List.replicate (arrivalWrites s t).length (.arrival s.inFlight.arrivals.length)) v)

/-- Overlay is decided byte by byte: a byte whose address lies in the report aperture is the report unit's, any other is
memory's (R5). The report unit's byte at an offset is that byte of the word there, the least significant at the lowest offset
(R195, with 00_scope, Conventions: a word on the governor page is little-endian). -/
def Obligations.OverlayIsByteByByte : Prop :=
  ∀ (s : State) (address : Nat) (memory : List Byte),
    (overlay s address memory).length = memory.length
    ∧ ∀ j (h : j < memory.length), (overlay s address memory)[j]? =
        some (if pageBase s + 512 ≤ address + j ∧ address + j < pageBase s + 4096
          then reportByte (readPops s address memory.length) s (address + j - pageBase s)
          else memory[j])
    ∧ ∀ (pops : Bool) (o : Nat),
        reportByte pops s o = BitVec.ofNat 8 ((reportWord pops s (o / 4 * 4)).toNat / 2 ^ (8 * (o % 4)))

/-- A write yields an arrival for slot `k` exactly when its tag is in the arrival tag set and an enabled byte of it lies in the
range of the record there; the end offset is one more than that of the highest such byte, the first offset that of the
lowest (R8). There is at most one for each slot (R6); they stand in slot order, which is the model's choice (log entry 4). -/
def Obligations.ArrivalWritesFollowEnabledBytes : Prop :=
  ∀ (s : State) (t : Transaction),
    (∀ a : Arrival, a ∈ arrivalWrites s t ↔
      inTagSet s.classifier.arrivalTags t.tag = true ∧ a.standing = true ∧
      ∃ r, s.slot a.slot = some r ∧ a.first < a.endOffset ∧ a.endOffset ≤ r.size
        ∧ enabledAt t (r.base + a.first) = true ∧ enabledAt t (r.base + a.endOffset - 1) = true
        ∧ ∀ o < r.size, enabledAt t (r.base + o) = true → a.first ≤ o ∧ o < a.endOffset)
    ∧ ((arrivalWrites s t).map (·.slot)).Pairwise (· < ·)

/-- The words of an order write: none for a tag outside the order tag set; otherwise exactly the words of the order aperture with
an enabled byte, in ascending order, each whole exactly when its four bytes are enabled (R7, R16). -/
def Obligations.OrderWriteCarriesTouchedWords : Prop :=
  ∀ (s : State) (t : Transaction),
    (inTagSet s.classifier.orderTags t.tag = false → orderWrite s t = [])
    ∧ (inTagSet s.classifier.orderTags t.tag = true →
        ((orderWrite s t).map (·.offset)).Pairwise (· < ·)
        ∧ (∀ w ∈ orderWrite s t, w.tag = t.tag ∧ w.offset % 4 = 0 ∧ w.offset < 512
            ∧ (∃ j < 4, enabledAt t (pageBase s + w.offset + j) = true)
            ∧ (w.whole = true ↔ ∀ j < 4, enabledAt t (pageBase s + w.offset + j) = true)
            ∧ ∀ j < 4, w.data.extractLsb' (8 * j) 8 = dataAt t (pageBase s + w.offset + j))
        ∧ ∀ o < 512, enabledAt t (pageBase s + o) = true → ∃ w ∈ orderWrite s t, w.offset = o / 4 * 4)

/-- The parts of a consumer read are those of the tracked media ranges that the span touches, of open sessions whose consumer tag
it carries: a MEDIA record's with its slot, a held segment's without (R9). They stand in ascending order of the addresses of those
ranges (R9, R82); where tracked ranges are apart and none is empty, as the laws say, no two are for one range (R6). -/
def Obligations.ConsumerPartsAreTouchedMediaRanges : Prop :=
  ∀ (s : State) (t : Transaction),
    let partOf := fun (p : ConsumerPart) (base : Nat) => ∃ size : Nat,
      (t.address.toNat < base + size ∧ base < t.address.toNat + t.lanes.length)
      ∧ p.endOffset = min (t.address.toNat + t.lanes.length) (base + size) - base
      ∧ ((∃ k r, p.slot = some k ∧ s.slot k = some r ∧ r.kind ≠ .other ∧ r.session = p.session
            ∧ r.serial = p.serial ∧ r.base = base ∧ r.size = size)
        ∨ (p.slot = none ∧ ∃ h ∈ (s.session p.session).held, h.serial = p.serial ∧ h.base = base ∧ h.size = size))
    (∀ p, p ∈ consumerParts s t ↔
      p.standing = true ∧ (s.session p.session).work.state ≠ .closed ∧ (s.session p.session).prog.consumerTag = t.tag
        ∧ ∃ base, partOf p base)
    ∧ ∃ bases : List Nat, bases.length = (consumerParts s t).length ∧ bases.Pairwise (· ≤ ·)
      ∧ (RangesOk s → TrackingOk s → bases.Pairwise (· < ·))
      ∧ ∀ (n : Nat) p base, (consumerParts s t)[n]? = some p → bases[n]? = some base → partOf p base

/-! ### Order words -/

/-- ORDER_HEADER_WORD and ORDER_BODY_WORD before the check word. A whole word at offset 0 starts a record, one under assembly being
first discarded with TRUNCATED (R16). In ASSEMBLING, any other word that is not whole discards the record with BAD_WRITE; a whole
one elsewhere than the next offset discards it with OUT_OF_SEQUENCE; at the next offset it is held while the record lacks body
words (R17). None of them has any other effect (R19). -/
def Obligations.OrderWordsAreFramed : Prop :=
  ∀ (w : OrderWord) (rest : List OrderWord) (s : State), s.inFlight.orderWords = w :: rest →
    let u := { s with inFlight := { s.inFlight with orderWords := rest } }
    (w.whole = true → w.offset = 0 → s.assembler.assembly = .idle →
      exec .orderHeaderWord s = .next { u with assembler := { s.assembler with assembly := .assembling w.data [] } })
    ∧ ∀ header body, s.assembler.assembly = .assembling header body →
        let discarded := fun cause => refusedWith (headerKind header) (headerSession header) cause u
        (w.whole = true → w.offset = 0 →
          exec .orderHeaderWord s = .next { discarded .truncated with
            assembler := { (discarded .truncated).assembler with assembly := .assembling w.data [] } })
        ∧ (w.whole = false → exec .orderBodyWord s = .next (discarded .badWrite))
        ∧ (w.whole = true → w.offset ≠ 0 → w.offset ≠ 4 * (body.length + 1) →
            exec .orderBodyWord s = .next (discarded .outOfSequence))
        ∧ (w.whole = true → w.offset = 4 * (body.length + 1) → body.length < headerLength header →
            exec .orderBodyWord s
              = .next { u with assembler := { s.assembler with assembly := .assembling header (body ++ [w.data]) } })

/-- ORDER_BODY_WORD at the check word (R15, R19, R21). A wrong check word is refused with BAD_CHECK. A kind other than 0x01 to 0x0D
is refused with UNKNOWN_KIND, and one of these with a body that is not of its length with BAD_LENGTH, for an OPEN by its n and its
seed-present flag (R21 stages 1 and 2, R22). Any other record spells an order of that kind, which is refused or takes effect,
with the last order result of R20, whatever the tag of the word's writer now is; for a writer still in the order tag set that is the
order given whole (log entry 7). -/
def Obligations.CheckWordJudgesTheRecord : Prop :=
  ∀ (w : OrderWord) (rest : List OrderWord) (header : Word) (body : List Word) (s : State),
    s.inFlight.orderWords = w :: rest → s.assembler.assembly = .assembling header body →
    w.whole = true → w.offset = 4 * (body.length + 1) → headerLength header ≤ body.length →
    let u := { s with inFlight := { s.inFlight with orderWords := rest } }
    let field := headerSession header
    let refused := fun cause => exec .orderBodyWord s = .next (refusedWith (headerKind header) field cause u)
    let k := (headerKind header).toNat
    let n := body.length
    let openFits := ∃ w1 more, body = w1 :: more ∧ 1 ≤ (w1.extractLsb' 0 4).toNat ∧ (w1.extractLsb' 0 4).toNat ≤ 8
      ∧ n = 3 + (w1.extractLsb' 0 4).toNat + (if w1.getLsbD 4 then 1 else 0)
    let fits := (k = 0x01 ∧ n = 5) ∨ (k = 0x02 ∧ openFits) ∨ ((k = 0x04 ∨ k = 0x05) ∧ n = 1) ∨ (k = 0x09 ∧ n = 4)
      ∨ (k = 0x0A ∧ n = 2) ∨ ((k = 0x03 ∨ (0x06 ≤ k ∧ k ≤ 0x08) ∨ (0x0B ≤ k ∧ k ≤ 0x0D)) ∧ n = 0)
    (w.data ≠ ~~~ (header + body.sum) → refused .badCheck)
    ∧ (w.data = ~~~ (header + body.sum) →
        (k = 0 ∨ 0x0D < k → refused .unknownKind)
        ∧ (1 ≤ k → k ≤ 0x0D → ¬ fits → refused .badLength)
        ∧ (fits → ∃ o, decodeOrder (headerKind header) body = .ok o ∧ o.kind = headerKind header
            ∧ (∀ cause, refusalCause field o u = some cause → refused cause)
            ∧ (refusalCause field o u = none →
                let out := orderEffect w.tag (sessionOf field) o u
                exec .orderBodyWord s = .next (endedWith (headerKind header) field 0
                  ((out.2.map fun slot => BitVec.ofNat 8 slot.val).getD 0xFF) out.1))
            ∧ (inTagSet s.classifier.orderTags w.tag = true →
                exec .orderBodyWord s
                  = exec (orderCommand w.tag field o) { u with assembler := { s.assembler with assembly := .idle } })))

/-- ORDER_STRAY_WORD: in IDLE a touched word that is not a whole word at offset 0 is ignored; nothing changes but that it has
been taken (R18). -/
def Obligations.StrayWordIsIgnored : Prop :=
  ∀ (w : OrderWord) (rest : List OrderWord) (s : State),
    s.inFlight.orderWords = w :: rest → s.assembler.assembly = .idle → ¬ (w.whole = true ∧ w.offset = 0) →
    exec .orderStrayWord s = .next { s with inFlight := { s.inFlight with orderWords := rest } }

/-! ### Orders in general -/

/-- Reading the words of an order gives the order back, with the session field and the body length as written: no bit of any
field is dropped (R14, R194). And each field is read at the bits the tables of R194 give it, in the header and in the body of every
kind that has one, whatever the ignored bits hold. -/
def Obligations.DecodeOfEncodedOrder : Prop :=
  (∀ (field : BitVec 4) (o : Order), orderFits o = true →
    decodeOrder (headerKind (o.header field)) o.body = .ok o
    ∧ headerSession (o.header field) = field ∧ headerLength (o.header field) = o.body.length)
  ∧ (∀ (kind : BitVec 8) (session length : BitVec 4) (ignored : BitVec 16),
      let header : Word := ignored ++ length ++ session ++ kind
      headerKind header = kind ∧ headerSession header = session ∧ headerLength header = length.toNat)
  ∧ (∀ (f : SetupFields) (z : BitVec 1) (y : BitVec 3) (x : BitVec 8),
      decodeOrder 0x01 [f.orderTags ++ f.arrivalTags, f.window ++ f.divider, f.minProbe ++ f.safety, f.tGap ++ f.tFirst,
          x ++ f.kSlow ++ f.kFast ++ y ++ f.mask ++ z] = .ok (.setup f))
  ∧ (∀ (f : OpenFields) (z y : BitVec 1) (x : BitVec 2) (w : BitVec 8) (v : BitVec 16) (tops : List (BitVec 8)),
      1 ≤ f.ladder.length → f.ladder.length ≤ 8 → tops.length = f.ladder.length →
      decodeOrder 0x02 ([x ++ f.resumeMode ++ f.upCount ++ f.weight ++ y ++ f.hi ++ z ++ f.lo ++ f.recoverMode
            ++ BitVec.ofBool f.stop ++ BitVec.ofBool f.seed.isSome ++ BitVec.ofNat 4 f.ladder.length,
          w ++ f.autoRecover ++ f.consumerTag ++ f.panic, v ++ f.comfort]
          ++ List.zipWith (fun top rate => top ++ rate) tops f.ladder ++ f.seed.toList) = .ok (.openSession f))
  ∧ (∀ (f : WindowFields) (z : BitVec 8) (y x : BitVec 1) (w : BitVec 8),
      decodeOrder 0x04 [w ++ f.weight ++ x ++ f.hi ++ y ++ f.lo ++ z] = .ok (.window f))
  ∧ (∀ (measure : Bool) (z : BitVec 31), decodeOrder 0x05 [z ++ BitVec.ofBool measure] = .ok (.pause measure))
  ∧ (∀ (low size : Word) (high rung : BitVec 4) (duration : BitVec 16) (z : BitVec 28) (y : BitVec 12),
      decodeOrder 0x09 [low, z ++ high, size, duration ++ y ++ rung]
        = .ok (.fetch { base := high ++ low, rung := rung, size := size, duration := duration }))
  ∧ ∀ (low : Word) (high : BitVec 4) (z : BitVec 28), decodeOrder 0x0A [low, z ++ high] = .ok (.abort (high ++ low))

/-- A record written word by word is the order: ORDER_HEADER_WORD, then ORDER_BODY_WORD once for each body word and once for the
check word, have together the effect of the order given whole, whatever the order and whether it is taken or refused
(R14 to R17, R19). The order given whole is the model's own form (log entry 7). -/
def Obligations.RecordWordByWordIsTheOrder : Prop :=
  ∀ (tag : Tag) (field : BitVec 4) (o : Order) (s : State), orderFits o = true → Ready tag s →
    execAll (.orderHeaderWord :: List.replicate (o.body.length + 1) .orderBodyWord)
        { s with inFlight := { s.inFlight with orderWords := orderWordsOf tag (o.record field) } }
      = exec (orderCommand tag field o) { s with inFlight := { s.inFlight with orderWords := [] } }

/-- An order that fails a check changes the last order result and may post ORDER_REFUSED, and has no other effect (R20, R21). A
tag outside the order tag set gives no order (R7), and an order given while a record is under assembly first discards that record
with TRUNCATED (R16). -/
def Obligations.OrdersRefusedUnseenOrTruncating : Prop :=
  ∀ (tag : Tag) (field : BitVec 4) (o : Order) (s : State),
    (∀ cause, Ready tag s → refusalCause field o s = some cause →
      exec (orderCommand tag field o) s = .next (refusedWith o.kind field cause s))
    ∧ (inTagSet s.classifier.orderTags tag = false → exec (orderCommand tag field o) s = .next s)
    ∧ ∀ header body, inTagSet s.classifier.orderTags tag = true → s.assembler.assembly = .assembling header body →
        exec (orderCommand tag field o) s
          = exec (orderCommand tag field o) (refusedWith (headerKind header) (headerSession header) .truncated s)

/-- The session-number and session-state stages, kind by kind: a session field above 3 is NO_SESSION for the ten kinds that name a
session, and is not read for the other three; then the state, of the session the field names or, for SETUP, of all, whatever the
field. A failure in either refuses the order (R23, with stage 3 of R21). -/
def Obligations.SessionStateStage : Prop :=
  ∀ (i : SessionId) (field : BitVec 4) (s : State),
    let st := (s.session i).work.state
    (∀ f, (stateCause i (.setup f) s = some .notIdle ↔ ∃ j, (s.session j).work.state ≠ .closed)
      ∧ (stateCause i (.setup f) s = none ↔ ∀ j, (s.session j).work.state = .closed)
      ∧ numberCause field (.setup f) = none)
    ∧ (∀ f, stateCause i (.openSession f) s = if st = .closed then none else some .sessionOpen)
    ∧ (∀ f g base, ∀ o ∈ [Order.closeSession, .window f, .fetch g, .abort base, .flush],
        stateCause i o s = if st = .closed then some .noSession else none)
    ∧ (∀ m, stateCause i (.pause m) s
        = if st = .closed then some .noSession else if st = .paused then some .wrongState else none)
    ∧ stateCause i .resume s
        = (if st = .closed then some .noSession else if st ≠ .paused then some .wrongState else none)
    ∧ stateCause i .recover s
        = (if st = .closed then some .noSession else if st ≠ .fallback then some .wrongState else none)
    ∧ stateCause i .continueRung s
        = (if st = .closed then some .noSession else if st ≠ .boundary then some .wrongState else none)
    ∧ (∀ o ∈ [Order.reset, .reacquire], stateCause i o s = none ∧ numberCause field o = none)
    ∧ (∀ e f g base m, ∀ o ∈ [Order.openSession e, .closeSession, .window f, .pause m, .resume, .recover, .continueRung,
          .fetch g, .abort base, .flush],
        numberCause field o = if 3 < field.toNat then some .noSession else none)
    ∧ (∀ o cause, lengthCause o = none → numberCause field o = some cause → refusalCause field o s = some cause)
    ∧ (∀ o cause, lengthCause o = none → stateCause i o s = some cause → refusalCause (sessionField i) o s = some cause)
    ∧ (field.toNat ≤ 3 → (sessionOf field).val = field.toNat)
    ∧ ∀ o cause, lengthCause o = none → numberCause field o = none → stateCause (sessionOf field) o s = some cause →
        refusalCause field o s = some cause

/-- The content checks of a FETCH, in their order: BAD_RANGE, BAD_RUNG, OVERLAP, TABLE_FULL, LIST_FULL, and for an open session
they alone decide whether it is refused (R34). The tracked ranges are the records' and held segments' of any session, none of
them empty (R49, R76). -/
def Obligations.FetchContentChecks : Prop :=
  ∀ (i : SessionId) (f : FetchFields) (s : State), TrackingOk s →
    let base := f.base.toNat
    let size := f.size.toNat
    let bad := base % 16 ≠ 0 ∨ size = 0 ∨ 67108864 < size ∨ 2 ^ 36 < base + size
      ∨ ∃ a, base ≤ a ∧ a < base + size ∧ pageBase s ≤ a ∧ a < pageBase s + 4096
    let rung := f.duration.toNat ≠ 0 ∧ (s.session i).prog.ladder.length ≤ f.rung.toNat
    let meets := (∃ k r a, s.slot k = some r ∧ base ≤ a ∧ a < base + size ∧ r.base ≤ a ∧ a < r.base + r.size)
      ∨ ∃ j, ∃ h ∈ (s.session j).held, ∃ a, base ≤ a ∧ a < base + size ∧ h.base ≤ a ∧ a < h.base + h.size
    let full := ∀ k, s.slot k ≠ none
    let list := 24 ≤ trackedCount i s
    ((s.session i).work.state ≠ .closed → refusalCause (sessionField i) (.fetch f) s = fetchCause i f s)
    ∧ (fetchCause i f s = some .badRange ↔ bad)
    ∧ (fetchCause i f s = some .badRung ↔ ¬ bad ∧ rung)
    ∧ (fetchCause i f s = some .overlap ↔ ¬ bad ∧ ¬ rung ∧ meets)
    ∧ (fetchCause i f s = some .tableFull ↔ ¬ bad ∧ ¬ rung ∧ ¬ meets ∧ full)
    ∧ (fetchCause i f s = some .listFull ↔ ¬ bad ∧ ¬ rung ∧ ¬ meets ∧ ¬ full ∧ list)
    ∧ (fetchCause i f s = none ↔ ¬ bad ∧ ¬ rung ∧ ¬ meets ∧ ¬ full ∧ ¬ list)

/-! ### The thirteen orders, taken -/

/-- SETUP taken: each value, clamped to its range, in its owning block; the measurement window restarted; with the meter SET, L
computed afresh and handed over (R11, R24, R25, R40, R51, R111). -/
def Obligations.SetupTakesClampedValues : Prop :=
  ∀ (tag : Tag) (field : BitVec 4) (f : SetupFields) (s : State), Ready tag s →
    (∀ j, (s.session j).work.state = .closed) →
    let kf := min 6 (max 1 f.kFast.toNat)
    let ks := min 6 (max 1 f.kSlow.toNat)
    let meter := { s.meter with
      window := min 60000 (max 500 f.window.toNat)
      kFast := if kf < ks then kf else if kf = 6 then 5 else kf
      kSlow := if kf < ks then ks else if kf = 6 then 6 else kf + 1
      safety := min 256 (max 128 f.safety.toNat)
      elapsed := 0, busy := 0, credited := 0 }
    let set := { s with
      classifier := { s.classifier with
        arrivalTags := f.arrivalTags
        orderTags := f.orderTags ||| BitVec.ofNat 16 (2 ^ tag.toNat) }
      timebase := { s.timebase with divider := min 65535 (max 99 f.divider.toNat) }
      tracker := { s.tracker with
        tFirst := 10 * min 65535 (max 100 f.tFirst.toNat)
        tGap := 10 * min 65535 (max 100 f.tGap.toNat) }
      minProbe := min 1000 f.minProbe.toNat
      report := { s.report with mask := BitVec.ofNat 16 (2 * f.mask.toNat) } }
    exec (.setupOrder tag field f) s
      = .next (endedWith 0x01 field 0 0xFF
          (if s.meter.set then
            handOverLink { set with meter := { meter with
              link := some (min meter.vFast meter.vSlow * meter.safety / 4096) } }
          else { set with meter := meter }))

/-- OPEN of a CLOSED session with 1 to 8 rungs. A ladder with a 0, or that does not strictly increase, is refused with BAD_LADDER
(R26). With any other it is taken: both halves of the context written and the first advice published, by whether a seed is given and
whether the window has one rung; the seed taken by an UNSET meter; the recompute; PROBE_DONE where there is nothing to search (R26,
R109, R132 to R134). A mode field of 0 is HOLD, of 1 SAFE, of 2 PROBE, and of 3 SAFE (R26, R196). The programmed half stands at this
event's recompute (log entry 25). -/
def Obligations.OpenStartsASession : Prop :=
  (modeOf 0 = .hold ∧ modeOf 1 = .safe ∧ modeOf 2 = .probe ∧ modeOf 3 = .safe)
  ∧ ∀ (tag : Tag) (i : SessionId) (f : OpenFields) (s : State), Ready tag s →
    (s.session i).work.state = .closed → 1 ≤ f.ladder.length → f.ladder.length ≤ 8 →
    let lawful := (∀ r ∈ f.ladder, r ≠ 0) ∧ f.ladder.Pairwise fun r r' => r.toNat < r'.toNat
    let n := f.ladder.length
    let hi := min f.hi.toNat (n - 1)
    let lo := min f.lo.toNat hi
    let prog : Programmed :=
      { ladder := f.ladder.map (·.toNat), lo := lo, hi := hi, weight := max 1 f.weight.toNat
        upCount := min 8 (max 1 f.upCount.toNat), clip := if f.stop then .stop else .clamp
        recoverMode := modeOf f.recoverMode, autoRecover := f.autoRecover.toNat, resumeMode := modeOf f.resumeMode
        consumerTag := f.consumerTag, panic := f.panic.toNat, comfort := max f.panic.toNat f.comfort.toNat }
    let seed := f.seed.map fun v => min 16777215 (max 1 v.toNat)
    let rung := match seed with
      | some v => highestRung prog lo hi (v * s.meter.safety / 256)
      | none => lo + (hi - lo + 1) / 2
    let state : SessionState := if seed = none ∧ lo < hi then .probing else .steady
    let session : Session :=
      { prog := prog
        work := { state := state, prePause := .steady, measure := false, current := rung, a := lo, b := hi
                  probeSteps := 0, upStreak := 0, preFallback := lo, recovering := 0, rebuffers := 0, stalls := 0
                  skips := 0, overrides := 0 }
        advice := { rung := rung, reason := .none, count := 0, superseded := false, buffer := 0
                    tick := s.timebase.tick, state := state }
        held := [], position := none, rebuffering := false, nextSerial := 0, share := 0, taken := false }
    let metered := match seed with
      | some v => if s.meter.set then s else
          { s with
            meter := { s.meter with
              vFast := 16 * v, vSlow := 16 * v, set := true, link := some (16 * v * s.meter.safety / 4096) }
            arbiter := { s.arbiter with received := some (16 * v * s.meter.safety / 4096) } }
      | none => s
    let opened := recompute (metered.setSession i session)
    (¬ lawful →
      exec (.openOrder tag (sessionField i) f) s = .next (refusedWith 0x02 (sessionField i) .badLadder s))
    ∧ (lawful → exec (.openOrder tag (sessionField i) f) s
      = .next (endedWith 0x02 (sessionField i) 0 0xFF
          (if seed = none ∧ lo = hi then post .probeDone (sessionField i) 0 (BitVec.ofNat 32 lo) 0 opened else opened)))

/-- CLOSE taken: the session's records freed, everything of the session zero, and the shares recomputed (R27, R74, R135). -/
def Obligations.CloseEndsASession : Prop :=
  ∀ (tag : Tag) (i : SessionId) (s : State), Ready tag s → (s.session i).work.state ≠ .closed →
    exec (.closeOrder tag (sessionField i)) s
      = .next (endedWith 0x03 (sessionField i) 0 0xFF (recompute ((freeSession i s).setSession i Session.closed)))

/-- WINDOW taken: the three values clamped and written, the shares recomputed, then the answer of the session's state: the probe
restarts, a steady decision is made, lo is republished, or the frozen advice is clamped (R28, R147, R148). -/
def Obligations.WindowActsByState : Prop :=
  ∀ (tag : Tag) (i : SessionId) (f : WindowFields) (s : State), Ready tag s →
    let x := s.session i
    let hi := min f.hi.toNat (x.prog.ladder.length - 1)
    let lo := min f.lo.toNat hi
    let y := { x with prog := { x.prog with lo := lo, hi := hi, weight := max 1 f.weight.toNat } }
    let u := recompute (s.setSession i y)
    let answer := fun t => exec (.windowOrder tag (sessionField i) f) s = .next (endedWith 0x04 (sessionField i) 0 0xFF t)
    (x.work.state = .probing → answer (startProbe i .window u))
    ∧ (x.work.state = .steady ∨ x.work.state = .boundary → answer (steadyDecision i .steady .window u))
    ∧ (x.work.state = .fallback → answer (publish i lo .window u))
    ∧ (x.work.state = .paused →
        answer (publish i (min hi (max lo x.advice.rung)) .window
          (if x.work.prePause = .probing then u.setWork i { x.work with a := lo, b := hi } else u)))

/-- PAUSE taken: the state saved, the flag taken, the session PAUSED, the shares recomputed; nothing published (R29, R142). -/
def Obligations.PauseSuspendsASession : Prop :=
  ∀ (tag : Tag) (i : SessionId) (measure : Bool) (s : State), Ready tag s →
    (s.session i).work.state ≠ .closed → (s.session i).work.state ≠ .paused →
    exec (.pauseOrder tag (sessionField i) measure) s
      = .next (endedWith 0x05 (sessionField i) 0 0xFF (recompute (s.setWork i { (s.session i).work with
          prePause := (s.session i).work.state, measure := measure, state := .paused })))

/-- RESUME taken, the shares recomputed with the session active again. With a STALLED record: FALLBACK whatever the mode, lo
published, the pre-fallback rung kept or set to c. With none, by the resume mode: HOLD's decision in the pre-pause state, SAFE's lo
in STEADY, or PROBE's new probe (R30, R120, R144, R145). -/
def Obligations.ResumeByStallOrMode : Prop :=
  ∀ (tag : Tag) (i : SessionId) (s : State), Ready tag s → (s.session i).work.state = .paused →
    let x := s.session i
    let w := x.work
    let left := if w.prePause = .fallback then 0 else w.recovering
    let answer := fun t => exec (.resumeOrder tag (sessionField i)) s = .next (endedWith 0x06 (sessionField i) 0 0xFF t)
    let back := recompute (s.setWork i { w with state := w.prePause })
    ((∃ k r, s.slot k = some r ∧ r.session = i ∧ r.state = .stalled) →
      answer (publish i x.prog.lo .fallback (recompute (s.setWork i { w with
        state := .fallback, recovering := 0, upStreak := 0
        preFallback := if w.prePause = .fallback then w.preFallback else w.current }))))
    ∧ ((∀ k r, s.slot k = some r → r.session = i → r.state ≠ .stalled) →
      (x.prog.resumeMode = .safe → answer (publish i x.prog.lo .resume
          (recompute (s.setWork i { w with state := .steady, upStreak := 0, recovering := left }))))
      ∧ (x.prog.resumeMode = .probe → answer (startProbe i .resume
          (recompute (s.setWork i { w with state := .probing, recovering := left }))))
      ∧ (x.prog.resumeMode = .hold → w.prePause = .steady → answer (steadyDecision i .steady .resume back))
      ∧ (x.prog.resumeMode = .hold → w.prePause = .boundary → answer (steadyDecision i .boundary .resume back))
      ∧ (x.prog.resumeMode = .hold → w.prePause = .fallback → answer (publish i x.prog.lo .resume back))
      ∧ (x.prog.resumeMode = .hold → w.prePause = .probing → w.a < w.b →
          answer (publish i (w.a + (w.b - w.a + 1) / 2) .resume back))
      ∧ (x.prog.resumeMode = .hold → w.prePause = .probing → w.a = w.b → answer (convergeProbe i w.a .resume back)))

/-- RECOVER taken: STEADY at the clamped pre-fallback rung or at lo, or a new probe; then RECOVERED with the recover mode and the
rung advised after it (R31, R139, R140). -/
def Obligations.RecoverByMode : Prop :=
  ∀ (tag : Tag) (i : SessionId) (s : State), Ready tag s → (s.session i).work.state = .fallback →
    (s.session i).prog.lo ≤ (s.session i).prog.hi →
    let x := s.session i
    let steady := s.setWork i { x.work with state := .steady, upStreak := 0, recovering := 0 }
    let answer := fun (mode rung : Nat) t => exec (.recoverOrder tag (sessionField i)) s
      = .next (endedWith 0x07 (sessionField i) 0 0xFF
          (post .recovered (sessionField i) (BitVec.ofNat 8 mode) (BitVec.ofNat 32 rung) 0 t))
    let rung := min x.prog.hi (max x.prog.lo x.work.preFallback)
    (x.prog.recoverMode = .hold → answer 0 rung (publish i rung .recover steady))
    ∧ (x.prog.recoverMode = .safe → answer 1 x.prog.lo (publish i x.prog.lo .recover steady))
    ∧ (x.prog.recoverMode = .probe →
        answer 2 (x.prog.lo + (x.prog.hi - x.prog.lo + 1) / 2) (startProbe i .recover steady))

/-- CONTINUE taken: BOUNDARY becomes STEADY, with the advice, the up streak, the decision count and the taken flag as they were
(R32, R149). -/
def Obligations.ContinueReturnsToSteady : Prop :=
  ∀ (tag : Tag) (i : SessionId) (s : State), Ready tag s → (s.session i).work.state = .boundary →
    exec (.continueOrder tag (sessionField i)) s
      = .next (endedWith 0x08 (sessionField i) 0 0xFF (s.setWork i { (s.session i).work with state := .steady }))

/-- FETCH taken: the lowest free slot filled with the record of R52 and named in the last order result; the next serial raised,
a consumer position 32,768 behind it dropped, and for MEDIA the current rung and the override count set (R50, R52, R53, R78). -/
def Obligations.FetchFillsTheLowestFreeSlot : Prop :=
  ∀ (tag : Tag) (i : SessionId) (f : FetchFields) (k : Slot) (s : State), Ready tag s →
    (s.session i).work.state ≠ .closed → fetchCause i f s = none →
    s.slot k = none → (∀ j, j < k → s.slot j ≠ none) →
    let x := s.session i
    let media := f.duration.toNat ≠ 0
    let rung := f.rung.toNat
    let record : FetchRecord :=
      { session := i, serial := x.nextSerial
        kind := if media then .media rung (min 20000 (max 100 f.duration.toNat)) else .other
        base := f.base.toNat, size := f.size.toNat, landed := 0, consumed := 0, state := .pending
        announce := s.timebase.tick, firstArrival := none, lastArrival := none
        deadline := some (s.timebase.tick + BitVec.ofNat 32 s.tracker.tFirst), stalls := 0 }
    let work := if media then { x.work with
        current := rung
        overrides := if rung = x.advice.rung then x.work.overrides else min 65535 (x.work.overrides + 1) }
      else x.work
    exec (.fetchOrder tag (sessionField i) f) s
      = .next (endedWith 0x09 (sessionField i) 0 (BitVec.ofNat 8 k.val)
          ((s.setSlot k (some record)).setSession i { x with
            nextSerial := x.nextSerial + 1
            position := x.position.filter fun p => decide ((x.nextSerial + 1 - p).toNat ≠ 32768)
            work := work }))

/-- ABORT of an open session: where no record of the session has exactly that base it is refused with NO_FETCH (R35); taken, the
session's record of that base is freed, and no other (R35, R73). Freeing (R72): of the slots, exactly
those whose record meets `p` become free; the arrivals in flight for them no longer count (R54), nor do the parts of consumer
reads in flight yielded for them (R82), while a part for a held segment, which has no slot, is not affected (R91); nothing else
changes. The standing marks that say so are the model's own fields (log entries 15 and 16). -/
def Obligations.AbortFreesTheRecord : Prop :=
  (∀ (tag : Tag) (i : SessionId) (base : BitVec 36) (k : Slot) (r : FetchRecord) (s : State), Ready tag s →
    (s.session i).work.state ≠ .closed → s.slot k = some r → r.session = i → r.base = base.toNat →
    exec (.abortOrder tag (sessionField i) base) s
      = .next (endedWith 0x0A (sessionField i) 0 0xFF
          (freeWhere (fun r => r.session == i && r.base == base.toNat) s)))
  ∧ (∀ (tag : Tag) (i : SessionId) (base : BitVec 36) (s : State), Ready tag s → (s.session i).work.state ≠ .closed →
    (∀ k r, s.slot k = some r → r.session = i → r.base ≠ base.toNat) →
    exec (.abortOrder tag (sessionField i) base) s = .next (refusedWith 0x0A (sessionField i) .noFetch s))
  ∧ ∀ (p : FetchRecord → Bool) (s : State),
      let t := freeWhere p s
      (∀ k, t.slot k = (s.slot k).filter fun r => !p r)
      ∧ t.inFlight.arrivals = s.inFlight.arrivals.map
          (fun a => if (s.slot a.slot).any p then { a with standing := false } else a)
      ∧ t.inFlight.consumerReads = s.inFlight.consumerReads.map (List.map fun c =>
          if c.slot.any (fun k => (s.slot k).any p) then { c with standing := false } else c)
      ∧ t = { s with
          tracker := { s.tracker with table := t.tracker.table }
          inFlight := { s.inFlight with arrivals := t.inFlight.arrivals, consumerReads := t.inFlight.consumerReads } }

/-- FLUSH taken: the session's records freed, its held list emptied, its consumer position NONE, REBUFFERING clear; its state,
advice, counts and next serial are kept (R36, R74, R92). Freeing a session's records changes the table and the standing of what is
in flight for that session alone (R54, R82), by the standing marks, the model's own fields (log entries 15 and 16). -/
def Obligations.FlushEmptiesTheSession : Prop :=
  ∀ (tag : Tag) (i : SessionId) (s : State),
    (Ready tag s → (s.session i).work.state ≠ .closed →
      exec (.flushOrder tag (sessionField i)) s
        = .next (endedWith 0x0B (sessionField i) 0 0xFF
            ((freeSession i s).setSession i { s.session i with held := [], position := none, rebuffering := false })))
    ∧ (∀ k, (freeSession i s).slot k = (s.slot k).filter fun r => r.session != i)
    ∧ freeSession i s = { s with
        tracker := { s.tracker with table := (freeSession i s).tracker.table }
        inFlight :=
          { orderWords := s.inFlight.orderWords
            arrivals := s.inFlight.arrivals.map fun a =>
              if (s.slot a.slot).any (fun r => r.session == i) then { a with standing := false } else a
            consumerReads := s.inFlight.consumerReads.map (List.map fun c =>
              if c.session = i then { c with standing := false } else c) } }

/-- RESET taken: every session CLOSED and zero, the table free, the meter UNSET with its window restarted, no shares, the event
queue and latch empty and LOST clear with no event; the settings, the page, the timebase and the mask kept (R37, R48, R75, R94,
R112, R128, R151, R193). What is in flight loses its standing, by the marks that are the model's own fields (R54, R82, log entries 15
and 16). -/
def Obligations.ResetKeepsTheSettings : Prop :=
  ∀ (tag : Tag) (field : BitVec 4) (s : State), Ready tag s →
    exec (.resetOrder tag field) s
      = .next (endedWith 0x0C field 0 0xFF { s with
          inFlight :=
            { orderWords := s.inFlight.orderWords
              arrivals := s.inFlight.arrivals.map fun a =>
                if s.slot a.slot = none then a else { a with standing := false }
              consumerReads := s.inFlight.consumerReads.map (List.map fun c => { c with standing := false }) }
          tracker := { s.tracker with table := Vector.replicate 16 none }
          meter := { s.meter with
            elapsed := 0, busy := 0, credited := 0, vFast := 0, vSlow := 0, set := false, link := none }
          arbiter := { headroom := 0, starved := false, received := none }
          sessions := Vector.replicate 4 Session.closed
          report := { s.report with events := [], lost := false, latch := .zero } })

/-- REACQUIRE: refused with NO_REFERENCE while the reference is ABSENT; taken on the internal oscillator, the source is REFERENCE,
COARSE clear, and a tick of divider + 1 cycles begins; taken on the reference, nothing changes in the timebase (R38, R47). -/
def Obligations.ReacquireTestsThePresence : Prop :=
  ∀ (tag : Tag) (field : BitVec 4) (s : State), Ready tag s →
    (s.timebase.presence = .absent →
      exec (.reacquireOrder tag field) s = .next (refusedWith 0x0D field .noReference s))
    ∧ (s.timebase.presence = .present → s.timebase.source = .internal →
        exec (.reacquireOrder tag field) s = .next (endedWith 0x0D field 0 0xFF { s with timebase := { s.timebase with
          source := .reference, coarse := false, cycleCount := 0, tickLength := s.timebase.divider + 1 } }))
    ∧ (s.timebase.presence = .present → s.timebase.source = .reference →
        exec (.reacquireOrder tag field) s = .next (endedWith 0x0D field 0 0xFF s))

/-! ### Arrivals and completion -/

/-- ARRIVAL of a record that still stands and is not completed by it: the landed HWM raised and never lowered, the rise credited
if the session is measuring, the record LANDING with its first-arrival tick kept or set and its gap deadline armed, and REVIVE
posted for a STALLED record (R54 to R59, R99). An arrival whose record has been freed is dropped (R54). -/
def Obligations.ArrivalIsCountedOrDropped : Prop :=
  ∀ (n : Nat) (a : Arrival) (s : State), s.inFlight.arrivals[n]? = some a →
    let u := { s with inFlight := { s.inFlight with arrivals := s.inFlight.arrivals.eraseIdx n } }
    (a.standing = false ∨ s.slot a.slot = none → exec (.arrival n) s = .next u)
    ∧ ∀ r, a.standing = true → s.slot a.slot = some r → r.landed ≤ r.size →
        let landed := max r.landed a.endOffset
        let v := if r.state = .stalled then
            post .revive (sessionField r.session) 0 (BitVec.ofNat 32 a.slot.val) (r.serial.setWidth 32) u else u
        let measuring := (s.session r.session).work.state ≠ .paused ∨ (s.session r.session).work.measure = true
        let credited := if measuring then min (2 ^ 48 - 1) (s.meter.credited + (landed - r.landed)) else s.meter.credited
        landed < r.size →
        exec (.arrival n) s = .next ({ v with meter := { s.meter with credited := credited } }.setSlot a.slot (some
          { r with
            landed := landed, state := .landing
            firstArrival := some (r.firstArrival.getD s.timebase.tick)
            lastArrival := some s.timebase.tick
            deadline := some (s.timebase.tick + BitVec.ofNat 32 s.tracker.tGap) }))

/-- ARRIVAL that raises the landed HWM to the size: REVIVE for a STALLED record, the last rise credited, the slot freed, FETCH_DONE
posted; an OTHER completion ends there, and a MEDIA one hands its segment to the held-segment unit and is then offered to the
session governor with its landing ticks and fetch sample (R60 to R64). What is in flight for the slot: the arrivals no longer count,
and the parts of consumer reads are from now on for the segment, by the model's own marks (R54, R82, log entries 15 and 16). -/
def Obligations.ArrivalCompletesTheFetch : Prop :=
  ∀ (n : Nat) (a : Arrival) (r : FetchRecord) (s : State), s.inFlight.arrivals[n]? = some a →
    a.standing = true → s.slot a.slot = some r → r.landed ≤ r.size → r.size ≤ max r.landed a.endOffset →
    let u := { s with inFlight := { s.inFlight with arrivals := s.inFlight.arrivals.eraseIdx n } }
    let v := if r.state = .stalled then
        post .revive (sessionField r.session) 0 (BitVec.ofNat 32 a.slot.val) (r.serial.setWidth 32) u else u
    let measuring := (s.session r.session).work.state ≠ .paused ∨ (s.session r.session).work.measure = true
    let credited := if measuring then min (2 ^ 48 - 1) (s.meter.credited + (r.size - r.landed)) else s.meter.credited
    let landing := s.timebase.tick - r.firstArrival.getD s.timebase.tick
    let sample := min 16777215 (r.size * 80 / max 1 landing.toNat)
    let done := post .fetchDone (sessionField r.session) (BitVec.ofNat 8 a.slot.val) (BitVec.ofNat 32 r.size) landing
      { v.setSlot a.slot none with
        meter := { s.meter with credited := credited }
        inFlight :=
          { orderWords := s.inFlight.orderWords
            arrivals := (s.inFlight.arrivals.eraseIdx n).map fun b => if b.slot = a.slot then { b with standing := false } else b
            consumerReads := s.inFlight.consumerReads.map (List.map fun c =>
              if c.slot = some a.slot then { c with slot := none } else c) } }
    (r.kind = .other → exec (.arrival n) s = .next done)
    ∧ ∀ rung duration, r.kind = .media rung duration →
        exec (.arrival n) s = .next (offerCompletion r.session rung landing.toNat sample
          (completeSegment r.session
            { serial := r.serial, base := r.base, size := r.size, duration := duration, consumed := r.consumed } done))

/-- A completed segment (R80, R81, R88): older than the consumer position it is declined and counted as a skip; read to its end
it is declined; otherwise it is held, in serial order, and with REBUFFERING set the level is tested against B_comfort. -/
def Obligations.CompletedSegmentIsHeldOrDeclined : Prop :=
  (∀ (i : SessionId) (h : HeldSegment) (s : State),
    let x := s.session i
    let y := { x with held := insertHeld h x.held }
    let behind := ∃ p, x.position = some p ∧ 1 ≤ (p - h.serial).toNat ∧ (p - h.serial).toNat ≤ 32767
    let level := bufferLevel (insertHeld h x.held)
    (behind → completeSegment i h s = s.setWork i { x.work with skips := min 65535 (x.work.skips + 1) })
    ∧ (¬ behind → h.consumed = h.size → completeSegment i h s = s)
    ∧ (¬ behind → h.consumed ≠ h.size → ¬ (x.rebuffering = true ∧ x.prog.comfort ≤ level) →
        completeSegment i h s = s.setSession i y)
    ∧ (¬ behind → h.consumed ≠ h.size → x.rebuffering = true → x.prog.comfort ≤ level →
        completeSegment i h s = post .refilled (sessionField i) 0 (BitVec.ofNat 32 level) 0
          (s.setSession i { y with rebuffering := false })))
  ∧ ∀ (h : HeldSegment) (held : List HeldSegment) (oldest : Serial),
      (∀ g ∈ h :: held, (g.serial - oldest).toNat ≤ 32767) →
      (∀ g ∈ held, g.serial ≠ h.serial) →
      held.Pairwise (fun g g' => (g.serial - oldest).toNat < (g'.serial - oldest).toNat) →
      (insertHeld h held).Perm (h :: held)
      ∧ (insertHeld h held).Pairwise fun g g' => (g.serial - oldest).toNat < (g'.serial - oldest).toNat

/-- A media completion offered to the session governor, by the session's state (R62, R138, R143, R157, R170, R172): a probe step,
a steady decision, a completion counted in FALLBACK, which recovers at the K-th, or nothing while PAUSED. -/
def Obligations.CompletionReachesTheGovernor : Prop :=
  ∀ (i : SessionId) (rung landing sample : Nat) (s : State),
    let x := s.session i
    let p := x.prog
    let offered := offerCompletion i rung landing sample s
    let f := clampRung p rung
    let good := decide (landing < s.minProbe) || decide (rate p f ≤ sample * s.meter.safety / 256)
    let ab := narrowed p.lo x.work.a x.work.b f good
    let stepped := { x.work with a := ab.1, b := ab.2, probeSteps := min 65535 (x.work.probeSteps + 1) }
    let counted := min 15 (x.work.recovering + 1)
    (x.work.state = .probing → ab.1 ≠ ab.2 →
      offered = publish i (ab.1 + (ab.2 - ab.1 + 1) / 2) .probe (s.setWork i stepped))
    ∧ (x.work.state = .probing → ab.1 = ab.2 →
        offered = post .probeDone (sessionField i) 0 (BitVec.ofNat 32 ab.1) (BitVec.ofNat 32 stepped.probeSteps)
          (publish i ab.1 .probe (s.setWork i { stepped with state := .steady, upStreak := 0 })))
    ∧ (x.work.state = .steady ∨ x.work.state = .boundary →
        offered = steadyDecision i x.work.state (if bufferLevel x.held < p.panic then .panic else .throughput) s)
    ∧ (x.work.state = .fallback → ¬ (1 ≤ p.autoRecover ∧ counted = p.autoRecover) →
        offered = publish i p.lo .fallback (s.setWork i { x.work with recovering := counted }))
    ∧ (x.work.state = .fallback → 1 ≤ p.autoRecover → counted = p.autoRecover →
        offered = recoverSession i (s.setWork i { x.work with recovering := counted }))
    ∧ (x.work.state = .paused → offered = s)

/-! ### Consumer reads -/

/-- CONSUMER_READ. Of any number of parts, it touches only the consumed HWMs of records, the sessions its parts name, and the event
queue with LOST, where it only posts (R82). The parts are applied in their order, each to what the one before it left; then each session
they name is judged once, over the whole read (R82, R84), by session number (log entry 14): an underrun if some part read a held
segment of it to its size and its list is left empty, unless it is PAUSED (R87, R89), then a panic crossing (R86). Of one part that
matches a MEDIA record (R82 to R84): the record's consumed HWM raised, older held segments skipped, the consumer position raised, and a
panic crossing judged; no removal, so no underrun. A part whose range was freed, or that matches nothing, is dropped. That the raised
mark stops at the size is R49's range (log entry 15). That a part matches the range it was yielded for, where two ranges of a session
bear its serial, is the model's choice (log entry 28). -/
def Obligations.ConsumerReadOfARecord : Prop :=
  (∀ (n : Nat) (s : State), ∃ t, exec (.consumerRead n) s = .next t
    ∧ t = { s with
        inFlight := { s.inFlight with consumerReads := s.inFlight.consumerReads.eraseIdx n }
        tracker := { s.tracker with table := t.tracker.table }, sessions := t.sessions
        report := { s.report with events := t.report.events, lost := t.report.lost } }
    ∧ s.report.events <+: t.report.events
    ∧ (∀ k, (t.slot k).map (fun r => { r with consumed := 0 }) = (s.slot k).map fun r => { r with consumed := 0 })
    ∧ ∀ i, (∀ parts, s.inFlight.consumerReads[n]? = some parts → ∀ p ∈ parts, p.session ≠ i) → t.session i = s.session i)
  ∧ (∀ (n : Nat) (parts : List ConsumerPart) (s : State), s.inFlight.consumerReads[n]? = some parts →
      let u := { s with inFlight := { s.inFlight with consumerReads := s.inFlight.consumerReads.eraseIdx n } }
      let applied := fun ps : List ConsumerPart => ps.foldl (fun t p => applyPart p t) u
      ∃ readOut : SessionId → Bool,
        (∀ i, readOut i = true ↔ ∃ earlier p later, parts = earlier ++ p :: later ∧ p.session = i ∧ p.standing = true
          ∧ (p.slot = none
            ∨ ∀ k r, (applied earlier).slot k = some r → ¬ (r.session = i ∧ r.serial = p.serial ∧ r.kind ≠ .other))
          ∧ ∃ h ∈ ((applied earlier).session i).held, h.serial = p.serial ∧ h.size ≤ max h.consumed p.endOffset)
        ∧ exec (.consumerRead n) s = .next
            (((List.finRange 4).filter fun i => parts.any fun p => p.session == i).foldl (fun t i =>
              let x := t.session i
              let count := min 65535 (x.work.rebuffers + 1)
              let v := if readOut i = true ∧ x.held = [] ∧ x.work.state ≠ .paused then
                  post .underrun (sessionField i) 0 (BitVec.ofNat 32 count) 0
                    (t.setSession i { x with work := { x.work with rebuffers := count }, rebuffering := true })
                else t
              if x.prog.panic ≤ bufferLevel (s.session i).held ∧ bufferLevel x.held < x.prog.panic
                  ∧ (x.work.state = .steady ∨ x.work.state = .boundary)
                then steadyDecision i x.work.state .panic v else v) (applied parts)))
  ∧ ∀ (n : Nat) (part : ConsumerPart) (s : State), s.inFlight.consumerReads[n]? = some [part] →
      let u := { s with inFlight := { s.inFlight with consumerReads := s.inFlight.consumerReads.eraseIdx n } }
      let i := part.session
      let x := s.session i
      let matching := fun r : FetchRecord => r.session = i ∧ r.serial = part.serial ∧ r.kind ≠ .other
      (part.standing = false ∨ (∀ k r, s.slot k = some r → ¬ matching r) ∧ (∀ h ∈ x.held, h.serial ≠ part.serial) →
        exec (.consumerRead n) s = .next u)
      ∧ ∀ k r, part.standing = true → s.slot k = some r → matching r →
          (part.slot = some k
            ∨ (part.slot = none → ∀ h ∈ x.held, h.serial ≠ part.serial) ∧ ∀ j r', s.slot j = some r' → matching r' → j = k) →
          let kept := x.held.filter fun h => !older h.serial part.serial
          let y := { x with
            held := kept
            work := { x.work with skips := min 65535 (x.work.skips + (x.held.length - kept.length)) }
            position := some (match x.position with
              | none => part.serial
              | some p => if older p part.serial then part.serial else p) }
          let read := (u.setSlot k (some { r with consumed := min r.size (max r.consumed part.endOffset) })).setSession i y
          exec (.consumerRead n) s = .next
            (if x.prog.panic ≤ bufferLevel x.held ∧ bufferLevel kept < x.prog.panic
                ∧ (x.work.state = .steady ∨ x.work.state = .boundary)
              then steadyDecision i x.work.state .panic read else read)

/-- CONSUMER_READ of one part that matches a held segment (R82 to R84, R86, R87, R89): its consumed HWM raised, older segments
skipped, the position raised, the segment removed when read to its size; an underrun if that empties the list while not PAUSED;
then a panic crossing, a decision point in STEADY and BOUNDARY alone. That the raised mark stops at the size is R76's range (log
entry 15). That a part without a slot matches the segment where a record bears its serial too is the model's choice (log
entry 28). -/
def Obligations.ConsumerReadOfAHeldSegment : Prop :=
  ∀ (n : Nat) (part : ConsumerPart) (h : HeldSegment) (s : State), s.inFlight.consumerReads[n]? = some [part] →
    let u := { s with inFlight := { s.inFlight with consumerReads := s.inFlight.consumerReads.eraseIdx n } }
    let i := part.session
    let x := s.session i
    part.standing = true →
    (part.slot = none ∨ ∀ k r, s.slot k = some r → ¬ (r.session = i ∧ r.serial = part.serial ∧ r.kind ≠ .other)) →
    h ∈ x.held → h.serial = part.serial → (∀ g ∈ x.held, g.serial = h.serial → g = h) →
    let mark := min h.size (max h.consumed part.endOffset)
    let raised := x.held.map fun g => if g.serial = h.serial then { g with consumed := mark } else g
    let kept := raised.filter fun g => !older g.serial h.serial
    let left := if mark = h.size then kept.filter fun g => g.serial != h.serial else kept
    let y := { x with
      held := left
      work := { x.work with skips := min 65535 (x.work.skips + (x.held.length - kept.length)) }
      position := some (match x.position with
        | none => h.serial
        | some p => if older p h.serial then h.serial else p) }
    let dry := mark = h.size ∧ left = [] ∧ x.work.state ≠ .paused
    let count := min 65535 (x.work.rebuffers + 1)
    let read := if dry then
        post .underrun (sessionField i) 0 (BitVec.ofNat 32 count) 0
          (u.setSession i { y with work := { y.work with rebuffers := count }, rebuffering := true })
      else u.setSession i y
    exec (.consumerRead n) s = .next
      (if x.prog.panic ≤ bufferLevel x.held ∧ bufferLevel left < x.prog.panic
          ∧ (x.work.state = .steady ∨ x.work.state = .boundary)
        then steadyDecision i x.work.state .panic read else read)

/-- The buffer level (R79): the durations of the held segments less the consumed part of the head, 0 for an empty list; with the
fields of R76 in range and at most 24 segments it lies in 0 to 480,000 ms and is 0 exactly when the list is empty. -/
def Obligations.BufferLevelIsTheUnreadTime : Prop :=
  bufferLevel [] = 0
  ∧ (∀ h rest, bufferLevel (h :: rest) = h.duration + (rest.map (·.duration)).sum - h.duration * h.consumed / h.size)
  ∧ ∀ held : List HeldSegment, held.length ≤ 24 → (∀ h ∈ held, HeldOk h) →
      bufferLevel held ≤ 480000 ∧ (bufferLevel held = 0 ↔ held = [])

/-! ### Ticks, expiries and windows -/

/-- TICK: the counter rises by one, wrapping, the cycle count starts again and the next tick lasts the divider now held plus one
(R39 to R41); taken with its deliveries, it is the bare tick followed by the expiries of R65 and the link meter's tick (R43, in the
model's order, log entry 4). A bare tick with nothing left over changes nothing else but that the meter is owed it (log entry 5). -/
def Obligations.TickAdvancesAndIsDelivered : Prop :=
  ∀ s : State,
    (∀ d, ∃ t, exec (.tick d) s = .next t ∧ t.timebase = { s.timebase with
      tick := s.timebase.tick + 1, cycleCount := 0, tickLength := s.timebase.divider + 1 })
    ∧ (s.meter.tickOwed = false →
        (∀ k r, s.slot k = some r → r.deadline ≠ some s.timebase.tick) →
        exec (.tick .deferred) s = .next { s with
          timebase := { s.timebase with
            tick := s.timebase.tick + 1, cycleCount := 0, tickLength := s.timebase.divider + 1 }
          meter := { s.meter with tickOwed := true } })
    ∧ ∃ u, exec (.tick .deferred) s = .next u
        ∧ exec (.tick .atOnce) s = execAll
            ((List.finRange 16).flatMap (fun k => [Instr.firstByteDeadlineExpiry k, .gapDeadlineExpiry k])
              ++ [.windowEnd]) u

/-- REFERENCE_LOSS and REFERENCE_RETURN (R44 to R46): the loss on the reference switches to the internal oscillator, sets COARSE,
abandons the cycle count, keeps the tick counter and posts COARSE; on the internal oscillator it posts nothing; the return makes the
presence PRESENT and leaves the source and COARSE. That an absent reference is not lost again, and that an abandoned cycle count is 0,
is the model's (log entries 6 and 13). -/
def Obligations.ReferenceLossAndReturn : Prop :=
  ∀ s : State,
    (s.timebase.presence = .present → s.timebase.source = .reference →
      exec .referenceLoss s = .next (post .coarse 0xF 0 s.timebase.tick 0 { s with timebase := { s.timebase with
        presence := .absent, source := .internal, coarse := true, cycleCount := 0 } }))
    ∧ (s.timebase.presence = .present → s.timebase.source = .internal →
        exec .referenceLoss s = .next { s with timebase := { s.timebase with presence := .absent } })
    ∧ (s.timebase.presence = .absent → exec .referenceLoss s = .next s)
    ∧ exec .referenceReturn s = .next { s with timebase := { s.timebase with presence := .present } }

/-- FIRST_BYTE_DEADLINE_EXPIRY and GAP_DEADLINE_EXPIRY, when the tick has reached the deadline (R65, R66): the record STALLED with
no deadline, both stall counts raised, STALL posted with the consequence of the session's state; then FALLBACK is entered with lo
published (R136), its auto-recover counter returns to 0 (R137), or a PAUSED session is left (R143). A deadline the tick has not
reached does not expire (R42; log entry 6). -/
def Obligations.DeadlineExpiryStalls : Prop :=
  ∀ (gap : Bool) (k : Slot) (s : State),
    let command : Instr := if gap then .gapDeadlineExpiry k else .firstByteDeadlineExpiry k
    ((∀ r, s.slot k = some r → ¬ (r.state = (if gap then .landing else .pending) ∧ r.deadline = some s.timebase.tick)) →
      exec command s = .next s)
    ∧ ∀ r, s.slot k = some r → r.state = (if gap then .landing else .pending) → r.deadline = some s.timebase.tick →
        let i := r.session
        let w := (s.session i).work
        let u := (s.setSlot k (some { r with state := .stalled, deadline := none, stalls := min 65535 (r.stalls + 1) })).setWork
          i { w with stalls := min 65535 (w.stalls + 1) }
        let stalled := fun consequence : Nat =>
          post .stall (sessionField i) (BitVec.ofNat 8 (consequence + if gap then 0x10 else 0)) (BitVec.ofNat 32 k.val)
            (r.serial.setWidth 32) u
        (w.state = .probing ∨ w.state = .steady ∨ w.state = .boundary →
          exec command s = .next (publish i (s.session i).prog.lo .fallback ((stalled 1).setWork i { w with
            stalls := min 65535 (w.stalls + 1)
            preFallback := w.current, state := .fallback, recovering := 0, upStreak := 0 })))
        ∧ (w.state = .fallback →
            exec command s = .next ((stalled 2).setWork i { w with stalls := min 65535 (w.stalls + 1), recovering := 0 }))
        ∧ (w.state = .paused → exec command s = .next (stalled 3))

/-- WINDOW_END: the meter takes the tick it is owed, counting it as busy while a record is LANDING with its session measuring (R69,
R97, R98). At W the window is judged and the next starts: busy for less than half, it is discarded (R100); UNSET, the sample sets
both estimates (R103); SET, it moves them, v_f held still while COARSE (R104, R106); L follows and is handed over (R107, R108). That
the owed tick is held, and that the command also counts a tick that ends no window, is the model's (log entries 5 and 6). -/
def Obligations.WindowEndJudgesTheWindow : Prop :=
  ∀ (landing : Bool) (s : State), s.meter.tickOwed = true →
    (landing = true ↔ ∃ k r, s.slot k = some r ∧ r.state = .landing
      ∧ ((s.session r.session).work.state ≠ .paused ∨ (s.session r.session).work.measure = true)) →
    let m := s.meter
    let busy := m.busy + if landing then 1 else 0
    let next := { m with tickOwed := false, elapsed := 0, busy := 0, credited := 0 }
    let x := min 16777215 (m.credited * 80 / busy)
    let toward := fun (v k : Nat) => ((v : Int) + (16 * (x : Int) - v) / 2 ^ k).toNat
    let linked := fun m : Meter =>
      .next (handOverLink { s with meter := { m with link := some (min m.vFast m.vSlow * m.safety / 4096) } })
    (m.elapsed + 1 ≠ m.window →
      exec .windowEnd s = .next { s with meter := { m with tickOwed := false, elapsed := m.elapsed + 1, busy := busy } })
    ∧ (m.elapsed + 1 = m.window → 2 * busy < m.window → exec .windowEnd s = .next { s with meter := next })
    ∧ (m.elapsed + 1 = m.window → m.window ≤ 2 * busy → m.set = false →
        exec .windowEnd s = linked { next with vFast := 16 * x, vSlow := 16 * x, set := true })
    ∧ (m.elapsed + 1 = m.window → m.window ≤ 2 * busy → m.set = true →
        exec .windowEnd s = linked { next with
          vFast := if s.timebase.coarse then m.vFast else toward m.vFast m.kFast
          vSlow := toward m.vSlow m.kSlow })

/-- The rounding of an update (R104, R105): from above an estimate falls by at least 1 and never below the sample; from below it
rises by the whole part of the difference over 2^k, never passes the sample, and stops exactly when less than 2^k sixteenths
away. -/
def Obligations.EstimateSettlesFromAboveAndBelow : Prop :=
  ∀ v x k : Nat, 1 ≤ k → k ≤ 6 →
    (16 * x < v → 16 * x ≤ smoothed v x k ∧ smoothed v x k < v)
    ∧ (v ≤ 16 * x → smoothed v x k = v + (16 * x - v) / 2 ^ k ∧ smoothed v x k ≤ 16 * x ∧ (smoothed v x k = v ↔ 16 * x - v < 2 ^ k))

/-! ### Shares -/

/-- A recompute (R117, R121 to R125): sessions that are not active get 0; with L absent, or L at or below F, every active session
gets its floor and the headroom is 0; with no active session the headroom is L; otherwise every share lies from floor to cap and
they sum with the headroom to L: each is its floor and what the rounds from L − F give it, of its demand, cap less floor, and the
headroom is what they leave (R122, R123). STARVED is set exactly in the third case, and posted when it moves. Nothing else
changes. The hand-over of L (R108): the value the arbiter last received changes nothing; another, or L become present or absent, is
received and recomputed with. -/
def Obligations.RecomputeDividesTheLink : Prop :=
  ∀ s : State,
    let t := recompute s
    let active := fun i => (s.session i).work.state ≠ .closed ∧ (s.session i).work.state ≠ .paused
    let floor := fun i => rate (s.session i).prog (s.session i).prog.lo
    let cap := fun i => rate (s.session i).prog (s.session i).prog.hi
    let sum := ((List.finRange 4).map fun i => if isActive (s.session i) then floor i else 0).sum
    (∀ i, t.session i = { s.session i with share := (t.session i).share })
    ∧ (∀ i, ¬ active i → (t.session i).share = 0)
    ∧ (s.arbiter.received = none →
        t.arbiter = { s.arbiter with headroom := 0, starved := false } ∧ ∀ i, active i → (t.session i).share = floor i)
    ∧ (∀ l, s.arbiter.received = some l → (∀ i, ¬ active i) →
        t.arbiter = { s.arbiter with headroom := l, starved := false })
    ∧ (∀ l, s.arbiter.received = some l → (∃ i, active i) → l ≤ sum →
        t.arbiter = { s.arbiter with headroom := 0, starved := true } ∧ ∀ i, active i → (t.session i).share = floor i)
    ∧ (∀ l, s.arbiter.received = some l → (∃ i, active i) → sum < l → (∀ i, active i → floor i ≤ cap i) →
        t.arbiter = { s.arbiter with headroom := t.arbiter.headroom, starved := false }
        ∧ (∀ i, active i → floor i ≤ (t.session i).share ∧ (t.session i).share ≤ cap i)
        ∧ shareSum t + t.arbiter.headroom = l)
    ∧ (∀ l, s.arbiter.received = some l → (∃ i, active i) → sum < l →
        let out := rounds (l - sum) (l - sum) ((List.finRange 4).map fun i =>
          if isActive (s.session i) then
            { weight := (s.session i).prog.weight, remaining := cap i - floor i, given := 0 }
          else { weight := 0, remaining := 0, given := 0 })
        t.arbiter.headroom = out.1
        ∧ ∀ i, active i → (out.2[i.val]?).map (fun c => floor i + c.given) = some (t.session i).share)
    ∧ t = { (if t.arbiter.starved = s.arbiter.starved then s else
        post .starved 0xF (if t.arbiter.starved then 1 else 0) (BitVec.ofNat 32 (s.arbiter.received.getD 0))
          (BitVec.ofNat 32 sum) s) with arbiter := t.arbiter, sessions := t.sessions }
    ∧ (s.meter.link = s.arbiter.received → handOverLink s = s)
    ∧ (s.meter.link ≠ s.arbiter.received →
        handOverLink s = recompute { s with arbiter := { s.arbiter with received := s.meter.link } })

/-- The rounds (R122, R123). With nothing left, or every session saturated, they end. Otherwise one round gives each session the
lesser of its gift floor(R × w / W_u) and its remaining demand, with R and W_u, the weights of the unsaturated sessions, as the round
begins; it is the last if it gives nothing, and is followed by the rounds from what it leaves if not. So what is given and what is left
always make up the remainder, no session is given more than its demand, and the rounds end only when nothing is left, when every session
is saturated, or when every gift is 0. -/
def Obligations.RoundsShareTheRemainder : Prop :=
  (∀ (r : Nat) (cs : List Claim),
    let weights := ((cs.filter fun c => decide (0 < c.remaining)).map (·.weight)).sum
    let gift := fun c : Claim => min (r * c.weight / weights) c.remaining
    let gave := (cs.map gift).sum
    (r = 0 ∨ (∀ c ∈ cs, c.remaining = 0) ∨ gave = 0 → rounds r r cs = (r, cs))
    ∧ (0 < r → 0 < gave → rounds r r cs = rounds (r - gave) (r - gave)
        (cs.map fun c => { c with remaining := c.remaining - gift c, given := c.given + gift c })))
  ∧ ∀ (r : Nat) (cs : List Claim), (∀ c ∈ cs, c.given = 0) →
    let out := rounds r r cs
    out.1 + givenSum out.2 = r
    ∧ out.2.map (fun c => (c.weight, c.given + c.remaining)) = cs.map (fun c => (c.weight, c.remaining))
    ∧ (out.1 = 0 ∨ (∀ c ∈ out.2, c.remaining = 0)
        ∨ ∀ c ∈ out.2, 0 < c.remaining → out.1 * c.weight / unsaturatedWeight out.2 = 0)

/-! ### Decisions and publication -/

/-- The steady decision. The throughput candidate is the highest rung of the window at or below the share, or lo (R160); the target
follows from the panic, up, down and hold steps (R161 to R164); it is clamped into the window; and with STOP, t_full above hi and
the target at hi the session is in BOUNDARY with its streak at U, BOUNDARY posted on entry alone (R165). -/
def Obligations.SteadyDecisionFollowsTheSteps : Prop :=
  (∀ (p : Programmed) (low high x : Nat), low ≤ high →
    let j := highestRung p low high x
    low ≤ j ∧ j ≤ high ∧ (∀ i, j < i → i ≤ high → x < rate p i)
      ∧ (rate p j ≤ x ∨ j = low ∧ ∀ i, low ≤ i → i ≤ high → x < rate p i))
  ∧ (∀ (coarse : Bool) (x : Session),
      let p := x.prog
      let level := bufferLevel x.held
      let t := highestRung p p.lo p.hi x.share
      let c := x.work.current
      let streak := min p.upCount (x.work.upStreak + 1)
      let bad := coarse = true ∨ x.rebuffering = true ∨ level < p.comfort
      let target := steadyTarget coarse x
      (level < p.panic → target = (p.lo, 0))
      ∧ (p.panic ≤ level → c < t → bad → target = (c, 0))
      ∧ (p.panic ≤ level → c < t → ¬ bad → streak < p.upCount → target = (c, streak))
      ∧ (p.panic ≤ level → c < t → ¬ bad → streak = p.upCount → target = (c + 1, 0))
      ∧ (p.panic ≤ level → t < c → p.comfort ≤ level → target = (max t (c - 1), 0))
      ∧ (p.panic ≤ level → t < c → level < p.comfort → target = (t, 0))
      ∧ (p.panic ≤ level → t = c → target = (c, 0)))
  ∧ ∀ (i : SessionId) (before : SessionState) (reason : Reason) (s : State),
      let x := s.session i
      let p := x.prog
      let target := steadyTarget s.timebase.coarse x
      let rung := if target.1 < p.lo then p.lo else if p.hi < target.1 then p.hi else target.1
      let full := highestRung p 0 (p.ladder.length - 1) (x.share + s.arbiter.headroom)
      let held := p.clip = .stop ∧ p.hi < full ∧ rung = p.hi
      let stays := publish i rung reason (s.setWork i { x.work with state := .boundary, upStreak := p.upCount })
      (¬ held → steadyDecision i before reason s
        = publish i rung reason (s.setWork i { x.work with state := .steady, upStreak := target.2 }))
      ∧ (held → before = .boundary → steadyDecision i before reason s = stays)
      ∧ (held → before ≠ .boundary → steadyDecision i before reason s
          = post .boundary (sessionField i) 0 (BitVec.ofNat 32 p.hi) (BitVec.ofNat 32 full) stays)

/-- Posting (R184, R185, R189): a kind not enabled is dropped, an event that finds 32 records is discarded with LOST set, any other
is appended with the tick as its stamp. The event line is asserted while the queue holds a record, so a posting of an enabled kind
leaves it asserted and any other leaves it as it was (R190). Publication (R156, R157): the record written whole, SUPERSEDED if the flag was clear, the
count raised, the flag cleared, and RUNG_CHANGE posted exactly when the rung moved. -/
def Obligations.PostingAndPublication : Prop :=
  (∀ (kind : EventKind) (session : BitVec 4) (code : BitVec 8) (a b : Word) (s : State),
    let posted := post kind session code a b s
    (s.report.mask.getLsbD kind.code.toNat = false → posted = s)
    ∧ (s.report.mask.getLsbD kind.code.toNat = true → 32 ≤ s.report.events.length →
        posted = { s with report := { s.report with lost := true } })
    ∧ (s.report.mask.getLsbD kind.code.toNat = true → s.report.events.length < 32 →
        posted = { s with report := { s.report with
          events := s.report.events ++ [⟨kind, session, code, s.timebase.tick, a, b⟩] } })
    ∧ (eventLine s = true ↔ s.report.events ≠ [])
    ∧ (eventLine posted = true ↔ eventLine s = true ∨ s.report.mask.getLsbD kind.code.toNat = true))
  ∧ ∀ (i : SessionId) (rung : Nat) (reason : Reason) (s : State),
      let x := s.session i
      let u := s.setSession i { x with
        advice :=
          { rung := rung, reason := reason, count := x.advice.count + 1, superseded := !x.taken
            buffer := bufferLevel x.held, tick := s.timebase.tick, state := x.work.state }
        taken := false }
      (rung = x.advice.rung → publish i rung reason s = u)
      ∧ (rung ≠ x.advice.rung → publish i rung reason s
          = post .rungChange (sessionField i) (BitVec.ofNat 8 reason.code) (BitVec.ofNat 32 x.advice.rung)
              (BitVec.ofNat 32 rung) u)

/-- The probe bounds after a test (R171): the three rows of the table, and every outcome inside the window; the four cases named
after it. -/
def Obligations.ProbeBoundsAfterATest : Prop :=
  ∀ lo a b hi f : Nat, lo ≤ a → a ≤ b → b ≤ hi → lo ≤ f → f ≤ hi →
    let good := narrowed lo a b f true
    let poor := narrowed lo a b f false
    good = (max a f, if b < max a f then max a f else b)
    ∧ (f = lo → poor = (if lo < a then lo else a, lo))
    ∧ (lo < f → poor = (if min b (f - 1) < a then min b (f - 1) else a, min b (f - 1)))
    ∧ (lo ≤ good.1 ∧ good.1 ≤ good.2 ∧ good.2 ≤ hi ∧ lo ≤ poor.1 ∧ poor.1 ≤ poor.2 ∧ poor.2 ≤ hi)
    ∧ (f ≤ a → good = (a, b)) ∧ (b < f → good = (f, f)) ∧ (f = lo → poor = (lo, lo))
    ∧ (lo < f → f ≤ a → poor = (f - 1, f - 1))

/-- A probe starts over the whole window with no steps, publishing the midpoint, and a window of one rung ends it at once with
PROBE_DONE and 0 steps (R169); without overrides every step at least halves the rungs left, rounded up (R172). -/
def Obligations.ProbeHalvesItsWindow : Prop :=
  (∀ (i : SessionId) (reason : Reason) (s : State),
    let x := s.session i
    let p := x.prog
    let started := { x.work with state := .probing, a := p.lo, b := p.hi, probeSteps := 0, upStreak := 0 }
    (p.lo < p.hi → startProbe i reason s = publish i (p.lo + (p.hi - p.lo + 1) / 2) reason (s.setWork i started))
    ∧ (p.lo = p.hi → startProbe i reason s = post .probeDone (sessionField i) 0 (BitVec.ofNat 32 p.lo) 0
        (publish i p.lo reason (s.setWork i { started with state := .steady }))))
  ∧ ∀ (lo a b : Nat) (good : Bool), lo ≤ a → a < b →
      let m := a + (b - a + 1) / 2
      let out := narrowed lo a b m good
      a < m ∧ m ≤ b ∧ 2 * (out.2 - out.1 + 1) ≤ b - a + 2

/-! ### Reports -/

/-- EVENT_POP, a read of the page that covers offset 0x240 (R5, R186, R187, R189): answered with the overlay of the state before
it; the head moves into the latch, and LOST clears and the event line is released if the queue is then empty (R190). On an
empty queue it has no effect at all. -/
def Obligations.EventPopTakesTheHead : Prop :=
  ∀ (tag : Tag) (offset : BitVec 12) (memory : List Byte) (error : Bool) (s : State), RangesOk s →
    pageReadOverlaps offset memory 0x240 0x240 = true →
    let address := pageBase s + offset.toNat
    let u := { s with ports :=
      { downstream := s.ports.downstream ++ [⟨BitVec.ofNat 36 address, .read, tag, memory.map fun _ => true, []⟩]
        upstream := s.ports.upstream ++ [⟨overlay s address memory, error⟩] } }
    (s.report.events = [] → exec (.eventPop tag offset memory error) s = .next u ∧ eventLine u = false)
    ∧ ∀ e rest, s.report.events = e :: rest →
        let popped := { u with report := { s.report with
          events := rest, latch := e, lost := s.report.lost && !rest.isEmpty } }
        exec (.eventPop tag offset memory error) s = .next popped ∧ (eventLine popped = true ↔ rest ≠ [])

/-- ADVICE_SLOT_READ, a read of the page that overlaps an advice slot (R5, R176, R182): answered with the overlay of the state
before it, it sets the advice-taken flag of each open session whose slot it overlaps, pops nothing and changes nothing else. -/
def Obligations.AdviceSlotReadMarksTaken : Prop :=
  ∀ (tag : Tag) (offset : BitVec 12) (memory : List Byte) (error : Bool) (s : State), RangesOk s →
    pageReadOverlaps offset memory 0x280 0x2FF = true →
    let address := pageBase s + offset.toNat
    ∃ t, exec (.adviceSlotRead tag offset memory error) s = .next t
      ∧ t = { s with
          ports :=
            { downstream := s.ports.downstream ++ [⟨BitVec.ofNat 36 address, .read, tag, memory.map fun _ => true, []⟩]
              upstream := s.ports.upstream ++ [⟨overlay s address memory, error⟩] }
          sessions := t.sessions }
      ∧ ∀ i : SessionId,
          let covered := offset.toNat < 0x280 + 32 * i.val + 32 ∧ 0x280 + 32 * i.val < offset.toNat + memory.length
          ((s.session i).work.state ≠ .closed → covered → t.session i = { s.session i with taken := true })
          ∧ ((s.session i).work.state = .closed ∨ ¬ covered → t.session i = s.session i)

/-- What the report aperture shows, word by word (R195): the summary word, at its six places (R178); the status block (R179); in the
event window the head to a popping read and the latch to any other (R186 to R188); the link block (R113, R180); an open session's
advice (R181) and snapshot (R95, R152, R183), and zeros for a CLOSED one; a record's fetch view entry (R71, R196), and zeros for a
free slot; zeros above 0x700; and the codes of the coded fields (R196). A figure is shown by as many of its lowest bits as its field has,
saturated where a table says so. -/
def Obligations.ReportWordsShowTheState : Prop :=
  (∀ (pops : Bool) (s : State),
    let word := reportWord pops s
    let bit := BitVec.ofBool
    let opened := fun i : SessionId => bit ((s.session i).work.state != .closed)
    let summary : Word := 0#3 ++ BitVec.ofNat 5 ((List.finRange 16).countP fun k => (s.slot k).isSome) ++ 0#4
      ++ opened 3 ++ opened 2 ++ opened 1 ++ opened 0 ++ 0#5 ++ bit (s.assembler.assembly != .idle) ++ bit s.meter.set
      ++ bit s.arbiter.starved ++ bit s.timebase.coarse ++ bit s.report.lost ++ BitVec.ofNat 6 s.report.events.length
    let r := s.assembler.last
    let e := if pops then s.report.events.headD .zero else s.report.latch
    (word 0x200 = summary ∧ word 0x240 = summary ∧ ∀ i : SessionId, word (0x280 + 32 * i.val) = summary)
    ∧ (word 0x204 = r.slot ++ r.code ++ 0#4 ++ r.session ++ r.kind ∧ word 0x208 = 0#16 ++ r.count
      ∧ word 0x20C = s.timebase.tick
      ∧ word 0x210 = 0#4 ++ s.classifier.straps ++ 0#14 ++ bit (s.timebase.presence == .absent)
          ++ bit (s.timebase.source == .internal)
      ∧ word 0x214 = (s.session 1).nextSerial ++ (s.session 0).nextSerial
      ∧ word 0x218 = (s.session 3).nextSerial ++ (s.session 2).nextSerial ∧ word 0x21C = 0
      ∧ word 0x220 = BitVec.ofNat 16 s.meter.window ++ BitVec.ofNat 16 s.timebase.divider
      ∧ word 0x224 = BitVec.ofNat 16 s.minProbe ++ BitVec.ofNat 16 s.meter.safety
      ∧ word 0x228 = BitVec.ofNat 16 (s.tracker.tGap / 10) ++ BitVec.ofNat 16 (s.tracker.tFirst / 10)
      ∧ word 0x22C = 0#8 ++ BitVec.ofNat 4 s.meter.kSlow ++ BitVec.ofNat 4 s.meter.kFast ++ s.report.mask
      ∧ ∀ j < 4, word (0x230 + 4 * j) = 0)
    ∧ (word 0x244 = 0 ∧ word 0x248 = 0 ∧ word 0x24C = 0
      ∧ word 0x250 = 0#8 ++ e.code ++ 0#4 ++ e.session ++ e.kind.code
      ∧ word 0x254 = e.stamp ∧ word 0x258 = e.valueA ∧ word 0x25C = e.valueB)
    ∧ (word 0x260 = BitVec.ofNat 32 (s.meter.link.getD 0) ∧ word 0x264 = BitVec.ofNat 32 (s.meter.vFast / 16)
      ∧ word 0x268 = BitVec.ofNat 32 (s.meter.vSlow / 16) ∧ word 0x26C = BitVec.ofNat 32 s.arbiter.headroom
      ∧ word 0x270 = 0#31 ++ bit s.meter.set
      ∧ word 0x274 = BitVec.ofNat 16 s.meter.busy ++ BitVec.ofNat 16 s.meter.elapsed
      ∧ word 0x278 = BitVec.ofNat 32 (min s.meter.credited 4294967295) ∧ word 0x27C = 0)
    ∧ (∀ i : SessionId,
        let x := s.session i
        let p := x.prog
        let w := x.work
        let slot := fun o => word (0x280 + 32 * i.val + o)
        let snap := fun o => word (0x300 + 128 * i.val + o)
        (w.state = .closed →
          (∀ j, 1 ≤ j → j < 8 → slot (4 * j) = 0) ∧ ∀ j < 32, snap (4 * j) = 0)
        ∧ (w.state ≠ .closed →
          (slot 0x04 = 0#6 ++ bit x.taken ++ bit x.advice.superseded ++ 0#5 ++ BitVec.ofNat 3 x.advice.state.code ++ 0#4
              ++ BitVec.ofNat 4 x.advice.reason.code ++ 0#5 ++ BitVec.ofNat 3 x.advice.rung
            ∧ slot 0x08 = 0#16 ++ x.advice.count ∧ slot 0x0C = BitVec.ofNat 32 x.advice.buffer
            ∧ slot 0x10 = x.advice.tick ∧ slot 0x14 = BitVec.ofNat 32 x.share ∧ slot 0x18 = 0 ∧ slot 0x1C = 0)
          ∧ (snap 0x00 = 0#2 ++ BitVec.ofNat 2 p.resumeMode.code ++ BitVec.ofNat 4 p.upCount ++ BitVec.ofNat 8 p.weight
                ++ 0#1 ++ BitVec.ofNat 3 p.hi ++ 0#1 ++ BitVec.ofNat 3 p.lo ++ BitVec.ofNat 2 p.recoverMode.code
                ++ BitVec.ofNat 1 p.clip.code ++ 0#1 ++ BitVec.ofNat 4 p.ladder.length
            ∧ snap 0x04 = 0#8 ++ BitVec.ofNat 4 p.autoRecover ++ p.consumerTag ++ BitVec.ofNat 16 p.panic
            ∧ snap 0x08 = 0#16 ++ BitVec.ofNat 16 p.comfort ∧ snap 0x0C = 0
            ∧ (∀ j < 8, snap (0x10 + 4 * j) = 0#8 ++ BitVec.ofNat 24 (p.ladder.getD j 0))
            ∧ snap 0x30 = 0#1 ++ BitVec.ofNat 3 w.preFallback ++ BitVec.ofNat 4 w.upStreak ++ 0#1 ++ BitVec.ofNat 3 w.b
                ++ 0#1 ++ BitVec.ofNat 3 w.a ++ 0#1 ++ BitVec.ofNat 3 x.advice.rung ++ 0#1 ++ BitVec.ofNat 3 w.current
                ++ bit w.measure ++ BitVec.ofNat 3 w.prePause.code ++ 0#1 ++ BitVec.ofNat 3 w.state.code
            ∧ snap 0x34 = BitVec.ofNat 16 w.probeSteps ++ 0#12 ++ BitVec.ofNat 4 w.recovering
            ∧ snap 0x38 = BitVec.ofNat 16 w.rebuffers ++ x.advice.count
            ∧ snap 0x3C = BitVec.ofNat 16 w.skips ++ BitVec.ofNat 16 w.stalls
            ∧ snap 0x40 = 0#16 ++ BitVec.ofNat 16 w.overrides ∧ snap 0x44 = BitVec.ofNat 32 x.share
            ∧ snap 0x48 = x.position.getD 0 ++ 0#6 ++ bit x.position.isNone ++ bit x.rebuffering ++ 0#3
                ++ BitVec.ofNat 5 x.held.length
            ∧ snap 0x4C = BitVec.ofNat 32 (bufferLevel x.held)
            ∧ (x.held = [] → snap 0x50 = 0 ∧ snap 0x54 = 0)
            ∧ (∀ h rest, x.held = h :: rest →
                snap 0x50 = BitVec.ofNat 16 h.duration ++ h.serial ∧ snap 0x54 = BitVec.ofNat 32 h.consumed)
            ∧ ∀ j, 22 ≤ j → j < 32 → snap (4 * j) = 0)))
    ∧ (∀ k : Slot,
        let entry := fun o => word (0x500 + 32 * k.val + o)
        (s.slot k = none → ∀ j < 8, entry (4 * j) = 0)
        ∧ ∀ q, s.slot k = some q →
            let interval := match q.firstArrival with
              | none => 0
              | some tick => min (tick - q.announce).toNat 16777215
            let media := match q.kind with
              | .media rung duration => (rung, duration)
              | .other => (0, 0)
            entry 0x00 = BitVec.ofNat 24 interval ++ 0#1 ++ BitVec.ofNat 2 q.session.val ++ bit q.lastArrival.isSome
                ++ bit q.firstArrival.isSome ++ bit (q.kind != .other) ++ BitVec.ofNat 2 q.state.code
            ∧ entry 0x04 = 0#1 ++ BitVec.ofNat 15 media.2 ++ q.serial ∧ entry 0x08 = BitVec.ofNat 32 (q.base / 16)
            ∧ entry 0x0C = 0#1 ++ BitVec.ofNat 3 media.1 ++ 0#1 ++ BitVec.ofNat 27 q.size
            ∧ entry 0x10 = BitVec.ofNat 5 (min q.stalls 31) ++ BitVec.ofNat 27 q.landed
            ∧ entry 0x14 = 0#5 ++ BitVec.ofNat 27 q.consumed ∧ entry 0x18 = q.announce
            ∧ entry 0x1C = q.lastArrival.getD 0)
    ∧ ∀ o, 0x700 ≤ o → o < 0x1000 → word o = 0)
  ∧ [SessionState.closed, .probing, .steady, .boundary, .fallback, .paused].map (·.code) = [0, 1, 2, 3, 4, 5]
  ∧ [FetchState.pending, .landing, .stalled].map (·.code) = [1, 2, 3]
  ∧ [Mode.hold, .safe, .probe].map (·.code) = [0, 1, 2] ∧ [ClipMode.clamp, .stop].map (·.code) = [0, 1]
  ∧ [Reason.none, .throughput, .panic, .fallback, .window, .resume, .recover, .probe].map (·.code)
      = [0, 1, 2, 3, 4, 5, 6, 7]
  ∧ [EventKind.none, .orderRefused, .stall, .revive, .recovered, .probeDone, .rungChange, .boundary, .underrun, .refilled,
        .starved, .coarse, .fetchDone].map (·.code)
      = [0x00, 0x01, 0x02, 0x03, 0x04, 0x05, 0x06, 0x07, 0x08, 0x09, 0x0A, 0x0B, 0x0C]
  ∧ [Cause.badCheck, .truncated, .outOfSequence, .badWrite, .unknownKind, .badLength, .notIdle, .noSession, .sessionOpen,
        .badLadder, .tableFull, .listFull, .overlap, .badRange, .badRung, .wrongState, .noFetch, .noReference].map causeCode
      = [0x01, 0x02, 0x03, 0x04, 0x05, 0x06, 0x07, 0x08, 0x09, 0x0A, 0x0B, 0x0C, 0x0D, 0x0E, 0x0F, 0x10, 0x11, 0x12]
end

