-- ==== Sys2Proof/Laws/State.lean ====
section
/-! SUPPORT. The small lemmas of the state's updates: what reading a session, a slot or a field gives after `setSession`, `setWork`
and `setSlot`. -/

namespace Sys2Proof.Machine

/-! ### Two states with the same sessions or the same table -/

theorem session_congr {s t : State} (h : t.sessions = s.sessions) (i : SessionId) : t.session i = s.session i := by
  simp [State.session, h]

theorem slot_congr {s t : State} (h : t.tracker.table = s.tracker.table) (k : Slot) : t.slot k = s.slot k := by
  simp [State.slot, h]

/-- Two session vectors that agree at every session number are equal. -/
theorem sessions_ext {u v : Vector Session 4} (h : ∀ i : SessionId, u[i] = v[i]) : u = v :=
  Vector.ext fun n hn => h ⟨n, hn⟩

/-- Two tables that agree at every slot are equal. -/
theorem table_ext {u v : Vector (Option FetchRecord) 16} (h : ∀ k : Slot, u[k] = v[k]) : u = v :=
  Vector.ext fun n hn => h ⟨n, hn⟩

/-! ### `setSession` -/

@[simp] theorem session_setSession_self (s : State) (i : SessionId) (x : Session) : (s.setSession i x).session i = x := by
  simp [State.session, State.setSession]

theorem session_setSession_of_ne (s : State) {i j : SessionId} (x : Session) (h : j ≠ i) :
    (s.setSession i x).session j = s.session j := by
  have : (i : Nat) ≠ j := fun e => h (Fin.ext e.symm)
  simp [State.session, State.setSession, Vector.getElem_set_ne, this]

theorem session_setSession (s : State) (i j : SessionId) (x : Session) :
    (s.setSession i x).session j = if j = i then x else s.session j := by
  split
  · next h => subst h; simp
  · next h => exact session_setSession_of_ne s x h

@[simp] theorem setSession_setSession (s : State) (i : SessionId) (x y : Session) :
    (s.setSession i x).setSession i y = s.setSession i y := by
  simp [State.setSession]

@[simp] theorem setSession_session (s : State) (i : SessionId) : s.setSession i (s.session i) = s := by
  simp [State.setSession, State.session]

@[simp] theorem setSession_classifier (s : State) (i : SessionId) (x : Session) :
    (s.setSession i x).classifier = s.classifier := rfl
@[simp] theorem setSession_inFlight (s : State) (i : SessionId) (x : Session) :
    (s.setSession i x).inFlight = s.inFlight := rfl
@[simp] theorem setSession_ports (s : State) (i : SessionId) (x : Session) : (s.setSession i x).ports = s.ports := rfl
@[simp] theorem setSession_assembler (s : State) (i : SessionId) (x : Session) :
    (s.setSession i x).assembler = s.assembler := rfl
@[simp] theorem setSession_timebase (s : State) (i : SessionId) (x : Session) :
    (s.setSession i x).timebase = s.timebase := rfl
@[simp] theorem setSession_tracker (s : State) (i : SessionId) (x : Session) :
    (s.setSession i x).tracker = s.tracker := rfl
@[simp] theorem setSession_meter (s : State) (i : SessionId) (x : Session) : (s.setSession i x).meter = s.meter := rfl
@[simp] theorem setSession_arbiter (s : State) (i : SessionId) (x : Session) :
    (s.setSession i x).arbiter = s.arbiter := rfl
@[simp] theorem setSession_minProbe (s : State) (i : SessionId) (x : Session) :
    (s.setSession i x).minProbe = s.minProbe := rfl
@[simp] theorem setSession_report (s : State) (i : SessionId) (x : Session) :
    (s.setSession i x).report = s.report := rfl
@[simp] theorem setSession_pending (s : State) (i : SessionId) (x : Session) :
    (s.setSession i x).pending = s.pending := rfl
@[simp] theorem setSession_slot (s : State) (i : SessionId) (x : Session) (k : Slot) :
    (s.setSession i x).slot k = s.slot k := rfl

/-! ### `setWork` -/

@[simp] theorem session_setWork_self (s : State) (i : SessionId) (w : Working) :
    (s.setWork i w).session i = { s.session i with work := w } := by
  simp [State.setWork]

theorem session_setWork_of_ne (s : State) {i j : SessionId} (w : Working) (h : j ≠ i) :
    (s.setWork i w).session j = s.session j :=
  session_setSession_of_ne s _ h

@[simp] theorem setWork_setWork (s : State) (i : SessionId) (v w : Working) :
    (s.setWork i v).setWork i w = s.setWork i w := by
  simp [State.setWork]

@[simp] theorem setSession_setWork (s : State) (i : SessionId) (w : Working) (x : Session) :
    (s.setWork i w).setSession i x = s.setSession i x := by
  simp [State.setWork]

@[simp] theorem setWork_setSession (s : State) (i : SessionId) (w : Working) (x : Session) :
    (s.setSession i x).setWork i w = s.setSession i { x with work := w } := by
  simp [State.setWork]

@[simp] theorem setWork_classifier (s : State) (i : SessionId) (w : Working) :
    (s.setWork i w).classifier = s.classifier := rfl
@[simp] theorem setWork_inFlight (s : State) (i : SessionId) (w : Working) : (s.setWork i w).inFlight = s.inFlight := rfl
@[simp] theorem setWork_ports (s : State) (i : SessionId) (w : Working) : (s.setWork i w).ports = s.ports := rfl
@[simp] theorem setWork_assembler (s : State) (i : SessionId) (w : Working) :
    (s.setWork i w).assembler = s.assembler := rfl
@[simp] theorem setWork_timebase (s : State) (i : SessionId) (w : Working) : (s.setWork i w).timebase = s.timebase := rfl
@[simp] theorem setWork_tracker (s : State) (i : SessionId) (w : Working) : (s.setWork i w).tracker = s.tracker := rfl
@[simp] theorem setWork_meter (s : State) (i : SessionId) (w : Working) : (s.setWork i w).meter = s.meter := rfl
@[simp] theorem setWork_arbiter (s : State) (i : SessionId) (w : Working) : (s.setWork i w).arbiter = s.arbiter := rfl
@[simp] theorem setWork_minProbe (s : State) (i : SessionId) (w : Working) : (s.setWork i w).minProbe = s.minProbe := rfl
@[simp] theorem setWork_report (s : State) (i : SessionId) (w : Working) : (s.setWork i w).report = s.report := rfl
@[simp] theorem setWork_pending (s : State) (i : SessionId) (w : Working) : (s.setWork i w).pending = s.pending := rfl
@[simp] theorem setWork_slot (s : State) (i : SessionId) (w : Working) (k : Slot) : (s.setWork i w).slot k = s.slot k := rfl

/-! ### `setSlot` -/

@[simp] theorem slot_setSlot_self (s : State) (k : Slot) (r : Option FetchRecord) : (s.setSlot k r).slot k = r := by
  simp [State.slot, State.setSlot]

theorem slot_setSlot_of_ne (s : State) {k j : Slot} (r : Option FetchRecord) (h : j ≠ k) :
    (s.setSlot k r).slot j = s.slot j := by
  have : (k : Nat) ≠ j := fun e => h (Fin.ext e.symm)
  simp [State.slot, State.setSlot, Vector.getElem_set_ne, this]

theorem slot_setSlot (s : State) (k j : Slot) (r : Option FetchRecord) :
    (s.setSlot k r).slot j = if j = k then r else s.slot j := by
  split
  · next h => subst h; simp
  · next h => exact slot_setSlot_of_ne s r h

@[simp] theorem setSlot_setSlot (s : State) (k : Slot) (q r : Option FetchRecord) :
    (s.setSlot k q).setSlot k r = s.setSlot k r := by
  simp [State.setSlot]

@[simp] theorem setSlot_classifier (s : State) (k : Slot) (r : Option FetchRecord) :
    (s.setSlot k r).classifier = s.classifier := rfl
@[simp] theorem setSlot_inFlight (s : State) (k : Slot) (r : Option FetchRecord) :
    (s.setSlot k r).inFlight = s.inFlight := rfl
@[simp] theorem setSlot_ports (s : State) (k : Slot) (r : Option FetchRecord) : (s.setSlot k r).ports = s.ports := rfl
@[simp] theorem setSlot_assembler (s : State) (k : Slot) (r : Option FetchRecord) :
    (s.setSlot k r).assembler = s.assembler := rfl
@[simp] theorem setSlot_timebase (s : State) (k : Slot) (r : Option FetchRecord) :
    (s.setSlot k r).timebase = s.timebase := rfl
@[simp] theorem setSlot_tFirst (s : State) (k : Slot) (r : Option FetchRecord) :
    (s.setSlot k r).tracker.tFirst = s.tracker.tFirst := rfl
@[simp] theorem setSlot_tGap (s : State) (k : Slot) (r : Option FetchRecord) :
    (s.setSlot k r).tracker.tGap = s.tracker.tGap := rfl
@[simp] theorem setSlot_meter (s : State) (k : Slot) (r : Option FetchRecord) : (s.setSlot k r).meter = s.meter := rfl
@[simp] theorem setSlot_arbiter (s : State) (k : Slot) (r : Option FetchRecord) : (s.setSlot k r).arbiter = s.arbiter := rfl
@[simp] theorem setSlot_sessions (s : State) (k : Slot) (r : Option FetchRecord) :
    (s.setSlot k r).sessions = s.sessions := rfl
@[simp] theorem setSlot_session (s : State) (k : Slot) (r : Option FetchRecord) (i : SessionId) :
    (s.setSlot k r).session i = s.session i := rfl
@[simp] theorem setSlot_minProbe (s : State) (k : Slot) (r : Option FetchRecord) :
    (s.setSlot k r).minProbe = s.minProbe := rfl
@[simp] theorem setSlot_report (s : State) (k : Slot) (r : Option FetchRecord) : (s.setSlot k r).report = s.report := rfl
@[simp] theorem setSlot_pending (s : State) (k : Slot) (r : Option FetchRecord) :
    (s.setSlot k r).pending = s.pending := rfl

/-! ### Session numbers -/

@[simp] theorem sessionOf_sessionField (i : SessionId) : sessionOf (sessionField i) = i := by
  revert i; decide

@[simp] theorem sessionField_le (i : SessionId) : (sessionField i).toNat ≤ 3 := by
  revert i; decide

end Sys2Proof.Machine
end

