-- ==== Sys2Proof/Laws/Ops.lean ====
section
/-! SUPPORT. One lemma per shared operation of Machine/Ops.lean: posting, freeing, and the buffer level. -/

namespace Sys2Proof.Machine

/-! ### Numbers -/

theorem bump_le (n : Nat) : bump n ≤ Config.countLimit := Nat.min_le_left _ _

/-- A clamp whose range is not empty is the least of the top and the greatest of the bottom and the value. -/
theorem clampTo_eq {low high : Nat} (h : low ≤ high) (v : Nat) : clampTo low high v = min high (max low v) := by
  unfold clampTo; split <;> [skip; split] <;> omega

theorem clampTo_mem {low high : Nat} (h : low ≤ high) (v : Nat) : low ≤ clampTo low high v ∧ clampTo low high v ≤ high := by
  rw [clampTo_eq h]; omega

/-! ### Posting -/

/-- Posting changes only the queue and LOST. -/
theorem post_eq (kind : EventKind) (session : BitVec 4) (code : BitVec 8) (a b : Word) (s : State) :
    post kind session code a b s = { s with report := { s.report with
      events := (post kind session code a b s).report.events
      lost := (post kind session code a b s).report.lost } } := by
  unfold post; split <;> [split; skip] <;> rfl

section post
variable (kind : EventKind) (session : BitVec 4) (code : BitVec 8) (a b : Word) (s : State)

@[simp] theorem post_classifier : (post kind session code a b s).classifier = s.classifier := by rw [post_eq]
@[simp] theorem post_inFlight : (post kind session code a b s).inFlight = s.inFlight := by rw [post_eq]
@[simp] theorem post_ports : (post kind session code a b s).ports = s.ports := by rw [post_eq]
@[simp] theorem post_assembler : (post kind session code a b s).assembler = s.assembler := by rw [post_eq]
@[simp] theorem post_timebase : (post kind session code a b s).timebase = s.timebase := by rw [post_eq]
@[simp] theorem post_tracker : (post kind session code a b s).tracker = s.tracker := by rw [post_eq]
@[simp] theorem post_meter : (post kind session code a b s).meter = s.meter := by rw [post_eq]
@[simp] theorem post_arbiter : (post kind session code a b s).arbiter = s.arbiter := by rw [post_eq]
@[simp] theorem post_sessions : (post kind session code a b s).sessions = s.sessions := by rw [post_eq]
@[simp] theorem post_minProbe : (post kind session code a b s).minProbe = s.minProbe := by rw [post_eq]
@[simp] theorem post_pending : (post kind session code a b s).pending = s.pending := by rw [post_eq]
@[simp] theorem post_mask : (post kind session code a b s).report.mask = s.report.mask := by rw [post_eq]
@[simp] theorem post_latch : (post kind session code a b s).report.latch = s.report.latch := by rw [post_eq]

@[simp] theorem post_session (i : SessionId) : (post kind session code a b s).session i = s.session i :=
  session_congr (post_sessions ..) i

@[simp] theorem post_slot (k : Slot) : (post kind session code a b s).slot k = s.slot k :=
  slot_congr (congrArg Tracker.table (post_tracker ..)) k

/-- What is queued stays queued, in order. -/
theorem post_events : s.report.events <+: (post kind session code a b s).report.events := by
  unfold post; split <;> [split; skip] <;> simp

/-- Posting keeps the law of the event queue. -/
theorem post_queueOk (h : QueueOk s) : QueueOk (post kind session code a b s) := by
  unfold QueueOk post at *
  split <;> [split; skip]
  · next h32 => exact ⟨h.1, fun _ e => by
      have e' : s.report.events = [] := e
      simp [e', Config.queueDepth] at h32⟩
  · next h32 => simp only [List.length_append, List.length_singleton]; exact ⟨by omega, by simp⟩
  · exact h

end post

/-! ### Freeing -/

@[simp] theorem freeSlot_slot (k j : Slot) (s : State) : (freeSlot k s).slot j = if j = k then none else s.slot j := by
  show (s.setSlot k none).slot j = _
  exact slot_setSlot ..

@[simp] theorem freeSlot_session (k : Slot) (s : State) (i : SessionId) : (freeSlot k s).session i = s.session i := rfl

/-- Freeing a slot changes only its record and the standing of the arrivals in flight for it. -/
theorem freeSlot_eq (k : Slot) (s : State) : freeSlot k s = { s with
    tracker := { s.tracker with table := s.tracker.table.set k none }
    inFlight := { s.inFlight with
      arrivals := s.inFlight.arrivals.map fun a => if a.slot = k then { a with standing := false } else a } } := rfl

@[simp] theorem mapParts_slot (f : ConsumerPart → ConsumerPart) (s : State) (k : Slot) : (mapParts f s).slot k = s.slot k := rfl
@[simp] theorem mapParts_session (f : ConsumerPart → ConsumerPart) (s : State) (i : SessionId) :
    (mapParts f s).session i = s.session i := rfl
@[simp] theorem dropParts_slot (p : ConsumerPart → Bool) (s : State) (k : Slot) : (dropParts p s).slot k = s.slot k := rfl
@[simp] theorem dropParts_session (p : ConsumerPart → Bool) (s : State) (i : SessionId) :
    (dropParts p s).session i = s.session i := rfl
@[simp] theorem passParts_slot (k j : Slot) (s : State) : (passParts k s).slot j = s.slot j := rfl
@[simp] theorem passParts_session (k : Slot) (s : State) (i : SessionId) : (passParts k s).session i = s.session i := rfl

/-- Freeing records by an order changes only the table and what is in flight: the order words stay. -/
structure FreesOnly (s t : State) : Prop where
  eq : t = { s with
    tracker := { s.tracker with table := t.tracker.table }
    inFlight := { s.inFlight with arrivals := t.inFlight.arrivals, consumerReads := t.inFlight.consumerReads } }

theorem FreesOnly.refl (s : State) : FreesOnly s s := ⟨rfl⟩

theorem FreesOnly.trans {s t u : State} (h : FreesOnly s t) (h' : FreesOnly t u) : FreesOnly s u :=
  ⟨by have e := h'.eq; rw [h.eq] at e; exact e⟩

theorem FreesOnly.session {s t : State} (h : FreesOnly s t) (i : SessionId) : t.session i = s.session i :=
  session_congr (by rw [h.eq]) i

/-- One step of `freeWhere`: the slot is freed exactly when its record meets `p`. -/
theorem freeIf_spec (p : FetchRecord → Bool) (s : State) (k : Slot) :
    FreesOnly s (freeIf p s k)
    ∧ (∀ j, (freeIf p s k).slot j = if j = k then (s.slot j).filter (fun r => !p r) else s.slot j)
    ∧ (freeIf p s k).inFlight.arrivals = s.inFlight.arrivals.map
        (fun a => if a.slot = k ∧ (s.slot k).any p then { a with standing := false } else a) := by
  unfold freeIf
  split
  · next r hr =>
    split
    · next hp =>
      refine ⟨⟨rfl⟩, fun j => ?_, ?_⟩
      · show (freeSlot k s).slot j = _
        rw [freeSlot_slot]
        by_cases h : j = k
        · subst h; simp [hr, hp, Option.filter]
        · simp [h]
      · show (freeSlot k s).inFlight.arrivals = _
        simp [freeSlot_eq, hr, hp]
    · next hp =>
      refine ⟨.refl s, fun j => ?_, by simp [hr, hp]⟩
      by_cases h : j = k
      · subst h; simp [hr, hp, Option.filter]
      · simp [h]
  · next hr =>
    refine ⟨.refl s, fun j => ?_, by simp [hr]⟩
    by_cases h : j = k
    · subst h; simp [hr]
    · simp [h]

/-- Freeing where `p` holds, over any list of slots without repeats. -/
theorem freeFold_spec (p : FetchRecord → Bool) (ks : List Slot) (s : State) (hk : ks.Nodup) :
    FreesOnly s (ks.foldl (freeIf p) s)
    ∧ (∀ j, (ks.foldl (freeIf p) s).slot j = if j ∈ ks then (s.slot j).filter (fun r => !p r) else s.slot j)
    ∧ (ks.foldl (freeIf p) s).inFlight.arrivals = s.inFlight.arrivals.map
        (fun a => if a.slot ∈ ks ∧ (s.slot a.slot).any p then { a with standing := false } else a) := by
  induction ks generalizing s with
  | nil => simp [FreesOnly.refl]
  | cons k ks ih =>
    obtain ⟨f, hs, ha⟩ := freeIf_spec p s k
    obtain ⟨f', hs', ha'⟩ := ih (freeIf p s k) (List.nodup_cons.1 hk).2
    have hn : k ∉ ks := (List.nodup_cons.1 hk).1
    refine ⟨f.trans f', fun j => ?_, ?_⟩
    · rw [List.foldl_cons, hs', hs]
      by_cases h : j = k
      · subst h; simp [hn]
      · simp [h]
    · rw [List.foldl_cons, ha', ha, List.map_map]
      refine List.map_congr_left fun a _ => ?_
      simp only [Function.comp, hs]
      by_cases h : a.slot = k
      · subst h; simp only [true_and, List.mem_cons, true_or]; split <;> simp [hn]
      · simp [h]

/-- What `freeWhere` does (R72): exactly the slots whose record meets `p` become free, and their arrivals in flight no longer
stand. -/
theorem freeWhere_spec (p : FetchRecord → Bool) (s : State) :
    FreesOnly s (freeWhere p s)
    ∧ (∀ k, (freeWhere p s).slot k = (s.slot k).filter (fun r => !p r))
    ∧ (freeWhere p s).inFlight.arrivals = s.inFlight.arrivals.map
        (fun a => if (s.slot a.slot).any p then { a with standing := false } else a) := by
  have h := freeFold_spec p (List.finRange 16) s (List.nodup_finRange 16)
  simpa [freeWhere] using h

/-! ### Parts of consumer reads whose range is freed -/

/-- A part of a consumer read, its range freed if `f` holds of it. -/
def ConsumerPart.freedIf (f : ConsumerPart → Bool) (c : ConsumerPart) : ConsumerPart :=
  if f c then { c with standing := false } else c

theorem freedIf_never : ConsumerPart.freedIf (fun _ => false) = id := by funext c; simp [ConsumerPart.freedIf]

theorem freedIf_freedIf {f g : ConsumerPart → Bool} (hf : ∀ c : ConsumerPart, f { c with standing := false } = f c)
    (c : ConsumerPart) : (c.freedIf g).freedIf f = c.freedIf fun c => g c || f c := by
  unfold ConsumerPart.freedIf
  by_cases h : g c <;> simp [h, hf]

/-- The part was yielded for the record of slot `k`, and that record meets `p`. -/
def partOf (p : FetchRecord → Bool) (k : Slot) (o : Option FetchRecord) (c : ConsumerPart) : Bool := c.slot == some k && o.any p

theorem freeIf_reads (p : FetchRecord → Bool) (s : State) (k : Slot) :
    (freeIf p s k).inFlight.consumerReads
      = s.inFlight.consumerReads.map (List.map (ConsumerPart.freedIf (partOf p k (s.slot k)))) := by
  have never : ∀ o : Option FetchRecord, o.any p = false → partOf p k o = fun _ => false := by
    intro o h; funext c; simp [partOf, h]
  unfold freeIf
  cases h : s.slot k with
  | none => simp [never none rfl, freedIf_never]
  | some r =>
    by_cases hp : p r = true
    · have e : partOf p k (some r) = fun c => c.slot == some k := by funext c; simp [partOf, hp]
      rw [e]; simp only [hp, if_true]; rfl
    · simp [never (some r) (by simpa using hp), freedIf_never, hp]

theorem freeFold_reads (p : FetchRecord → Bool) (ks : List Slot) (hk : ks.Nodup) (s : State) :
    (ks.foldl (freeIf p) s).inFlight.consumerReads = s.inFlight.consumerReads.map
      (List.map (ConsumerPart.freedIf fun c => ks.any fun k => partOf p k (s.slot k) c)) := by
  induction ks generalizing s with
  | nil => simp [freedIf_never]
  | cons k ks ih =>
    obtain ⟨hn, hk'⟩ := List.nodup_cons.1 hk
    rw [List.foldl_cons, ih hk', freeIf_reads, List.map_map]
    refine List.map_congr_left fun l _ => ?_
    rw [Function.comp, List.map_map]
    refine List.map_congr_left fun c _ => ?_
    have e : ∀ c, (ks.any fun j => partOf p j ((freeIf p s k).slot j) c) = ks.any fun j => partOf p j (s.slot j) c := by
      intro c
      rw [Bool.eq_iff_iff, List.any_eq_true, List.any_eq_true]
      refine exists_congr fun j => and_congr_right fun hj => ?_
      have hne : j ≠ k := by rintro rfl; exact hn hj
      rw [(freeIf_spec p s k).2.1, if_neg hne]
    rw [Function.comp, freedIf_freedIf fun c => rfl]
    simp only [e, List.any_cons]

/-- The parts of consumer reads in flight after `freeWhere` (R72, R82): those yielded for a freed record no longer stand. -/
theorem freeWhere_reads (p : FetchRecord → Bool) (s : State) :
    (freeWhere p s).inFlight.consumerReads = s.inFlight.consumerReads.map
      (List.map (ConsumerPart.freedIf fun c => c.slot.any fun k => (s.slot k).any p)) := by
  unfold freeWhere
  rw [freeFold_reads p (List.finRange 16) (List.nodup_finRange 16) s]
  congr 3
  funext c
  rw [Bool.eq_iff_iff, List.any_eq_true, Option.any_eq_true]
  simp only [List.mem_finRange, true_and, partOf, Bool.and_eq_true, beq_iff_eq]

/-! ### Buffer level -/

theorem bufferLevel_nil : bufferLevel [] = 0 := rfl

end Sys2Proof.Machine
end

