-- ==== Sys2Proof/Laws/Governor.lean ====
section
/-! SUPPORT. What each operation of the session governor can change: of the whole state, one session's working half, advice and
advice-taken flag, and the event queue. -/

namespace Sys2Proof.Machine

/-- From `s` to `t` the session governor acted for session `i`: nothing changed but that session's working half, advice and
advice-taken flag, and the event queue with LOST; an advice it published carries the buffer level (R156). -/
structure Governs (i : SessionId) (s t : State) : Prop where
  eq : t = { s with
    sessions := t.sessions, report := { s.report with events := t.report.events, lost := t.report.lost } }
  other : ∀ j, j ≠ i → t.session j = s.session j
  own : t.session i = { s.session i with
    work := (t.session i).work, advice := (t.session i).advice, taken := (t.session i).taken }
  buffer : (t.session i).advice.buffer = (s.session i).advice.buffer
    ∨ (t.session i).advice.buffer = bufferLevel (s.session i).held
  events : s.report.events <+: t.report.events
  queue : QueueOk s → QueueOk t

namespace Governs

variable {i : SessionId} {s t u : State}

theorem refl (i : SessionId) (s : State) : Governs i s s := ⟨rfl, fun _ _ => rfl, rfl, .inl rfl, List.prefix_refl _, id⟩

theorem trans (h : Governs i s t) (h' : Governs i t u) : Governs i s u where
  eq := by have e := h'.eq; rw [h.eq] at e; exact e
  other j hj := (h'.other j hj).trans (h.other j hj)
  own := by have e := h'.own; rw [h.own] at e; exact e
  buffer := by
    have e : (t.session i).held = (s.session i).held := by rw [h.own]
    rcases h'.buffer with b | b
    · rw [b]; exact h.buffer
    · exact .inr (by rw [b, e])
  events := h.events.trans h'.events
  queue q := h'.queue (h.queue q)

theorem classifier (h : Governs i s t) : t.classifier = s.classifier := by rw [h.eq]
theorem inFlight (h : Governs i s t) : t.inFlight = s.inFlight := by rw [h.eq]
theorem ports (h : Governs i s t) : t.ports = s.ports := by rw [h.eq]
theorem assembler (h : Governs i s t) : t.assembler = s.assembler := by rw [h.eq]
theorem timebase (h : Governs i s t) : t.timebase = s.timebase := by rw [h.eq]
theorem tracker (h : Governs i s t) : t.tracker = s.tracker := by rw [h.eq]
theorem meter (h : Governs i s t) : t.meter = s.meter := by rw [h.eq]
theorem arbiter (h : Governs i s t) : t.arbiter = s.arbiter := by rw [h.eq]
theorem minProbe (h : Governs i s t) : t.minProbe = s.minProbe := by rw [h.eq]
theorem pending (h : Governs i s t) : t.pending = s.pending := by rw [h.eq]
theorem slot (h : Governs i s t) (k : Slot) : t.slot k = s.slot k := slot_congr (congrArg Tracker.table h.tracker) k
theorem prog (h : Governs i s t) : (t.session i).prog = (s.session i).prog := by rw [h.own]
theorem held (h : Governs i s t) : (t.session i).held = (s.session i).held := by rw [h.own]
theorem share (h : Governs i s t) : (t.session i).share = (s.session i).share := by rw [h.own]

end Governs

/-! ### The operations -/

theorem post_governs (i : SessionId) (kind : EventKind) (session : BitVec 4) (code : BitVec 8) (a b : Word) (s : State) :
    Governs i s (post kind session code a b s) where
  eq := by
    rw [post_eq]
  other j _ := by simp
  own := by simp
  buffer := .inl (by simp)
  events := post_events ..
  queue := post_queueOk kind session code a b s

theorem setSession_governs (i : SessionId) (s : State) (w : Working) {v : Advice} (b : Bool)
    (h : v.buffer = (s.session i).advice.buffer ∨ v.buffer = bufferLevel (s.session i).held) :
    Governs i s (s.setSession i { s.session i with work := w, advice := v, taken := b }) where
  eq := rfl
  other j h := session_setSession_of_ne s _ h
  own := by simp
  buffer := by simpa using h
  events := List.prefix_refl _
  queue := id

theorem setWork_governs (i : SessionId) (s : State) (w : Working) : Governs i s (s.setWork i w) :=
  setSession_governs i s w _ (.inl rfl)

/-- What a publication does to its session (R156), whatever it posts. -/
theorem publish_session (i : SessionId) (rung : Nat) (reason : Reason) (s : State) :
    (publish i rung reason s).session i = { s.session i with
      advice :=
        { rung := rung, reason := reason, count := (s.session i).advice.count + 1, superseded := !(s.session i).taken
          buffer := bufferLevel (s.session i).held, tick := s.timebase.tick, state := (s.session i).work.state }
      taken := false } := by
  unfold publish; simp only; split <;> simp

theorem publish_governs (i : SessionId) (rung : Nat) (reason : Reason) (s : State) :
    Governs i s (publish i rung reason s) := by
  unfold publish; simp only; split
  · exact setSession_governs _ _ _ _ (.inr rfl)
  · exact (setSession_governs _ _ _ _ (.inr rfl)).trans (post_governs ..)

theorem publishLo_governs (i : SessionId) (reason : Reason) (s : State) : Governs i s (publishLo i reason s) :=
  publish_governs ..

theorem postProbeDone_governs (i : SessionId) (rung steps : Nat) (s : State) :
    Governs i s (postProbeDone i rung steps s) :=
  post_governs ..

theorem postRecovered_governs (i : SessionId) (s : State) : Governs i s (postRecovered i s) := post_governs ..

theorem convergeProbe_governs (i : SessionId) (rung : Nat) (reason : Reason) (s : State) :
    Governs i s (convergeProbe i rung reason s) :=
  ((setWork_governs ..).trans (publish_governs ..)).trans (postProbeDone_governs ..)

theorem startProbe_governs (i : SessionId) (reason : Reason) (s : State) : Governs i s (startProbe i reason s) := by
  unfold startProbe; simp only; split
  · exact (setWork_governs ..).trans (convergeProbe_governs ..)
  · exact (setWork_governs ..).trans (publish_governs ..)

theorem continueProbe_governs (i : SessionId) (reason : Reason) (s : State) : Governs i s (continueProbe i reason s) := by
  unfold continueProbe; simp only; split
  · exact convergeProbe_governs ..
  · exact (setWork_governs ..).trans (publish_governs ..)

theorem steadyDecision_governs (i : SessionId) (before : SessionState) (reason : Reason) (s : State) :
    Governs i s (steadyDecision i before reason s) := by
  unfold steadyDecision; simp only; split
  · split
    · exact (setWork_governs ..).trans (publish_governs ..)
    · exact ((setWork_governs ..).trans (publish_governs ..)).trans (post_governs ..)
  · exact (setWork_governs ..).trans (publish_governs ..)

theorem probeStep_governs (i : SessionId) (rung landing sample : Nat) (s : State) :
    Governs i s (probeStep i rung landing sample s) :=
  (setWork_governs ..).trans (continueProbe_governs ..)

theorem enterFallback_governs (i : SessionId) (s : State) : Governs i s (enterFallback i s) :=
  (setWork_governs ..).trans (publishLo_governs ..)

theorem recoverSession_governs (i : SessionId) (s : State) : Governs i s (recoverSession i s) := by
  unfold recoverSession; simp only
  refine Governs.trans ?_ (postRecovered_governs ..)
  split
  · exact (setWork_governs ..).trans (publish_governs ..)
  · exact (setWork_governs ..).trans (publish_governs ..)
  · exact (setWork_governs ..).trans (startProbe_governs ..)

theorem fallbackCompletion_governs (i : SessionId) (s : State) : Governs i s (fallbackCompletion i s) := by
  unfold fallbackCompletion; simp only; split
  · exact (setWork_governs ..).trans (recoverSession_governs ..)
  · exact (setWork_governs ..).trans (publishLo_governs ..)

theorem offerCompletion_governs (i : SessionId) (rung landing sample : Nat) (s : State) :
    Governs i s (offerCompletion i rung landing sample s) := by
  unfold offerCompletion; split
  · exact probeStep_governs ..
  · exact steadyDecision_governs ..
  · exact steadyDecision_governs ..
  · exact fallbackCompletion_governs ..
  · exact .refl ..
  · exact .refl ..

theorem panicCrossing_governs (i : SessionId) (s : State) : Governs i s (panicCrossing i s) := by
  unfold panicCrossing; split
  · exact steadyDecision_governs ..
  · exact steadyDecision_governs ..
  all_goals exact .refl ..

theorem takeStall_governs (i : SessionId) (s : State) : Governs i s (takeStall i s) := by
  unfold takeStall; split
  · exact enterFallback_governs ..
  · exact enterFallback_governs ..
  · exact enterFallback_governs ..
  · exact setWork_governs ..
  · exact .refl ..
  · exact .refl ..

/-! ### Where rungs lie -/

theorem clampRung_mem {p : Programmed} (h : p.lo ≤ p.hi) (rung : Nat) :
    p.lo ≤ clampRung p rung ∧ clampRung p rung ≤ p.hi :=
  clampTo_mem h rung

theorem probeMidpoint_mem {a b : Nat} (h : a ≤ b) : a ≤ probeMidpoint a b ∧ probeMidpoint a b ≤ b := by
  unfold probeMidpoint; omega

/-- Every outcome of a probe test leaves its bounds inside the window (R171). -/
theorem narrowed_mem {lo a b hi f : Nat} (h1 : lo ≤ a) (h2 : a ≤ b) (h3 : b ≤ hi) (h4 : lo ≤ f) (h5 : f ≤ hi) (good : Bool) :
    lo ≤ (narrowed lo a b f good).1 ∧ (narrowed lo a b f good).1 ≤ (narrowed lo a b f good).2
      ∧ (narrowed lo a b f good).2 ≤ hi := by
  unfold narrowed; split <;> [skip; split] <;> (simp only; omega)

/-- The steady decision's rung lies in the window (R164). -/
theorem steadyRung_mem (coarse : Bool) {x : Session} (h : x.prog.lo ≤ x.prog.hi) :
    x.prog.lo ≤ steadyRung coarse x ∧ steadyRung coarse x ≤ x.prog.hi :=
  clampRung_mem h _

/-- The streak a steady decision leaves is at most U (R162, R168). -/
theorem steadyTarget_streak_le (coarse : Bool) (x : Session) : (steadyTarget coarse x).2 ≤ x.prog.upCount := by
  unfold steadyTarget; simp only
  split_ifs <;> simp only <;> omega

end Sys2Proof.Machine
end

