-- ==== Sys2Proof/Laws/ShareArbiter.lean ====
section
/-! SUPPORT. What a recompute of the share arbiter can change, and what the rounds give. -/

namespace Sys2Proof.Machine

/-- From `s` to `t` shares were divided: nothing changed but the arbiter, the four shares, and the event queue with LOST. -/
structure Divides (s t : State) : Prop where
  eq : t = { s with
    arbiter := t.arbiter, sessions := t.sessions
    report := { s.report with events := t.report.events, lost := t.report.lost } }
  received : t.arbiter.received = s.arbiter.received
  session : ∀ i, t.session i = { s.session i with share := (t.session i).share }
  events : s.report.events <+: t.report.events
  queue : QueueOk s → QueueOk t

@[simp] theorem setShares_session (given : List Nat) (s : State) (i : SessionId) :
    (setShares given s).session i
      = { s.session i with share := activeFloor (s.session i) + given.getD i.val 0 } := by
  simp [setShares, State.session]

theorem recompute_divides (s : State) : Divides s (recompute s) := by
  have h : ∀ (arb : Arbiter) (given : List Nat), arb.received = s.arbiter.received →
      Divides s (setShares given { s with arbiter := arb }) := fun arb given hr =>
    ⟨rfl, hr, fun i => by simp only [setShares_session]; rfl, List.prefix_refl _, id⟩
  unfold recompute; simp only
  split
  · exact h _ _ rfl
  · unfold postStarved
    have d := h { s.arbiter with headroom := (divide s).1, starved := (divide s).2.1 } (divide s).2.2 rfl
    generalize setShares (divide s).2.2
      { s with arbiter := { s.arbiter with headroom := (divide s).1, starved := (divide s).2.1 } } = u at d ⊢
    refine ⟨?_, ?_, fun i => ?_, d.events.trans (post_events ..), fun q => post_queueOk _ _ _ _ _ _ (d.queue q)⟩
    · rw [post_eq]; have e := d.eq; rw [e]
    · rw [post_arbiter]; exact d.received
    · rw [post_session]; exact d.session i

namespace Divides

variable {s t : State}

theorem classifier (h : Divides s t) : t.classifier = s.classifier := by rw [h.eq]
theorem inFlight (h : Divides s t) : t.inFlight = s.inFlight := by rw [h.eq]
theorem ports (h : Divides s t) : t.ports = s.ports := by rw [h.eq]
theorem assembler (h : Divides s t) : t.assembler = s.assembler := by rw [h.eq]
theorem timebase (h : Divides s t) : t.timebase = s.timebase := by rw [h.eq]
theorem tracker (h : Divides s t) : t.tracker = s.tracker := by rw [h.eq]
theorem meter (h : Divides s t) : t.meter = s.meter := by rw [h.eq]
theorem minProbe (h : Divides s t) : t.minProbe = s.minProbe := by rw [h.eq]
theorem pending (h : Divides s t) : t.pending = s.pending := by rw [h.eq]
theorem slot (h : Divides s t) (k : Slot) : t.slot k = s.slot k := slot_congr (congrArg Tracker.table h.tracker) k
theorem work (h : Divides s t) (i : SessionId) : (t.session i).work = (s.session i).work := by rw [h.session]
theorem prog (h : Divides s t) (i : SessionId) : (t.session i).prog = (s.session i).prog := by rw [h.session]

end Divides

/-- The share of every session after a recompute: its active floor and what it was given (R117, R123). -/
theorem recompute_share (s : State) (i : SessionId) :
    ((recompute s).session i).share = activeFloor (s.session i) + (divide s).2.2.getD i.val 0 := by
  unfold recompute; simp only
  split
  · rw [setShares_session]; rfl
  · unfold postStarved; rw [post_session, setShares_session]; rfl

/-- The headroom and STARVED after a recompute. -/
theorem recompute_arbiter (s : State) :
    (recompute s).arbiter = { s.arbiter with headroom := (divide s).1, starved := (divide s).2.1 } := by
  unfold recompute; simp only
  split
  · rfl
  · unfold postStarved; rw [post_arbiter]; rfl

theorem someActive_iff (s : State) : someActive s = true ↔ ∃ i, isActive (s.session i) = true := by
  unfold someActive
  rw [List.any_eq_true]
  constructor
  · rintro ⟨x, hx, ha⟩
    obtain ⟨n, hn, rfl⟩ := List.mem_iff_getElem.1 hx
    exact ⟨⟨n, by simpa using hn⟩, by simpa [State.session] using ha⟩
  · rintro ⟨i, hi⟩
    exact ⟨s.session i, by simp [State.session], hi⟩

/-! ### Rounds -/

theorem giveTo_sum (r w : Nat) (c : Claim) :
    (giveTo r w c).weight = c.weight ∧ (giveTo r w c).given + (giveTo r w c).remaining = c.given + c.remaining := by
  unfold giveTo; simp only
  exact ⟨trivial, by omega⟩

/-- The rounds end before the fuel does: any fuel from the remainder upward gives the same (R123). -/
theorem rounds_fuel (n r : Nat) (cs : List Claim) (h : r ≤ n) : rounds n r cs = rounds r r cs := by
  induction r using Nat.strong_induction_on generalizing n cs with
  | _ r ih =>
    cases n with
    | zero => obtain rfl : r = 0 := by omega
              rfl
    | succ n =>
      cases r with
      | zero => simp [rounds]
      | succ r =>
        unfold rounds
        split
        · rfl
        · simp only
          split
          · rfl
          · next hg =>
            rw [ih _ (by omega) n _ (by omega)]
            exact (ih _ (by omega) r _ (by omega)).symm

@[simp] theorem rounds_length (n r : Nat) (cs : List Claim) : (rounds n r cs).2.length = cs.length := by
  induction n generalizing r cs with
  | zero => rfl
  | succ n ih => unfold rounds; simp only; split; rfl; split; simp; rw [ih]; simp

end Sys2Proof.Machine
end

