-- ==== Sys2Proof/Laws/Runs.lean ====
section
/-! SUPPORT. What the events that are not orders can change at most: an arrival, a consumer read, an expiry, and the link meter's
tick. One frame for all of them, and one lemma per operation. -/

namespace Sys2Proof.Machine

/-- From `s` to `t` the part ran: nothing changed but the fetch table, the arrivals and consumer reads in flight, the meter, the
arbiter, the sessions without their programmed halves, and the event queue with LOST. -/
structure Runs (s t : State) : Prop where
  eq : t = { s with
    inFlight := { s.inFlight with arrivals := t.inFlight.arrivals, consumerReads := t.inFlight.consumerReads }
    tracker := { s.tracker with table := t.tracker.table }
    meter := t.meter
    arbiter := t.arbiter
    sessions := t.sessions
    report := { s.report with events := t.report.events, lost := t.report.lost } }
  prog : ∀ i, (t.session i).prog = (s.session i).prog
  events : s.report.events <+: t.report.events
  queue : QueueOk s → QueueOk t

namespace Runs

variable {s t u : State}

theorem refl (s : State) : Runs s s := ⟨rfl, fun _ => rfl, List.prefix_refl _, id⟩

theorem trans (h : Runs s t) (h' : Runs t u) : Runs s u where
  eq := by have e := h'.eq; rw [h.eq] at e; exact e
  prog i := (h'.prog i).trans (h.prog i)
  events := h.events.trans h'.events
  queue q := h'.queue (h.queue q)

theorem classifier (h : Runs s t) : t.classifier = s.classifier := by rw [h.eq]
theorem orderWords (h : Runs s t) : t.inFlight.orderWords = s.inFlight.orderWords := by rw [h.eq]
theorem ports (h : Runs s t) : t.ports = s.ports := by rw [h.eq]
theorem assembler (h : Runs s t) : t.assembler = s.assembler := by rw [h.eq]
theorem timebase (h : Runs s t) : t.timebase = s.timebase := by rw [h.eq]
theorem minProbe (h : Runs s t) : t.minProbe = s.minProbe := by rw [h.eq]
theorem latch (h : Runs s t) : t.report.latch = s.report.latch := by rw [h.eq]
theorem mask (h : Runs s t) : t.report.mask = s.report.mask := by rw [h.eq]
theorem pending (h : Runs s t) : t.pending = s.pending := by rw [h.eq]

end Runs

theorem Governs.runs {i : SessionId} {s t : State} (h : Governs i s t) : Runs s t where
  eq := by have e := h.eq; rw [e]
  prog j := by
    by_cases hj : j = i
    · subst hj; exact h.prog
    · rw [h.other j hj]
  events := h.events
  queue := h.queue

theorem Divides.runs {s t : State} (h : Divides s t) : Runs s t where
  eq := by have e := h.eq; rw [e]
  prog := h.prog
  events := h.events
  queue := h.queue

theorem post_runs (kind : EventKind) (session : BitVec 4) (code : BitVec 8) (a b : Word) (s : State) :
    Runs s (post kind session code a b s) :=
  (post_governs 0 kind session code a b s).runs

theorem setSession_runs (s : State) (i : SessionId) {x : Session} (h : x.prog = (s.session i).prog) :
    Runs s (s.setSession i x) where
  eq := rfl
  prog j := by rw [session_setSession]; split <;> simp_all
  events := List.prefix_refl _
  queue := id

theorem setSlot_runs (s : State) (k : Slot) (r : Option FetchRecord) : Runs s (s.setSlot k r) :=
  ⟨rfl, fun _ => rfl, List.prefix_refl _, id⟩

theorem freeSlot_runs (s : State) (k : Slot) : Runs s (freeSlot k s) :=
  ⟨rfl, fun _ => rfl, List.prefix_refl _, id⟩

theorem setInFlight_runs (s : State) (as : List Arrival) (cs : List (List ConsumerPart)) :
    Runs s { s with inFlight := { s.inFlight with arrivals := as, consumerReads := cs } } :=
  ⟨rfl, fun _ => rfl, List.prefix_refl _, id⟩

theorem mapParts_runs (f : ConsumerPart → ConsumerPart) (s : State) : Runs s (mapParts f s) := setInFlight_runs s _ _

theorem setArbiter_runs (s : State) (b : Arbiter) : Runs s { s with arbiter := b } :=
  ⟨rfl, fun _ => rfl, List.prefix_refl _, id⟩

theorem setMeter_runs (s : State) (m : Meter) : Runs s { s with meter := m } :=
  ⟨rfl, fun _ => rfl, List.prefix_refl _, id⟩

/-! ### The link meter -/

theorem credit_runs (n : Nat) (s : State) : Runs s (credit n s) := setMeter_runs ..

theorem handOverLink_runs (s : State) : Runs s (handOverLink s) := by
  unfold handOverLink; split
  · exact .refl _
  · exact (setArbiter_runs ..).trans (recompute_divides _).runs

theorem endWindow_runs (s : State) : Runs s (endWindow s) := by
  unfold endWindow; simp only; split
  · exact setMeter_runs ..
  · exact (setMeter_runs ..).trans (handOverLink_runs _)

theorem takeOwedTick_runs (s : State) : Runs s (takeOwedTick s) := by
  unfold takeOwedTick meterTick; simp only
  split <;> [split; skip]
  · exact (setMeter_runs ..).trans (endWindow_runs _)
  · exact setMeter_runs ..
  · exact .refl _

/-! ### The held-segment unit -/

theorem refillTest_runs (i : SessionId) (s : State) : Runs s (refillTest i s) := by
  unfold refillTest; simp only; split
  · refine Runs.trans ?_ (post_runs ..)
    exact setSession_runs s i rfl
  · exact .refl _

theorem completeSegment_runs (i : SessionId) (h : HeldSegment) (s : State) : Runs s (completeSegment i h s) := by
  unfold completeSegment; simp only
  split <;> [skip; split]
  · exact (setWork_governs ..).runs
  · exact .refl _
  · exact (setSession_runs s i (x := { s.session i with held := insertHeld h (s.session i).held }) rfl).trans
      (refillTest_runs ..)

theorem skipTo_prog (q : Serial) (x : Session) : (skipTo q x).prog = x.prog := rfl

theorem readHeld_prog (q : Serial) (e : Nat) (x : Session) : (readHeld q e x).prog = x.prog := by
  unfold readHeld; simp only; split <;> rfl

theorem applyPart_runs (part : ConsumerPart) (s : State) : Runs s (applyPart part s) := by
  unfold applyPart
  split <;> [split; skip]
  · exact (setSlot_runs ..).trans (setSession_runs _ _ rfl)
  · simp only; split
    · exact setSession_runs s _ (readHeld_prog ..)
    · exact .refl _
  · exact .refl _

theorem applyParts_runs (parts : List ConsumerPart) (s : State) : Runs s (applyParts parts s).1 := by
  induction parts generalizing s with
  | nil => exact .refl _
  | cons part rest ih => exact (applyPart_runs part s).trans (ih _)

theorem underrun_runs (i : SessionId) (s : State) : Runs s (underrun i s) := by
  unfold underrun; simp only
  refine Runs.trans ?_ (post_runs ..)
  exact setSession_runs s i rfl

theorem judgeRead_runs (before : Nat) (consumed : Bool) (i : SessionId) (s : State) :
    Runs s (judgeRead before consumed i s) := by
  unfold judgeRead; simp only
  have h : ∀ b : Bool, Runs s (if b then underrun i s else s) := by
    rintro (_ | _)
    · exact .refl _
    · exact underrun_runs ..
  split
  · exact (h _).trans (panicCrossing_governs ..).runs
  · exact h _

theorem takeConsumerRead_runs (parts : List ConsumerPart) (s : State) : Runs s (takeConsumerRead parts s) := by
  unfold takeConsumerRead; simp only
  refine (applyParts_runs parts s).trans ?_
  generalize (applyParts parts s).1 = t
  generalize List.finRange 4 = is
  induction is generalizing t with
  | nil => exact .refl _
  | cons i is ih =>
    rw [List.foldl_cons]
    refine Runs.trans ?_ (ih _)
    split
    · exact judgeRead_runs ..
    · exact .refl _

theorem takeConsumerReadAt_runs (n : Nat) (s : State) : Runs s (takeConsumerReadAt n s) := by
  unfold takeConsumerReadAt; split
  · exact .refl _
  · exact (setInFlight_runs s _ _).trans (takeConsumerRead_runs ..)

/-! ### The fetch tracker -/

theorem handOverCompletion_runs (r : FetchRecord) (landing : Tick) (s : State) :
    Runs s (handOverCompletion r landing s) := by
  unfold handOverCompletion; split
  · exact .refl _
  · exact (completeSegment_runs ..).trans (offerCompletion_governs ..).runs

theorem completeFetch_runs (k : Slot) (r : FetchRecord) (s : State) : Runs s (completeFetch k r s) := by
  unfold completeFetch postFetchDone
  exact (((freeSlot_runs ..).trans (mapParts_runs ..)).trans (post_runs ..)).trans (handOverCompletion_runs ..)

theorem postRevive_runs (k : Slot) (r : FetchRecord) (s : State) : Runs s (postRevive k r s) := by
  unfold postRevive; split
  · exact post_runs ..
  · exact .refl _

theorem creditRise_runs (r : FetchRecord) (landed : Nat) (s : State) : Runs s (creditRise r landed s) := by
  unfold creditRise; split
  · exact credit_runs ..
  · exact .refl _

theorem countArrival_runs (k : Slot) (e : Nat) (r : FetchRecord) (s : State) : Runs s (countArrival k e r s) := by
  unfold countArrival; simp only
  split
  · exact ((postRevive_runs ..).trans (creditRise_runs ..)).trans (completeFetch_runs ..)
  · exact ((postRevive_runs ..).trans (creditRise_runs ..)).trans (setSlot_runs ..)

theorem takeArrival_runs (a : Arrival) (s : State) : Runs s (takeArrival a s) := by
  unfold takeArrival
  split <;> [split; skip]
  · exact countArrival_runs ..
  · exact .refl _
  · exact .refl _

theorem takeArrivalAt_runs (n : Nat) (s : State) : Runs s (takeArrivalAt n s) := by
  unfold takeArrivalAt; split
  · exact .refl _
  · exact (setInFlight_runs s _ _).trans (takeArrival_runs ..)

theorem stallRecord_runs (gap : Bool) (k : Slot) (r : FetchRecord) (s : State) : Runs s (stallRecord gap k r s) := by
  unfold stallRecord
  exact (((setSlot_runs ..).trans (setWork_governs ..).runs).trans (post_runs ..)).trans (takeStall_governs ..).runs

theorem expireFirstByte_runs (k : Slot) (s : State) : Runs s (expireFirstByte k s) := by
  unfold expireFirstByte
  split <;> [split; skip]
  · exact stallRecord_runs ..
  · exact .refl _
  · exact .refl _

theorem expireGap_runs (k : Slot) (s : State) : Runs s (expireGap k s) := by
  unfold expireGap
  split <;> [split; skip]
  · exact stallRecord_runs ..
  · exact .refl _
  · exact .refl _

theorem expireAll_runs (s : State) : Runs s (expireAll s) := by
  unfold expireAll
  generalize List.finRange 16 = ks
  induction ks generalizing s with
  | nil => exact .refl _
  | cons k ks ih => exact ((expireFirstByte_runs k s).trans (expireGap_runs ..)).trans (ih _)

/-! ### Ticks -/

theorem settleTick_runs (s : State) : Runs s (settleTick s) := (expireAll_runs s).trans (takeOwedTick_runs _)

/-- A tick changes the timebase as R41 says, and beyond that only what the tick before it left and its own deliveries run. -/
theorem tickOnce_spec (d : Delivery) (s : State) :
    (tickOnce d s).timebase = { s.timebase with
      tick := s.timebase.tick + 1, cycleCount := 0, tickLength := s.timebase.divider + 1 }
    ∧ Runs { s with timebase := (tickOnce d s).timebase } (tickOnce d s) := by
  have h := settleTick_runs s
  have hd : (advanceTick (settleTick s)).timebase = { s.timebase with
      tick := s.timebase.tick + 1, cycleCount := 0, tickLength := s.timebase.divider + 1 } := by
    unfold advanceTick; rw [h.timebase]
  have hr : Runs { s with timebase := (advanceTick (settleTick s)).timebase } (advanceTick (settleTick s)) := by
    clear hd
    generalize settleTick s = u at h ⊢
    refine ⟨?_, fun i => h.prog i, h.events, h.queue⟩
    have e := h.eq
    rw [e]; rfl
  cases d with
  | deferred => exact ⟨hd, hr⟩
  | atOnce =>
    have h2 := settleTick_runs (advanceTick (settleTick s))
    refine ⟨h2.timebase.trans hd, ?_⟩
    show Runs { s with timebase := (settleTick (advanceTick (settleTick s))).timebase } _
    rw [h2.timebase]
    exact hr.trans h2

/-- One period of the clock source keeps everything but the timebase within what the part can run. -/
theorem clockPeriod_runs (s : State) : Runs { s with timebase := (clockPeriod s).timebase } (clockPeriod s) := by
  unfold clockPeriod; split
  · exact (tickOnce_spec ..).2
  · exact .refl _
  · split
    · exact (tickOnce_spec ..).2
    · exact .refl _

end Sys2Proof.Machine
end

