-- ==== Sys2Proof/Laws/Assembler.lean ====
section
/-! SUPPORT. How a record ends, and that the effect of an order neither reads nor changes the order assembler: the effect commutes
with putting another value there. -/

namespace Sys2Proof.Machine

/-- The state with the order assembler replaced. -/
def State.withAssembler (s : State) (a : Assembler) : State := { s with assembler := a }

section withAssembler
variable (s : State) (a : Assembler)

@[simp] theorem withAssembler_classifier : (s.withAssembler a).classifier = s.classifier := rfl
@[simp] theorem withAssembler_inFlight : (s.withAssembler a).inFlight = s.inFlight := rfl
@[simp] theorem withAssembler_ports : (s.withAssembler a).ports = s.ports := rfl
@[simp] theorem withAssembler_assembler : (s.withAssembler a).assembler = a := rfl
@[simp] theorem withAssembler_timebase : (s.withAssembler a).timebase = s.timebase := rfl
@[simp] theorem withAssembler_tracker : (s.withAssembler a).tracker = s.tracker := rfl
@[simp] theorem withAssembler_meter : (s.withAssembler a).meter = s.meter := rfl
@[simp] theorem withAssembler_arbiter : (s.withAssembler a).arbiter = s.arbiter := rfl
@[simp] theorem withAssembler_sessions : (s.withAssembler a).sessions = s.sessions := rfl
@[simp] theorem withAssembler_minProbe : (s.withAssembler a).minProbe = s.minProbe := rfl
@[simp] theorem withAssembler_report : (s.withAssembler a).report = s.report := rfl
@[simp] theorem withAssembler_pending : (s.withAssembler a).pending = s.pending := rfl
@[simp] theorem withAssembler_session (i : SessionId) : (s.withAssembler a).session i = s.session i := rfl
@[simp] theorem withAssembler_slot (k : Slot) : (s.withAssembler a).slot k = s.slot k := rfl
@[simp] theorem withAssembler_setSession (i : SessionId) (x : Session) :
    (s.withAssembler a).setSession i x = (s.setSession i x).withAssembler a := rfl
@[simp] theorem withAssembler_setWork (i : SessionId) (w : Working) :
    (s.withAssembler a).setWork i w = (s.setWork i w).withAssembler a := rfl
@[simp] theorem withAssembler_setSlot (k : Slot) (r : Option FetchRecord) :
    (s.withAssembler a).setSlot k r = (s.setSlot k r).withAssembler a := rfl

theorem withAssembler_ite (c : Prop) [Decidable c] (t : State) :
    (if c then s else t).withAssembler a = if c then s.withAssembler a else t.withAssembler a := by
  split <;> rfl

@[simp] theorem post_withAssembler (kind : EventKind) (session : BitVec 4) (code : BitVec 8) (x y : Word) :
    post kind session code x y (s.withAssembler a) = (post kind session code x y s).withAssembler a := by
  unfold post; simp only [withAssembler_ite]; rfl

@[simp] theorem publish_withAssembler (i : SessionId) (rung : Nat) (reason : Reason) :
    publish i rung reason (s.withAssembler a) = (publish i rung reason s).withAssembler a := by
  unfold publish; simp only [withAssembler_session, withAssembler_setSession, withAssembler_timebase, post_withAssembler,
    withAssembler_ite]

@[simp] theorem publishLo_withAssembler (i : SessionId) (reason : Reason) :
    publishLo i reason (s.withAssembler a) = (publishLo i reason s).withAssembler a := by
  simp [publishLo]

@[simp] theorem convergeProbe_withAssembler (i : SessionId) (rung : Nat) (reason : Reason) :
    convergeProbe i rung reason (s.withAssembler a) = (convergeProbe i rung reason s).withAssembler a := by
  simp [convergeProbe, postProbeDone]

@[simp] theorem startProbe_withAssembler (i : SessionId) (reason : Reason) :
    startProbe i reason (s.withAssembler a) = (startProbe i reason s).withAssembler a := by
  simp only [startProbe, withAssembler_session, withAssembler_setWork, convergeProbe_withAssembler,
    publish_withAssembler, withAssembler_ite]

@[simp] theorem continueProbe_withAssembler (i : SessionId) (reason : Reason) :
    continueProbe i reason (s.withAssembler a) = (continueProbe i reason s).withAssembler a := by
  simp only [continueProbe, withAssembler_session, withAssembler_setWork, convergeProbe_withAssembler,
    publish_withAssembler, withAssembler_ite]

@[simp] theorem steadyDecision_withAssembler (i : SessionId) (before : SessionState) (reason : Reason) :
    steadyDecision i before reason (s.withAssembler a) = (steadyDecision i before reason s).withAssembler a := by
  simp only [steadyDecision, withAssembler_session, withAssembler_setWork, withAssembler_timebase,
    withAssembler_arbiter, publish_withAssembler, post_withAssembler, withAssembler_ite]

@[simp] theorem recoverSession_withAssembler (i : SessionId) :
    recoverSession i (s.withAssembler a) = (recoverSession i s).withAssembler a := by
  simp only [recoverSession, withAssembler_session, withAssembler_setWork, publish_withAssembler,
    startProbe_withAssembler]
  split <;> simp only [postRecovered, withAssembler_session, post_withAssembler]

@[simp] theorem takeWindow_withAssembler (i : SessionId) :
    takeWindow i (s.withAssembler a) = (takeWindow i s).withAssembler a := by
  simp only [takeWindow, withAssembler_session, withAssembler_setWork, startProbe_withAssembler,
    steadyDecision_withAssembler, publishLo_withAssembler]
  cases (s.session i).work.state <;> first
    | rfl
    | (simp only [← publish_withAssembler, withAssembler_ite]; rfl)

@[simp] theorem recompute_withAssembler : recompute (s.withAssembler a) = (recompute s).withAssembler a := by
  unfold recompute
  have hd : divide (s.withAssembler a) = divide s := rfl
  have hs : ∀ (given : List Nat) (b : Arbiter),
      setShares given { s.withAssembler a with arbiter := b } = (setShares given { s with arbiter := b }).withAssembler a :=
    fun _ _ => rfl
  simp only [hd, hs, withAssembler_arbiter]
  split_ifs
  · rfl
  · exact post_withAssembler ..

@[simp] theorem handOverLink_withAssembler : handOverLink (s.withAssembler a) = (handOverLink s).withAssembler a := by
  unfold handOverLink
  rw [withAssembler_ite, ← recompute_withAssembler]; rfl

theorem freeIf_withAssembler (p : FetchRecord → Bool) (k : Slot) :
    freeIf p (s.withAssembler a) k = (freeIf p s k).withAssembler a := by
  unfold freeIf; rw [withAssembler_slot]
  cases s.slot k with
  | none => rfl
  | some r => simp only; split_ifs <;> rfl

@[simp] theorem freeWhere_withAssembler (p : FetchRecord → Bool) :
    freeWhere p (s.withAssembler a) = (freeWhere p s).withAssembler a := by
  unfold freeWhere
  generalize List.finRange 16 = ks
  induction ks generalizing s with
  | nil => rfl
  | cons k ks ih => rw [List.foldl_cons, freeIf_withAssembler, ih]; rfl

@[simp] theorem dropParts_withAssembler (p : ConsumerPart → Bool) :
    dropParts p (s.withAssembler a) = (dropParts p s).withAssembler a := rfl

@[simp] theorem freeSession_withAssembler (i : SessionId) :
    freeSession i (s.withAssembler a) = (freeSession i s).withAssembler a := by
  simp [freeSession]

end withAssembler

/-- The effect of a taken order leaves the order assembler alone, whatever it holds. -/
theorem orderEffect_withAssembler (tag : Tag) (i : SessionId) (o : Order) (s : State) (a : Assembler) :
    orderEffect tag i o (s.withAssembler a)
      = ((orderEffect tag i o s).1.withAssembler a, (orderEffect tag i o s).2) := by
  cases o with
  | setup f =>
    simp only [orderEffect, setupEffect, withAssembler_ite, ← handOverLink_withAssembler]; rfl
  | openSession f =>
    have hs : seedMeter (f.seed.map seedValue) (s.withAssembler a)
        = (seedMeter (f.seed.map seedValue) s).withAssembler a := by
      unfold seedMeter
      cases f.seed.map seedValue with
      | none => rfl
      | some v => simp only [withAssembler_ite]; rfl
    simp only [orderEffect, openEffect, hs, withAssembler_setSession, withAssembler_meter, withAssembler_timebase,
      recompute_withAssembler, Prod.mk.injEq, and_true]
    split_ifs
    · exact post_withAssembler ..
    · rfl
  | closeSession => simp [orderEffect, closeEffect]
  | window f =>
    simp only [orderEffect, windowEffect, withAssembler_session, withAssembler_setSession, recompute_withAssembler,
      takeWindow_withAssembler]
  | pause m => simp [orderEffect, pauseEffect]
  | resume =>
    simp only [orderEffect, resumeEffect, Prod.mk.injEq, and_true]
    have hh : hasStalled i (s.withAssembler a) = hasStalled i s := rfl
    rw [hh]
    split_ifs
    · simp only [resumeToFallback, withAssembler_session, withAssembler_setWork, recompute_withAssembler,
        publishLo_withAssembler]
      rfl
    · simp only [resumeByMode, withAssembler_session, withAssembler_setWork, recompute_withAssembler,
        publishLo_withAssembler, startProbe_withAssembler]
      split <;> try rfl
      simp only [resumeHeld, withAssembler_session, continueProbe_withAssembler, publishLo_withAssembler,
        steadyDecision_withAssembler]
      split <;> rfl
  | recover => simp [orderEffect]
  | continueRung => simp [orderEffect, continueEffect]
  | fetch f =>
    have hf : freeSlots (s.withAssembler a) = freeSlots s := rfl
    simp only [orderEffect, fetchEffect, hf]
    split <;> rfl
  | abort base => simp [orderEffect, abortEffect]
  | flush => simp [orderEffect, flushEffect]
  | reset =>
    simp only [orderEffect, resetEffect, freeWhere_withAssembler, dropParts_withAssembler]
    generalize dropParts (fun _ => true) (freeWhere (fun _ => true) s) = t
    rfl
  | reacquire =>
    simp only [orderEffect, reacquireEffect, withAssembler_timebase]
    cases s.timebase.source <;> rfl

/-- So no order's effect changes the order assembler. -/
theorem orderEffect_assembler (tag : Tag) (i : SessionId) (o : Order) (s : State) :
    (orderEffect tag i o s).1.assembler = s.assembler := by
  have h := orderEffect_withAssembler tag i o s s.assembler
  have : s.withAssembler s.assembler = s := rfl
  rw [this] at h
  rw [h]; rfl

/-- Whether an order is refused does not depend on the order assembler. -/
theorem refusalCause_withAssembler (field : BitVec 4) (o : Order) (s : State) (a : Assembler) :
    refusalCause field o (s.withAssembler a) = refusalCause field o s := by
  cases o <;> rfl

/-! ### How a record ends -/

theorem finishRecord_refused (kind : BitVec 8) (field : BitVec 4) (cause : Cause) (s : State) :
    finishRecord kind field (some cause) none s = refusedWith kind field cause s := by
  simp [finishRecord, refusedWith, endedWith, refusedSession, noSession]

theorem finishRecord_taken (kind : BitVec 8) (field : BitVec 4) (slot : Option Slot) (s : State) :
    finishRecord kind field none slot s
      = endedWith kind field 0 ((slot.map fun k => BitVec.ofNat 8 k.val).getD 0xFF) s := by
  simp [finishRecord, endedWith]

theorem refusedWith_runs (kind : BitVec 8) (field : BitVec 4) (cause : Cause) (s : State) :
    Runs { s with assembler := (refusedWith kind field cause s).assembler } (refusedWith kind field cause s) := by
  unfold refusedWith
  simp only [post_assembler]
  exact post_runs ..

@[simp] theorem refusedWith_idle (kind : BitVec 8) (field : BitVec 4) (cause : Cause) (s : State) :
    (refusedWith kind field cause s).assembler.assembly = .idle := by
  simp [refusedWith, endedWith]

theorem discardRecord_idle {s : State} (h : s.assembler.assembly = .idle) (cause : Cause) : discardRecord cause s = s := by
  simp [discardRecord, h]

theorem discardRecord_assembling {s : State} {header : Word} {body : List Word}
    (h : s.assembler.assembly = .assembling header body) (cause : Cause) :
    discardRecord cause s = refusedWith (headerKind header) (headerSession header) cause s := by
  simp [discardRecord, h, finishRecord_refused]

/-- Every order command gives its order whole. -/
theorem exec_orderCommand (tag : Tag) (field : BitVec 4) (o : Order) (s : State) :
    exec (orderCommand tag field o) s = .next (giveOrder tag field o s) := by
  cases o <;> rfl

/-- An order that nothing refuses is taken: its effect, and then its last order result. -/
theorem exec_orderCommand_taken {tag : Tag} {field : BitVec 4} {o : Order} {s : State} (h : Ready tag s)
    (hc : refusalCause field o s = none) :
    exec (orderCommand tag field o) s = .next (endedWith o.kind field 0
      (((orderEffect tag (sessionOf field) o s).2.map fun k => BitVec.ofNat 8 k.val).getD 0xFF)
      (orderEffect tag (sessionOf field) o s).1) := by
  simp [exec_orderCommand, giveOrder, h.1, discardRecord_idle h.2, judgeOrder, hc, finishRecord_taken]

/-- A session field of 0 to 3 never fails the session-number stage. -/
theorem numberCause_sessionField (i : SessionId) (o : Order) : numberCause (sessionField i) o = none := by
  have := sessionField_le i
  simp [numberCause]

/-- An order with a session field of 0 to 3 is taken when its own checks pass. -/
theorem refusalCause_eq_none {i : SessionId} {o : Order} {s : State} (h : lengthCause o = none)
    (hs : stateCause i o s = none) (hc : contentCause i o s = none) : refusalCause (sessionField i) o s = none := by
  simp [refusalCause, numberCause_sessionField, h, hs, hc]

/-! ### Reading what a session has -/

theorem mem_recordsOf {s : State} {i : SessionId} {r : FetchRecord} :
    r ∈ recordsOf s i ↔ ∃ k, s.slot k = some r ∧ r.session = i := by
  simp only [recordsOf, List.mem_filterMap, List.mem_finRange, true_and]
  refine exists_congr fun k => ?_
  cases s.slot k with
  | none => simp
  | some q =>
    simp only [Option.some.injEq]
    constructor
    · intro h; split at h <;> simp_all
    · rintro ⟨rfl, h⟩; simp [h]

theorem hasStalled_iff {s : State} {i : SessionId} :
    hasStalled i s = true ↔ ∃ k r, s.slot k = some r ∧ r.session = i ∧ r.state = .stalled := by
  simp only [hasStalled, List.any_eq_true, mem_recordsOf, beq_iff_eq]
  constructor
  · rintro ⟨r, ⟨k, h, h'⟩, hs⟩; exact ⟨k, r, h, h', hs⟩
  · rintro ⟨k, r, h, h', hs⟩; exact ⟨r, ⟨k, h, h'⟩, hs⟩

theorem mem_freeSlots {s : State} {k : Slot} : k ∈ freeSlots s ↔ s.slot k = none := by
  simp [freeSlots]

/-- BAD_LADDER is exactly a 0 or a ladder that does not strictly increase (R26). -/
theorem badLadder_iff (l : List Nat) :
    badLadder l = true ↔ ¬ ((∀ r ∈ l, r ≠ 0) ∧ l.Pairwise (· < ·)) := by
  have hc : (l.zip l.tail).all (fun p => decide (p.1 < p.2)) = true ↔ l.Pairwise (· < ·) := by
    induction l with
    | nil => simp
    | cons a l ih =>
      cases l with
      | nil => simp
      | cons b l =>
        simp only [List.tail_cons, List.zip_cons_cons, List.all_cons, Bool.and_eq_true, decide_eq_true_eq] at ih ⊢
        rw [show ((b :: l).zip l).all (fun p => decide (p.1 < p.2)) = true ↔ _ from ih]
        rw [List.pairwise_cons (a := a)]
        constructor
        · rintro ⟨h1, h2⟩
          refine ⟨?_, h2⟩
          intro x hx
          rcases List.mem_cons.1 hx with rfl | hx
          · exact h1
          · exact h1.trans ((List.pairwise_cons.1 h2).1 x hx)
        · rintro ⟨h1, h2⟩; exact ⟨h1 b (by simp), h2⟩
  unfold badLadder
  rw [Bool.or_eq_true, Bool.not_eq_true', ← Bool.not_eq_true, hc]
  simp only [List.any_eq_true, beq_iff_eq]
  constructor
  · rintro (⟨x, hx, rfl⟩ | h) ⟨h1, h2⟩
    · exact h1 _ hx rfl
    · exact h h2
  · intro h
    by_cases hp : l.Pairwise (· < ·)
    · left; by_contra hn; exact h ⟨fun r hr hz => hn ⟨r, hr, hz⟩, hp⟩
    · exact .inr hp

end Sys2Proof.Machine
end

