-- ==== Sys2Proof/Laws/Classifier.lean ====
section
/-! SUPPORT. The parts of a consumer read: what joins the list, and that it stays in ascending address order, one
part for each range; and the arrivals of a write, by slot. -/

namespace Sys2Proof.Machine

theorem mem_insertPart (p q : Nat × ConsumerPart) (l : List (Nat × ConsumerPart)) : q ∈ insertPart p l ↔ q = p ∨ q ∈ l := by
  induction l with
  | nil => simp [insertPart]
  | cons a l ih => unfold insertPart; split <;> simp [ih]; tauto

/-- A part joins a list in ascending address order at its place (R9). -/
theorem insertPart_sorted (p : Nat × ConsumerPart) (l : List (Nat × ConsumerPart)) (h : (l.map (·.1)).Pairwise (· ≤ ·)) :
    ((insertPart p l).map (·.1)).Pairwise (· ≤ ·) := by
  induction l with
  | nil => simp [insertPart]
  | cons a l ih =>
    unfold insertPart
    simp only [List.map_cons, List.pairwise_cons] at h
    split
    · next hl =>
      simp only [List.map_cons, List.pairwise_cons]
      refine ⟨?_, h⟩
      intro x hx
      rcases List.mem_cons.1 hx with rfl | hx
      · omega
      · have := h.1 x hx; omega
    · next hl =>
      simp only [List.map_cons, List.pairwise_cons]
      refine ⟨?_, ih h.2⟩
      intro x hx
      obtain ⟨q, hq, rfl⟩ := List.mem_map.1 hx
      rcases (mem_insertPart ..).1 hq with rfl | hq
      · omega
      · exact h.1 _ (List.mem_map_of_mem hq)

theorem parts_sorted (l : List (Nat × ConsumerPart)) :
    ((l.foldr insertPart []).map (·.1)).Pairwise (· ≤ ·) := by
  induction l with
  | nil => simp
  | cons a l ih => exact insertPart_sorted _ _ ih

theorem mem_parts (l : List (Nat × ConsumerPart)) (q : Nat × ConsumerPart) : q ∈ l.foldr insertPart [] ↔ q ∈ l := by
  induction l with
  | nil => simp
  | cons a l ih => simp [mem_insertPart, ih]

/-- The part a range yields (R9), if the span touches it. -/
theorem partFor_eq_some (t : Transaction) (i : SessionId) (slot : Option Slot) (serial : Serial) (base size : Nat)
    (q : Nat × ConsumerPart) :
    partFor t i slot serial base size = some q ↔
      (t.address.toNat < base + size ∧ base < t.address.toNat + t.lanes.length)
        ∧ q = (base, ⟨i, slot, serial, min (t.address.toNat + t.lanes.length) (base + size) - base, true⟩) := by
  unfold partFor; simp only
  split
  · next h => simp [spanTouches] at h; simp [h, eq_comm]
  · next h => simp [spanTouches] at h; simp; intro a b; have := h a; omega

/-- Placing parts reorders them and no more. -/
theorem parts_perm (l : List (Nat × ConsumerPart)) : (l.foldr insertPart []).Perm l := by
  have h : ∀ (p : Nat × ConsumerPart) (l : List _), (insertPart p l).Perm (p :: l) := by
    intro p l
    induction l with
    | nil => exact .refl _
    | cons q l ih =>
      unfold insertPart; split
      · exact .refl _
      · exact (ih.cons q).trans (.swap p q l)
  induction l with
  | nil => exact .refl _
  | cons p l ih => exact (h p _).trans (ih.cons p)

/-- Where the tracked ranges are apart and none is empty, the parts stand at distinct bases (R6, R9). -/
theorem parts_bases_nodup (s : State) (t : Transaction) (hr : RangesOk s) (ht : TrackingOk s) :
    ((tableParts s t ++ heldParts s t).map (·.1)).Nodup := by
  have base : ∀ {i slot serial b n q}, partFor t i slot serial b n = some q → q.1 = b := by
    intro i slot serial b n q h; rw [((partFor_eq_some ..).1 h).2]
  have table : ∀ k q, (match s.slot k with
      | some r => if readBy s t r.session && r.kind != .other then partFor t r.session (some k) r.serial r.base r.size else none
      | none => none) = some q → ∃ r, s.slot k = some r ∧ q.1 = r.base := by
    intro k q h
    split at h
    · next r h' => split at h <;> [exact ⟨r, h', base h⟩; cases h]
    · cases h
  have held : ∀ i q, q ∈ (if readBy s t i then (s.session i).held.filterMap fun h => partFor t i none h.serial h.base h.size
      else []) → ∃ h ∈ (s.session i).held, q.1 = h.base := by
    intro i q h
    split at h
    · obtain ⟨g, hg, e⟩ := List.mem_filterMap.1 h; exact ⟨g, hg, base e⟩
    · cases h
  obtain ⟨h1, h2, h3, h4, -, -⟩ := hr
  have hs : ∀ i, ∀ h ∈ (s.session i).held, 1 ≤ h.size := fun i h hh => (ht.2.1 i h hh).1.1
  have hk : ∀ k, ∀ r ∈ s.slot k, 1 ≤ r.size := fun k r hr => (ht.1 k r hr).1.1.1
  rw [List.Nodup, List.pairwise_map, List.pairwise_append]
  refine ⟨?_, ?_, ?_⟩
  · refine List.Pairwise.filterMap _ (R := (· ≠ ·)) ?_ (List.nodup_finRange 16)
    intro k k' hne q hq q' hq' e
    obtain ⟨r, hr, e1⟩ := table k q hq
    obtain ⟨r', hr', e2⟩ := table k' q' hq'
    have := h1 k k' hne r hr r' hr'
    have := hk k r hr; have := hk k' r' hr'
    omega
  · rw [heldParts, List.pairwise_flatMap]
    constructor
    · intro i _
      split
      · refine List.Pairwise.filterMap _ ?_ ((h3 i).imp_of_mem (S := fun g g' => g.base ≠ g'.base) fun {g g'} hg hg' h e => ?_)
        · intro g g' hg q hq q' hq' e
          rw [base hq, base hq'] at e
          exact hg e
        · have := hs i g hg; have := hs i g' hg'; omega
      · exact .nil
    · refine (List.nodup_finRange 4).imp ?_
      intro i j hne q hq q' hq' e
      obtain ⟨g, hg, e1⟩ := held i q hq
      obtain ⟨g', hg', e2⟩ := held j q' hq'
      have := h4 i j hne g hg g' hg'
      have := hs i g hg; have := hs j g' hg'
      omega
  · intro q hq q' hq' e
    obtain ⟨k, -, hq⟩ := List.mem_filterMap.1 hq
    obtain ⟨i, -, hq'⟩ := List.mem_flatMap.1 hq'
    obtain ⟨r, hr, e1⟩ := table k q hq
    obtain ⟨g, hg, e2⟩ := held i q' hq'
    have := h2 k r hr i g hg
    have := hk k r hr; have := hs i g hg
    omega
/-- A write yields its arrivals by slot, at most one for each (R6, log entry 4). -/
theorem arrivalWrites_slots (s : State) (t : Transaction) : ((arrivalWrites s t).map (·.slot)).Pairwise (· < ·) := by
  have slot : ∀ k (a : Arrival), (s.slot k).bind (arrivalFor t k) = some a → a.slot = k := by
    intro k a h
    obtain ⟨r, -, h⟩ := Option.bind_eq_some_iff.1 h
    unfold arrivalFor at h
    split at h <;> cases h
    rfl
  unfold arrivalWrites
  split
  · rw [List.pairwise_map]
    refine List.Pairwise.filterMap _ (R := (· < ·)) ?_ (List.pairwise_lt_finRange 16)
    intro k k' h a ha a' ha'
    rw [slot k a ha, slot k' a' ha']; exact h
  · exact .nil

end Sys2Proof.Machine
end

