-- ==== Sys2Proof/Laws/Decode.lean ====
section
/-! SUPPORT. What reading a record's words gives: a field of fields side by side, the check word as a sum, the bodies
an OPEN admits, and the kinds with no body. -/

namespace Sys2Proof

/-- A field inside the lower of two fields side by side. -/
theorem extract_low {a b : Nat} (x : BitVec a) (y : BitVec b) (s l : Nat) (h : s + l ≤ b) :
    (x ++ y).extractLsb' s l = y.extractLsb' s l := by
  apply BitVec.eq_of_getLsbD_eq; intro i hi
  simp only [BitVec.getLsbD_extractLsb', BitVec.getLsbD_append, hi, decide_true, Bool.true_and]
  rw [if_pos (by omega)]

/-- A field inside the upper of two fields side by side. -/
theorem extract_high {a b : Nat} (x : BitVec a) (y : BitVec b) (s l : Nat) (h : b ≤ s) :
    (x ++ y).extractLsb' s l = x.extractLsb' (s - b) l := by
  apply BitVec.eq_of_getLsbD_eq; intro i hi
  simp only [BitVec.getLsbD_extractLsb', BitVec.getLsbD_append, hi, decide_true, Bool.true_and]
  rw [if_neg (by omega)]; congr 1; omega

/-- A field that is all of its word. -/
theorem extract_all {l : Nat} (x : BitVec l) : x.extractLsb' 0 l = x := by
  apply BitVec.eq_of_getLsbD_eq; intro i hi; simp [hi]

/-- A bit of the lower of two fields side by side. -/
theorem bit_low {a b : Nat} (x : BitVec a) (y : BitVec b) (s : Nat) (h : s < b) : (x ++ y).getLsbD s = y.getLsbD s := by
  rw [BitVec.getLsbD_append, if_pos h]

/-- A bit of the upper of two fields side by side. -/
theorem bit_high {a b : Nat} (x : BitVec a) (y : BitVec b) (s : Nat) (h : b ≤ s) :
    (x ++ y).getLsbD s = x.getLsbD (s - b) := by
  rw [BitVec.getLsbD_append, if_neg (by omega)]

/-- The check word is the complement of the sum of the header and the body words (R15). -/
theorem checkWord_eq (header : Word) (body : List Word) : checkWord header body = ~~~ (header + body.sum) := by
  have h : ∀ (l : List Word) (a : Word), l.foldl (· + ·) a = a + l.sum := by
    intro l
    induction l with
    | nil => simp
    | cons b l ih => intro a; rw [List.foldl_cons, ih, List.sum_cons, BitVec.add_assoc]
  unfold checkWord; rw [h, List.sum_cons]; simp

/-- A kind with no body: its order from an empty body, BAD_LENGTH from any other (R22). -/
theorem withoutBody_spec (o : Order) (body : List Word) :
    (body.length = 0 → withoutBody o body = .ok o) ∧ (body.length ≠ 0 → withoutBody o body = .error .badLength) := by
  cases body <;> simp [withoutBody]

/-- An OPEN's body of fewer than three words is BAD_LENGTH (R22). -/
theorem decodeOpen_short (body : List Word) (h : body.length < 3) : decodeOpen body = .error .badLength := by
  match body, h with
  | [], _ => rfl
  | [_], _ => rfl
  | [_, _], _ => rfl

/-- The bodies of OPEN (R22): n of 1 to 8 in the first word's bits 3:0, and 3 + n words, one more with the seed-present flag of bit 4. -/
abbrev OpenBody (body : List Word) : Prop :=
  ∃ w1 more, body = w1 :: more ∧ 1 ≤ (w1.extractLsb' 0 4).toNat ∧ (w1.extractLsb' 0 4).toNat ≤ 8
    ∧ body.length = 3 + (w1.extractLsb' 0 4).toNat + (if w1.getLsbD 4 then 1 else 0)

/-- An OPEN's body is read where R22 admits it, and is BAD_LENGTH elsewhere. -/
theorem decodeOpen_spec (body : List Word) :
    (OpenBody body → ∃ f, decodeOpen body = .ok f) ∧ (¬ OpenBody body → decodeOpen body = .error .badLength) := by
  by_cases h3 : body.length < 3
  · refine ⟨?_, fun _ => decodeOpen_short body h3⟩
    rintro ⟨a, b, rfl, h1, h2, h4⟩; omega
  · obtain ⟨w1, w2, w3, rest, rfl⟩ : ∃ w1 w2 w3 rest, body = w1 :: w2 :: w3 :: rest := by
      match body, h3 with
      | [], h => simp at h
      | [_], h => simp at h
      | [_, _], h => simp at h
      | a :: b :: c :: d, _ => exact ⟨a, b, c, d, rfl⟩
    constructor
    · rintro ⟨a, b, e, h1, h2, h4⟩
      cases e
      exact ⟨_, if_pos ⟨h1, h2, by simp only [List.length_cons] at h4; omega⟩⟩
    · intro h
      refine if_neg ?_
      rintro ⟨h1, h2, h4⟩
      exact h ⟨w1, _, rfl, h1, h2, by simp only [List.length_cons]; omega⟩

end Sys2Proof
end

