-- ==== Sys2Proof/Laws/HeldSegments.lean ====
section
/-! SUPPORT. What the held-segment unit makes of a held list: a segment joined to it, and the list after a consumer read. -/

namespace Sys2Proof.Machine

theorem mem_insertHeld {h g : HeldSegment} {held : List HeldSegment} : g ∈ insertHeld h held ↔ g = h ∨ g ∈ held := by
  induction held with
  | nil => simp [insertHeld]
  | cons a rest ih =>
    unfold insertHeld
    split
    · simp
    · simp only [List.mem_cons, ih]; tauto

theorem length_insertHeld (h : HeldSegment) (held : List HeldSegment) :
    (insertHeld h held).length = held.length + 1 := by
  induction held with
  | nil => rfl
  | cons a rest ih => unfold insertHeld; split <;> simp [ih]

/-- The range of a held segment. -/
def HeldSegment.range (h : HeldSegment) : Nat × Nat := (h.base, h.size)

/-- Raising a consumed HWM moves no range, and leaves the serials as they are. -/
theorem raiseHeld_range (q : Serial) (e : Nat) (held : List HeldSegment) :
    (raiseHeld q e held).map HeldSegment.range = held.map HeldSegment.range
      ∧ (raiseHeld q e held).map (·.serial) = held.map (·.serial) := by
  unfold raiseHeld
  simp only [List.map_map]
  refine ⟨List.map_congr_left fun h _ => ?_, List.map_congr_left fun h _ => ?_⟩ <;>
    · simp only [Function.comp]; split <;> rfl

/-- The held list after a read of the segment of serial `q` (R83). -/
theorem readHeld_held (q : Serial) (e : Nat) (x : Session) :
    (readHeld q e x).held =
      if readToEnd q ((raiseHeld q e x.held).filter fun h => !older h.serial q) then
        ((raiseHeld q e x.held).filter fun h => !older h.serial q).filter fun h => h.serial != q
      else (raiseHeld q e x.held).filter fun h => !older h.serial q :=
  apply_ite Session.held ..

/-- A consumer read only takes segments off a held list: the ranges left are a sublist of those before. -/
theorem readHeld_range (q : Serial) (e : Nat) (x : Session) :
    ((readHeld q e x).held.map HeldSegment.range).Sublist (x.held.map HeldSegment.range) := by
  rw [← (raiseHeld_range q e x.held).1, readHeld_held]
  split
  · exact ((List.filter_sublist).trans List.filter_sublist).map _
  · exact List.filter_sublist.map _

/-- What is left after a consumer read has still something to read. -/
theorem readHeld_heldOk (q : Serial) (e : Nat) {x : Session} (hx : ∀ h ∈ x.held, HeldOk h) :
    ∀ h ∈ (readHeld q e x).held, HeldOk h := by
  have hr : ∀ h ∈ raiseHeld q e x.held, (h.serial = q → h.consumed ≠ h.size) → HeldOk h := by
    intro h hm hne
    obtain ⟨g, hg, rfl⟩ := List.mem_map.1 hm
    have ok := hx g hg
    by_cases hq : g.serial = q
    · simp only [hq, if_true] at hne ⊢
      exact ⟨ok.1, ok.2.1, by have := hne trivial; simp only; omega⟩
    · simp only [hq, if_false]; exact ok
  intro h hm
  rw [readHeld_held] at hm
  split at hm
  · have hm' := List.mem_filter.1 hm
    refine hr h (List.mem_filter.1 hm'.1).1 fun hq => ?_
    simp [hq] at hm'
  · next hn =>
    refine hr h (List.mem_filter.1 hm).1 fun hq hc => hn ?_
    unfold readToEnd
    exact List.any_eq_true.2 ⟨h, hm, by simp [hq, hc]⟩

/-- The records of a consumer read: each keeps everything but its consumed HWM, whatever the parts. -/
theorem applyPart_slot (part : ConsumerPart) (s : State) (k : Slot) :
    ((applyPart part s).slot k).map (fun r => { r with consumed := 0 })
      = (s.slot k).map fun r => { r with consumed := 0 } := by
  unfold applyPart
  split
  · split
    · next kr h =>
      obtain ⟨j, -, hj⟩ := Option.bind_eq_some_iff.1 h
      obtain ⟨r, hr, rfl⟩ := Option.map_eq_some_iff.1 hj
      show ((s.setSlot j (some { r with consumed := _ })).slot k).map _ = _
      rw [slot_setSlot]
      split
      · next e => subst e; simp [hr]
      · rfl
    · simp only; split <;> rfl
  · rfl

/-- The parts of one read are applied one after another (R82). -/
theorem applyParts_state (parts : List ConsumerPart) (s : State) :
    (applyParts parts s).1 = parts.foldl (fun t p => applyPart p t) s := by
  induction parts generalizing s with
  | nil => rfl
  | cons p ps ih => exact ih _

/-- The sessions that had a segment removed by consumption: those of the parts that removed one, each in the state it met. -/
theorem mem_applyParts (parts : List ConsumerPart) (s : State) (i : SessionId) :
    i ∈ (applyParts parts s).2 ↔ ∃ earlier p later, parts = earlier ++ p :: later ∧ p.session = i
      ∧ removesByConsumption p (earlier.foldl (fun t p => applyPart p t) s) = true := by
  induction parts generalizing s with
  | nil => simp [applyParts]
  | cons p ps ih =>
    have : i ∈ (applyParts (p :: ps) s).2
        ↔ (removesByConsumption p s = true ∧ p.session = i) ∨ i ∈ (applyParts ps (applyPart p s)).2 := by
      show i ∈ (if removesByConsumption p s then p.session :: (applyParts ps (applyPart p s)).2
        else (applyParts ps (applyPart p s)).2) ↔ _
      generalize (applyParts ps (applyPart p s)).2 = l
      split
      · next h => simp only [List.mem_cons, h, true_and, eq_comm]
      · next h => simp only [h, false_and, false_or, Bool.false_eq_true]
    rw [this, ih]
    constructor
    · rintro (⟨h1, h2⟩ | ⟨e, q, l, rfl, h1, h2⟩)
      · exact ⟨[], p, ps, rfl, h2, h1⟩
      · exact ⟨p :: e, q, l, rfl, h1, h2⟩
    · rintro ⟨e, q, l, he, h1, h2⟩
      cases e with
      | nil => cases he; exact .inl ⟨h2, h1⟩
      | cons a e => cases he; exact .inr ⟨e, q, l, rfl, h1, h2⟩

theorem isRecordOf_iff (i : SessionId) (q : Serial) (r : FetchRecord) :
    isRecordOf i q r = true ↔ r.session = i ∧ r.serial = q ∧ r.kind ≠ .other := by
  simp [isRecordOf, and_assoc]

theorem holdsSerial_iff (q : Serial) (x : Session) : holdsSerial q x = true ↔ ∃ h ∈ x.held, h.serial = q := by
  simp [holdsSerial]

/-- The record that `recordSlot` names bears the serial. -/
theorem recordSlot_some {i : SessionId} {q : Serial} {s : State} {k : Slot} (h : recordSlot i q s = some k) :
    ∃ r, s.slot k = some r ∧ r.session = i ∧ r.serial = q ∧ r.kind ≠ .other := by
  have := List.find?_some h
  obtain ⟨r, hr, hm⟩ := Option.any_eq_true .. |>.1 this
  exact ⟨r, hr, (isRecordOf_iff i q r).1 hm⟩

theorem recordSlot_eq_none (i : SessionId) (q : Serial) (s : State) :
    recordSlot i q s = none ↔ ∀ k r, s.slot k = some r → ¬ (r.session = i ∧ r.serial = q ∧ r.kind ≠ .other) := by
  unfold recordSlot
  rw [List.find?_eq_none]
  simp only [List.mem_finRange, true_implies, Option.any_eq_true, isRecordOf_iff, not_exists, not_and]

/-- The record of a part's own slot is matched, if it bears the part's serial. -/
theorem matchedSlot_own {part : ConsumerPart} {s : State} {k : Slot} {r : FetchRecord} (hk : part.slot = some k)
    (hr : s.slot k = some r) (hm : r.session = part.session ∧ r.serial = part.serial ∧ r.kind ≠ .other) :
    matchedSlot part s = some k := by
  have : (s.slot k).any (isRecordOf part.session part.serial) = true := by
    rw [hr]; exact (isRecordOf_iff ..).2 hm
  unfold matchedSlot; rw [hk]; exact if_pos this

/-- The record that a part matches bears its serial. -/
theorem matchedSlot_some {part : ConsumerPart} {s : State} {k : Slot} (h : matchedSlot part s = some k) :
    ∃ r, s.slot k = some r ∧ r.session = part.session ∧ r.serial = part.serial ∧ r.kind ≠ .other := by
  unfold matchedSlot at h
  simp only at h
  split at h <;> split at h
  · next hm =>
    cases h
    obtain ⟨r, hr, hm⟩ := (Option.any_eq_true ..).1 hm
    exact ⟨r, hr, (isRecordOf_iff ..).1 hm⟩
  · exact recordSlot_some h
  · cases h
  · exact recordSlot_some h

/-- A part matches no record when none bears its serial, and when it has no slot and a held segment bears it. -/
theorem matchedSlot_eq_none (part : ConsumerPart) (s : State) :
    matchedSlot part s = none ↔
      (part.slot = none ∧ ∃ h ∈ (s.session part.session).held, h.serial = part.serial)
        ∨ ∀ k r, s.slot k = some r → ¬ (r.session = part.session ∧ r.serial = part.serial ∧ r.kind ≠ .other) := by
  rw [← recordSlot_eq_none, ← holdsSerial_iff]
  unfold matchedSlot
  simp only
  split
  · next k hk =>
    split
    · next hm =>
      obtain ⟨r, hr, hm⟩ := (Option.any_eq_true ..).1 hm
      have : recordSlot part.session part.serial s ≠ none := fun h =>
        (recordSlot_eq_none ..).1 h k r hr ((isRecordOf_iff ..).1 hm)
      simp [hk, this]
    · simp [hk]
  · next hk => split <;> simp_all

/-- A part removes a segment by consumption when it matches no record and a held segment of its serial is read to its size (R83
step 4). -/
theorem removesByConsumption_iff (p : ConsumerPart) (s : State) :
    removesByConsumption p s = true ↔ p.standing = true
      ∧ (p.slot = none
        ∨ ∀ k r, s.slot k = some r → ¬ (r.session = p.session ∧ r.serial = p.serial ∧ r.kind ≠ .other))
      ∧ ∃ h ∈ (s.session p.session).held, h.serial = p.serial ∧ h.size ≤ max h.consumed p.endOffset := by
  have read : readToEnd p.serial (raiseHeld p.serial p.endOffset (s.session p.session).held) = true
      ↔ ∃ h ∈ (s.session p.session).held, h.serial = p.serial ∧ h.size ≤ max h.consumed p.endOffset := by
    unfold readToEnd raiseHeld
    simp only [List.any_map, List.any_eq_true, Function.comp]
    refine exists_congr fun h => and_congr_right fun hm => ?_
    split
    · next he => simp only [he, beq_self_eq_true, Bool.true_and, beq_iff_eq, true_and]; omega
    · next he => simp [he]
  unfold removesByConsumption
  rw [Bool.and_eq_true, Bool.and_eq_true, and_assoc, Option.isNone_iff_eq_none, matchedSlot_eq_none, read]
  refine and_congr_right fun _ => and_congr_left ?_
  rintro ⟨h, hm, he, -⟩
  have : ∃ h ∈ (s.session p.session).held, h.serial = p.serial := ⟨h, hm, he⟩
  simp [this]

end Sys2Proof.Machine
end

