-- ==== Sys2Proof/Laws/InFlight.lean ====
section
/-! SUPPORT. What orders, words and arrivals leave of the observations in flight: the order words as they are, and as many arrivals as
there were. -/

namespace Sys2Proof.Machine

/-- From `s` to `t` the order words in flight stay, and no arrival joins or leaves those in flight. -/
structure KeepsFlight (s t : State) : Prop where
  orderWords : t.inFlight.orderWords = s.inFlight.orderWords
  arrivals : t.inFlight.arrivals.length = s.inFlight.arrivals.length

theorem KeepsFlight.of_eq {s t : State} (h : t.inFlight = s.inFlight) : KeepsFlight s t := ⟨by rw [h], by rw [h]⟩

theorem KeepsFlight.trans {s t u : State} (h : KeepsFlight s t) (h' : KeepsFlight t u) : KeepsFlight s u :=
  ⟨h'.1.trans h.1, h'.2.trans h.2⟩

theorem freeWhere_keepsFlight (p : FetchRecord → Bool) (s : State) : KeepsFlight s (freeWhere p s) := by
  obtain ⟨f, -, a⟩ := freeWhere_spec p s
  exact ⟨by rw [f.eq], by rw [a, List.length_map]⟩

theorem dropParts_keepsFlight (p : ConsumerPart → Bool) (s : State) : KeepsFlight s (dropParts p s) := ⟨rfl, rfl⟩

theorem passParts_keepsFlight (k : Slot) (s : State) : KeepsFlight s (passParts k s) := ⟨rfl, rfl⟩

theorem recompute_inFlight (s : State) : (recompute s).inFlight = s.inFlight := (recompute_divides s).inFlight

theorem handOverLink_inFlight (s : State) : (handOverLink s).inFlight = s.inFlight := by
  unfold handOverLink; split
  · rfl
  · exact recompute_inFlight _

theorem orderEffect_keepsFlight (tag : Tag) (i : SessionId) (o : Order) (s : State) :
    KeepsFlight s (orderEffect tag i o s).1 := by
  have hs : KeepsFlight s (freeSession i s) := (freeWhere_keepsFlight (fun r => r.session == i) s).trans
    (dropParts_keepsFlight _ _)
  cases o with
  | setup f =>
    refine .of_eq ?_
    simp only [orderEffect, setupEffect]
    split
    · exact handOverLink_inFlight _
    · rfl
  | openSession f =>
    refine .of_eq ?_
    simp only [orderEffect, openEffect]
    have hm : ∀ seed, (seedMeter seed s).inFlight = s.inFlight := by
      intro seed; unfold seedMeter; split
      · rfl
      · split <;> rfl
    have : ∀ x, (recompute ((seedMeter (f.seed.map seedValue) s).setSession i x)).inFlight = s.inFlight := fun x =>
      (recompute_inFlight _).trans (hm _)
    split
    · exact (post_inFlight ..).trans (this _)
    · exact this _
  | closeSession =>
    simp only [orderEffect, closeEffect]
    exact hs.trans (.of_eq ((recompute_inFlight _).trans (setSession_inFlight ..)))
  | window f =>
    refine .of_eq ?_
    simp only [orderEffect, windowEffect]
    have : ∀ t, (takeWindow i t).inFlight = t.inFlight := by
      intro t; unfold takeWindow; simp only
      split
      · exact (startProbe_governs ..).inFlight
      · exact (steadyDecision_governs ..).inFlight
      · exact (steadyDecision_governs ..).inFlight
      · exact (publishLo_governs ..).inFlight
      · refine ((publish_governs ..).inFlight).trans ?_
        split <;> rfl
      · rfl
    exact (this _).trans (recompute_inFlight _)
  | pause m => exact .of_eq (recompute_inFlight _)
  | resume =>
    refine .of_eq ?_
    simp only [orderEffect, resumeEffect]
    split
    · exact ((publishLo_governs ..).inFlight).trans (recompute_inFlight _)
    · unfold resumeByMode; simp only
      split
      · have hr : ∀ t, (resumeHeld i t).inFlight = t.inFlight := by
          intro t; unfold resumeHeld; split
          · exact (continueProbe_governs ..).inFlight
          · exact (publishLo_governs ..).inFlight
          · exact (steadyDecision_governs ..).inFlight
        exact (hr _).trans (recompute_inFlight _)
      · exact ((publishLo_governs ..).inFlight).trans (recompute_inFlight _)
      · exact ((startProbe_governs ..).inFlight).trans (recompute_inFlight _)
  | recover => exact .of_eq (recoverSession_governs ..).inFlight
  | continueRung => exact .of_eq rfl
  | fetch f =>
    refine .of_eq ?_
    simp only [orderEffect, fetchEffect]
    split <;> rfl
  | abort base =>
    simp only [orderEffect, abortEffect]
    exact freeWhere_keepsFlight ..
  | flush =>
    simp only [orderEffect, flushEffect]
    exact hs.trans (.of_eq (setSession_inFlight ..))
  | reset =>
    have h := (freeWhere_keepsFlight (fun _ => true) s).trans (dropParts_keepsFlight (fun _ => true) _)
    simp only [orderEffect, resetEffect]
    generalize dropParts (fun _ => true) (freeWhere (fun _ => true) s) = t at h ⊢
    exact ⟨h.1, h.2⟩
  | reacquire =>
    refine .of_eq ?_
    simp only [orderEffect, reacquireEffect]
    split <;> rfl

theorem finishRecord_inFlight (kind : BitVec 8) (session : BitVec 4) (cause : Option Cause) (slot : Option Slot) (s : State) :
    (finishRecord kind session cause slot s).inFlight = s.inFlight := by
  unfold finishRecord; simp only; split
  · exact post_inFlight ..
  · rfl

/-- Taking a word neither reads nor changes the order words still in flight. -/
theorem takeWord_keepsFlight (w : OrderWord) (s : State) : KeepsFlight s (takeWord w s) := by
  have hd : ∀ cause, (discardRecord cause s).inFlight = s.inFlight := by
    intro cause; unfold discardRecord; split
    · rfl
    · exact finishRecord_inFlight ..
  unfold takeWord
  split
  · exact .of_eq (hd _)
  · split
    · exact .of_eq rfl
    · unfold takeBodyWord takeCheckWord judgeOrder
      split
      · exact .of_eq (hd _)
      · split
        · exact .of_eq (hd _)
        · split
          · exact .of_eq rfl
          · split
            · split
              · split
                · exact .of_eq (finishRecord_inFlight ..)
                · exact (orderEffect_keepsFlight ..).trans (.of_eq (finishRecord_inFlight ..))
              · exact .of_eq (finishRecord_inFlight ..)
            · exact .of_eq (finishRecord_inFlight ..)

theorem completeSegment_inFlight (i : SessionId) (h : HeldSegment) (s : State) :
    (completeSegment i h s).inFlight = s.inFlight := by
  have hr : ∀ t, (refillTest i t).inFlight = t.inFlight := fun t => by
    unfold refillTest; simp only; split
    · exact (post_inFlight ..).trans rfl
    · rfl
  unfold completeSegment; simp only
  split
  · rfl
  · split
    · rfl
    · exact (hr _).trans rfl

/-- Taking an arrival neither adds nor removes one of those still in flight. -/
theorem takeArrival_keepsFlight (a : Arrival) (s : State) : KeepsFlight s (takeArrival a s) := by
  have hf : ∀ k t, KeepsFlight t (freeSlot k t) := fun k t => ⟨rfl, by simp [freeSlot]⟩
  have hc : ∀ k r t, KeepsFlight t (completeFetch k r t) := fun k r t => by
    refine ((hf k t).trans (passParts_keepsFlight k _)).trans (.of_eq ?_)
    unfold completeFetch handOverCompletion postFetchDone
    split
    · exact post_inFlight ..
    · exact ((offerCompletion_governs ..).inFlight).trans ((completeSegment_inFlight ..).trans (post_inFlight ..))
  have hp : ∀ k r t, (postRevive k r t).inFlight = t.inFlight := fun k r t => by
    unfold postRevive; split
    · exact post_inFlight ..
    · rfl
  have hr : ∀ r n t, (creditRise r n t).inFlight = t.inFlight := fun r n t => by
    unfold creditRise credit; split <;> rfl
  unfold takeArrival
  split
  · split
    · unfold countArrival; simp only
      split
      · exact (KeepsFlight.of_eq ((hr ..).trans (hp ..))).trans (hc ..)
      · exact .of_eq ((hr ..).trans (hp ..))
    · exact .of_eq rfl
  · exact .of_eq rfl

end Sys2Proof.Machine
end

