-- ==== Sys2Proof/Laws/Reports.lean ====
section
/-! SUPPORT. The words of the report aperture: fields side by side as numbers, and the place each word has; and what the effects of a
report read can be. -/

namespace Sys2Proof.Machine

/-- The number that two fields side by side make. -/
theorem append_toNat {a b : Nat} (x : BitVec a) (y : BitVec b) : (x ++ y).toNat = x.toNat * 2 ^ b + y.toNat := by
  rw [BitVec.toNat_append, Nat.shiftLeft_eq, Nat.mul_comm, Nat.two_pow_add_eq_or_of_lt y.isLt]

/-- A word made as a number is the word of the same number. -/
theorem word_eq {n : Nat} {w : Word} (h : n % 2 ^ 32 = w.toNat) : BitVec.ofNat 32 n = w := by
  apply BitVec.eq_of_toNat_eq; rw [BitVec.toNat_ofNat, h]

theorem flag_toNat (b : Bool) : flag b = (BitVec.ofBool b).toNat := by cases b <;> rfl

/-- The open-session mask, bit by bit (R152). -/
theorem openMask_eq (s : State) :
    openMask s = (BitVec.ofBool (isOpen (s.session 3)) ++ BitVec.ofBool (isOpen (s.session 2))
      ++ BitVec.ofBool (isOpen (s.session 1)) ++ BitVec.ofBool (isOpen (s.session 0))).toNat := by
  have : List.finRange 4 = [0, 1, 2, 3] := rfl
  simp only [openMask, this, List.map_cons, List.map_nil]
  cases isOpen (s.session 0) <;> cases isOpen (s.session 1) <;> cases isOpen (s.session 2) <;>
    cases isOpen (s.session 3) <;> rfl

/-- Word `k` of an advice slot stands at its place (R181). -/
theorem reportWord_slot (pops : Bool) (s : State) (i : SessionId) {k : Nat} (h : 1 ≤ k) (h' : k < 8) :
    reportWord pops s (0x280 + 32 * i.val + 4 * k) = BitVec.ofNat 32 (adviceWord (s.session i) k) := by
  have hi := i.isLt
  have hk : (0x280 + 32 * i.val + 4 * k) % 32 / 4 = k := by omega
  have hs : Fin.ofNat 4 ((0x280 + 32 * i.val + 4 * k - 0x280) / 32) = i := by
    apply Fin.ext; simp only [Fin.ofNat]; omega
  unfold reportWord
  simp only [hk, hs]
  rw [if_neg (by omega), if_neg (by omega), if_neg (by omega), if_pos (by omega), if_neg (by omega)]

/-- Word `k` of a session snapshot stands at its place (R183). -/
theorem reportWord_snapshot (pops : Bool) (s : State) (i : SessionId) {k : Nat} (h : k < 32) :
    reportWord pops s (0x300 + 128 * i.val + 4 * k) = BitVec.ofNat 32 (snapshotWord (s.session i) k) := by
  have hi := i.isLt
  have hk : (0x300 + 128 * i.val + 4 * k) % 128 / 4 = k := by omega
  have hs : Fin.ofNat 4 ((0x300 + 128 * i.val + 4 * k - 0x300) / 128) = i := by
    apply Fin.ext; simp only [Fin.ofNat]; omega
  unfold reportWord
  simp only [hk, hs]
  rw [if_neg (by omega), if_neg (by omega), if_neg (by omega), if_neg (by omega), if_pos (by omega)]

/-- Word `j` of a fetch view entry stands at its place (R71). -/
theorem reportWord_fetchView (pops : Bool) (s : State) (k : Slot) {j : Nat} (h : j < 8) :
    reportWord pops s (0x500 + 32 * k.val + 4 * j) = BitVec.ofNat 32 (fetchViewWord s k j) := by
  have hi := k.isLt
  have hk : (0x500 + 32 * k.val + 4 * j) % 32 / 4 = j := by omega
  have hs : Fin.ofNat 16 ((0x500 + 32 * k.val + 4 * j - 0x500) / 32) = k := by
    apply Fin.ext; simp only [Fin.ofNat]; omega
  unfold reportWord
  simp only [hk, hs]
  rw [if_neg (by omega), if_neg (by omega), if_neg (by omega), if_neg (by omega), if_neg (by omega), if_pos (by omega)]

/-- A byte of the report aperture, as a number: the byte of its word at that offset, least significant first (00_scope). -/
theorem reportByte_eq (pops : Bool) (s : State) (o : Nat) :
    reportByte pops s o = BitVec.ofNat 8 ((reportWord pops s (o / 4 * 4)).toNat / 2 ^ (8 * (o % 4))) := by
  apply BitVec.eq_of_toNat_eq
  rw [reportByte, BitVec.extractLsb'_toNat, BitVec.toNat_ofNat, Nat.shiftRight_eq_div_pow]

/-- The reads that pop: those that cover page offset 0x240 (R186). -/
theorem readPops_iff (s : State) (address length : Nat) :
    readPops s address length = true ↔ address ≤ pageBase s + 0x240 ∧ pageBase s + 0x240 < address + length := by
  rw [readPops, spanTouches, Bool.and_eq_true, decide_eq_true_iff, decide_eq_true_iff]
  show _ < _ + 0x240 + 1 ∧ _ + 0x240 < _ ↔ _ ≤ _ + 0x240 ∧ _ + 0x240 < _
  omega

/-- A pop changes only what the report unit holds part-wide. -/
theorem popEvent_eq (s : State) : popEvent s = { s with report := (popEvent s).report } := by
  unfold popEvent; split <;> rfl

/-- What the effects of a report read do to a session: its advice-taken flag, if it is open and its slot overlapped (R182). -/
theorem readEffects_session (address length : Nat) (s : State) (i : SessionId) :
    (readEffects address length s).session i = { s.session i with
      taken := (s.session i).taken || (isOpen (s.session i) && overlapsSlot s address length i) } := by
  have mark : ∀ u : State, (markTaken address length u).session i = { u.session i with
      taken := (u.session i).taken || (isOpen (u.session i) && overlapsSlot u address length i) } :=
    fun u => Vector.getElem_ofFn ..
  unfold readEffects
  split
  · rw [popEvent_eq]; exact mark _
  · exact mark _

/-- What the effects of a report read do to the report unit: the pop, if it covers page offset 0x240. -/
theorem readEffects_report (address length : Nat) (s : State) :
    (readEffects address length s).report = if readPops s address length then (popEvent s).report else s.report := by
  unfold readEffects; split <;> rfl

end Sys2Proof.Machine
end

