-- ==== Sys2Proof/Tests/Slice0.lean ====
section
/-! SUPPORT. Tests: ill-formed commands refused, the manual's worked examples, and for every statement with hypotheses a state and
operands that meet them. -/

namespace Sys2Proof.Tests

open Sys2Proof.Machine

/-! ### Helpers -/

/-- The state after a command. -/
def after (c : Instr) (s : State) : State :=
  match exec c s with
  | .next t => t
  | .fault _ => s
  | .refused _ => s

/-- The bytes of words, little-endian (00_scope, Conventions). -/
def wordBytes (ws : List Word) : List Byte := ws.flatMap fun w => (List.range 4).map fun j => w.extractLsb' (8 * j) 8

/-- A transaction with every byte enabled. -/
def transfer (d : Direction) (tag : Tag) (address : Nat) (data : List Byte) : Transaction :=
  ⟨BitVec.ofNat 36 address, d, tag, data.map fun b => ⟨true, b⟩, false⟩

/-- The programmed half of session B of the share arbiter's worked example. -/
def demoProg : Programmed where
  ladder := [400, 900, 1800, 3500]
  lo := 0
  hi := 3
  weight := 1
  upCount := 2
  clip := .clamp
  recoverMode := .hold
  autoRecover := 2
  resumeMode := .hold
  consumerTag := 6
  panic := 4000
  comfort := 10000

/-- Session B in state `st`, advising `rung` in a window from 0. -/
def demoSession (st : SessionState) (rung : Nat) : Session :=
  { Session.closed with
    prog := demoProg
    work := { Working.zero with state := st, prePause := .steady, current := rung, a := 0, b := 3 }
    advice := { Advice.zero with rung := rung, state := st }
    nextSerial := 9 }

/-- The part with session 1 in state `st`. -/
def demo (st : SessionState) : State := State.reset.setSession 1 (demoSession st (if st = .probing then 2 else 0))

/-- A MEDIA record of session 1. -/
def demoRecord (st : FetchState) : FetchRecord where
  session := 1
  serial := 7
  kind := .media 1 2000
  base := 0x800000
  size := 640
  landed := 0
  consumed := 0
  state := st
  announce := 0
  firstArrival := if st = .pending then none else some 0
  lastArrival := if st = .pending then none else some 0
  deadline := if st = .stalled then none else some 0
  stalls := 0

/-- The part with session 1 in state `st` and its record in slot 3. -/
def demoFetch (st : SessionState) (fs : FetchState) : State := (demo st).setSlot 3 (some (demoRecord fs))

/-- A held segment of session 1. -/
def demoHeld (serial : Serial) (consumed : Nat) : HeldSegment := ⟨serial, 0x900000, 640, 5000, consumed⟩

/-- The part with session 1 in state `st` and held segments. -/
def demoList (st : SessionState) (held : List HeldSegment) : State :=
  (demo st).setSession 1 { (demo st).session 1 with held := held }

/-- The part with an arrival in flight. -/
def arriving (a : Arrival) (s : State) : State := { s with inFlight := { s.inFlight with arrivals := [a] } }

/-- The part with a consumer read of one part in flight. -/
def reading (p : ConsumerPart) (s : State) : State := { s with inFlight := { s.inFlight with consumerReads := [[p]] } }

/-- The part with an order word in flight, in an assembly state. -/
def wording (w : OrderWord) (assembly : Assembly) (s : State) : State :=
  { s with
    inFlight := { s.inFlight with orderWords := [w] }
    assembler := { s.assembler with assembly := assembly } }

/-! ### Ill-formed commands -/

/-- R1: a transaction has 1 to 64 bytes. -/
theorem test_empty_transaction_ill_formed :
    (transfer .write 0 0 []).wellFormed = false ∧ (transfer .write 0 0 (List.replicate 65 0)).wellFormed = false
      ∧ (transfer .write 0 0 (List.replicate 64 0)).wellFormed = true := by decide

/-- R1: a span ends inside the channel. -/
theorem test_span_past_the_channel_ill_formed :
    (transfer .read 0 (2 ^ 36 - 1) [0, 0]).wellFormed = false ∧ (transfer .read 0 (2 ^ 36 - 1) [0]).wellFormed = true := by
  decide

/-- An ill-formed transaction makes a power-on reset ill-formed, and a TRANSACTION. -/
theorem test_ill_formed_transaction_refused :
    (Instr.powerOnReset 0 [transfer .write 0 0 []]).wellFormed = false
      ∧ (Instr.transaction (transfer .write 0 0 []) .atOnce).wellFormed = false := by decide

/-- An OPEN of session B with a ladder of `n` rungs. -/
def openFields (n : Nat) (seed : Option Word) : OpenFields :=
  ⟨0, 3, 1, 2, false, 0, 0, 4000, 6, 2, 10000, ([400, 900, 1800, 3500] ++ List.replicate (n - 4) 0).take n, seed⟩

/-- R14: a body has at most 15 words, so an OPEN carries at most 12 rungs, or 11 and a seed. -/
theorem test_open_too_long_ill_formed :
    (openFields 13 none).wellFormed = false ∧ (openFields 12 (some 1)).wellFormed = false
      ∧ (openFields 12 none).wellFormed = true := by decide

/-- R186, R182: a page read that misses its offset, or is longer than 64 bytes, is not the command's read. -/
theorem test_page_read_ill_formed :
    (Instr.eventPop 0 0x241 [0] false).wellFormed = false ∧ (Instr.eventPop 0 0x23F [0] false).wellFormed = false
      ∧ (Instr.eventPop 0 0x240 [] false).wellFormed = false
      ∧ (Instr.eventPop 0 0x220 (List.replicate 65 0) false).wellFormed = false
      ∧ (Instr.adviceSlotRead 0 0x300 [0] false).wellFormed = false
      ∧ (Instr.adviceSlotRead 0 0x27F [0] false).wellFormed = false
      ∧ (Instr.adviceSlotRead 0 0x27F [0, 0] false).wellFormed = true := by decide

/-! ### The manual's worked examples -/

/-- Chapter 2, "Worked check word". -/
theorem test_worked_check_word :
    checkWord 0xFFFFFFF0 [0x20, 1] = 0xFFFFFFEE ∧ checkWord 0 [] = 0xFFFFFFFF := by decide

/-- Chapter 11, "Worked encoding: an OPEN record". -/
theorem test_worked_open_record :
    (Order.openSession (openFields 4 none)).record 3
      = [0x00007302, 0x02013004, 0x00260FA0, 0x00002710, 0x190, 0x384, 0x708, 0xDAC, 0xFDD80C81] := by decide

/-- Chapter 11: the same record written as one burst is taken, and the snapshot of session 3 begins with its first two body
words. -/
theorem test_worked_open_burst :
    let s := after (.transaction (transfer .write 0 0
      (wordBytes [0x00007302, 0x02013004, 0x00260FA0, 0x00002710, 0x190, 0x384, 0x708, 0xDAC, 0xFDD80C81])) .atOnce)
      State.reset
    s.assembler.last = ⟨2, 3, 0, 0xFF, 1⟩
      ∧ reportWord false s 0x480 = 0x02013004 ∧ reportWord false s 0x484 = 0x00260FA0 := by decide

/-- Chapter 11, the header and the bodies of SETUP, WINDOW, PAUSE, FETCH and ABORT: words written out from the tables of R194, every
ignored bit set. -/
theorem test_bodies_by_the_tables :
    (headerKind 0xFFFF5309 = 9 ∧ headerSession 0xFFFF5309 = 3 ∧ headerLength 0xFFFF5309 = 5)
      ∧ decodeOrder 0x01 [0xABCD1234, 0x07D009C3, 0x003200DA, 0x03E80BB8, 0xFF52F007] = .ok (.setup
          { arrivalTags := 0x1234, orderTags := 0xABCD, divider := 2499, window := 2000, safety := 218, minProbe := 50
            tFirst := 3000, tGap := 1000, mask := 0x803, kFast := 2, kSlow := 5 })
      ∧ decodeOrder 0x04 [0xFF09DAFF] = .ok (.window { lo := 2, hi := 5, weight := 9 })
      ∧ decodeOrder 0x05 [0xFFFFFFFE] = .ok (.pause false) ∧ decodeOrder 0x05 [1] = .ok (.pause true)
      ∧ decodeOrder 0x09 [0x80000010, 0xFFFFFFF9, 0x280, 0x07D0FFF3]
          = .ok (.fetch { base := 0x980000010, rung := 3, size := 640, duration := 2000 })
      ∧ decodeOrder 0x0A [0x80000010, 0xFFFFFFF9] = .ok (.abort 0x980000010) := by decide

/-- R196, R26: the modes. -/
theorem test_modes : modeOf 0 = .hold ∧ modeOf 1 = .safe ∧ modeOf 2 = .probe ∧ modeOf 3 = .safe := by decide

/-- R3: straps of 0x012 place the page at 0x0012_0000. -/
theorem test_power_on_places_the_page : pageBase (after (.powerOnReset 0x12 []) State.reset) = 0x120000 := by decide

/-- R25: k_f = 4 and k_s = 3 become 4 and 5; 6 and 2 become 5 and 6; 0 and 0 become 1 and 2. -/
theorem test_shift_counts :
    shiftCounts 4 3 = (4, 5) ∧ shiftCounts 6 2 = (5, 6) ∧ shiftCounts 0 0 = (1, 2) := by decide

/-- R26: with n = 4, lo = 6 and hi = 5 give the window of rung 3 alone. -/
theorem test_window_clamps : clampedHi 4 5 = 3 ∧ clampedLo 3 6 = 3 := by decide

/-- Chapter 4, "Worked fetch samples". -/
theorem test_worked_fetch_samples :
    fetchSample 450000 15000 = 2400 ∧ fetchSample 48 0 = 3840 ∧ fetchSample 1000000 7 = 11428571
      ∧ fetchSample 67108864 100 = 16777215 := by decide

/-- Chapter 6, "Worked example: the rounding of the update". -/
theorem test_worked_rounding :
    smoothed 103 0 2 = 77 ∧ smoothed 1 0 2 = 0 ∧ smoothed 100 10 2 = 115 ∧ smoothed 190 12 2 = 190 := by decide

/-- Chapter 6, "Worked example: four windows", window 2: X is 6,000. -/
theorem test_worked_second_window :
    let m := takeSample false (windowSample { State.reset.meter with busy := 1500, credited := 112500 })
      { State.reset.meter with vFast := 192000, vSlow := 192000, set := true }
    m.vFast = 168000 ∧ m.vSlow = 186000 ∧ m.link = some 8941 := by decide

/-- Chapter 6, "Worked example: COARSE and its end", window 5. -/
theorem test_worked_coarse_window :
    let m := takeSample true 12000 { State.reset.meter with vFast := 162000, vSlow := 183375, set := true }
    m.vFast = 162000 ∧ m.vSlow = 183914 ∧ m.link = some 8622 := by decide

/-- Chapter 7, "Worked example: three sessions share 8,941 kbit/s". -/
theorem test_worked_rounds :
    (rounds 7645 7645 [⟨3, 7200, 0⟩, ⟨1, 3100, 0⟩, ⟨1, 32, 0⟩]).1 = 1
      ∧ (rounds 7645 7645 [⟨3, 7200, 0⟩, ⟨1, 3100, 0⟩, ⟨1, 32, 0⟩]).2.map (·.given) = [5709, 1903, 32] := by decide

/-- Chapter 9, "Worked example: a probe of four rungs". -/
theorem test_worked_probe_bounds :
    narrowed 0 0 3 2 true = (2, 3) ∧ probeMidpoint 2 3 = 3 ∧ narrowed 0 2 3 3 false = (2, 2)
      ∧ supports 50 218 demoProg 2 15000 2400 = true ∧ supports 50 218 demoProg 3 35000 2000 = false := by decide

/-- Chapter 9: a fetch at rung 0 that is not supported ends the probe there, and an override at rung 1 moves the bounds. -/
theorem test_worked_probe_override :
    narrowed 0 0 3 0 false = (0, 0) ∧ narrowed 0 0 3 1 true = (1, 3) ∧ narrowed 0 1 3 2 false = (1, 1) := by decide

/-- Chapter 8, "Worked sequence: a fallback and its recovery": a gap stall of a session advising rung 2 publishes rung 0. -/
theorem test_gap_stall_enters_fallback :
    let s := after (.gapDeadlineExpiry 3)
      ((demoFetch .steady .landing).setSession 1 (demoSession .steady 2))
    (s.session 1).work.state = .fallback ∧ (s.session 1).advice.rung = 0 ∧ (s.session 1).work.preFallback = 2
      ∧ s.report.events.map (·.code) = [0x11, 3] := by decide

/-- R54: an arrival at the last byte completes the fetch, and the segment is held. -/
theorem test_completion_is_held :
    let s := after (.arrival 0) (arriving ⟨3, 0, 640, true⟩ (demoFetch .steady .landing))
    s.slot 3 = none ∧ (s.session 1).held = [⟨7, 0x800000, 640, 2000, 0⟩] := by decide

/-- R87: the last held segment read to its end is an underrun. -/
theorem test_underrun :
    let s := after (.consumerRead 0) (reading ⟨1, none, 4, 640, true⟩ (demoList .fallback [demoHeld 4 600]))
    (s.session 1).held = [] ∧ (s.session 1).rebuffering = true ∧ (s.session 1).work.rebuffers = 1
      ∧ (s.session 1).position = some 4 := by decide

/-- R41: the tick counter wraps. -/
theorem test_tick_wraps :
    (after (.tick .deferred) { State.reset with timebase := { State.reset.timebase with tick := 0xFFFFFFFF } }).timebase.tick
      = 0 :=
  (congrArg Timebase.tick (tickOnce_spec .deferred _).1).trans (by decide)

/-- R23: the stages of R21 in order: a RESUME of a session that is not PAUSED is refused with WRONG_STATE, one above 3 with
NO_SESSION. -/
theorem test_refusals :
    (after (.resumeOrder 0 1) (demo .steady)).assembler.last = ⟨6, 1, 0x10, 0xFF, 1⟩
      ∧ (after (.resumeOrder 0 4) (demo .steady)).assembler.last = ⟨6, 4, 0x08, 0xFF, 1⟩ := by decide

/-! ### Witnesses: the step and the laws of the whole part -/

/-- StepOnEmptyQueueIsOneClockPeriod, each clause, at the edge between counting and ticking. -/
theorem witness_clock_period :
    let at_ := fun n => { State.reset with timebase := { State.reset.timebase with cycleCount := n } }
    let lost := after .referenceLoss State.reset
    let stuck := { State.reset with timebase := { State.reset.timebase with presence := .absent } }
    (lost.pending = [] ∧ lost.timebase.source = .internal)
      ∧ (stuck.pending = [] ∧ stuck.timebase.source = .reference ∧ stuck.timebase.presence = .absent)
      ∧ ((at_ 2498).pending = [] ∧ (at_ 2498).timebase.source = .reference
          ∧ (at_ 2498).timebase.presence = .present
          ∧ (at_ 2498).timebase.cycleCount + 1 < (at_ 2498).timebase.tickLength)
      ∧ ((at_ 2499).timebase.tickLength ≤ (at_ 2499).timebase.cycleCount + 1) := by decide

/-- CommandsKeepQueuePortsAndPage: a command and its next state. -/
theorem witness_commands : ∃ t, exec (.resetOrder 3 0) (demo .steady) = .next t := ⟨_, rfl⟩

/-- The invariants' premises in a state with a session, a record and a held segment, and a command waiting. -/
theorem witness_invariants :
    let s := { (demoList .steady [demoHeld 4 600]).setSlot 3 (some (demoRecord .landing)) with
      pending := [.gapDeadlineExpiry 3] }
    (QueueOk s ∧ TimebaseOk s ∧ SettingsOk s ∧ AdviceOk s) ∧ MeterOk s ∧ SessionsOk s ∧ (TrackingOk s ∧ LimitOk s) ∧ RangesOk s
      ∧ ∃ t, step s = .next t :=
  ⟨⟨by decide, by decide⟩, by decide, by decide, ⟨by decide, by decide⟩, by decide, _, rfl⟩

/-- StepsKeepTheShareLaw: a PROBING session at its floor while the meter is UNSET. -/
theorem witness_shares :
    let s := { (demo .probing).setSession 1 { demoSession .probing 2 with share := 400 } with
      pending := [.closeOrder 0 1] }
    MeterOk s ∧ SessionsOk s ∧ SharesOk s ∧ ∃ t, step s = .next t :=
  ⟨by decide, by decide, by decide, _, rfl⟩

/-! ### Witnesses: transactions and order words -/

/-- WriteTransactionYieldsItsObservations and ReadTransactionIsOverlaid: a write and a read. -/
theorem witness_directions :
    (transfer .write 0 0 [1]).direction = .write ∧ (transfer .read 0 0 [1]).direction = .read := by decide

/-- ReadTransactionIsOverlaid, its clauses: spans that end on and begin beside page offset 0x240, with an event waiting; and spans
that cover the last byte of an open session's advice slot, and the byte after it. -/
theorem witness_read_effects :
    let s := after .referenceLoss (demo .steady)
    (pageBase s = 0 ∧ s.report.events ≠ [] ∧ (s.session 1).work.state ≠ .closed)
      ∧ (readPops s 0x23F 2 = true ∧ readPops s 0x240 1 = true ∧ readPops s 0x200 64 = false ∧ readPops s 0x241 64 = false)
      ∧ (overlapsSlot s 0x2BF 1 1 = true ∧ overlapsSlot s 0x2C0 1 1 = false ∧ overlapsSlot s 0x29F 1 1 = false) := by decide

/-- R179, R180, R183: a read of the status block, the link block, a snapshot or the fetch view, or of memory beside the page, has no
report effect. -/
theorem test_reads_without_effect :
    let s := after .referenceLoss (demo .steady)
    ∀ a ∈ [0x200, 0x260, 0x300, 0x4C0, 0x500, 0x1000],
      let t := after (.transaction (transfer .read 0 a [0, 0]) .deferred) s
      t.report.events.length = 1 ∧ t.report.latch = s.report.latch ∧ (t.session 1).taken = false := by decide

/-- AtOnceIsPassingThenTaking, each clause: a read of nothing tracked and of a held segment; a write of nothing observed, of one
record, and of one order word. -/
theorem witness_at_once :
    let s := demoList .steady [demoHeld 4 600]
    let r := { demoFetch .steady .landing with classifier := { State.reset.classifier with arrivalTags := 2 } }
    consumerParts s (transfer .read 6 0x8FFFFF [0]) = [] ∧ consumerParts s (transfer .read 6 0x90027F [0]) ≠ []
      ∧ (orderWrite r (transfer .write 0 4096 [0]) = [] ∧ arrivalWrites r (transfer .write 0 4096 [0]) = [])
      ∧ (orderWrite r (transfer .write 1 0x80027F [0, 0]) = []
          ∧ arrivalWrites r (transfer .write 1 0x80027F [0, 0]) = [⟨3, 639, 640, true⟩])
      ∧ (orderWrite r (transfer .write 0 511 [7]) = [⟨0, 508, false, 0x07000000⟩]
          ∧ arrivalWrites r (transfer .write 0 511 [7]) = []) := by decide

/-- The part with its page at 65,536, two records that end where it begins, and every tag in the arrival tag set. -/
def demoBeside : State :=
  { ((demo .steady).setSlot 3 (some { demoRecord .landing with base := 0xFFE0, size := 16 })).setSlot 5
      (some { demoRecord .landing with base := 0xFFF0, size := 16, serial := 8 }) with
    classifier := { straps := 1, orderTags := 0xFFFF, arrivalTags := 0xFFFF } }

/-- AtOnceIsPassingThenTaking: one write that ends two records and reaches into the order aperture yields two arrivals and two order
words. -/
theorem witness_at_once_several :
    let t := transfer .write 0 0xFFE0 (List.replicate 32 0 ++ wordBytes [0x206, 0xFFFFFDF9])
    (arrivalWrites demoBeside t).map (·.slot) = [3, 5] ∧ (orderWrite demoBeside t).map (·.offset) = [0, 4] := by decide

/-- OverlayIsByteByByte: a read of two bytes, the second in the report aperture. -/
theorem witness_overlay : (1 : Nat) < [(0xAA : Byte), 0xBB].length ∧ overlay State.reset 511 [0xAA, 0xBB] = [0xAA, 0] := by
  decide

/-- 00_scope, Conventions: a word on the governor page is little-endian. The head of session 1's held list, 0x13880004, byte by
byte. -/
theorem test_report_bytes :
    overlay (demoList .steady [demoHeld 4 600]) 0x3D0 [0xFF, 0xFF, 0xFF, 0xFF] = [0x04, 0x00, 0x88, 0x13] := by decide

/-- OrderWriteCarriesTouchedWords, both clauses: a tag outside the set and one inside it. -/
theorem witness_order_write :
    let s := { State.reset with classifier := { State.reset.classifier with orderTags := 1 } }
    inTagSet s.classifier.orderTags 1 = false ∧ inTagSet s.classifier.orderTags 0 = true
      ∧ enabledAt (transfer .write 0 508 [1, 2, 3, 4, 5]) (pageBase s + 511) = true := by decide

/-- OrderWordsAreFramed, each clause. -/
theorem witness_order_words :
    let header : Word := 0x00001205
    ((wording ⟨0, 0, true, header⟩ .idle State.reset).inFlight.orderWords = [⟨0, 0, true, header⟩]
      ∧ (wording ⟨0, 0, true, header⟩ .idle State.reset).assembler.assembly = .idle)
    ∧ (wording ⟨0, 0, true, header⟩ (.assembling header []) State.reset).assembler.assembly = .assembling header []
    ∧ (⟨0, 4, false, 0⟩ : OrderWord).whole = false
    ∧ ((⟨0, 8, true, 0⟩ : OrderWord).offset ≠ 0 ∧ (⟨0, 8, true, 0⟩ : OrderWord).offset ≠ 4 * (([] : List Word).length + 1))
    ∧ ((⟨0, 4, true, 1⟩ : OrderWord).offset = 4 * (([] : List Word).length + 1)
        ∧ ([] : List Word).length < headerLength header) := by decide

/-- CheckWordJudgesTheRecord, its premises: a check word at offset 4 of a record with no body, and wrong and right check words. -/
theorem witness_check_word :
    let s := wording ⟨0, 4, true, 0⟩ (.assembling 0x206 []) State.reset
    s.inFlight.orderWords = [⟨0, 4, true, 0⟩] ∧ s.assembler.assembly = .assembling 0x206 []
      ∧ (⟨0, 4, true, 0⟩ : OrderWord).offset = 4 * (([] : List Word).length + 1) ∧ headerLength 0x206 ≤ ([] : List Word).length
      ∧ (0 : Word) ≠ ~~~ ((0x206 : Word) + ([] : List Word).sum)
      ∧ (0xFFFFFDF9 : Word) = ~~~ ((0x206 : Word) + ([] : List Word).sum) := by decide

/-- CheckWordJudgesTheRecord, each clause at its edges: kinds 0x00, 0x0D and 0x0E; bodies one word short and one long; an OPEN with 0,
8 and 9 rungs (R22); and an order that is refused, one that is taken, and a writer that has left the order tag set. -/
theorem witness_check_word_kinds :
    let rungs := fun n : Nat => BitVec.ofNat 32 (n + 16) :: List.replicate (n + 3) (0 : Word)
    (decodeOrder 0x00 [] = .error .unknownKind ∧ decodeOrder 0x0E [] = .error .unknownKind ∧ decodeOrder 0x0D [] = .ok .reacquire)
      ∧ (decodeOrder 0x0D [0] = .error .badLength ∧ decodeOrder 0x09 [0, 0, 0] = .error .badLength
          ∧ decodeOrder 0x02 (rungs 0) = .error .badLength ∧ decodeOrder 0x02 (rungs 9) = .error .badLength
          ∧ (decodeOrder 0x02 (rungs 8)).toBool = true ∧ (rungs 8).length = 3 + 8 + 1)
      ∧ (refusalCause 2 .resume State.reset = some .noSession ∧ refusalCause 2 .reset State.reset = none)
      ∧ inTagSet { State.reset with classifier := { State.reset.classifier with orderTags := 1 } }.classifier.orderTags 15
          = false := by decide

/-- StrayWordIsIgnored: a word at offset 4, and a partial word at offset 0. -/
theorem witness_stray_word :
    let s := fun w => wording w .idle State.reset
    ((s ⟨0, 4, true, 0⟩).inFlight.orderWords = [⟨0, 4, true, 0⟩] ∧ (s ⟨0, 4, true, 0⟩).assembler.assembly = .idle
      ∧ ¬ ((⟨0, 4, true, 0⟩ : OrderWord).whole = true ∧ (⟨0, 4, true, 0⟩ : OrderWord).offset = 0))
    ∧ ¬ ((⟨0, 0, false, 0⟩ : OrderWord).whole = true ∧ (⟨0, 0, false, 0⟩ : OrderWord).offset = 0) := by decide

/-! ### Witnesses: orders -/

/-- DecodeOfEncodedOrder and RecordWordByWordIsTheOrder: an OPEN of 1 rung and one of 8, with the ignored bits above
each rate, and a part that is ready. -/
theorem witness_orders_fit :
    (1 ≤ (openFields 8 (some 1)).ladder.length ∧ (openFields 8 (some 1)).ladder.length ≤ 8
      ∧ (List.replicate 8 (0xFF : BitVec 8)).length = (openFields 8 (some 1)).ladder.length) ∧
    orderFits (.openSession (openFields 1 none)) = true ∧ orderFits (.openSession (openFields 8 (some 1))) = true
      ∧ orderFits .resume = true ∧ Ready 0 State.reset := by decide

/-- OrdersRefusedUnseenOrTruncating, each clause. -/
theorem witness_order_refused :
    (Ready 0 (demo .steady) ∧ refusalCause 1 .resume (demo .steady) = some .wrongState)
    ∧ inTagSet { State.reset with classifier := { State.reset.classifier with orderTags := 1 } }.classifier.orderTags 15 = false
    ∧ (wording ⟨0, 0, true, 0⟩ (.assembling 0x206 []) State.reset).assembler.assembly = .assembling 0x206 [] := by decide

/-- SessionStateStage: the session field at the edge of the session-number stage. -/
theorem witness_session_number :
    numberCause 3 .resume = none ∧ numberCause 4 .resume = some .noSession ∧ numberCause 15 .reset = none := by decide

/-- SessionStateStage, the field clause: a SETUP with a session field above 3, and a RESUME with the highest field that names a
session. -/
theorem witness_session_field :
    let setup := Order.setup (decodeSetup 0 0 0 0 0)
    (lengthCause setup = none ∧ numberCause 4 setup = none ∧ numberCause 15 setup = none
      ∧ stateCause (sessionOf 4) setup (demo .steady) = some .notIdle
      ∧ stateCause (sessionOf 15) setup (demo .steady) = some .notIdle)
      ∧ (numberCause 3 .resume = none ∧ stateCause (sessionOf 3) .resume (demo .steady) = some .noSession) := by decide

/-- FetchContentChecks: a lawful state. -/
theorem witness_fetch_lawful : TrackingOk (demoFetch .steady .landing) := by decide

/-- FetchContentChecks: a range at each edge: the top of the channel, one past it, the page's neighbour, a
range that touches a tracked one and one that meets its last byte. -/
theorem witness_fetch_checks :
    let s := demoFetch .steady .landing
    let f := fun base size => (⟨BitVec.ofNat 36 base, 3, BitVec.ofNat 32 size, 2000⟩ : FetchFields)
    fetchCause 1 (f (2 ^ 36 - 16) 16) s = none ∧ fetchCause 1 (f (2 ^ 36 - 16) 17) s = some .badRange
    ∧ fetchCause 1 (f 4096 16) s = none ∧ fetchCause 1 (f 4080 16) s = some .badRange
    ∧ fetchCause 1 { f 4096 16 with rung := 4 } s = some .badRung
    ∧ fetchCause 1 (f (0x800000 + 640) 16) s = none ∧ fetchCause 1 (f (0x800000 - 16) 17) s = some .overlap := by
  decide

/-- FetchContentChecks, the last two checks: a full table, and 24 tracked ranges. -/
theorem witness_fetch_full :
    let f : FetchFields := ⟨0x1000000, 3, 16, 2000⟩
    let full := { demo .steady with tracker := { State.reset.tracker with
      table := Vector.ofFn fun k => some { demoRecord .pending with session := 0, base := 0x800000 + 640 * k.val } } }
    let list := demoList .steady
      ((List.range 24).map fun n => ⟨BitVec.ofNat 16 n, 0x800000 + 640 * n, 640, 2000, 0⟩)
    fetchCause 1 f full = some .tableFull ∧ fetchCause 1 f list = some .listFull := by decide

/-- SetupTakesClampedValues: every session CLOSED, the meter UNSET and SET. -/
theorem witness_setup :
    let set := { State.reset with meter := { State.reset.meter with set := true, vFast := 16, vSlow := 16, link := some 0 } }
    Ready 0 State.reset ∧ (∀ j, (State.reset.session j).work.state = .closed)
      ∧ Ready 0 set ∧ (∀ j, (set.session j).work.state = .closed) ∧ set.meter.set = true := by decide

/-- OpenStartsASession: a CLOSED session and lawful ladders of 1 and 4 rungs, with and without a seed; a ladder with a 0, and
one that does not rise. -/
theorem witness_open :
    (Ready 0 State.reset ∧ (State.reset.session 1).work.state = .closed)
      ∧ (∀ f ∈ [openFields 1 none, openFields 4 none, openFields 4 (some 5000)],
          (1 ≤ f.ladder.length ∧ f.ladder.length ≤ 8) ∧ (∀ r ∈ f.ladder, r ≠ 0)
            ∧ f.ladder.Pairwise fun r r' => r.toNat < r'.toNat)
      ∧ ¬ (∀ r ∈ (openFields 8 none).ladder, r ≠ 0)
      ∧ ¬ ([400, 400] : List (BitVec 24)).Pairwise fun r r' => r.toNat < r'.toNat :=
  ⟨by decide, by simp [openFields], by simp [openFields], by simp⟩

/-- CloseEndsASession, FlushEmptiesTheSession, WindowActsByState and PauseSuspendsASession: a session in each open state. -/
theorem witness_open_states :
    ∀ st ∈ [SessionState.probing, .steady, .boundary, .fallback, .paused],
      Ready 0 (demo st) ∧ ((demo st).session 1).work.state = st ∧ ((demo st).session 1).work.state ≠ .closed := by decide

/-- The PAUSED session with a resume mode and a pre-pause state. -/
def demoPaused (mode : Mode) (before : SessionState) : State :=
  (demo .paused).setSession 1 { (demo .paused).session 1 with
    prog := { demoProg with resumeMode := mode }
    work := { ((demo .paused).session 1).work with prePause := before } }

/-- ResumeByStallOrMode, each mode and pre-pause state, with no STALLED record. -/
theorem witness_resume :
    (∀ mode ∈ [Mode.hold, .safe, .probe], ∀ before ∈ [SessionState.probing, .steady, .boundary, .fallback],
      let s := demoPaused mode before
      Ready 0 s ∧ (s.session 1).work.state = .paused ∧ (s.session 1).prog.resumeMode = mode
        ∧ (s.session 1).work.prePause = before ∧ (s.session 1).work.a < (s.session 1).work.b
        ∧ ∀ k, ∀ r ∈ s.slot k, r.session = 1 → r.state ≠ .stalled)
    ∧ (let s := (demoPaused .hold .probing).setWork 1
        { ((demoPaused .hold .probing).session 1).work with a := 2, b := 2 }
      (s.session 1).work.a = (s.session 1).work.b ∧ (s.session 1).work.prePause = .probing) := by decide

/-- ResumeByStallOrMode with a STALLED record. -/
theorem witness_resume_stalled :
    let s := demoFetch .paused .stalled
    Ready 0 s ∧ (s.session 1).work.state = .paused
      ∧ ∃ k r, s.slot k = some r ∧ r.session = 1 ∧ r.state = .stalled :=
  ⟨by decide, by decide, 3, demoRecord .stalled, by decide, by decide, by decide⟩

/-- RecoverByMode, each mode. -/
theorem witness_recover :
    ∀ mode ∈ [Mode.hold, .safe, .probe],
      let s := (demo .fallback).setSession 1
        { (demo .fallback).session 1 with prog := { demoProg with recoverMode := mode } }
      Ready 0 s ∧ (s.session 1).work.state = .fallback ∧ (s.session 1).prog.lo ≤ (s.session 1).prog.hi
        ∧ (s.session 1).prog.recoverMode = mode := by decide

/-- ContinueReturnsToSteady. -/
theorem witness_continue : Ready 0 (demo .boundary) ∧ ((demo .boundary).session 1).work.state = .boundary := by decide

/-- FetchFillsTheLowestFreeSlot: slot 0 taken, slot 1 free; MEDIA and OTHER. -/
theorem witness_fetch :
    let s := (demo .steady).setSlot 0 (some (demoRecord .pending))
    Ready 0 s ∧ (s.session 1).work.state ≠ .closed
      ∧ fetchCause 1 ⟨0x1000000, 3, 16, 2000⟩ s = none ∧ fetchCause 1 ⟨0x1000000, 15, 16, 0⟩ s = none
      ∧ s.slot 1 = none ∧ ∀ j, j < 1 → s.slot j ≠ none := by decide

/-- AbortFreesTheRecord: a record of exactly the base given. -/
theorem witness_abort :
    let s := demoFetch .steady .stalled
    Ready 0 s ∧ (s.session 1).work.state ≠ .closed ∧ s.slot 3 = some (demoRecord .stalled)
      ∧ (demoRecord .stalled).session = 1 ∧ (demoRecord .stalled).base = (0x800000#36).toNat := by decide

/-- AbortFreesTheRecord: a base that lies inside the record's range and is not its base. -/
theorem witness_no_fetch :
    ∀ k, ∀ r ∈ (demoFetch .steady .stalled).slot k, r.session = 1 → r.base ≠ (0x800010#36).toNat := by decide

/-- ResetKeepsTheSettings. -/
theorem witness_reset : Ready 0 (demoFetch .fallback .stalled) := by decide

/-- ReacquireTestsThePresence, each clause. -/
theorem witness_reacquire :
    let lost := after .referenceLoss State.reset
    (Ready 0 lost ∧ lost.timebase.presence = .absent)
      ∧ ((after .referenceReturn lost).timebase.presence = .present
          ∧ (after .referenceReturn lost).timebase.source = .internal ∧ Ready 0 (after .referenceReturn lost))
      ∧ (State.reset.timebase.presence = .present ∧ State.reset.timebase.source = .reference) := by decide

/-! ### Witnesses: arrivals, completion and consumer reads -/

/-- ArrivalIsCountedOrDropped, each clause: a counted arrival that stops one byte short, and a dropped one. -/
theorem witness_arrival :
    let s := arriving ⟨3, 0, 639, true⟩ (demoFetch .steady .stalled)
    (s.inFlight.arrivals[0]? = some ⟨3, 0, 639, true⟩ ∧ s.slot 3 = some (demoRecord .stalled)
      ∧ (demoRecord .stalled).landed ≤ 640 ∧ max (demoRecord .stalled).landed 639 < (demoRecord .stalled).size)
    ∧ ((arriving ⟨4, 0, 1, true⟩ (demoFetch .steady .stalled)).slot 4 = none) := by decide

/-- ArrivalCompletesTheFetch: the last byte of a MEDIA record and of an OTHER record. -/
theorem witness_completion :
    let s := arriving ⟨3, 0, 640, true⟩ (demoFetch .steady .landing)
    s.inFlight.arrivals[0]? = some ⟨3, 0, 640, true⟩ ∧ s.slot 3 = some (demoRecord .landing)
      ∧ (demoRecord .landing).landed ≤ (demoRecord .landing).size
      ∧ (demoRecord .landing).size ≤ max (demoRecord .landing).landed 640
      ∧ (demoRecord .landing).kind = .media 1 2000
      ∧ ({ demoRecord .landing with kind := .other } : FetchRecord).kind = .other := by decide

/-- CompletedSegmentIsHeldOrDeclined, each clause: behind the position by 1 and by 32,767; at it and 32,768 behind; read to its
end; and refilling exactly at B_comfort. -/
theorem witness_completed_segment :
    (1 ≤ ((5 : Serial) - 4).toNat ∧ ((5 : Serial) - 4).toNat ≤ 32767)
    ∧ ((4 + 32767 : Serial) - 4).toNat = 32767
    ∧ (¬ 1 ≤ ((4 : Serial) - 4).toNat ∧ ¬ ((4 + 32768 : Serial) - 4).toNat ≤ 32767)
    ∧ (demoHeld 4 640).consumed = (demoHeld 4 640).size ∧ (demoHeld 4 639).consumed ≠ (demoHeld 4 639).size
    ∧ demoProg.comfort ≤ bufferLevel (insertHeld (demoHeld 5 0) [demoHeld 4 0])
    ∧ ¬ demoProg.comfort ≤ bufferLevel (insertHeld (demoHeld 5 0) [demoHeld 4 1]) := by decide

/-- CompletedSegmentIsHeldOrDeclined, the order of the list: serials across the wrap, at both ends of the reach. -/
theorem witness_held_order :
    (∀ g ∈ [demoHeld 32766 0, demoHeld 65535 0, demoHeld 3 0], (g.serial - 65535).toNat ≤ 32767)
      ∧ (∀ g ∈ [demoHeld 65535 0, demoHeld 3 0], g.serial ≠ (demoHeld 32766 0).serial)
      ∧ [demoHeld 65535 0, demoHeld 3 0].Pairwise
          (fun g g' => (g.serial - 65535).toNat < (g'.serial - 65535).toNat) := by decide

/-- CompletionReachesTheGovernor, each clause: the probe's two, a decision's two, and FALLBACK's two at K = 2. -/
theorem witness_completion_offered :
    (narrowed 0 0 3 2 true).1 ≠ (narrowed 0 0 3 2 true).2 ∧ (narrowed 0 0 3 0 false).1 = (narrowed 0 0 3 0 false).2
      ∧ ¬ (1 ≤ demoProg.autoRecover ∧ min 15 (0 + 1) = demoProg.autoRecover)
      ∧ (1 ≤ demoProg.autoRecover ∧ min 15 (1 + 1) = demoProg.autoRecover) := by decide

/-- ConsumerReadOfARecord, each clause: a part whose range was freed, one that matches nothing, and one that matches. -/
theorem witness_read_record :
    let part : ConsumerPart := ⟨1, some 3, 7, 640, true⟩
    let s := reading part (demoFetch .steady .landing)
    s.inFlight.consumerReads[0]? = some [part] ∧ part.standing = true ∧ s.slot 3 = some (demoRecord .landing)
      ∧ ((demoRecord .landing).session = 1 ∧ (demoRecord .landing).serial = 7 ∧ (demoRecord .landing).kind ≠ .other)
      ∧ (∀ j, ∀ r ∈ s.slot j, r.session = 1 ∧ r.serial = 7 ∧ r.kind ≠ .other → j = 3)
      ∧ ((∀ k, ∀ r ∈ s.slot k, ¬ (r.session = 1 ∧ r.serial = 6 ∧ r.kind ≠ .other))
          ∧ ∀ h ∈ (s.session 1).held, h.serial ≠ 6) := by decide

/-- ConsumerReadOfAHeldSegment: a read one byte short of the end, and one to the end. -/
theorem witness_read_held :
    let s := reading ⟨1, none, 4, 639, true⟩ (demoList .steady [demoHeld 4 0, demoHeld 5 0])
    s.inFlight.consumerReads[0]? = some [⟨1, none, 4, 639, true⟩]
      ∧ (∀ k, ∀ r ∈ s.slot k, ¬ (r.session = 1 ∧ r.serial = 4 ∧ r.kind ≠ .other))
      ∧ demoHeld 4 0 ∈ (s.session 1).held
      ∧ (∀ g ∈ (s.session 1).held, g.serial = (demoHeld 4 0).serial → g = demoHeld 4 0)
      ∧ min (demoHeld 4 0).size (max (demoHeld 4 0).consumed 639) ≠ (demoHeld 4 0).size
      ∧ min (demoHeld 4 0).size (max (demoHeld 4 0).consumed 640) = (demoHeld 4 0).size := by decide

/-- The part with a record in slot 3 and a held segment that bear one serial, and a read of each in flight. -/
def demoTwins : State :=
  let s := (demoList .steady [demoHeld 7 600]).setSlot 3 (some (demoRecord .landing))
  { s with inFlight := { s.inFlight with consumerReads := [[⟨1, none, 7, 640, true⟩], [⟨1, some 3, 7, 640, true⟩]] } }

/-- R91: an ABORT of the record drops the read of the record, and does not affect that of the held segment, which then removes it. -/
theorem test_abort_spares_held_segment :
    let s := after (.abortOrder 0 1 0x800000) demoTwins
    s.slot 3 = none ∧ s.inFlight.consumerReads.map (·.map (·.standing)) = [[true], [false]]
      ∧ ((after (.consumerRead 0) s).session 1).held = [] := by decide

/-- The same of an ABORT of an OTHER record (R91). -/
theorem test_abort_of_other_spares_held_segment :
    let s := after (.abortOrder 0 1 0x800000) (demoTwins.setSlot 3 (some { demoRecord .landing with kind := .other, consumed := 0 }))
    s.slot 3 = none ∧ ((after (.consumerRead 0) s).session 1).held = [] := by decide

/-- R82, R90: a part yielded for a record whose fetch then completes applies to the held segment that it became: an underrun. -/
theorem test_part_follows_its_fetch :
    let s := arriving ⟨3, 0, 640, true⟩ (demoFetch .steady .landing)
    let t := after (.consumerRead 0) (after (.arrival 0)
      { s with inFlight := { s.inFlight with consumerReads := [[⟨1, some 3, 7, 640, true⟩]] } })
    t.slot 3 = none ∧ (t.session 1).held = [] ∧ (t.session 1).work.rebuffers = 1 := by decide

/-- ConsumerReadOfARecord and ConsumerReadOfAHeldSegment, where a record and a held segment bear one serial: the hypotheses of each on
the part of its own range. -/
theorem witness_twins :
    demoTwins.inFlight.consumerReads[0]? = some [⟨1, none, 7, 640, true⟩]
      ∧ demoTwins.inFlight.consumerReads[1]? = some [⟨1, some 3, 7, 640, true⟩]
      ∧ demoTwins.slot 3 = some (demoRecord .landing)
      ∧ ((demoRecord .landing).session = 1 ∧ (demoRecord .landing).serial = 7 ∧ (demoRecord .landing).kind ≠ .other)
      ∧ demoHeld 7 600 ∈ (demoTwins.session 1).held
      ∧ ∀ g ∈ (demoTwins.session 1).held, g.serial = (demoHeld 7 600).serial → g = demoHeld 7 600 := by decide

/-- R84: a read of two parts that takes both held segments to their ends is one underrun, judged once, and then one panic
crossing. -/
theorem test_read_of_two_parts :
    let parts : List ConsumerPart := [⟨1, none, 4, 640, true⟩, ⟨1, none, 5, 640, true⟩]
    let s := demoList .steady [demoHeld 4 0, demoHeld 5 0]
    let t := after (.consumerRead 0) { s with inFlight := { s.inFlight with consumerReads := [parts] } }
    (t.session 1).held = [] ∧ (t.session 1).work.rebuffers = 1 ∧ (t.session 1).advice.count = 1
      ∧ t.report.events.map (·.kind) = [.underrun] := by decide

/-- BufferLevelIsTheUnreadTime: 24 segments of 20,000 ms, and one of 100 ms with one byte left. -/
theorem witness_buffer_level :
    let longest := List.replicate 24 (⟨0, 0, 1, 20000, 0⟩ : HeldSegment)
    let shortest := [(⟨0, 0, 640, 100, 639⟩ : HeldSegment)]
    longest.length ≤ 24 ∧ (∀ h ∈ longest, HeldOk h) ∧ bufferLevel longest = 480000
      ∧ (∀ h ∈ shortest, HeldOk h) ∧ bufferLevel shortest = 1 := by decide

/-! ### Witnesses: ticks, expiries and windows -/

/-- TickAdvancesAndIsDelivered: nothing owed, and no deadline at the current tick. -/
theorem witness_tick :
    State.reset.meter.tickOwed = false ∧ ∀ k, ∀ r ∈ State.reset.slot k, r.deadline ≠ some State.reset.timebase.tick := by
  decide

/-- ReferenceLossAndReturn, each clause. -/
theorem witness_reference :
    let lost := after .referenceLoss State.reset
    (State.reset.timebase.presence = .present ∧ State.reset.timebase.source = .reference)
      ∧ ((after .referenceReturn lost).timebase.presence = .present
          ∧ (after .referenceReturn lost).timebase.source = .internal)
      ∧ lost.timebase.presence = .absent := by decide

/-- DeadlineExpiryStalls: a deadline reached in each open state, for either expiry; and one the tick has not reached. -/
theorem witness_expiry :
    (∀ st ∈ [SessionState.probing, .steady, .boundary, .fallback, .paused],
      let s := demoFetch st .landing
      s.slot 3 = some (demoRecord .landing) ∧ (demoRecord .landing).state = .landing
        ∧ (demoRecord .landing).deadline = some s.timebase.tick ∧ (s.session (demoRecord .landing).session).work.state = st)
    ∧ ((demoRecord .pending).state = .pending ∧ (demoRecord .pending).deadline = some State.reset.timebase.tick)
    ∧ (∀ r ∈ (demoFetch .steady .landing).slot 3, ¬ (r.state = .pending ∧ r.deadline = some 0)) := by decide

/-- WindowEndJudgesTheWindow, each clause: one tick short of W; busy one tick short of half, and half; UNSET and SET. -/
theorem witness_window :
    let m := { State.reset.meter with tickOwed := true, elapsed := 1999 }
    (m.tickOwed = true ∧ m.elapsed + 1 = m.window ∧ 1998 + 1 ≠ m.window)
      ∧ (2 * 999 < m.window ∧ m.window ≤ 2 * 1000 ∧ m.set = false ∧ { m with set := true }.set = true)
      ∧ (let s := demoFetch .steady .landing
         s.slot 3 = some (demoRecord .landing) ∧ (demoRecord .landing).state = .landing
           ∧ (s.session (demoRecord .landing).session).work.state ≠ .paused) := by decide

/-- WindowEndJudgesTheWindow: the two values `landing` can have. -/
theorem witness_window_landing :
    let owed := fun s : State => { s with meter := { s.meter with tickOwed := true } }
    let lands := fun s : State => ∃ k r, s.slot k = some r ∧ r.state = .landing
      ∧ ((s.session r.session).work.state ≠ .paused ∨ (s.session r.session).work.measure = true)
    ((owed (demoFetch .steady .landing)).meter.tickOwed = true ∧ (true = true ↔ lands (owed (demoFetch .steady .landing))))
      ∧ ((owed State.reset).meter.tickOwed = true ∧ (false = true ↔ lands (owed State.reset))) := by
  refine ⟨⟨rfl, fun _ => ⟨3, demoRecord .landing, by decide, by decide, by decide⟩, fun _ => rfl⟩, rfl, nofun, ?_⟩
  rintro ⟨k, r, h, -⟩
  exact absurd h ((by decide : ∀ k, State.reset.slot k = none) k ▸ nofun)

/-- EstimateSettlesFromAboveAndBelow: both clauses, where they meet, at both ends of the shift count. -/
theorem witness_estimate :
    (1 ≤ 1 ∧ 6 ≤ 6) ∧ (16 * 10 < 161 ∧ smoothed 161 10 1 = 160) ∧ (160 ≤ 16 * 10 ∧ smoothed 160 10 6 = 160) := by decide

/-! ### Witnesses: shares, decisions and reports -/

/-- The part with session B STEADY and a link estimate received. -/
def demoLink (l : Nat) : State := { demo .steady with arbiter := { State.reset.arbiter with received := some l } }

/-- RecomputeDividesTheLink, each case: nothing received; nobody active; L at the floor, and one above it. -/
theorem witness_recompute :
    State.reset.arbiter.received = none
      ∧ (∀ i, ¬ (((demo .paused).session i).work.state ≠ .closed ∧ ((demo .paused).session i).work.state ≠ .paused))
      ∧ ((recompute (demoLink 400)).arbiter.starved = true ∧ ((recompute (demoLink 400)).session 1).share = 400)
      ∧ ((recompute (demoLink 401)).arbiter.starved = false ∧ ((recompute (demoLink 401)).session 1).share = 401)
      ∧ ((recompute (demoLink 3501)).session 1).share = 3500 ∧ (recompute (demoLink 3501)).arbiter.headroom = 1 := by decide

/-- RecomputeDividesTheLink: L received and nobody active, the whole of it headroom. -/
theorem witness_nobody_active :
    let s := { demo .paused with arbiter := { State.reset.arbiter with received := some 8941 } }
    s.arbiter.received = some 8941
      ∧ (∀ i, ¬ ((s.session i).work.state ≠ .closed ∧ (s.session i).work.state ≠ .paused))
      ∧ (recompute s).arbiter.headroom = 8941 := by decide

/-- RecomputeDividesTheLink, the hand-over: the L last received, and L become present. -/
theorem witness_hand_over :
    State.reset.meter.link = State.reset.arbiter.received
      ∧ (let s := { demo .steady with meter := { State.reset.meter with link := some 400 } }
         s.meter.link ≠ s.arbiter.received ∧ (handOverLink s).arbiter.received = some 400
           ∧ ((handOverLink s).session 1).share = 400) := by decide

/-- RoundsShareTheRemainder: nothing given yet; and, with the weights 200 and 1 of chapter 7 ("How weights divide"), a round that gives
1 and one that gives nothing. -/
theorem witness_rounds :
    (∀ c ∈ [(⟨3, 7200, 0⟩ : Claim), ⟨1, 3100, 0⟩, ⟨1, 32, 0⟩], c.given = 0)
      ∧ min (2 * 200 / 201) 10 + min (2 * 1 / 201) 10 = 1 ∧ min (1 * 200 / 201) 9 + min (1 * 1 / 201) 10 = 0
      ∧ rounds 2 2 [⟨200, 10, 0⟩, ⟨1, 10, 0⟩] = (1, [⟨200, 9, 1⟩, ⟨1, 10, 0⟩]) := by decide

/-- Session B with a share, a current rung, a buffer level and a streak. -/
def demoDecision (share current level streak : Nat) : Session :=
  { demoSession .steady current with
    share := share, work := { (demoSession .steady current).work with upStreak := streak }
    held := if level = 0 then [] else [⟨4, 0x900000, 640, level, 0⟩] }

/-- SteadyDecisionFollowsTheSteps, each step, at the edges of B_panic, B_comfort and U. -/
theorem witness_steady_steps :
    steadyTarget false (demoDecision 3500 1 3999 0) = (0, 0)
      ∧ steadyTarget false (demoDecision 3500 1 4000 0) = (1, 0)
      ∧ steadyTarget true (demoDecision 3500 1 10000 1) = (1, 0)
      ∧ steadyTarget false (demoDecision 3500 1 10000 0) = (1, 1)
      ∧ steadyTarget false (demoDecision 3500 1 10000 1) = (2, 0)
      ∧ steadyTarget false (demoDecision 400 3 10000 1) = (2, 0)
      ∧ steadyTarget false (demoDecision 400 3 9999 1) = (0, 0)
      ∧ steadyTarget false (demoDecision 899 0 9999 1) = (0, 0) := by decide

/-- SteadyDecisionFollowsTheSteps, the clip step: held with the STOP clip mode, and not with CLAMP. -/
theorem witness_boundary :
    let x := { demoDecision 1800 2 10000 1 with prog := { demoProg with hi := 2, clip := .stop } }
    (x.prog.clip = .stop ∧ x.prog.hi < highestRung x.prog 0 3 (x.share + 1700) ∧ steadyRung false x = x.prog.hi)
      ∧ ¬ x.prog.hi < highestRung x.prog 0 3 (x.share + 1699)
      ∧ highestRung demoProg 0 3 399 = 0 ∧ highestRung demoProg 0 3 3500 = 3 := by decide

/-- PostingAndPublication, each clause: a disabled kind, a queue of 31 and of 32, a rung that moves and one that does not. -/
theorem witness_posting :
    State.reset.report.mask.getLsbD EventKind.fetchDone.code.toNat = false
      ∧ State.reset.report.mask.getLsbD EventKind.stall.code.toNat = true
      ∧ (List.replicate 31 EventRecord.zero).length < 32 ∧ 32 ≤ (List.replicate 32 EventRecord.zero).length
      ∧ (2 : Nat) ≠ ((demo .steady).session 1).advice.rung ∧ (0 : Nat) = ((demo .steady).session 1).advice.rung := by decide

/-- R190: the event line is released at reset and asserted by the first record. -/
theorem test_event_line : eventLine State.reset = false ∧ eventLine (after .referenceLoss State.reset) = true := by decide

/-- ProbeBoundsAfterATest and ProbeHalvesItsWindow: the edges of the three rows. -/
theorem witness_probe :
    (0 ≤ 0 ∧ 0 ≤ 3 ∧ 3 ≤ 3) ∧ narrowed 0 1 2 1 true = (1, 2) ∧ narrowed 0 1 2 3 true = (3, 3)
      ∧ narrowed 0 1 2 0 false = (0, 0) ∧ narrowed 0 1 2 1 false = (0, 0) ∧ narrowed 0 1 2 3 false = (1, 2)
      ∧ (demoProg.lo < demoProg.hi ∧ { demoProg with hi := 0 }.lo = { demoProg with hi := 0 }.hi) := by decide

/-- EventPopTakesTheHead, both clauses: an empty queue and a queue of one. -/
theorem witness_event_pop :
    pageReadOverlaps 0x220 (List.replicate 33 0) 0x240 0x240 = true
      ∧ pageReadOverlaps 0x240 (List.replicate 64 0) 0x240 0x240 = true
      ∧ State.reset.report.events = []
      ∧ (after .referenceLoss State.reset).report.events = [⟨.coarse, 0xF, 0, 0, 0, 0⟩] := by decide

/-- EventPopTakesTheHead: the two states track no range. -/
theorem witness_event_pop_ranges : RangesOk State.reset ∧ RangesOk (after .referenceLoss State.reset) :=
  ⟨by decide, by decide⟩

/-- AdviceSlotReadMarksTaken, both clauses: the last byte of an open session's slot, and the slots beside it. -/
theorem witness_advice_slot :
    RangesOk (demo .steady) ∧ pageReadOverlaps 0x2BF [0] 0x280 0x2FF = true
      ∧ ((demo .steady).session 1).work.state ≠ .closed ∧ ((demo .steady).session 0).work.state = .closed
      ∧ ((0x2BF : BitVec 12).toNat < 0x280 + 32 * 1 + 32 ∧ 0x280 + 32 * 1 < (0x2BF : BitVec 12).toNat + 1)
      ∧ ¬ ((0x2BF : BitVec 12).toNat < 0x280 + 32 * 2 + 32 ∧ 0x280 + 32 * 2 < (0x2BF : BitVec 12).toNat + 1) := by decide

/-- ReportWordsShowTheState, its hypotheses: a CLOSED and an open session, an empty held list and one with a head, a free slot and one
with a record. -/
theorem witness_report_words :
    ((demo .steady).session 0).work.state = .closed ∧ ((demo .steady).session 1).work.state ≠ .closed
      ∧ ((demo .steady).session 1).held = []
      ∧ ((demoList .steady [demoHeld 4 600]).session 1).held = [demoHeld 4 600]
      ∧ (demo .steady).slot 15 = none ∧ (demoFetch .steady .landing).slot 3 = some (demoRecord .landing) := by decide

/-- Chapter 11: by the tables, session 1's advice slot (rung 2, FALLBACK, state 4), the head of its held list, and the record of
slot 3. -/
theorem test_report_words :
    let s := (demoList .fallback [demoHeld 4 600]).setSlot 3 (some (demoRecord .landing))
    reportWord false (s.setSession 1 { s.session 1 with advice := ⟨2, .fallback, 7, true, 0, 0, .fallback⟩ }) 0x2A4 = 0x01040302
      ∧ reportWord false s 0x3D0 = 0x13880004 ∧ reportWord false s 0x3D4 = 600
      ∧ reportWord false s 0x560 = 0x0000003E ∧ reportWord false s 0x564 = 0x07D00007
      ∧ reportWord false s 0x568 = 0x00080000 ∧ reportWord false s 0x56C = 0x10000280
      ∧ reportWord false s 0x200 = 0x01020000 := by decide

/-- ArrivalWritesFollowEnabledBytes and ConsumerPartsAreTouchedMediaRanges: an arrival and a part of each kind. -/
theorem witness_observations :
    let s := { (demoList .steady [demoHeld 4 600]).setSlot 3 (some (demoRecord .landing)) with
      classifier := { State.reset.classifier with arrivalTags := 1 } }
    arrivalWrites s (transfer .write 0 0x7FFFFF [1, 2, 3]) = [⟨3, 0, 2, true⟩]
      ∧ consumerParts s (transfer .read 6 0x7FFFFF [0, 0]) = [⟨1, some 3, 7, 1, true⟩]
      ∧ consumerParts s (transfer .read 6 0x90027F [0, 0]) = [⟨1, none, 4, 640, true⟩] := by decide

/-- ConsumerPartsAreTouchedMediaRanges in a lawful state: one read of a record's last byte and of the first byte of a held segment
beside it. -/
theorem witness_parts_in_order :
    let s := (demoList .steady [⟨4, 0x800280, 640, 5000, 0⟩]).setSlot 3 (some (demoRecord .landing))
    RangesOk s ∧ TrackingOk s
      ∧ consumerParts s (transfer .read 6 0x80027F [0, 0]) = [⟨1, some 3, 7, 640, true⟩, ⟨1, none, 4, 1, true⟩] :=
  ⟨by decide, by decide, by decide⟩

end Sys2Proof.Tests
end

section
/-! PROOFS. What every command leaves where it is: the waiting queue, the ports' history and the straps, which place the
governor page. -/

namespace Sys2Proof.Machine

/-- From `s` to `t` nothing joined or left the waiting queue or the ports, and the governor page did not move. -/
structure KeepsOutside (s t : State) : Prop where
  pending : t.pending = s.pending
  ports : t.ports = s.ports
  straps : t.classifier.straps = s.classifier.straps

namespace KeepsOutside

variable {s t u : State}

theorem refl (s : State) : KeepsOutside s s := ⟨rfl, rfl, rfl⟩

theorem trans (h : KeepsOutside s t) (h' : KeepsOutside t u) : KeepsOutside s u :=
  ⟨h'.pending.trans h.pending, h'.ports.trans h.ports, h'.straps.trans h.straps⟩

/-- `trans` with its second part first: that part names the state between. -/
theorem after (h' : KeepsOutside t u) (h : KeepsOutside s t) : KeepsOutside s u := h.trans h'

theorem pageBase (h : KeepsOutside s t) : pageBase t = pageBase s := by
  unfold Machine.pageBase; rw [h.straps]

end KeepsOutside

theorem Runs.keepsOutside {s t : State} (h : Runs s t) : KeepsOutside s t :=
  ⟨h.pending, h.ports, congrArg Classifier.straps h.classifier⟩

theorem FreesOnly.keepsOutside {s t : State} (h : FreesOnly s t) : KeepsOutside s t :=
  ⟨by rw [h.eq], by rw [h.eq], by rw [h.eq]⟩

/-- Every operation of the session governor keeps them. -/
theorem Governs.keepsOutside {i : SessionId} {s t : State} (h : Governs i s t) : KeepsOutside s t :=
  h.runs.keepsOutside

theorem recompute_keepsOutside (s : State) : KeepsOutside s (recompute s) := (recompute_divides s).runs.keepsOutside

theorem setSession_keepsOutside (s : State) (i : SessionId) (x : Session) : KeepsOutside s (s.setSession i x) :=
  ⟨rfl, rfl, rfl⟩

/-! ### The orders -/

theorem freeWhere_keepsOutside (p : FetchRecord → Bool) (s : State) : KeepsOutside s (freeWhere p s) :=
  (freeWhere_spec p s).1.keepsOutside

theorem freeSession_keepsOutside (i : SessionId) (s : State) : KeepsOutside s (freeSession i s) :=
  (freeWhere_keepsOutside _ s).trans (mapParts_runs ..).keepsOutside

theorem setupEffect_keepsOutside (tag : Tag) (f : SetupFields) (s : State) : KeepsOutside s (setupEffect tag f s) := by
  unfold setupEffect
  simp only
  split
  · exact (handOverLink_runs _).keepsOutside.after ⟨rfl, rfl, rfl⟩
  · exact ⟨rfl, rfl, rfl⟩

theorem seedMeter_keepsOutside (seed : Option Nat) (s : State) : KeepsOutside s (seedMeter seed s) := by
  unfold seedMeter
  split <;> [skip; split] <;> exact ⟨rfl, rfl, rfl⟩

theorem openEffect_keepsOutside (i : SessionId) (f : OpenFields) (s : State) : KeepsOutside s (openEffect i f s) := by
  have opened : ∀ x, KeepsOutside s (recompute ((seedMeter (f.seed.map seedValue) s).setSession i x)) := fun x =>
    (recompute_keepsOutside _).after ((seedMeter_keepsOutside (f.seed.map seedValue) s).trans ⟨rfl, rfl, rfl⟩)
  unfold openEffect
  simp only
  split
  · exact (opened _).trans (post_runs ..).keepsOutside
  · exact opened _

theorem takeWindow_keepsOutside (i : SessionId) (s : State) : KeepsOutside s (takeWindow i s) := by
  unfold takeWindow
  simp only
  split
  · exact (startProbe_governs ..).keepsOutside
  · exact (steadyDecision_governs ..).keepsOutside
  · exact (steadyDecision_governs ..).keepsOutside
  · exact (publishLo_governs ..).keepsOutside
  · refine .trans ?_ (publish_governs ..).keepsOutside
    split
    · exact (setWork_governs ..).keepsOutside
    · exact .refl s
  · exact .refl s

theorem resumeHeld_keepsOutside (i : SessionId) (s : State) : KeepsOutside s (resumeHeld i s) := by
  unfold resumeHeld
  split
  · exact (continueProbe_governs ..).keepsOutside
  · exact (publishLo_governs ..).keepsOutside
  · exact (steadyDecision_governs ..).keepsOutside

theorem resumeEffect_keepsOutside (i : SessionId) (s : State) : KeepsOutside s (resumeEffect i s) := by
  have left : ∀ w, KeepsOutside s (recompute (s.setWork i w)) := fun w =>
    (recompute_keepsOutside _).after ⟨rfl, rfl, rfl⟩
  unfold resumeEffect resumeToFallback resumeByMode
  simp only
  split <;> [skip; split]
  · exact (left _).trans (publishLo_governs ..).keepsOutside
  · exact (left _).trans (resumeHeld_keepsOutside ..)
  · exact (left _).trans (publishLo_governs ..).keepsOutside
  · exact (left _).trans (startProbe_governs ..).keepsOutside

theorem fetchEffect_keepsOutside (i : SessionId) (f : FetchFields) (s : State) : KeepsOutside s (fetchEffect i f s).1 := by
  unfold fetchEffect
  split <;> exact ⟨rfl, rfl, rfl⟩

theorem resetEffect_keepsOutside (s : State) : KeepsOutside s (resetEffect s) := by
  have freed : KeepsOutside s (dropParts (fun _ => true) (freeWhere (fun _ => true) s)) :=
    (freeWhere_keepsOutside _ s).trans (mapParts_runs ..).keepsOutside
  unfold resetEffect
  generalize dropParts (fun _ => true) (freeWhere (fun _ => true) s) = t at freed ⊢
  exact ⟨freed.pending, freed.ports, freed.straps⟩

theorem reacquireEffect_keepsOutside (s : State) : KeepsOutside s (reacquireEffect s) := by
  unfold reacquireEffect
  split <;> exact ⟨rfl, rfl, rfl⟩

theorem orderEffect_keepsOutside (tag : Tag) (i : SessionId) (o : Order) (s : State) :
    KeepsOutside s (orderEffect tag i o s).1 := by
  cases o <;> simp only [orderEffect]
  case setup f => exact setupEffect_keepsOutside ..
  case openSession f => exact openEffect_keepsOutside ..
  case closeSession => exact (recompute_keepsOutside _).after ((freeSession_keepsOutside i s).trans (setSession_keepsOutside ..))
  case window f => exact (takeWindow_keepsOutside ..).after ((recompute_keepsOutside _).after ⟨rfl, rfl, rfl⟩)
  case pause m => exact (recompute_keepsOutside _).after ⟨rfl, rfl, rfl⟩
  case resume => exact resumeEffect_keepsOutside ..
  case recover => exact (recoverSession_governs ..).keepsOutside
  case continueRung => exact (setWork_governs ..).keepsOutside
  case fetch f => exact fetchEffect_keepsOutside ..
  case abort base => exact freeWhere_keepsOutside ..
  case flush => exact (freeSession_keepsOutside i s).trans (setSession_keepsOutside ..)
  case reset => exact resetEffect_keepsOutside s
  case reacquire => exact reacquireEffect_keepsOutside s

/-! ### The assembler -/

theorem finishRecord_keepsOutside (kind : BitVec 8) (field : BitVec 4) (cause : Option Cause) (slot : Option Slot)
    (s : State) : KeepsOutside s (finishRecord kind field cause slot s) := by
  unfold finishRecord
  simp only
  split
  · exact (post_runs ..).keepsOutside.after ⟨rfl, rfl, rfl⟩
  · exact ⟨rfl, rfl, rfl⟩

theorem discardRecord_keepsOutside (cause : Cause) (s : State) : KeepsOutside s (discardRecord cause s) := by
  unfold discardRecord
  split
  · exact .refl s
  · exact finishRecord_keepsOutside ..

theorem judgeOrder_keepsOutside (tag : Tag) (field : BitVec 4) (o : Order) (s : State) :
    KeepsOutside s (judgeOrder tag field o s) := by
  unfold judgeOrder
  split
  · exact finishRecord_keepsOutside ..
  · exact (orderEffect_keepsOutside ..).trans (finishRecord_keepsOutside ..)

theorem giveOrder_keepsOutside (tag : Tag) (field : BitVec 4) (o : Order) (s : State) :
    KeepsOutside s (giveOrder tag field o s) := by
  unfold giveOrder
  split
  · exact (discardRecord_keepsOutside ..).trans (judgeOrder_keepsOutside ..)
  · exact .refl s

theorem takeCheckWord_keepsOutside (tag : Tag) (header : Word) (body : List Word) (check : Word) (s : State) :
    KeepsOutside s (takeCheckWord tag header body check s) := by
  unfold takeCheckWord
  split <;> [split; skip]
  · exact judgeOrder_keepsOutside ..
  · exact finishRecord_keepsOutside ..
  · exact finishRecord_keepsOutside ..

theorem takeBodyWord_keepsOutside (header : Word) (body : List Word) (w : OrderWord) (s : State) :
    KeepsOutside s (takeBodyWord header body w s) := by
  unfold takeBodyWord
  split <;> [skip; split <;> [skip; split]]
  · exact discardRecord_keepsOutside ..
  · exact discardRecord_keepsOutside ..
  · exact ⟨rfl, rfl, rfl⟩
  · exact takeCheckWord_keepsOutside ..

theorem takeWord_keepsOutside (w : OrderWord) (s : State) : KeepsOutside s (takeWord w s) := by
  unfold takeWord
  split <;> [skip; split]
  · exact (discardRecord_keepsOutside .truncated s).trans ⟨rfl, rfl, rfl⟩
  · exact .refl s
  · exact takeBodyWord_keepsOutside ..

theorem takeNextWord_keepsOutside (named : OrderWord → Assembly → Bool) (s : State) :
    KeepsOutside s (takeNextWord named s) := by
  unfold takeNextWord
  split <;> [skip; split]
  · exact .refl s
  · exact (takeWord_keepsOutside ..).after ⟨rfl, rfl, rfl⟩
  · exact .refl s

/-! ### The timebase -/

theorem tickOnce_keepsOutside (d : Delivery) (s : State) : KeepsOutside s (tickOnce d s) :=
  (tickOnce_spec d s).2.keepsOutside.after ⟨rfl, rfl, rfl⟩

theorem loseReference_keepsOutside (s : State) : KeepsOutside s (loseReference s) := by
  unfold loseReference
  split
  · exact .refl s
  · exact ⟨rfl, rfl, rfl⟩
  · exact (post_runs ..).keepsOutside.after ⟨rfl, rfl, rfl⟩

/-! ### Transactions -/

theorem takeOrderWords_keepsOutside (n : Nat) (s : State) : KeepsOutside s (takeOrderWords n s) := by
  induction n generalizing s with
  | zero => exact .refl s
  | succ n ih => exact (takeNextWord_keepsOutside ..).trans (ih _)

theorem takeLastArrivals_keepsOutside (n : Nat) (s : State) : KeepsOutside s (takeLastArrivals n s) := by
  induction n generalizing s with
  | zero => exact .refl s
  | succ n ih => exact (takeArrivalAt_runs ..).keepsOutside.trans (ih _)

theorem passWrite_keepsOutside (d : Delivery) (t : Transaction) (s : State) : KeepsOutside s (passWrite d t s) := by
  have yielded : KeepsOutside s (yieldWrite t s) := ⟨rfl, rfl, rfl⟩
  cases d with
  | deferred => exact yielded
  | atOnce => exact (yielded.trans (takeOrderWords_keepsOutside ..)).trans (takeLastArrivals_keepsOutside ..)

theorem yieldRead_keepsOutside (t : Transaction) (s : State) : KeepsOutside s (yieldRead t s) := by
  unfold yieldRead
  split <;> exact ⟨rfl, rfl, rfl⟩

theorem readEffects_keepsOutside (address length : Nat) (s : State) : KeepsOutside s (readEffects address length s) := by
  unfold readEffects
  split
  · rw [popEvent_eq]; exact ⟨rfl, rfl, rfl⟩
  · exact ⟨rfl, rfl, rfl⟩

theorem passRead_keepsOutside (d : Delivery) (t : Transaction) (s : State) : KeepsOutside s (passRead d t s) := by
  have passed := (yieldRead_keepsOutside t s).trans (readEffects_keepsOutside t.address.toNat t.lanes.length _)
  unfold passRead
  simp only
  split
  · exact passed.trans (takeConsumerReadAt_runs ..).keepsOutside
  · exact passed

/-- Passing the classifier, a transaction leaves all three as its forwarding does. -/
theorem passTransaction_keepsOutside (t : Transaction) (d : Delivery) (s : State) :
    KeepsOutside { s with ports := forward t (overlay s t.address.toNat (t.lanes.map (·.data))) s.ports }
      (passTransaction t d s) := by
  unfold passTransaction
  simp only
  split
  · exact passWrite_keepsOutside ..
  · exact passRead_keepsOutside ..

theorem passTransaction_pending (t : Transaction) (d : Delivery) (s : State) :
    (passTransaction t d s).pending = s.pending :=
  (passTransaction_keepsOutside t d s).pending

theorem passTransaction_pageBase (t : Transaction) (d : Delivery) (s : State) :
    pageBase (passTransaction t d s) = pageBase s :=
  (passTransaction_keepsOutside t d s).pageBase

/-! ### Every command -/

/-- Settles O3: each command's meaning keeps the queue and the straps, and all but the transactions keep the ports. -/
theorem commandsKeepQueuePortsAndPage : Obligations.CommandsKeepQueuePortsAndPage := by
  intro c s t h
  have kept : ∀ {u : State}, KeepsOutside s u → .next u = (.next t : Host.Outcome State Fault Refusal) →
      t.pending = s.pending ∧ t.ports = s.ports ∧ pageBase t = pageBase s := by
    rintro u k ⟨⟩
    exact ⟨k.pending, k.ports, k.pageBase⟩
  have order : ∀ tag field o, .next (giveOrder tag field o s) = (.next t : Host.Outcome State Fault Refusal) →
      t.pending = s.pending ∧ t.ports = s.ports ∧ pageBase t = pageBase s :=
    fun _ _ _ => kept (giveOrder_keepsOutside ..)
  cases c with
  | powerOnReset straps during => cases h; exact ⟨rfl, trivial, trivial⟩
  | transaction x d => cases h; exact ⟨passTransaction_pending .., trivial, passTransaction_pageBase ..⟩
  | eventPop tag offset memory error =>
    cases h; exact ⟨passTransaction_pending .., trivial, passTransaction_pageBase ..⟩
  | adviceSlotRead tag offset memory error =>
    cases h; exact ⟨passTransaction_pending .., trivial, passTransaction_pageBase ..⟩
  | orderHeaderWord => exact kept (takeNextWord_keepsOutside ..) h
  | orderBodyWord => exact kept (takeNextWord_keepsOutside ..) h
  | orderStrayWord => exact kept (takeNextWord_keepsOutside ..) h
  | setupOrder tag field f => exact order _ _ _ h
  | openOrder tag field f => exact order _ _ _ h
  | closeOrder tag field => exact order _ _ _ h
  | windowOrder tag field f => exact order _ _ _ h
  | pauseOrder tag field m => exact order _ _ _ h
  | resumeOrder tag field => exact order _ _ _ h
  | recoverOrder tag field => exact order _ _ _ h
  | continueOrder tag field => exact order _ _ _ h
  | fetchOrder tag field f => exact order _ _ _ h
  | abortOrder tag field base => exact order _ _ _ h
  | flushOrder tag field => exact order _ _ _ h
  | resetOrder tag field => exact order _ _ _ h
  | reacquireOrder tag field => exact order _ _ _ h
  | arrival n => exact kept (takeArrivalAt_runs ..).keepsOutside h
  | consumerRead n => exact kept (takeConsumerReadAt_runs ..).keepsOutside h
  | tick d => exact kept (tickOnce_keepsOutside ..) h
  | referenceLoss => exact kept (loseReference_keepsOutside _) h
  | firstByteDeadlineExpiry k => exact kept (expireFirstByte_runs ..).keepsOutside h
  | gapDeadlineExpiry k => exact kept (expireGap_runs ..).keepsOutside h
  | windowEnd => exact kept (takeOwedTick_runs _).keepsOutside h
  | referenceReturn => cases h; exact ⟨rfl, rfl, rfl⟩

end Sys2Proof.Machine
end

section
/-! PROOFS. What a transaction yields: its order words, its arrivals and its consumer read, each by the bytes it touches; and that
taking them at once is taking them afterwards. -/

namespace Sys2Proof.Machine

/-! ### Taking what is in flight -/

/-- The command that the next word in flight calls for takes that word. -/
theorem exec_wordCommand (s : State) : exec (wordCommand s) s = .next (takeNextWord (fun _ _ => true) s) := by
  unfold wordCommand
  split
  · next h => simp [exec, execOrderStrayWord, takeNextWord, h]
  · next w rest h =>
    have header : w.isHeader = true ↔ w.whole = true ∧ w.offset = 0 := by simp [OrderWord.isHeader]
    split <;> [skip; split]
    · next hw => simp [exec, execOrderHeaderWord, takeNextWord, h, header.2 hw]
    · next hw hi => simp [exec, execOrderStrayWord, takeNextWord, h, mt header.1 hw, hi]
    · next hw hi => simp [exec, execOrderBodyWord, takeNextWord, h, mt header.1 hw, hi]

theorem execWords_eq (n : Nat) (s : State) : execWords n s = .next (takeOrderWords n s) := by
  induction n generalizing s with
  | zero => rfl
  | succ n ih => simp only [execWords, exec_wordCommand, takeOrderWords, ih]

/-- Taking a word in flight, whatever it is, removes it alone. -/
theorem takeNextWord_inFlight (s : State) :
    (takeNextWord (fun _ _ => true) s).inFlight.orderWords = s.inFlight.orderWords.tail
      ∧ (takeNextWord (fun _ _ => true) s).inFlight.arrivals.length = s.inFlight.arrivals.length := by
  unfold takeNextWord
  split
  · next h => simp [h]
  · next w rest h =>
    have kept := takeWord_keepsFlight w (dropOrderWord s)
    exact ⟨kept.orderWords, kept.arrivals⟩

theorem takeOrderWords_inFlight (n : Nat) (s : State) :
    (takeOrderWords n s).inFlight.orderWords = s.inFlight.orderWords.drop n
      ∧ (takeOrderWords n s).inFlight.arrivals.length = s.inFlight.arrivals.length := by
  induction n generalizing s with
  | zero => exact ⟨rfl, rfl⟩
  | succ n ih =>
    obtain ⟨hw, ha⟩ := ih (takeNextWord (fun _ _ => true) s)
    obtain ⟨hw', ha'⟩ := takeNextWord_inFlight s
    exact ⟨by rw [takeOrderWords, hw, hw', List.drop_tail], ha.trans ha'⟩

theorem takeArrivalAt_arrivals {n : Nat} {s : State} (h : n < s.inFlight.arrivals.length) :
    (takeArrivalAt n s).inFlight.arrivals.length = s.inFlight.arrivals.length - 1 := by
  unfold takeArrivalAt
  rw [List.getElem?_eq_getElem h]
  exact (takeArrival_keepsFlight _ _).arrivals.trans (List.length_eraseIdx_of_lt h)

/-- The last `n` arrivals, the first of them first: each stands at the same place once those before it are taken. -/
theorem execAll_arrivals (n k : Nat) (s : State) (h : s.inFlight.arrivals.length = k + n) :
    execAll (List.replicate n (.arrival k)) s = .next (takeLastArrivals n s) := by
  induction n generalizing s with
  | zero => rfl
  | succ n ih =>
    have place : s.inFlight.arrivals.length - (n + 1) = k := by omega
    have left := takeArrivalAt_arrivals (n := k) (s := s) (by omega)
    simp only [List.replicate_succ, execAll, exec, execArrival, takeLastArrivals, place]
    exact ih _ (by omega)

/-- The ports take no part in what a read touches. -/
@[simp] theorem consumerParts_ports (s : State) (t : Transaction) (p : Ports) :
    consumerParts { s with ports := p } t = consumerParts s t := rfl

/-- Settles O14: a read has one observation at most; a write's words are all taken before its arrivals, which then stand last. -/
theorem atOnceIsPassingThenTaking : Obligations.AtOnceIsPassingThenTaking := by
  intro t s
  refine ⟨_, rfl, fun hd hp => ?_, fun hd hp => ?_, fun hd => ?_⟩
  · simp only [exec, execTransaction, passTransaction, hd, passRead, consumerParts_ports, hp]
  · obtain ⟨p, ps, hps⟩ := List.exists_cons_of_ne_nil hp
    simp only [exec, execTransaction, execConsumerRead, passTransaction, hd, passRead, consumerParts_ports, hps]
  · refine ⟨_, execWords_eq .., ?_, ?_⟩
    · rw [(takeOrderWords_inFlight ..).1, List.drop_length]
    · rw [execAll_arrivals]
      · simp only [exec, execTransaction, passTransaction, hd, passWrite]
        rfl
      · rw [(takeOrderWords_inFlight ..).2]
        simp only [passTransaction, hd, passWrite, yieldWrite, List.length_append]
        rfl

end Sys2Proof.Machine
end

section
/-! PROOFS. Which bytes, words and ranges a transaction touches: the arrivals and order words of a write, the parts of a read. -/

namespace Sys2Proof.Machine

/-! ### Arrivals -/

/-- Only a byte of the span can be enabled. -/
theorem enabledAt_in_span {t : Transaction} {a : Nat} (h : enabledAt t a = true) :
    t.address.toNat ≤ a ∧ a - t.address.toNat < t.lanes.length := by
  unfold enabledAt laneAt at h
  split at h
  · next ha =>
    refine ⟨ha, ?_⟩
    by_contra hn
    simp [List.getElem?_eq_none (Nat.le_of_not_lt hn)] at h
  · cases h

theorem mem_enabledOffsets {t : Transaction} {base size o : Nat} :
    o ∈ enabledOffsets t base size ↔ o < size ∧ enabledAt t (base + o) = true := by
  simp only [enabledOffsets, List.mem_filterMap, List.mem_range, Option.ite_none_right_eq_some, Bool.and_eq_true,
    decide_eq_true_eq, Option.some.injEq]
  constructor
  · rintro ⟨j, -, ⟨⟨he, hb⟩, hs⟩, rfl⟩
    exact ⟨by omega, by rwa [Nat.add_sub_cancel' hb]⟩
  · rintro ⟨hs, he⟩
    obtain ⟨ha, hl⟩ := enabledAt_in_span he
    refine ⟨base + o - t.address.toNat, hl, ?_⟩
    rw [Nat.add_sub_cancel' ha]
    exact ⟨⟨⟨he, by omega⟩, by omega⟩, by omega⟩

theorem enabledOffsets_sorted (t : Transaction) (base size : Nat) : (enabledOffsets t base size).Pairwise (· < ·) := by
  refine List.Pairwise.filterMap _ (R := (· < ·)) ?_ List.pairwise_lt_range
  intro j j' hj o ho o' ho'
  simp only [Option.ite_none_right_eq_some, Bool.and_eq_true, decide_eq_true_eq, Option.some.injEq] at ho ho'
  omega

/-- An ascending list lies between its first and its last, and its last is in it. -/
theorem ascending_bounds {o : Nat} {rest : List Nat} (h : (o :: rest).Pairwise (· < ·)) :
    rest.getLastD o ∈ o :: rest ∧ ∀ x ∈ o :: rest, o ≤ x ∧ x ≤ rest.getLastD o := by
  induction rest generalizing o with
  | nil => simp
  | cons p rest ih =>
    obtain ⟨ho, hp⟩ := List.pairwise_cons.1 h
    obtain ⟨hm, hb⟩ := ih hp
    have hop : o < p := ho p List.mem_cons_self
    rw [List.getLastD_cons]
    refine ⟨List.mem_cons_of_mem _ hm, fun x hx => ?_⟩
    rcases List.mem_cons.1 hx with rfl | hx
    · have := hb p List.mem_cons_self; omega
    · have := hb x hx; omega

/-- The arrival a write yields for a record (R8): its first and end offsets are tight around the record's enabled bytes. -/
theorem arrivalFor_eq_some {t : Transaction} {k : Slot} {r : FetchRecord} {a : Arrival} :
    arrivalFor t k r = some a ↔ a.slot = k ∧ a.standing = true ∧ a.first < a.endOffset ∧ a.endOffset ≤ r.size
      ∧ enabledAt t (r.base + a.first) = true ∧ enabledAt t (r.base + a.endOffset - 1) = true
      ∧ ∀ o < r.size, enabledAt t (r.base + o) = true → a.first ≤ o ∧ o < a.endOffset := by
  have mem := fun o => mem_enabledOffsets (t := t) (base := r.base) (size := r.size) (o := o)
  have sorted := enabledOffsets_sorted t r.base r.size
  unfold arrivalFor
  split
  · next h =>
    rw [h] at mem
    simp only [reduceCtorEq, false_iff]
    rintro ⟨-, -, hlt, hle, he, -⟩
    exact absurd ((mem a.first).2 ⟨by omega, he⟩) (by simp)
  · next o rest h =>
    rw [h] at mem sorted
    obtain ⟨hlast, hb⟩ := ascending_bounds sorted
    generalize rest.getLastD o = last at hlast hb ⊢
    obtain ⟨hs, he⟩ := (mem last).1 hlast
    obtain ⟨-, ho⟩ := (mem o).1 List.mem_cons_self
    have hol := hb last hlast
    constructor
    · rintro ⟨⟩
      refine ⟨rfl, rfl, Nat.lt_succ_of_le hol.1, hs, ho, he, fun x hx hxe => ?_⟩
      have := hb x ((mem x).2 ⟨hx, hxe⟩)
      exact ⟨this.1, Nat.lt_succ_of_le this.2⟩
    · obtain ⟨slot, first, endOffset, standing⟩ := a
      rintro ⟨rfl, rfl, hlt, hle, hf, hend, tight⟩
      simp only at hlt hle hf hend tight
      have hfirst := hb first ((mem first).2 ⟨by omega, hf⟩)
      rw [Nat.add_sub_assoc (by omega)] at hend
      have hlast' := hb (endOffset - 1) ((mem _).2 ⟨by omega, hend⟩)
      have htight := tight last hs he
      have := tight o (by omega) ho
      simp only [Option.some.injEq, Arrival.mk.injEq, true_and, and_true]
      omega

/-- Settles O16: membership record by record, by `arrivalFor_eq_some`; the order by slot is `arrivalWrites_slots`. -/
theorem arrivalWritesFollowEnabledBytes : Obligations.ArrivalWritesFollowEnabledBytes := by
  intro s t
  refine ⟨fun a => ?_, arrivalWrites_slots s t⟩
  unfold arrivalWrites
  split
  · next htag =>
    simp only [List.mem_filterMap, List.mem_finRange, true_and, Option.bind_eq_some_iff, arrivalFor_eq_some, htag]
    constructor
    · rintro ⟨k, r, hr, rfl, hst, touched⟩
      exact ⟨hst, r, hr, touched⟩
    · rintro ⟨hst, r, hr, touched⟩
      exact ⟨a.slot, r, hr, rfl, hst, touched⟩
  · next htag => simp [htag]

/-! ### Order words -/

theorem forall_lt_four {p : Nat → Prop} : (∀ j < 4, p j) ↔ p 0 ∧ p 1 ∧ p 2 ∧ p 3 := by
  constructor
  · intro h
    exact ⟨h 0 (by decide), h 1 (by decide), h 2 (by decide), h 3 (by decide)⟩
  · rintro ⟨h0, h1, h2, h3⟩ j hj
    interval_cases j <;> assumption

/-- The bytes of four bytes side by side. -/
theorem bytes_of_append (d3 d2 d1 d0 : Byte) :
    (d3 ++ d2 ++ d1 ++ d0).extractLsb' 0 8 = d0 ∧ (d3 ++ d2 ++ d1 ++ d0).extractLsb' 8 8 = d1
      ∧ (d3 ++ d2 ++ d1 ++ d0).extractLsb' 16 8 = d2 ∧ (d3 ++ d2 ++ d1 ++ d0).extractLsb' 24 8 = d3 := by
  refine ⟨?_, ?_, ?_, ?_⟩
  · rw [extract_low _ d0 0 8 (by decide), extract_all]
  · rw [extract_high _ d0 8 8 (by decide), extract_low _ d1 _ 8 (by decide), extract_all]
  · rw [extract_high _ d0 16 8 (by decide), extract_high _ d1 _ 8 (by decide), extract_low _ d2 _ 8 (by decide), extract_all]
  · rw [extract_high _ d0 24 8 (by decide), extract_high _ d1 _ 8 (by decide), extract_high _ d2 _ 8 (by decide), extract_all]

/-- What a touched word carries (R7, R16). -/
theorem touchedWord_eq_some {base o : Nat} {t : Transaction} {w : OrderWord} (h : touchedWord base t o = some w) :
    w.tag = t.tag ∧ w.offset = o ∧ (∃ j < 4, enabledAt t (base + o + j) = true)
      ∧ (w.whole = true ↔ ∀ j < 4, enabledAt t (base + o + j) = true)
      ∧ ∀ j < 4, w.data.extractLsb' (8 * j) 8 = dataAt t (base + o + j) := by
  unfold touchedWord at h
  simp only [Option.ite_none_right_eq_some, Bool.or_eq_true, Option.some.injEq] at h
  obtain ⟨touched, rfl⟩ := h
  refine ⟨rfl, rfl, ?_, ?_, ?_⟩
  · rcases touched with ((h | h) | h) | h
    · exact ⟨0, by omega, h⟩
    · exact ⟨1, by omega, h⟩
    · exact ⟨2, by omega, h⟩
    · exact ⟨3, by omega, h⟩
  · simp only [Bool.and_eq_true, forall_lt_four, and_assoc]
  · obtain ⟨b0, b1, b2, b3⟩ := bytes_of_append (dataAt t (base + o + 3)) (dataAt t (base + o + 2))
      (dataAt t (base + o + 1)) (dataAt t (base + o + 0))
    exact forall_lt_four.2 ⟨b0, b1, b2, b3⟩

/-- An enabled byte touches its word. -/
theorem touchedWord_of_enabled {base o j : Nat} {t : Transaction} (hj : j < 4)
    (h : enabledAt t (base + o + j) = true) : ∃ w, touchedWord base t o = some w := by
  unfold touchedWord
  refine ⟨_, if_pos ?_⟩
  simp only [Bool.or_eq_true]
  interval_cases j
  · exact .inl (.inl (.inl h))
  · exact .inl (.inl (.inr h))
  · exact .inl (.inr h)
  · exact .inr h

theorem mem_orderWrite {s : State} {t : Transaction} (h : inTagSet s.classifier.orderTags t.tag = true) {w : OrderWord} :
    w ∈ orderWrite s t ↔ ∃ k < 128, touchedWord (pageBase s) t (4 * k) = some w := by
  simp [orderWrite, h, Config.orderApertureSize]

/-- The words of an order write stand at ascending offsets (R7). -/
theorem orderWrite_sorted (s : State) (t : Transaction) : ((orderWrite s t).map (·.offset)).Pairwise (· < ·) := by
  unfold orderWrite
  split
  · rw [List.pairwise_map]
    refine List.Pairwise.filterMap _ (R := (· < ·)) ?_ List.pairwise_lt_range
    intro k k' hk w hw w' hw'
    obtain ⟨-, ho, -⟩ := touchedWord_eq_some hw
    obtain ⟨-, ho', -⟩ := touchedWord_eq_some hw'
    omega
  · exact .nil

/-- Settles O17: word by word, by `touchedWord_eq_some`. -/
theorem orderWriteCarriesTouchedWords : Obligations.OrderWriteCarriesTouchedWords := by
  intro s t
  refine ⟨fun htag => by simp [orderWrite, htag], fun htag => ⟨orderWrite_sorted s t, fun w hw => ?_, fun o ho he => ?_⟩⟩
  · obtain ⟨k, hk, hw⟩ := (mem_orderWrite htag).1 hw
    obtain ⟨htag', hoff, touched, whole, data⟩ := touchedWord_eq_some hw
    rw [hoff]
    exact ⟨htag', by omega, by omega, touched, whole, data⟩
  · have byte : pageBase s + 4 * (o / 4) + o % 4 = pageBase s + o := by omega
    obtain ⟨w, hw⟩ := touchedWord_of_enabled (o := 4 * (o / 4)) (Nat.mod_lt o (by decide)) (by rw [byte]; exact he)
    obtain ⟨-, hoff, -⟩ := touchedWord_eq_some hw
    exact ⟨w, (mem_orderWrite htag).2 ⟨o / 4, by omega, hw⟩, by omega⟩

end Sys2Proof.Machine
end

section
/-! PROOFS. The parts of a consumer read are those of the media ranges it touches (R9). -/

namespace Sys2Proof.Machine

/-- `p` is the part that the span of `t` takes from the tracked media range at `base`, of `size` bytes (R9). -/
def PartOfRange (s : State) (t : Transaction) (p : ConsumerPart) (base size : Nat) : Prop :=
  (t.address.toNat < base + size ∧ base < t.address.toNat + t.lanes.length)
    ∧ p.endOffset = min (t.address.toNat + t.lanes.length) (base + size) - base
    ∧ ((∃ k r, p.slot = some k ∧ s.slot k = some r ∧ r.kind ≠ .other ∧ r.session = p.session
          ∧ r.serial = p.serial ∧ r.base = base ∧ r.size = size)
      ∨ (p.slot = none ∧ ∃ h ∈ (s.session p.session).held, h.serial = p.serial ∧ h.base = base ∧ h.size = size))

/-- The span of `t` carries the consumer tag of the part's session, which is open (R9). -/
def PartRead (s : State) (t : Transaction) (p : ConsumerPart) : Prop :=
  p.standing = true ∧ (s.session p.session).work.state ≠ .closed ∧ (s.session p.session).prog.consumerTag = t.tag

theorem readBy_iff (s : State) (t : Transaction) (i : SessionId) :
    readBy s t i = true ↔ (s.session i).work.state ≠ .closed ∧ (s.session i).prog.consumerTag = t.tag := by
  simp [readBy, isOpen]

theorem mem_tableParts {s : State} {t : Transaction} {base : Nat} {p : ConsumerPart} :
    (base, p) ∈ tableParts s t ↔ ∃ k r, s.slot k = some r ∧ (readBy s t r.session = true ∧ r.kind ≠ .other)
      ∧ partFor t r.session (some k) r.serial r.base r.size = some (base, p) := by
  simp only [tableParts, List.mem_filterMap, List.mem_finRange, true_and]
  refine exists_congr fun k => ?_
  cases s.slot k with
  | none => simp
  | some r => simp

theorem mem_heldParts {s : State} {t : Transaction} {base : Nat} {p : ConsumerPart} :
    (base, p) ∈ heldParts s t ↔ ∃ i, readBy s t i = true ∧ ∃ h ∈ (s.session i).held,
      partFor t i none h.serial h.base h.size = some (base, p) := by
  simp only [heldParts, List.mem_flatMap, List.mem_finRange, true_and]
  refine exists_congr fun i => ?_
  split
  · next h => simp [h]
  · next h => simp [h]

/-- The parts yielded, with the bases they are ordered by, are exactly those of the touched media ranges. -/
theorem mem_yieldedParts {s : State} {t : Transaction} {base : Nat} {p : ConsumerPart} :
    (base, p) ∈ tableParts s t ++ heldParts s t ↔ PartRead s t p ∧ ∃ size, PartOfRange s t p base size := by
  rw [List.mem_append, mem_tableParts, mem_heldParts]
  simp only [readBy_iff, partFor_eq_some, Prod.mk.injEq]
  constructor
  · rintro (⟨k, r, hr, ⟨⟨ho, ht⟩, hk⟩, touched, rfl, rfl⟩ | ⟨i, ⟨ho, ht⟩, h, hh, touched, rfl, rfl⟩)
    · exact ⟨⟨rfl, ho, ht⟩, r.size, touched, rfl, .inl ⟨k, r, rfl, hr, hk, rfl, rfl, rfl, rfl⟩⟩
    · exact ⟨⟨rfl, ho, ht⟩, h.size, touched, rfl, .inr ⟨rfl, h, hh, rfl, rfl, rfl⟩⟩
  · obtain ⟨i, slot, serial, endOffset, standing⟩ := p
    rintro ⟨⟨hst, ho, ht⟩, size, touched, hend, range⟩
    simp only at hst ho ht hend range
    subst hst hend
    rcases range with ⟨k, r, rfl, hr, hk, rfl, rfl, rfl, rfl⟩ | ⟨rfl, h, hh, rfl, rfl, rfl⟩
    · exact .inl ⟨k, r, hr, ⟨⟨ho, ht⟩, hk⟩, touched, rfl, rfl⟩
    · exact .inr ⟨i, ⟨ho, ht⟩, h, hh, touched, rfl, rfl⟩

/-- The parts a read yields, each with the base of its range, in ascending order of the bases (R9). -/
def placedParts (s : State) (t : Transaction) : List (Nat × ConsumerPart) :=
  (tableParts s t ++ heldParts s t).foldr insertPart []

theorem consumerParts_eq (s : State) (t : Transaction) : consumerParts s t = (placedParts s t).map (·.2) := rfl

theorem mem_placedParts {s : State} {t : Transaction} {base : Nat} {p : ConsumerPart} :
    (base, p) ∈ placedParts s t ↔ PartRead s t p ∧ ∃ size, PartOfRange s t p base size :=
  (mem_parts ..).trans mem_yieldedParts

theorem mem_consumerParts {s : State} {t : Transaction} {p : ConsumerPart} :
    p ∈ consumerParts s t ↔ PartRead s t p ∧ ∃ base size, PartOfRange s t p base size := by
  rw [consumerParts_eq]
  constructor
  · intro h
    obtain ⟨⟨base, q⟩, hq, rfl⟩ := List.mem_map.1 h
    obtain ⟨read, size, part⟩ := mem_placedParts.1 hq
    exact ⟨read, base, size, part⟩
  · rintro ⟨read, base, size, part⟩
    exact List.mem_map.2 ⟨(base, p), mem_placedParts.2 ⟨read, size, part⟩, rfl⟩

/-- Where the laws of the tracked ranges hold, no two parts are for one range (R6). -/
theorem placedParts_strict {s : State} {t : Transaction} (hr : RangesOk s) (ht : TrackingOk s) :
    ((placedParts s t).map (·.1)).Pairwise (· < ·) := by
  have distinct : ((placedParts s t).map (·.1)).Nodup :=
    ((parts_perm _).map _).nodup_iff.2 (parts_bases_nodup s t hr ht)
  exact (List.pairwise_and_iff.2 ⟨parts_sorted _, distinct⟩).imp fun h => lt_of_le_of_ne h.1 h.2

/-- Settles O18: the bases asked for are those the parts are placed by. -/
theorem consumerPartsAreTouchedMediaRanges : Obligations.ConsumerPartsAreTouchedMediaRanges := by
  intro s t
  refine ⟨fun p => ?_, (placedParts s t).map (·.1), ?_, parts_sorted _, placedParts_strict, fun n p base hp hb => ?_⟩
  · exact mem_consumerParts.trans ⟨fun ⟨⟨hst, ho, ht⟩, part⟩ => ⟨hst, ho, ht, part⟩,
      fun ⟨hst, ho, ht, part⟩ => ⟨⟨hst, ho, ht⟩, part⟩⟩
  · rw [consumerParts_eq, List.length_map, List.length_map]
  · rw [consumerParts_eq, List.getElem?_map, Option.map_eq_some_iff] at hp
    rw [List.getElem?_map, Option.map_eq_some_iff] at hb
    obtain ⟨q, hq, rfl⟩ := hp
    obtain ⟨q', hq', rfl⟩ := hb
    obtain rfl : q = q' := Option.some.inj (hq.symm.trans hq')
    exact (mem_placedParts.1 (List.mem_of_getElem? hq)).2

end Sys2Proof.Machine
end

section
/-! PROOFS. Transactions on the memory path: a write, a read with its report effects, and the two reads of the governor page that
are commands of their own. -/

namespace Sys2Proof.Machine

/-! ### Writes and power-on reset -/

/-- Settles O12: a deferred write is forwarded and leaves its observations in flight. -/
theorem writeTransactionYieldsItsObservations : Obligations.WriteTransactionYieldsItsObservations := by
  intro t s hd
  simp only [exec, execTransaction, passTransaction, hd, passWrite, yieldWrite, forward, requestOf, responseOf]
  rfl

/-- What passes while the reset input is asserted is forwarded, and answered with memory's own data (R12). -/
theorem forwardDuringReset_foldl (during : List Transaction) (p : Ports) :
    during.foldl forwardDuringReset p =
      { downstream := p.downstream ++ during.map requestOf
        upstream := p.upstream ++ during.map fun t => responseOf t (t.lanes.map (·.data)) } := by
  induction during generalizing p with
  | nil => simp
  | cons t during ih => simp [ih, forwardDuringReset, forward]

/-- Settles O11: the straps have twelve bits, so the page ends in the first 256 MiB (R3). -/
theorem powerOnReset : Obligations.PowerOnReset := by
  intro straps during s
  refine ⟨_, rfl, ?_, rfl, rfl, ?_⟩
  · simp only [powerOn, forwardDuringReset_foldl, State.reset]
    rfl
  · have := straps.isLt
    show straps.toNat * 65536 + 4096 ≤ 2 ^ 28
    omega

/-! ### The overlay -/

theorem inReportAperture_iff (base a : Nat) : inReportAperture base a = true ↔ base + 512 ≤ a ∧ a < base + 4096 := by
  rw [inReportAperture, Bool.and_eq_true, decide_eq_true_iff, decide_eq_true_iff]
  rfl

/-- Settles O15: the overlay decides byte `j` by its own address. -/
theorem overlayIsByteByByte : Obligations.OverlayIsByteByByte := by
  intro s address memory
  refine ⟨by simp [overlay], fun j h => ⟨?_, fun pops o => reportByte_eq pops s o⟩⟩
  rw [overlay, List.getElem?_mapIdx, List.getElem?_eq_getElem h]
  exact congrArg some (if_congr (inReportAperture_iff ..) rfl rfl)

/-! ### Reads -/

/-- The effects of a report read change only the sessions and what the report unit holds. -/
theorem readEffects_eq (address length : Nat) (s : State) :
    readEffects address length s = { s with
      sessions := (readEffects address length s).sessions
      report := (readEffects address length s).report } := by
  unfold readEffects
  split
  · rw [popEvent_eq]; rfl
  · rfl

theorem overlapsSlot_iff (s : State) (address length : Nat) (i : SessionId) :
    overlapsSlot s address length i = true ↔
      address < pageBase s + 0x280 + 32 * i.val + 32 ∧ pageBase s + 0x280 + 32 * i.val < address + length := by
  simp [overlapsSlot, spanTouches]

/-- A read sets the advice-taken flag of an open session whose slot it overlaps (R182). -/
theorem readEffects_taken {address length : Nat} {s : State} {i : SessionId} (ho : (s.session i).work.state ≠ .closed)
    (h : overlapsSlot s address length i = true) :
    (readEffects address length s).session i = { s.session i with taken := true } := by
  have : isOpen (s.session i) = true := by simpa [isOpen] using ho
  rw [readEffects_session, this, h, Bool.and_self, Bool.or_true]

/-- A read leaves every other session as it is (R182). -/
theorem readEffects_untaken {address length : Nat} {s : State} {i : SessionId}
    (h : (s.session i).work.state = .closed ∨ ¬ overlapsSlot s address length i = true) :
    (readEffects address length s).session i = s.session i := by
  have : (isOpen (s.session i) && overlapsSlot s address length i) = false := by
    rcases h with h | h
    · simp [isOpen, h]
    · simp [h]
  rw [readEffects_session, this, Bool.or_false]

theorem popEvent_nil {s : State} (h : s.report.events = []) : popEvent s = s := by simp [popEvent, h]

theorem popEvent_cons {s : State} {e : EventRecord} {rest : List EventRecord} (h : s.report.events = e :: rest) :
    popEvent s = { s with report :=
      { s.report with events := rest, latch := e, lost := s.report.lost && !rest.isEmpty } } := by
  simp [popEvent, h]

/-- A read whose span overlaps no advice slot changes only what the report unit holds. -/
theorem readEffects_of_no_slot {address length : Nat} {s : State} (h : ∀ i, ¬ overlapsSlot s address length i = true) :
    readEffects address length s = { s with
      report := if readPops s address length then (popEvent s).report else s.report } := by
  have sessions : (readEffects address length s).sessions = s.sessions :=
    sessions_ext fun i => readEffects_untaken (.inr (h i))
  rw [readEffects_eq, sessions, readEffects_report]

/-- A read that does not pop changes only the sessions. -/
theorem readEffects_of_no_pop {address length : Nat} {s : State} (h : ¬ readPops s address length = true) :
    readEffects address length s = { s with sessions := (readEffects address length s).sessions } := by
  conv_lhs => rw [readEffects_eq, readEffects_report, if_neg h]

/-- The state a read passes on (R2, R5, R6): forwarded, answered with the overlay, its consumer read left in flight. -/
def passedRead (t : Transaction) (s : State) : State :=
  { s with
    ports :=
      { downstream := s.ports.downstream ++ [⟨t.address, .read, t.tag, t.lanes.map (·.enabled), []⟩]
        upstream := s.ports.upstream ++ [⟨overlay s t.address.toNat (t.lanes.map (·.data)), t.error⟩] }
    inFlight := { s.inFlight with
      consumerReads := s.inFlight.consumerReads ++ (if consumerParts s t = [] then [] else [consumerParts s t]) } }

theorem yieldRead_forwarded {t : Transaction} (s : State) (hd : t.direction = .read) :
    yieldRead t { s with ports := forward t (overlay s t.address.toNat (t.lanes.map (·.data))) s.ports }
      = passedRead t s := by
  unfold yieldRead passedRead
  simp only [consumerParts_ports, forward, requestOf, responseOf, hd]
  split
  · next h => simp [h]
  · next h => rw [if_neg h]

/-- A deferred read has its report effects, and no other, on the state it passes on (R10). -/
theorem passTransaction_deferred_read {t : Transaction} {s : State} (hd : t.direction = .read) :
    passTransaction t .deferred s = readEffects t.address.toNat t.lanes.length (passedRead t s) := by
  rw [← yieldRead_forwarded s hd]
  simp only [passTransaction, hd, passRead]

/-- So has a read taken at once that touches no tracked range. -/
theorem passTransaction_atOnce_read {t : Transaction} {s : State} (hd : t.direction = .read) (hp : consumerParts s t = []) :
    passTransaction t .atOnce s = readEffects t.address.toNat t.lanes.length (passedRead t s) := by
  rw [← yieldRead_forwarded s hd]
  simp only [passTransaction, hd, passRead, consumerParts_ports, hp]

/-- Settles O13: the report effects are those of `passedRead`, which has the page, the sessions and the report unit of `s`. -/
theorem readTransactionIsOverlaid : Obligations.ReadTransactionIsOverlaid := by
  intro t s hd first pops
  have hpops : readPops (passedRead t s) first t.lanes.length = true ↔ pops := readPops_iff ..
  have hreport := readEffects_report first t.lanes.length (passedRead t s)
  refine ⟨readPops_iff .., _, congrArg Host.Outcome.next (passTransaction_deferred_read hd), ?_, fun h => ?_,
    fun e rest hp he => ?_, fun i => ?_⟩
  · exact readEffects_eq ..
  · rw [hreport]
    split
    · next hr => rw [popEvent_nil (s := passedRead t s) (h.resolve_left (not_not_intro (hpops.1 hr)))]; rfl
    · rfl
  · rw [hreport, if_pos (hpops.2 hp), popEvent_cons (s := passedRead t s) he]; rfl
  · have slot := overlapsSlot_iff (passedRead t s) first t.lanes.length i
    exact ⟨fun ho hc => readEffects_taken (s := passedRead t s) ho (slot.2 hc),
      fun h => readEffects_untaken (s := passedRead t s) (h.imp_right (mt slot.1))⟩

/-! ### Reads of the governor page -/

/-- The page lies in the first 256 MiB (R3), so no address of it wraps. -/
theorem pageRead_address (s : State) (tag : Tag) (offset : BitVec 12) (memory : List Byte) (error : Bool) :
    (pageRead s tag offset memory error).address.toNat = pageBase s + offset.toNat := by
  have hs := s.classifier.straps.isLt
  have ho := offset.isLt
  show (BitVec.ofNat 36 (s.classifier.straps.toNat * 65536 + offset.toNat)).toNat = s.classifier.straps.toNat * 65536 + _
  rw [BitVec.toNat_ofNat, Nat.mod_eq_of_lt (by omega)]

theorem pageReadOverlaps_iff (offset : BitVec 12) (memory : List Byte) (first last : Nat) :
    pageReadOverlaps offset memory first last = true ↔
      (1 ≤ memory.length ∧ memory.length ≤ 64) ∧ offset.toNat ≤ last ∧ first < offset.toNat + memory.length := by
  simp [pageReadOverlaps, and_assoc]

/-- A read inside the page touches no tracked range, as none meets the page (R34, R49). -/
theorem consumerParts_pageRead {s : State} (tag : Tag) {offset : BitVec 12} {memory : List Byte} (error : Bool)
    (hr : RangesOk s) (hin : offset.toNat + memory.length ≤ 4096) :
    consumerParts s (pageRead s tag offset memory error) = [] := by
  obtain ⟨-, -, -, -, recordsApart, heldApart⟩ := hr
  rw [List.eq_nil_iff_forall_not_mem]
  intro p hp
  obtain ⟨-, base, size, ⟨hlo, hhi⟩, -, range⟩ := mem_consumerParts.1 hp
  rw [pageRead_address] at hlo hhi
  have apart : Apart base size (pageBase s) 4096 := by
    rcases range with ⟨k, r, -, hr, -, -, -, rfl, rfl⟩ | ⟨-, h, hh, -, rfl, rfl⟩
    · exact recordsApart k r hr
    · exact heldApart _ h hh
  have len : (pageRead s tag offset memory error).lanes.length = memory.length := List.length_map ..
  rcases apart with h | h <;> omega

/-- The state with a read of the page forwarded, and answered with the overlay. -/
def pageAnswered (tag : Tag) (offset : BitVec 12) (memory : List Byte) (error : Bool) (s : State) : State :=
  { s with ports :=
    { downstream := s.ports.downstream
        ++ [⟨BitVec.ofNat 36 (pageBase s + offset.toNat), .read, tag, memory.map fun _ => true, []⟩]
      upstream := s.ports.upstream ++ [⟨overlay s (pageBase s + offset.toNat) memory, error⟩] } }

/-- A read inside the page has its report effects and no other. -/
theorem passTransaction_pageRead {s : State} (tag : Tag) {offset : BitVec 12} {memory : List Byte} (error : Bool)
    (hr : RangesOk s) (hin : offset.toNat + memory.length ≤ 4096) :
    passTransaction (pageRead s tag offset memory error) .atOnce s
      = readEffects (pageBase s + offset.toNat) memory.length (pageAnswered tag offset memory error s) := by
  have parts := consumerParts_pageRead tag error hr hin
  have len : (pageRead s tag offset memory error).lanes.length = memory.length := List.length_map ..
  have data : (pageRead s tag offset memory error).lanes.map (·.data) = memory := by simp [pageRead, Function.comp_def]
  have enabled : (pageRead s tag offset memory error).lanes.map (·.enabled) = memory.map fun _ => true := by
    simp [pageRead, Function.comp_def]
  rw [passTransaction_atOnce_read rfl parts, pageRead_address, len]
  simp only [passedRead, pageRead_address, parts, data, enabled, if_true, List.append_nil]
  rfl

/-- Settles O58: the span ends before the advice slots and covers page offset 0x240. -/
theorem eventPopTakesTheHead : Obligations.EventPopTakesTheHead := by
  intro tag offset memory error s hr hspan address u
  obtain ⟨⟨-, hlen⟩, hlo, hhi⟩ := (pageReadOverlaps_iff ..).1 hspan
  have pops : readPops u address memory.length = true :=
    (readPops_iff ..).2 ⟨Nat.add_le_add_left hlo _, by show pageBase s + _ < pageBase s + _ + _; omega⟩
  have noSlot : ∀ i, ¬ overlapsSlot u address memory.length i = true := by
    intro i h
    obtain ⟨-, h⟩ := (overlapsSlot_iff ..).1 h
    change pageBase s + _ + _ < pageBase s + _ + _ at h
    omega
  have run : exec (.eventPop tag offset memory error) s = .next { u with report := (popEvent u).report } := by
    have h : exec (.eventPop tag offset memory error) s = .next (readEffects address memory.length u) :=
      congrArg Host.Outcome.next (passTransaction_pageRead tag error hr (by omega))
    rw [h, readEffects_of_no_slot noSlot, if_pos pops]
  refine ⟨fun he => ⟨?_, ?_⟩, fun e rest he => ⟨?_, ?_⟩⟩
  · rw [run, popEvent_nil (s := u) he]
  · simp [eventLine, u, he]
  · rw [run, popEvent_cons (s := u) he]
  · simp [eventLine]

/-- Settles O59: the span begins after page offset 0x240. -/
theorem adviceSlotReadMarksTaken : Obligations.AdviceSlotReadMarksTaken := by
  intro tag offset memory error s hr hspan address
  obtain ⟨⟨-, hlen⟩, hlo, hhi⟩ := (pageReadOverlaps_iff ..).1 hspan
  have noPop : ¬ readPops (pageAnswered tag offset memory error s) address memory.length = true := by
    intro h
    obtain ⟨h, -⟩ := (readPops_iff ..).1 h
    change pageBase s + _ ≤ pageBase s + _ at h
    omega
  have run : exec (.adviceSlotRead tag offset memory error) s
      = .next (readEffects address memory.length (pageAnswered tag offset memory error s)) :=
    congrArg Host.Outcome.next (passTransaction_pageRead tag error hr (by omega))
  refine ⟨_, run, readEffects_of_no_pop noPop, fun i => ?_⟩
  have slot : overlapsSlot (pageAnswered tag offset memory error s) address memory.length i = true ↔
      offset.toNat < 0x280 + 32 * i.val + 32 ∧ 0x280 + 32 * i.val < offset.toNat + memory.length := by
    rw [overlapsSlot_iff]
    show pageBase s + _ < pageBase s + _ + _ + _ ∧ pageBase s + _ + _ < pageBase s + _ + _ ↔ _
    omega
  exact ⟨fun ho hc => readEffects_taken (s := pageAnswered tag offset memory error s) ho (slot.2 hc),
    fun h => readEffects_untaken (s := pageAnswered tag offset memory error s) (h.imp_right (mt slot.1))⟩

end Sys2Proof.Machine
end

section
/-! PROOFS. Reset, a SETUP taken, and orders that are refused, unseen or given while a record is under assembly. -/

namespace Sys2Proof.Machine

/-! ### Orders -/

/-- Settles O24: an order command gives its order to the assembler (`exec_orderCommand`), which first discards
what it was assembling. -/
theorem ordersRefusedUnseenOrTruncating : Obligations.OrdersRefusedUnseenOrTruncating := by
  intro tag field o s
  refine ⟨fun cause hready hc => ?_, fun htag => ?_, fun header body htag ha => ?_⟩
  · simp only [exec_orderCommand, giveOrder, hready.1, if_true, discardRecord_idle hready.2, judgeOrder, hc,
      finishRecord_refused]
  · simp [exec_orderCommand, giveOrder, htag]
  · have seen : (refusedWith (headerKind header) (headerSession header) .truncated s).classifier = s.classifier :=
      (refusedWith_runs ..).classifier
    simp only [exec_orderCommand, giveOrder, seen, htag, if_true, discardRecord_assembling ha,
      discardRecord_idle (refusedWith_idle ..)]

/-- The shift counts of a SETUP (R25), after their clamps. -/
theorem shiftCounts_eq (kFast kSlow : BitVec 4) :
    shiftCounts kFast kSlow =
      let f := min 6 (max 1 kFast.toNat)
      let g := min 6 (max 1 kSlow.toNat)
      (if f < g then f else if f = 6 then 5 else f, if f < g then g else if f = 6 then 6 else f + 1) := by
  simp only [shiftCounts, clampTo_eq (show 1 ≤ 6 by decide)]
  split_ifs <;> rfl

theorem timeoutTicks_eq (ms : BitVec 16) : timeoutTicks ms = 10 * min 65535 (max 100 ms.toNat) := by
  rw [timeoutTicks, clampTo_eq (by decide), Nat.mul_comm]
  rfl

theorem orderTagsWith_eq (carried : TagSet) (writer : Tag) :
    orderTagsWith carried writer = carried ||| BitVec.ofNat 16 (2 ^ writer.toNat) := by
  have bit : 1#16 <<< writer.toNat = BitVec.ofNat 16 (2 ^ writer.toNat) := by
    apply BitVec.eq_of_toNat_eq
    simp [Nat.shiftLeft_eq]
  rw [orderTagsWith, bit]

theorem enableMask_eq (mask : BitVec 12) : enableMask mask = BitVec.ofNat 16 (2 * mask.toNat) := by
  have := mask.isLt
  apply BitVec.eq_of_toNat_eq
  rw [BitVec.toNat_ofNat, Nat.mod_eq_of_lt (by omega), enableMask, append_toNat, append_toNat]
  show (0 * 2 ^ 12 + mask.toNat) * 2 ^ 1 + 0 = 2 * mask.toNat
  omega

/-- SETUP is taken when no session is open (R23): the kind has no other check. -/
theorem refusalCause_setup {field : BitVec 4} {f : SetupFields} {s : State}
    (h : ∀ j, (s.session j).work.state = .closed) : refusalCause field (.setup f) s = none := by
  have idle : s.sessions.toList.any isOpen = false := by
    rw [List.any_eq_false]
    intro x hx
    obtain ⟨n, hn, rfl⟩ := List.mem_iff_getElem.1 hx
    have := h ⟨n, by simpa using hn⟩
    simpa [State.session, isOpen] using this
  simp [refusalCause, lengthCause, numberCause, needsSession, stateCause, contentCause, idle]

/-- Settles O27: no session is open, so SETUP is taken, and each clamp is a minimum of a maximum (`clampTo_eq`). -/
theorem setupTakesClampedValues : Obligations.SetupTakesClampedValues := by
  intro tag field f s hready hclosed kf ks meter written
  have taken : exec (.setupOrder tag field f) s = .next (endedWith 0x01 field 0 0xFF (setupEffect tag f s)) :=
    exec_orderCommand_taken (o := .setup f) hready (refusalCause_setup hclosed)
  have effect : setupEffect tag f s = if s.meter.set then
      handOverLink { written with meter := { meter with
        link := some (min meter.vFast meter.vSlow * meter.safety / 4096) } }
      else { written with meter := meter } := by
    simp only [setupEffect, shiftCounts_eq, timeoutTicks_eq, orderTagsWith_eq, enableMask_eq,
      clampTo_eq (show 500 ≤ 60000 by decide), clampTo_eq (show 128 ≤ 256 by decide),
      clampTo_eq (show 99 ≤ 65535 by decide)]
    rfl
  rw [taken, effect]

/-! ### Reset -/

theorem reset_session (i : SessionId) : State.reset.session i = Session.closed := by
  simp [State.reset, State.session]

theorem reset_slot (k : Slot) : State.reset.slot k = none := by
  simp [State.reset, State.slot]

/-- Settles O4: after reset no slot holds a record, every session is CLOSED, and the settings are in range. -/
theorem resetMeetsEveryLaw : Obligations.ResetMeetsEveryLaw := by
  have closed : ∀ i, (State.reset.session i).work.state = .closed := fun i => by rw [reset_session]; rfl
  have noHeld : ∀ i, ∀ h, h ∉ (State.reset.session i).held := fun i h => by rw [reset_session]; exact List.not_mem_nil
  have noRecord : ∀ k, ∀ r, r ∉ State.reset.slot k := fun k r => by rw [reset_slot]; simp
  have inactive : ∀ i, isActive (State.reset.session i) = false := fun i => by rw [reset_session]; rfl
  have queue : QueueOk State.reset := by decide
  have timebase : TimebaseOk State.reset := by decide
  have meter : MeterOk State.reset := by decide
  have sessions : SessionsOk State.reset := fun i h => absurd (closed i) h
  have tracking : TrackingOk State.reset :=
    ⟨fun k r hr => absurd hr (noRecord k r), fun i h hh => absurd hh (noHeld i h), fun i _ => reset_session i⟩
  have limit : LimitOk State.reset := by decide
  have ranges : RangesOk State.reset := by
    refine ⟨fun k _ _ r hr => absurd hr (noRecord k r), fun k r hr => absurd hr (noRecord k r), fun i => ?_,
      fun i _ _ h hh => absurd hh (noHeld i h), fun k r hr => absurd hr (noRecord k r), fun i h hh => absurd hh (noHeld i h)⟩
    rw [reset_session]
    exact .nil
  have shares : SharesOk State.reset := by
    refine ⟨fun i _ => by rw [reset_session]; rfl, fun i h => ?_, fun _ i h => ?_, fun _ l h => by cases h⟩
    · rw [inactive] at h; cases h
    · rw [inactive] at h; cases h
  have settings : SettingsOk State.reset := by decide
  have advice : AdviceOk State.reset := fun i => by rw [reset_session]; decide
  exact ⟨queue, timebase, meter, sessions, tracking, limit, ranges, shares, settings, advice⟩

end Sys2Proof.Machine
end

section
/-! PROOFS. One induction over everything a step can do: a relation between states that each of the part's elementary acts
keeps, and that composes, is kept by every step. -/

namespace Sys2Proof.Machine

/-- A relation from a state to a later one that holds of no act, of acts one after another, and of each elementary act: what
is in flight, at the ports, waiting or under assembly may change at will; the others are named. -/
structure StepClosed (R : State → State → Prop) : Prop where
  refl : ∀ s, R s s
  trans : ∀ {s t u}, R s t → R t u → R s u
  outside : ∀ s fl ports a pending, R s { s with inFlight := fl, ports := ports, assembler := a, pending := pending }
  powerOn : ∀ straps during s, R s (powerOn straps during s)
  post : ∀ kind session code a b s, R s (post kind session code a b s)
  order : ∀ tag field o s, refusalCause field o s = none → R s (orderEffect tag (sessionOf field) o s).1
  arrival : ∀ a s, R s (takeArrival a s)
  consumerRead : ∀ parts s, R s (takeConsumerRead parts s)
  pop : ∀ s, R s (popEvent s)
  mark : ∀ address length s, R s (markTaken address length s)
  firstByte : ∀ k s, R s (expireFirstByte k s)
  gap : ∀ k s, R s (expireGap k s)
  owedTick : ∀ s, R s (takeOwedTick s)
  tick : ∀ s, R s (advanceTick s)
  edge : ∀ s, s.timebase.cycleCount + 1 < s.timebase.tickLength →
    R s { s with timebase := { s.timebase with cycleCount := s.timebase.cycleCount + 1 } }
  loss : ∀ s, R s (loseReference s)
  regain : ∀ s, R s (returnReference s)

namespace StepClosed

variable {R : State → State → Prop}

/-! ### The assembler -/

theorem finishRecord (h : StepClosed R) (kind : BitVec 8) (field : BitVec 4) (cause : Option Cause) (slot : Option Slot)
    (s : State) : R s (finishRecord kind field cause slot s) := by
  unfold Machine.finishRecord
  simp only
  split
  · exact h.trans (h.outside s _ _ _ _) (h.post ..)
  · exact h.outside s _ _ _ _

theorem discardRecord (h : StepClosed R) (cause : Cause) (s : State) : R s (discardRecord cause s) := by
  unfold Machine.discardRecord
  split
  · exact h.refl s
  · exact h.finishRecord ..

theorem judgeOrder (h : StepClosed R) (tag : Tag) (field : BitVec 4) (o : Order) (s : State) :
    R s (judgeOrder tag field o s) := by
  unfold Machine.judgeOrder
  split
  · exact h.finishRecord ..
  · next hc => exact h.trans (h.order tag field o s hc) (h.finishRecord ..)

theorem giveOrder (h : StepClosed R) (tag : Tag) (field : BitVec 4) (o : Order) (s : State) :
    R s (giveOrder tag field o s) := by
  unfold Machine.giveOrder
  split
  · exact h.trans (h.discardRecord ..) (h.judgeOrder ..)
  · exact h.refl s

theorem takeCheckWord (h : StepClosed R) (tag : Tag) (header : Word) (body : List Word) (check : Word) (s : State) :
    R s (takeCheckWord tag header body check s) := by
  unfold Machine.takeCheckWord
  split <;> [split; skip]
  · exact h.judgeOrder ..
  · exact h.finishRecord ..
  · exact h.finishRecord ..

theorem takeWord (h : StepClosed R) (w : OrderWord) (s : State) : R s (takeWord w s) := by
  unfold Machine.takeWord takeHeaderWord takeBodyWord
  split <;> [skip; split <;> [skip; (split <;> [skip; split <;> [skip; split]])]]
  · exact h.trans (h.discardRecord ..) (h.outside _ _ _ _ _)
  · exact h.refl s
  · exact h.discardRecord ..
  · exact h.discardRecord ..
  · exact h.outside s _ _ _ _
  · exact h.takeCheckWord ..

theorem takeNextWord (h : StepClosed R) (named : OrderWord → Assembly → Bool) (s : State) :
    R s (takeNextWord named s) := by
  unfold Machine.takeNextWord
  split <;> [skip; split]
  · exact h.refl s
  · exact h.trans (h.outside s _ _ _ _) (h.takeWord ..)
  · exact h.refl s

/-! ### What is in flight -/

theorem takeArrivalAt (h : StepClosed R) (n : Nat) (s : State) : R s (takeArrivalAt n s) := by
  unfold Machine.takeArrivalAt
  split
  · exact h.refl s
  · exact h.trans (h.outside s _ _ _ _) (h.arrival ..)

theorem takeConsumerReadAt (h : StepClosed R) (n : Nat) (s : State) : R s (takeConsumerReadAt n s) := by
  unfold Machine.takeConsumerReadAt
  split
  · exact h.refl s
  · exact h.trans (h.outside s _ _ _ _) (h.consumerRead ..)

theorem takeOrderWords (h : StepClosed R) (n : Nat) (s : State) : R s (takeOrderWords n s) := by
  induction n generalizing s with
  | zero => exact h.refl s
  | succ n ih => exact h.trans (h.takeNextWord ..) (ih _)

theorem takeLastArrivals (h : StepClosed R) (n : Nat) (s : State) : R s (takeLastArrivals n s) := by
  induction n generalizing s with
  | zero => exact h.refl s
  | succ n ih => exact h.trans (h.takeArrivalAt ..) (ih _)

/-! ### Transactions -/

theorem passWrite (h : StepClosed R) (d : Delivery) (t : Transaction) (s : State) : R s (passWrite d t s) := by
  have yielded : R s (yieldWrite t s) := h.outside s _ _ _ _
  cases d with
  | deferred => exact yielded
  | atOnce => exact h.trans (h.trans yielded (h.takeOrderWords ..)) (h.takeLastArrivals ..)

theorem readEffects (h : StepClosed R) (address length : Nat) (s : State) : R s (readEffects address length s) := by
  unfold Machine.readEffects
  split
  · exact h.trans (h.pop s) (h.mark ..)
  · exact h.mark ..

theorem passRead (h : StepClosed R) (d : Delivery) (t : Transaction) (s : State) : R s (passRead d t s) := by
  have yielded : R s (yieldRead t s) := by
    unfold yieldRead
    split
    · exact h.refl s
    · exact h.outside s _ _ _ _
  have passed := h.trans yielded (h.readEffects t.address.toNat t.lanes.length _)
  unfold Machine.passRead
  simp only
  split
  · exact h.trans passed (h.takeConsumerReadAt ..)
  · exact passed

theorem passTransaction (h : StepClosed R) (t : Transaction) (d : Delivery) (s : State) : R s (passTransaction t d s) := by
  unfold Machine.passTransaction
  simp only
  split
  · exact h.trans (h.outside s _ _ _ _) (h.passWrite ..)
  · exact h.trans (h.outside s _ _ _ _) (h.passRead ..)

/-! ### Ticks -/

theorem settleTick (h : StepClosed R) (s : State) : R s (settleTick s) := by
  have expired : R s (expireAll s) := by
    unfold expireAll
    generalize List.finRange 16 = ks
    induction ks generalizing s with
    | nil => exact h.refl s
    | cons k ks ih => exact h.trans (h.trans (h.firstByte k s) (h.gap ..)) (ih _)
  exact h.trans expired (h.owedTick _)

theorem tickOnce (h : StepClosed R) (d : Delivery) (s : State) : R s (tickOnce d s) := by
  have advanced := h.trans (h.settleTick s) (h.tick _)
  cases d with
  | deferred => exact advanced
  | atOnce => exact h.trans advanced (h.settleTick _)

theorem clockPeriod (h : StepClosed R) (s : State) : R s (clockPeriod s) := by
  unfold Machine.clockPeriod
  split <;> [skip; skip; split]
  · exact h.tickOnce ..
  · exact h.refl s
  · exact h.tickOnce ..
  · next hl => exact h.edge s (by omega)

/-! ### Every command, and every step -/

theorem exec (h : StepClosed R) {c : Instr} {s t : State} (hc : exec c s = .next t) : R s t := by
  have runs : ∀ {u}, R s u → .next u = (.next t : Host.Outcome State Fault Refusal) → R s t := by
    rintro u hu ⟨⟩
    exact hu
  cases c with
  | powerOnReset straps during => exact runs (h.powerOn ..) hc
  | transaction x d => exact runs (h.passTransaction ..) hc
  | orderHeaderWord => exact runs (h.takeNextWord ..) hc
  | orderBodyWord => exact runs (h.takeNextWord ..) hc
  | orderStrayWord => exact runs (h.takeNextWord ..) hc
  | setupOrder tag field f => exact runs (h.giveOrder ..) hc
  | openOrder tag field f => exact runs (h.giveOrder ..) hc
  | closeOrder tag field => exact runs (h.giveOrder ..) hc
  | windowOrder tag field f => exact runs (h.giveOrder ..) hc
  | pauseOrder tag field m => exact runs (h.giveOrder ..) hc
  | resumeOrder tag field => exact runs (h.giveOrder ..) hc
  | recoverOrder tag field => exact runs (h.giveOrder ..) hc
  | continueOrder tag field => exact runs (h.giveOrder ..) hc
  | fetchOrder tag field f => exact runs (h.giveOrder ..) hc
  | abortOrder tag field base => exact runs (h.giveOrder ..) hc
  | flushOrder tag field => exact runs (h.giveOrder ..) hc
  | resetOrder tag field => exact runs (h.giveOrder ..) hc
  | reacquireOrder tag field => exact runs (h.giveOrder ..) hc
  | arrival n => exact runs (h.takeArrivalAt ..) hc
  | consumerRead n => exact runs (h.takeConsumerReadAt ..) hc
  | eventPop tag offset memory error => exact runs (h.passTransaction ..) hc
  | adviceSlotRead tag offset memory error => exact runs (h.passTransaction ..) hc
  | tick d => exact runs (h.tickOnce ..) hc
  | referenceLoss => exact runs (h.loss _) hc
  | firstByteDeadlineExpiry k => exact runs (h.firstByte ..) hc
  | gapDeadlineExpiry k => exact runs (h.gap ..) hc
  | windowEnd => exact runs (h.owedTick _) hc
  | referenceReturn => exact runs (h.regain _) hc

theorem step (h : StepClosed R) {s t : State} (hs : step s = .next t) : R s t := by
  unfold Machine.step at hs
  split at hs
  · cases hs
    exact h.clockPeriod s
  · exact h.trans (h.outside s _ _ _ _) (h.exec hs)

end StepClosed

end Sys2Proof.Machine
end

section
/-! PROOFS. What every step leaves of the event queue, the timebase and the settings. -/

namespace Sys2Proof.Machine

/-- From `s` to `t` the laws of the event queue, of the timebase and of the settings are kept, each from itself alone. -/
structure KeepsLaws (s t : State) : Prop where
  queue : QueueOk s → QueueOk t
  timebase : TimebaseOk s → TimebaseOk t
  settings : SettingsOk s → SettingsOk t

namespace KeepsLaws

variable {s t u : State}

theorem refl (s : State) : KeepsLaws s s := ⟨id, id, id⟩

theorem trans (h : KeepsLaws s t) (h' : KeepsLaws t u) : KeepsLaws s u :=
  ⟨h'.queue ∘ h.queue, h'.timebase ∘ h.timebase, h'.settings ∘ h.settings⟩

/-- `trans` with its second part first: that part names the state between. -/
theorem after (h' : KeepsLaws t u) (h : KeepsLaws s t) : KeepsLaws s u := h.trans h'

end KeepsLaws

theorem Runs.keepsLaws {s t : State} (h : Runs s t) : KeepsLaws s t where
  queue := h.queue
  timebase ok := by rw [TimebaseOk, h.timebase]; exact ok
  settings ok := by rw [h.eq]; exact ok

theorem Governs.keepsLaws {i : SessionId} {s t : State} (h : Governs i s t) : KeepsLaws s t := h.runs.keepsLaws

theorem FreesOnly.keepsLaws {s t : State} (h : FreesOnly s t) : KeepsLaws s t := by
  rw [h.eq]
  exact ⟨id, id, id⟩

theorem recompute_keepsLaws (s : State) : KeepsLaws s (recompute s) := (recompute_divides s).runs.keepsLaws

theorem setSession_keepsLaws (s : State) (i : SessionId) (x : Session) : KeepsLaws s (s.setSession i x) := ⟨id, id, id⟩

theorem freeSession_keepsLaws (i : SessionId) (s : State) : KeepsLaws s (freeSession i s) :=
  (freeWhere_spec _ s).1.keepsLaws.trans (mapParts_runs ..).keepsLaws

/-! ### The orders -/

/-- The two timeouts are whole ms of 100 to 65,535 (R25, R51). -/
theorem timeoutTicks_mem (ms : BitVec 16) :
    1000 ≤ timeoutTicks ms ∧ timeoutTicks ms ≤ 655350 ∧ timeoutTicks ms % 10 = 0 := by
  rw [timeoutTicks_eq]
  omega

/-- The mask of a SETUP enables none but the kinds 0x01 to 0x0C (R185). -/
theorem enableMask_and (mask : BitVec 12) : enableMask mask &&& 0x1FFE = enableMask mask := by
  have kinds : (0x1FFE : BitVec 16) = 0#3 ++ BitVec.allOnes 12 ++ 0#1 := by decide
  rw [kinds, enableMask]
  refine (BitVec.and_append ..).trans ?_
  rw [BitVec.and_append, BitVec.and_allOnes, BitVec.and_self, BitVec.and_self]

/-- SETUP writes the divider, the settings and the mask within their ranges (R25). -/
theorem setupEffect_keepsLaws (tag : Tag) (f : SetupFields) (s : State) : KeepsLaws s (setupEffect tag f s) := by
  have divider := clampTo_mem (low := 99) (high := 65535) (by decide) f.divider.toNat
  have written : ∀ m c, KeepsLaws s { s with
      classifier := c
      timebase := { s.timebase with divider := clampTo 99 65535 f.divider.toNat }
      tracker := { s.tracker with tFirst := timeoutTicks f.tFirst, tGap := timeoutTicks f.tGap }
      minProbe := min 1000 f.minProbe.toNat
      report := { s.report with mask := enableMask f.mask }
      meter := m } := fun m c =>
    ⟨id, fun ⟨_, rest⟩ => ⟨divider, rest⟩,
      fun _ => ⟨Nat.min_le_left .., timeoutTicks_mem _, timeoutTicks_mem _, enableMask_and _⟩⟩
  unfold setupEffect
  simp only
  split
  · exact (handOverLink_runs _).keepsLaws.after (written ..)
  · exact written ..

theorem openEffect_keepsLaws (i : SessionId) (f : OpenFields) (s : State) : KeepsLaws s (openEffect i f s) := by
  have seeded : KeepsLaws s (seedMeter (f.seed.map seedValue) s) := by
    unfold seedMeter
    split <;> [skip; split] <;> exact ⟨id, id, id⟩
  have opened : ∀ x, KeepsLaws s (recompute ((seedMeter (f.seed.map seedValue) s).setSession i x)) := fun x =>
    (recompute_keepsLaws _).after (seeded.trans (setSession_keepsLaws ..))
  unfold openEffect
  simp only
  split
  · exact (opened _).trans (post_runs ..).keepsLaws
  · exact opened _

theorem takeWindow_governs (i : SessionId) (s : State) : Governs i s (takeWindow i s) := by
  unfold takeWindow
  simp only
  split
  · exact startProbe_governs ..
  · exact steadyDecision_governs ..
  · exact steadyDecision_governs ..
  · exact publishLo_governs ..
  · refine .trans ?_ (publish_governs ..)
    split
    · exact setWork_governs ..
    · exact .refl i s
  · exact .refl i s

theorem resumeHeld_governs (i : SessionId) (s : State) : Governs i s (resumeHeld i s) := by
  unfold resumeHeld
  split
  · exact continueProbe_governs ..
  · exact publishLo_governs ..
  · exact steadyDecision_governs ..

/-- A RESUME changes the working half, recomputes, and lets the session governor answer. -/
theorem resumeEffect_parts (i : SessionId) (s : State) :
    ∃ w, Governs i (recompute (s.setWork i w)) (resumeEffect i s) := by
  unfold resumeEffect resumeToFallback resumeByMode
  simp only
  split <;> [skip; split]
  · exact ⟨_, publishLo_governs ..⟩
  · exact ⟨_, resumeHeld_governs ..⟩
  · exact ⟨_, publishLo_governs ..⟩
  · exact ⟨_, startProbe_governs ..⟩

theorem fetchEffect_keepsLaws (i : SessionId) (f : FetchFields) (s : State) : KeepsLaws s (fetchEffect i f s).1 := by
  unfold fetchEffect
  split <;> exact ⟨id, id, id⟩

/-- RESET empties the queue and clears LOST, and keeps the timebase and the settings (R37, R193). -/
theorem resetEffect_keepsLaws (s : State) : KeepsLaws s (resetEffect s) := by
  have freed : KeepsLaws s (dropParts (fun _ => true) (freeWhere (fun _ => true) s)) :=
    (freeWhere_spec _ s).1.keepsLaws.trans (mapParts_runs ..).keepsLaws
  unfold resetEffect
  generalize dropParts (fun _ => true) (freeWhere (fun _ => true) s) = t at freed ⊢
  exact ⟨fun _ => ⟨Nat.zero_le _, nofun⟩, freed.timebase, freed.settings⟩

/-- A REACQUIRE puts the source back on a reference that is not ABSENT (R47). -/
theorem reacquireEffect_keepsLaws (s : State) (h : s.timebase.presence ≠ .absent) : KeepsLaws s (reacquireEffect s) := by
  unfold reacquireEffect
  split
  · exact .refl s
  · refine ⟨id, fun ⟨divider, _, _, _, _⟩ => ⟨divider, ?_, fun ha => absurd ha h, ?_, ?_⟩, id⟩
    · simp
    · show 100 ≤ s.timebase.divider + 1 ∧ s.timebase.divider + 1 ≤ 65536
      omega
    · exact Nat.succ_pos _

/-- An order is taken when every stage of R21 passes it. -/
theorem refusalCause_eq_none_iff {field : BitVec 4} {o : Order} {s : State} :
    refusalCause field o s = none ↔ lengthCause o = none ∧ numberCause field o = none
      ∧ stateCause (sessionOf field) o s = none ∧ contentCause (sessionOf field) o s = none := by
  simp [refusalCause]

theorem orderEffect_keepsLaws (tag : Tag) (field : BitVec 4) (o : Order) (s : State) (h : refusalCause field o s = none) :
    KeepsLaws s (orderEffect tag (sessionOf field) o s).1 := by
  cases o <;> simp only [orderEffect]
  case setup f => exact setupEffect_keepsLaws ..
  case openSession f => exact openEffect_keepsLaws ..
  case closeSession => exact (recompute_keepsLaws _).after ((freeSession_keepsLaws _ s).trans (setSession_keepsLaws ..))
  case window f => exact (takeWindow_governs ..).keepsLaws.after ((recompute_keepsLaws _).after (setSession_keepsLaws ..))
  case pause m => exact (recompute_keepsLaws _).after (setWork_governs ..).keepsLaws
  case resume =>
    obtain ⟨w, answered⟩ := resumeEffect_parts (sessionOf field) s
    exact answered.keepsLaws.after ((recompute_keepsLaws _).after (setWork_governs ..).keepsLaws)
  case recover => exact (recoverSession_governs ..).keepsLaws
  case continueRung => exact (setWork_governs ..).keepsLaws
  case fetch f => exact fetchEffect_keepsLaws ..
  case abort base => exact (freeWhere_spec _ s).1.keepsLaws
  case flush => exact (freeSession_keepsLaws _ s).trans (setSession_keepsLaws ..)
  case reset => exact resetEffect_keepsLaws s
  case reacquire =>
    obtain ⟨-, -, -, content⟩ := refusalCause_eq_none_iff.1 h
    exact reacquireEffect_keepsLaws s fun absent => by simp [contentCause, absent] at content

/-! ### Time and reads -/

theorem advanceTick_keepsLaws (s : State) : KeepsLaws s (advanceTick s) where
  queue := id
  timebase := fun ⟨divider, coarse, presence, _, _⟩ => by
    refine ⟨divider, coarse, presence, ?_, Nat.succ_pos _⟩
    show 100 ≤ s.timebase.divider + 1 ∧ s.timebase.divider + 1 ≤ 65536
    omega
  settings := id

/-- Losing the reference sets COARSE with the internal source (R45). -/
theorem loseReference_keepsLaws (s : State) : KeepsLaws s (loseReference s) := by
  unfold loseReference
  split
  · exact .refl s
  · next hs =>
    exact ⟨id, fun ⟨divider, coarse, _, length, count⟩ => ⟨divider, coarse, fun _ => hs, length, count⟩, id⟩
  · refine (post_runs ..).keepsLaws.after ⟨id, fun ⟨divider, _, _, length, _⟩ => ?_, id⟩
    exact ⟨divider, by simp, fun _ => rfl, length, by show 0 < s.timebase.tickLength; omega⟩

/-- A pop leaves fewer records, and LOST only beside a record (R189). -/
theorem popEvent_keepsLaws (s : State) : KeepsLaws s (popEvent s) := by
  unfold popEvent
  split
  · exact .refl s
  · next e rest he =>
    refine ⟨fun ⟨length, _⟩ => ⟨?_, ?_⟩, id, id⟩
    · rw [he, List.length_cons] at length
      exact Nat.le_of_succ_le length
    · intro lost hr
      have hr : rest = [] := hr
      simp [hr] at lost

theorem keepsLaws_stepClosed : StepClosed KeepsLaws where
  refl := .refl
  trans := .trans
  outside _ _ _ _ _ := ⟨id, id, id⟩
  powerOn _ _ _ := by
    obtain ⟨queue, timebase, -, -, -, -, -, -, settings, -⟩ := resetMeetsEveryLaw
    exact ⟨fun _ => queue, fun _ => timebase, fun _ => settings⟩
  post _ _ _ _ _ _ := (post_runs ..).keepsLaws
  order := orderEffect_keepsLaws
  arrival _ _ := (takeArrival_runs ..).keepsLaws
  consumerRead _ _ := (takeConsumerRead_runs ..).keepsLaws
  pop := popEvent_keepsLaws
  mark _ _ _ := ⟨id, id, id⟩
  firstByte _ _ := (expireFirstByte_runs ..).keepsLaws
  gap _ _ := (expireGap_runs ..).keepsLaws
  owedTick _ := (takeOwedTick_runs _).keepsLaws
  tick := advanceTick_keepsLaws
  edge _ h := ⟨id, fun ⟨divider, coarse, presence, length, _⟩ => ⟨divider, coarse, presence, length, h⟩, id⟩
  loss := loseReference_keepsLaws
  regain _ := ⟨id, fun ⟨divider, coarse, _, rest⟩ => ⟨divider, coarse, nofun, rest⟩, id⟩

/-- Settles O5: each act of a step keeps the three laws, and `StepClosed.step` puts them together. -/
theorem stepsKeepTheQueueAndTimebaseLaws : Obligations.StepsKeepTheQueueAndTimebaseLaws := by
  intro s t hs
  obtain ⟨queue, timebase, settings⟩ := keepsLaws_stepClosed.step hs
  exact ⟨queue, timebase, settings⟩

end Sys2Proof.Machine
end

section
/-! PROOFS. The tracked ranges as one list. They are apart from each other and from the governor page exactly when that
list is pairwise so beside the page; every act of a step but a FETCH and a power-on reset only takes ranges off it or
reorders it, and a FETCH adds one that is apart. -/

namespace Sys2Proof.Machine

/-- The range of a fetch record. -/
def FetchRecord.range (r : FetchRecord) : Nat × Nat := (r.base, r.size)

/-- The ranges of the fetch records, by slot. -/
def recordRanges (s : State) : List (Nat × Nat) :=
  (List.finRange 16).flatMap fun k => ((s.slot k).map FetchRecord.range).toList

/-- The ranges of the held segments, by session. -/
def heldRanges (s : State) : List (Nat × Nat) :=
  (List.finRange 4).flatMap fun i => (s.session i).held.map HeldSegment.range

/-- The tracked ranges (R49). -/
def trackedRanges (s : State) : List (Nat × Nat) := recordRanges s ++ heldRanges s

/-- Two ranges, each a base and a size, share no byte. -/
def RangesApart (p q : Nat × Nat) : Prop := Apart p.1 p.2 q.1 q.2

theorem RangesApart.symm {p q : Nat × Nat} (h : RangesApart p q) : RangesApart q p := Or.symm h

/-! ### The law of the ranges -/

theorem forall_recordRanges {s : State} {P : Nat × Nat → Prop} :
    (∀ p ∈ recordRanges s, P p) ↔ ∀ k, ∀ r ∈ s.slot k, P r.range := by
  simp only [recordRanges, List.mem_flatMap, List.mem_finRange, true_and, Option.mem_toList,
    Option.map_eq_some_iff]
  exact ⟨fun h k r hr => h _ ⟨k, r, hr, rfl⟩, fun h p ⟨k, r, hr, hp⟩ => hp ▸ h k r hr⟩

theorem forall_heldRanges {s : State} {P : Nat × Nat → Prop} :
    (∀ p ∈ heldRanges s, P p) ↔ ∀ i, ∀ h ∈ (s.session i).held, P h.range := by
  simp only [heldRanges, List.mem_flatMap, List.mem_finRange, true_and, List.mem_map]
  exact ⟨fun h i g hg => h _ ⟨i, g, hg, rfl⟩, fun h p ⟨i, g, hg, hp⟩ => hp ▸ h i g hg⟩

theorem forall_trackedRanges {s : State} {P : Nat × Nat → Prop} :
    (∀ p ∈ trackedRanges s, P p)
      ↔ (∀ k, ∀ r ∈ s.slot k, P r.range) ∧ ∀ i, ∀ h ∈ (s.session i).held, P h.range := by
  rw [trackedRanges, List.forall_mem_append, forall_recordRanges, forall_heldRanges]

theorem pairwise_finRange {n : Nat} {R : Fin n → Fin n → Prop} (symm : ∀ {i j}, R i j → R j i) :
    (List.finRange n).Pairwise R ↔ ∀ i j, i ≠ j → R i j := by
  have : Std.Symm R := ⟨fun _ _ => symm⟩
  exact ⟨fun h i j => h.forall (List.mem_finRange i) (List.mem_finRange j),
    fun h => (List.nodup_finRange n).pairwise_of_forall_ne fun i _ j _ => h i j⟩

theorem recordRanges_pairwise (s : State) :
    (recordRanges s).Pairwise RangesApart
      ↔ ∀ k k', k ≠ k' → ∀ r ∈ s.slot k, ∀ r' ∈ s.slot k', RangesApart r.range r'.range := by
  have single : ∀ k, ((s.slot k).map FetchRecord.range).toList.Pairwise RangesApart := fun k => by
    cases s.slot k <;> simp
  rw [recordRanges, List.pairwise_flatMap, pairwise_finRange fun h x hx y hy => (h y hy x hx).symm]
  simp [single]

theorem heldRanges_pairwise (s : State) :
    (heldRanges s).Pairwise RangesApart
      ↔ (∀ i, (s.session i).held.Pairwise fun h h' => RangesApart h.range h'.range)
        ∧ ∀ i j, i ≠ j → ∀ h ∈ (s.session i).held, ∀ h' ∈ (s.session j).held, RangesApart h.range h'.range := by
  rw [heldRanges, List.pairwise_flatMap, pairwise_finRange fun h x hx y hy => (h y hy x hx).symm]
  simp [List.pairwise_map]

/-- The law of the ranges (R49) is that the page and the tracked ranges are pairwise apart. -/
theorem rangesOk_iff (s : State) :
    RangesOk s ↔ ((pageBase s, Config.pageSize) :: trackedRanges s).Pairwise RangesApart := by
  have page : (∀ p ∈ trackedRanges s, RangesApart (pageBase s, Config.pageSize) p)
      ↔ ∀ p ∈ trackedRanges s, RangesApart p (pageBase s, Config.pageSize) :=
    forall₂_congr fun _ _ => ⟨.symm, .symm⟩
  rw [List.pairwise_cons, page, forall_trackedRanges, trackedRanges, List.pairwise_append, recordRanges_pairwise,
    heldRanges_pairwise, forall_recordRanges]
  simp only [forall_heldRanges]
  exact ⟨fun ⟨records, between, within, across, recordPage, heldPage⟩ =>
      ⟨⟨recordPage, heldPage⟩, records, ⟨within, across⟩, between⟩,
    fun ⟨⟨recordPage, heldPage⟩, records, ⟨within, across⟩, between⟩ =>
      ⟨records, between, within, across, recordPage, heldPage⟩⟩

/-! ### No range joins -/

/-- From `s` to `t` the page stays and no range is tracked that was not. -/
structure NoNewRange (s t : State) : Prop where
  page : pageBase t = pageBase s
  ranges : (trackedRanges t).Subperm (trackedRanges s)

namespace NoNewRange

variable {s t u : State}

theorem refl (s : State) : NoNewRange s s := ⟨rfl, .refl _⟩

theorem trans (h : NoNewRange s t) (h' : NoNewRange t u) : NoNewRange s u :=
  ⟨h'.page.trans h.page, h'.ranges.trans h.ranges⟩

/-- Nothing of the page, the table and the sessions changes. -/
theorem of_frame (straps : t.classifier.straps = s.classifier.straps) (table : t.tracker.table = s.tracker.table)
    (sessions : t.sessions = s.sessions) : NoNewRange s t where
  page := by unfold pageBase; rw [straps]
  ranges := by
    unfold trackedRanges recordRanges heldRanges
    simp only [slot_congr table, session_congr sessions]
    exact .refl _

/-- `trans` with its second part first: that part names the state between. -/
theorem after (h' : NoNewRange t u) (h : NoNewRange s t) : NoNewRange s u := h.trans h'

theorem rangesOk (h : NoNewRange s t) (ok : RangesOk s) : RangesOk t := by
  rw [rangesOk_iff] at ok ⊢
  obtain ⟨l, hl, hs⟩ := h.ranges
  rw [h.page]
  exact (hl.cons _).pairwise (ok.sublist (hs.cons_cons _)) .symm

/-- It is enough that no slot and no held list has a new range. -/
theorem of_each (page : pageBase t = pageBase s) (slot : ∀ k, ∀ r ∈ t.slot k, ∃ r' ∈ s.slot k, r'.range = r.range)
    (held : ∀ i, ((t.session i).held.map HeldSegment.range).Sublist ((s.session i).held.map HeldSegment.range)) :
    NoNewRange s t := by
  have records : (recordRanges t).Sublist (recordRanges s) := by
    refine .flatMap_right _ fun k _ => ?_
    cases h : t.slot k with
    | none => exact List.nil_sublist _
    | some r =>
      obtain ⟨r', hr', e⟩ := slot k r h
      rw [show s.slot k = some r' from hr', Option.map_some, Option.map_some, e]
  exact ⟨page, (records.append (.flatMap_right _ fun i _ => held i)).subperm⟩

/-- It is enough that the table and every held list stay. -/
theorem of_same (page : pageBase t = pageBase s) (slot : ∀ k, t.slot k = s.slot k)
    (held : ∀ i, (t.session i).held = (s.session i).held) : NoNewRange s t :=
  of_each page (fun k r hr => ⟨r, slot k ▸ hr, rfl⟩) fun i => by rw [held]

end NoNewRange

theorem Governs.noNewRange {i : SessionId} {s t : State} (h : Governs i s t) : NoNewRange s t :=
  .of_same h.keepsOutside.pageBase h.slot fun j => by
    by_cases hj : j = i
    · subst hj; exact h.held
    · rw [h.other j hj]

theorem Divides.noNewRange {s t : State} (h : Divides s t) : NoNewRange s t :=
  .of_same h.runs.keepsOutside.pageBase h.slot fun i => by rw [h.session]

theorem post_noNewRange (kind : EventKind) (session : BitVec 4) (code : BitVec 8) (a b : Word) (s : State) :
    NoNewRange s (post kind session code a b s) :=
  (post_governs 0 kind session code a b s).noNewRange

theorem setSession_noNewRange (s : State) (i : SessionId) {x : Session}
    (h : (x.held.map HeldSegment.range).Sublist ((s.session i).held.map HeldSegment.range)) :
    NoNewRange s (s.setSession i x) :=
  .of_each rfl (fun _ r hr => ⟨r, hr, rfl⟩) fun j => by
    rw [session_setSession]
    split
    · next e => exact e ▸ h
    · exact .refl _

theorem setSlot_noNewRange {s : State} {k : Slot} {r r' : FetchRecord} (h : s.slot k = some r) (e : r.range = r'.range) :
    NoNewRange s (s.setSlot k (some r')) :=
  .of_each rfl (fun j q hq => by
    rw [slot_setSlot] at hq
    split at hq
    · next hj =>
      cases hq
      exact ⟨r, hj ▸ h, e⟩
    · exact ⟨q, hq, rfl⟩) fun _ => .refl _

theorem freeWhere_noNewRange (p : FetchRecord → Bool) (s : State) : NoNewRange s (freeWhere p s) := by
  obtain ⟨frees, slot, -⟩ := freeWhere_spec p s
  refine .of_each frees.keepsOutside.pageBase (fun k r hr => ⟨r, ?_, rfl⟩) fun i => by rw [frees.session]
  rw [slot] at hr
  exact (Option.mem_filter_iff.1 hr).1

theorem mapParts_noNewRange (f : ConsumerPart → ConsumerPart) (s : State) : NoNewRange s (mapParts f s) :=
  .of_frame rfl rfl rfl

theorem freeSession_noNewRange (i : SessionId) (s : State) : NoNewRange s (freeSession i s) :=
  (freeWhere_noNewRange _ s).trans (mapParts_noNewRange ..)

theorem recompute_noNewRange (s : State) : NoNewRange s (recompute s) := (recompute_divides s).noNewRange

theorem handOverLink_noNewRange (s : State) : NoNewRange s (handOverLink s) := by
  unfold handOverLink
  split
  · exact .refl s
  · exact (recompute_noNewRange _).after (.of_frame rfl rfl rfl)

/-! ### A range moves from the table to a held list, or joins the table -/

/-- In a flattened list, what one place gives may stand first. -/
theorem flatMap_perm_update {α β : Type} [DecidableEq α] {l : List α} (hl : l.Nodup) {a : α} (ha : a ∈ l) (f : α → List β) :
    (l.flatMap f).Perm (f a ++ l.flatMap (Function.update f a [])) := by
  have first := List.perm_cons_erase ha
  have others : (l.erase a).flatMap (Function.update f a []) = (l.erase a).flatMap f :=
    List.flatMap_congr fun b hb => Function.update_of_ne (hl.mem_erase_iff.1 hb).1 _ _
  calc l.flatMap f
    _ |>.Perm ((a :: l.erase a).flatMap f) := first.flatMap_right f
    _ = f a ++ (a :: l.erase a).flatMap (Function.update f a []) := by
      rw [List.flatMap_cons, List.flatMap_cons, Function.update_self, others, List.nil_append]
    _ |>.Perm (f a ++ l.flatMap (Function.update f a [])) := (first.symm.flatMap_right _).append_left _

/-- The range of a slot's record may stand first. -/
theorem trackedRanges_slot (s : State) (k : Slot) :
    (trackedRanges s).Perm (((s.slot k).map FetchRecord.range).toList ++ trackedRanges (s.setSlot k none)) := by
  have others : recordRanges (s.setSlot k none) = (List.finRange 16).flatMap
      (Function.update (fun k => ((s.slot k).map FetchRecord.range).toList) k []) :=
    List.flatMap_congr fun j _ => by
      by_cases hj : j = k
      · subst hj; simp
      · rw [slot_setSlot_of_ne _ _ hj, Function.update_of_ne hj]
  have records := flatMap_perm_update (List.nodup_finRange 16) (List.mem_finRange k)
    fun k => ((s.slot k).map FetchRecord.range).toList
  rw [← others] at records
  exact (records.append_right (heldRanges s)).trans (.of_eq (List.append_assoc ..))

/-- A record fills a free slot: its range joins. -/
theorem trackedRanges_fill {s : State} {k : Slot} (h : s.slot k = none) (r : FetchRecord) :
    (trackedRanges (s.setSlot k (some r))).Perm (r.range :: trackedRanges s) := by
  have free := trackedRanges_slot s k
  have fill := trackedRanges_slot (s.setSlot k (some r)) k
  simp only [h, slot_setSlot_self, setSlot_setSlot, Option.map_none, Option.map_some, Option.toList_none, Option.toList_some,
    List.nil_append, List.singleton_append] at free fill
  exact fill.trans (free.symm.cons _)

/-- A record leaves its slot: its range leaves. -/
theorem trackedRanges_free {s : State} {k : Slot} {r : FetchRecord} (h : s.slot k = some r) :
    (trackedRanges s).Perm (r.range :: trackedRanges (s.setSlot k none)) := by
  simpa [h] using trackedRanges_slot s k

theorem insertHeld_perm (h : HeldSegment) (held : List HeldSegment) : (insertHeld h held).Perm (h :: held) := by
  induction held with
  | nil => exact .refl _
  | cons g rest ih =>
    unfold insertHeld
    split
    · exact .refl _
    · exact (ih.cons g).trans (.swap ..)

/-- The ranges of a session's held list may stand first. -/
theorem trackedRanges_held (s : State) (i : SessionId) :
    (trackedRanges s).Perm ((s.session i).held.map HeldSegment.range
      ++ trackedRanges (s.setSession i { s.session i with held := [] })) := by
  have others : heldRanges (s.setSession i { s.session i with held := [] }) = (List.finRange 4).flatMap
      (Function.update (fun i => (s.session i).held.map HeldSegment.range) i []) :=
    List.flatMap_congr fun j _ => by
      by_cases hj : j = i
      · subst hj; simp
      · rw [session_setSession_of_ne _ _ hj, Function.update_of_ne hj]
  have lists := flatMap_perm_update (List.nodup_finRange 4) (List.mem_finRange i)
    fun i => (s.session i).held.map HeldSegment.range
  rw [← others] at lists
  exact (lists.append_left (recordRanges s)).trans (List.perm_append_comm_assoc ..)

/-- A segment joins a held list: its range joins. -/
theorem trackedRanges_insertHeld (s : State) (i : SessionId) (h : HeldSegment) :
    (trackedRanges (s.setSession i { s.session i with held := insertHeld h (s.session i).held })).Perm
      (h.range :: trackedRanges s) := by
  have before := trackedRanges_held s i
  have after := trackedRanges_held (s.setSession i { s.session i with held := insertHeld h (s.session i).held }) i
  simp only [session_setSession_self, setSession_setSession] at after
  have joined := ((insertHeld_perm h (s.session i).held).map HeldSegment.range).append_right
    (trackedRanges (s.setSession i { s.session i with held := [] }))
  exact (after.trans joined).trans (before.symm.cons _)

/-! ### The fetch tracker -/

theorem refillTest_noNewRange (i : SessionId) (s : State) : NoNewRange s (refillTest i s) := by
  unfold refillTest
  simp only
  split
  · exact (post_noNewRange ..).after (setSession_noNewRange s i (.refl _))
  · exact .refl s

/-- A completed segment brings no range but its own. -/
theorem completeSegment_ranges (i : SessionId) (h : HeldSegment) (s : State) :
    (trackedRanges (completeSegment i h s)).Subperm (h.range :: trackedRanges s) := by
  have without : (trackedRanges s).Subperm (h.range :: trackedRanges s) := (List.sublist_cons_self ..).subperm
  unfold completeSegment
  simp only
  split <;> [skip; split]
  · exact (setWork_governs ..).noNewRange.ranges.trans without
  · exact without
  · exact (refillTest_noNewRange ..).ranges.trans (trackedRanges_insertHeld s i h).subperm

theorem handOverCompletion_ranges (r : FetchRecord) (landing : Tick) (s : State) :
    (trackedRanges (handOverCompletion r landing s)).Subperm (r.range :: trackedRanges s) := by
  unfold handOverCompletion
  split
  · exact (List.sublist_cons_self ..).subperm
  · exact (offerCompletion_governs ..).noNewRange.ranges.trans (completeSegment_ranges ..)

/-- A completed fetch leaves its slot, and its range moves to a held list at most (R60). -/
theorem completeFetch_noNewRange {k : Slot} {r r' : FetchRecord} {s : State} (h : s.slot k = some r)
    (e : r.range = r'.range) : NoNewRange s (completeFetch k r' s) where
  page := (completeFetch_runs k r' s).keepsOutside.pageBase
  ranges := by
    have freed := (trackedRanges_free h).symm.subperm
    rw [e] at freed
    exact ((handOverCompletion_ranges ..).trans ((List.subperm_cons _).2 (post_noNewRange ..).ranges)).trans freed

theorem postRevive_noNewRange (k : Slot) (r : FetchRecord) (s : State) : NoNewRange s (postRevive k r s) := by
  unfold postRevive
  split
  · exact post_noNewRange ..
  · exact .refl s

theorem postRevive_slot (k j : Slot) (r : FetchRecord) (s : State) : (postRevive k r s).slot j = s.slot j := by
  unfold postRevive
  split
  · exact post_slot ..
  · rfl

theorem creditRise_noNewRange (r : FetchRecord) (landed : Nat) (s : State) : NoNewRange s (creditRise r landed s) := by
  unfold creditRise
  split
  · exact .of_frame rfl rfl rfl
  · exact .refl s

theorem creditRise_slot (r : FetchRecord) (landed : Nat) (s : State) (k : Slot) :
    (creditRise r landed s).slot k = s.slot k := by
  unfold creditRise
  split <;> rfl

theorem countArrival_noNewRange {k : Slot} {e : Nat} {r : FetchRecord} {s : State} (h : s.slot k = some r) :
    NoNewRange s (countArrival k e r s) := by
  have credited : ∀ n, NoNewRange s (creditRise r n (postRevive k r s)) := fun n =>
    (postRevive_noNewRange k r s).trans (creditRise_noNewRange ..)
  have slot : ∀ n, (creditRise r n (postRevive k r s)).slot k = some r := fun n => by
    rw [creditRise_slot, postRevive_slot, h]
  unfold countArrival
  simp only
  split
  · exact (credited _).trans (completeFetch_noNewRange (slot _) rfl)
  · exact (credited _).trans (setSlot_noNewRange (slot _) rfl)

theorem takeArrival_noNewRange (a : Arrival) (s : State) : NoNewRange s (takeArrival a s) := by
  unfold takeArrival
  split
  · next r hr =>
    split
    · exact countArrival_noNewRange hr
    · exact .refl s
  · exact .refl s

theorem stallRecord_noNewRange {gap : Bool} {k : Slot} {r : FetchRecord} {s : State} (h : s.slot k = some r) :
    NoNewRange s (stallRecord gap k r s) := by
  unfold stallRecord
  exact (takeStall_governs ..).noNewRange.after ((post_noNewRange ..).after
    ((setWork_governs ..).noNewRange.after (setSlot_noNewRange h rfl)))

theorem expireFirstByte_noNewRange (k : Slot) (s : State) : NoNewRange s (expireFirstByte k s) := by
  unfold expireFirstByte
  split
  · next r hr =>
    split
    · exact stallRecord_noNewRange hr
    · exact .refl s
  · exact .refl s

theorem expireGap_noNewRange (k : Slot) (s : State) : NoNewRange s (expireGap k s) := by
  unfold expireGap
  split
  · next r hr =>
    split
    · exact stallRecord_noNewRange hr
    · exact .refl s
  · exact .refl s

/-! ### Consumer reads -/

theorem applyPart_noNewRange (part : ConsumerPart) (s : State) : NoNewRange s (applyPart part s) := by
  unfold applyPart
  split <;> [split; skip]
  · next kr hm =>
    obtain ⟨k, -, hk⟩ := Option.bind_eq_some_iff.1 hm
    obtain ⟨r, hr, rfl⟩ := Option.map_eq_some_iff.1 hk
    have raised : NoNewRange s (s.setSlot k (some { r with consumed := min r.size (max r.consumed part.endOffset) })) :=
      setSlot_noNewRange hr rfl
    exact raised.trans (setSession_noNewRange _ r.session (List.filter_sublist.map _))
  · simp only
    split
    · exact setSession_noNewRange _ _ (readHeld_range ..)
    · exact .refl s
  · exact .refl s

theorem judgeRead_noNewRange (before : Nat) (consumed : Bool) (i : SessionId) (s : State) :
    NoNewRange s (judgeRead before consumed i s) := by
  have counted : NoNewRange s (underrun i s) := (post_noNewRange ..).after (setSession_noNewRange s i (.refl _))
  unfold judgeRead
  simp only
  generalize (consumed && (s.session i).held.isEmpty && (s.session i).work.state != .paused) = starving
  have judged : NoNewRange s (if starving then underrun i s else s) := by
    cases starving
    · exact .refl s
    · exact counted
  split
  · exact judged.trans (panicCrossing_governs ..).noNewRange
  · exact judged

theorem takeConsumerRead_noNewRange (parts : List ConsumerPart) (s : State) : NoNewRange s (takeConsumerRead parts s) := by
  have applied : NoNewRange s (applyParts parts s).1 := by
    induction parts generalizing s with
    | nil => exact .refl s
    | cons part rest ih => exact (applyPart_noNewRange part s).trans (ih _)
  unfold takeConsumerRead
  simp only
  refine applied.trans ?_
  generalize (applyParts parts s).1 = t
  generalize List.finRange 4 = is
  induction is generalizing t with
  | nil => exact .refl t
  | cons i is ih =>
    rw [List.foldl_cons]
    refine .trans ?_ (ih _)
    split
    · exact judgeRead_noNewRange ..
    · exact .refl t

/-! ### Ticks -/

theorem endWindow_noNewRange (s : State) : NoNewRange s (endWindow s) := by
  unfold endWindow
  simp only
  split
  · exact .of_frame rfl rfl rfl
  · exact (handOverLink_noNewRange _).after (.of_frame rfl rfl rfl)

theorem takeOwedTick_noNewRange (s : State) : NoNewRange s (takeOwedTick s) := by
  unfold takeOwedTick meterTick
  simp only
  split <;> [split; skip]
  · exact (endWindow_noNewRange _).after (.of_frame rfl rfl rfl)
  · exact .of_frame rfl rfl rfl
  · exact .refl s

theorem loseReference_noNewRange (s : State) : NoNewRange s (loseReference s) := by
  unfold loseReference
  split
  · exact .refl s
  · exact .of_frame rfl rfl rfl
  · exact (post_noNewRange ..).after (.of_frame rfl rfl rfl)

/-! ### The orders -/

theorem setupEffect_noNewRange (tag : Tag) (f : SetupFields) (s : State) : NoNewRange s (setupEffect tag f s) := by
  unfold setupEffect
  simp only
  split
  · exact (handOverLink_noNewRange _).after (.of_frame rfl rfl rfl)
  · exact .of_frame rfl rfl rfl

/-- An OPEN starts with an empty held list. -/
theorem openEffect_noNewRange (i : SessionId) (f : OpenFields) (s : State) : NoNewRange s (openEffect i f s) := by
  have seeded : NoNewRange s (seedMeter (f.seed.map seedValue) s) := by
    unfold seedMeter
    split <;> [skip; split] <;> exact .of_frame rfl rfl rfl
  have opened : ∀ x : Session, x.held = [] →
      NoNewRange s (recompute ((seedMeter (f.seed.map seedValue) s).setSession i x)) := fun x hx =>
    (recompute_noNewRange _).after (seeded.trans (setSession_noNewRange _ _ (by rw [hx]; exact List.nil_sublist _)))
  unfold openEffect
  simp only
  split
  · exact (opened _ rfl).trans (post_noNewRange ..)
  · exact opened _ rfl

theorem resetEffect_noNewRange (s : State) : NoNewRange s (resetEffect s) := by
  have freed : NoNewRange s (dropParts (fun _ => true) (freeWhere (fun _ => true) s)) :=
    (freeWhere_noNewRange _ s).trans (mapParts_noNewRange ..)
  unfold resetEffect
  generalize dropParts (fun _ => true) (freeWhere (fun _ => true) s) = t at freed ⊢
  refine freed.trans (.of_each rfl (fun _ r hr => ⟨r, hr, rfl⟩) fun i => ?_)
  simp [State.session, Session.closed]

theorem reacquireEffect_noNewRange (s : State) : NoNewRange s (reacquireEffect s) := by
  unfold reacquireEffect
  split <;> exact .of_frame rfl rfl rfl

/-- A taken FETCH fills a free slot, if there is one. -/
theorem fetchEffect_ranges (i : SessionId) (f : FetchFields) (s : State) :
    (trackedRanges (fetchEffect i f s).1).Subperm ((f.base.toNat, f.size.toNat) :: trackedRanges s) := by
  unfold fetchEffect
  split
  · exact (List.sublist_cons_self ..).subperm
  · next k hk =>
    have free : s.slot k = none := mem_freeSlots.1 (List.mem_of_mem_head? hk)
    have held : (announceTo (announcedKind f) (s.session i)).held = (s.session i).held := by
      unfold announceTo
      cases announcedKind f <;> rfl
    have announced : NoNewRange (s.setSlot k (some (announcedRecord i f s))) _ :=
      setSession_noNewRange _ i (x := announceTo (announcedKind f) (s.session i)) (by rw [held]; exact .refl _)
    exact announced.ranges.trans (trackedRanges_fill free _).subperm

/-- The range of a FETCH that passes its checks is apart from the page and from every tracked range (R34). -/
theorem fetchCause_apart {i : SessionId} {f : FetchFields} {s : State} (h : fetchCause i f s = none) :
    ∀ p ∈ (pageBase s, Config.pageSize) :: trackedRanges s, RangesApart (f.base.toNat, f.size.toNat) p := by
  have apart : ∀ {base size}, ¬ rangesMeet f.base.toNat f.size.toNat base size = true →
      RangesApart (f.base.toNat, f.size.toNat) (base, size) := by
    intro base size hm
    simp [rangesMeet] at hm
    unfold RangesApart Apart
    simp only
    omega
  unfold fetchCause at h
  simp only at h
  split_ifs at h with bad _ tracked
  rw [List.forall_mem_cons, forall_trackedRanges]
  refine ⟨apart fun hm => bad (by simp [badRange, hm]), fun k r hr => apart fun hm => tracked ?_,
    fun j g hg => apart fun hm => tracked ?_⟩
  · rw [meetsTracked, Bool.or_eq_true, List.any_eq_true]
    exact .inl ⟨k, List.mem_finRange k, by rw [show s.slot k = some r from hr]; exact hm⟩
  · rw [meetsTracked, Bool.or_eq_true, List.any_eq_true, List.any_eq_true]
    exact .inr ⟨j, List.mem_finRange j, List.any_eq_true.2 ⟨g, hg, hm⟩⟩

theorem fetchEffect_rangesOk {i : SessionId} {f : FetchFields} {s : State} (h : fetchCause i f s = none)
    (ok : RangesOk s) : RangesOk (fetchEffect i f s).1 := by
  rw [rangesOk_iff] at ok ⊢
  rw [(fetchEffect_keepsOutside i f s).pageBase]
  obtain ⟨l, hl, hs⟩ := fetchEffect_ranges i f s
  have joined := (List.pairwise_cons.2 ⟨fetchCause_apart h, ok⟩).perm (.swap ..) .symm
  exact (hl.cons _).pairwise (joined.sublist (hs.cons_cons _)) .symm

theorem orderEffect_rangesOk (tag : Tag) (field : BitVec 4) (o : Order) (s : State) (h : refusalCause field o s = none)
    (ok : RangesOk s) : RangesOk (orderEffect tag (sessionOf field) o s).1 := by
  have emptied : ∀ x : Session, x.held = [] →
      NoNewRange s ((freeSession (sessionOf field) s).setSession (sessionOf field) x) := fun x hx =>
    (freeSession_noNewRange _ s).trans (setSession_noNewRange _ _ (by rw [hx]; exact List.nil_sublist _))
  cases o <;> simp only [orderEffect]
  case setup f => exact (setupEffect_noNewRange ..).rangesOk ok
  case openSession f => exact (openEffect_noNewRange ..).rangesOk ok
  case closeSession =>
    exact ((emptied _ rfl).trans (recompute_noNewRange _)).rangesOk ok
  case window f =>
    have windowed : NoNewRange s (s.setSession (sessionOf field)
        { s.session (sessionOf field) with prog := windowedBy f (s.session (sessionOf field)).prog }) :=
      setSession_noNewRange _ _ (.refl _)
    exact ((windowed.trans (recompute_noNewRange _)).trans (takeWindow_governs ..).noNewRange).rangesOk ok
  case pause m => exact ((recompute_noNewRange _).after (setWork_governs ..).noNewRange).rangesOk ok
  case resume =>
    obtain ⟨w, answered⟩ := resumeEffect_parts (sessionOf field) s
    exact (answered.noNewRange.after ((recompute_noNewRange _).after (setWork_governs ..).noNewRange)).rangesOk ok
  case recover => exact (recoverSession_governs ..).noNewRange.rangesOk ok
  case continueRung => exact (setWork_governs ..).noNewRange.rangesOk ok
  case fetch f =>
    obtain ⟨-, -, -, content⟩ := refusalCause_eq_none_iff.1 h
    exact fetchEffect_rangesOk content ok
  case abort base => exact (freeWhere_noNewRange ..).rangesOk ok
  case flush =>
    exact (emptied _ rfl).rangesOk ok
  case reset => exact (resetEffect_noNewRange s).rangesOk ok
  case reacquire => exact (reacquireEffect_noNewRange s).rangesOk ok

theorem powerOn_rangesOk (straps : BitVec 12) (during : List Transaction) (s : State) :
    RangesOk (powerOn straps during s) := by
  have empty : trackedRanges State.reset = [] := by decide
  rw [rangesOk_iff, show trackedRanges (powerOn straps during s) = [] from empty]
  exact List.pairwise_singleton ..

theorem rangesOk_stepClosed : StepClosed fun s t => RangesOk s → RangesOk t where
  refl _ := id
  trans h h' := h' ∘ h
  outside _ _ _ _ _ := id
  powerOn straps during s _ := powerOn_rangesOk straps during s
  post _ _ _ _ _ _ := (post_noNewRange ..).rangesOk
  order := orderEffect_rangesOk
  arrival _ _ := (takeArrival_noNewRange ..).rangesOk
  consumerRead _ _ := (takeConsumerRead_noNewRange ..).rangesOk
  pop s := by rw [popEvent_eq]; exact id
  mark address length s := NoNewRange.rangesOk <| .of_same rfl (fun _ => rfl) fun i => by simp [State.session, markTaken]
  firstByte _ _ := (expireFirstByte_noNewRange ..).rangesOk
  gap _ _ := (expireGap_noNewRange ..).rangesOk
  owedTick _ := (takeOwedTick_noNewRange _).rangesOk
  tick _ := id
  edge _ _ := id
  loss _ := (loseReference_noNewRange _).rangesOk
  regain _ := id

/-- Settles O9: only a FETCH tracks a new range, and its content checks find it apart (`fetchCause_apart`). -/
theorem stepsKeepTrackedRangesApart : Obligations.StepsKeepTrackedRangesApart :=
  fun _ _ ok hs => rangesOk_stepClosed.step hs ok

end Sys2Proof.Machine
end

section
/-! PROOFS. The orders of a session, taken: CLOSE, WINDOW, PAUSE, RESUME, RECOVER and CONTINUE. -/

namespace Sys2Proof.Machine

/-- An order of a session is taken when its state and content stages pass it: its effect, and then its last order result. -/
theorem exec_sessionOrder_taken {tag : Tag} {i : SessionId} {o : Order} {s t : State} {slot : Option Slot} (h : Ready tag s)
    (length : lengthCause o = none) (state : stateCause i o s = none) (content : contentCause i o s = none)
    (effect : orderEffect tag i o s = (t, slot)) :
    exec (orderCommand tag (sessionField i) o) s
      = .next (endedWith o.kind (sessionField i) 0 ((slot.map fun k => BitVec.ofNat 8 k.val).getD 0xFF) t) := by
  have taken := exec_orderCommand_taken h (refusalCause_eq_none length state content)
  rwa [sessionOf_sessionField, effect] at taken

/-- Settles O29: an open session is all a CLOSE needs. -/
theorem closeEndsASession : Obligations.CloseEndsASession := fun tag i s hready hopen =>
  exec_sessionOrder_taken (tag := tag) (o := .closeSession) (t := closeEffect i s) (slot := none) hready rfl
    (if_neg hopen) rfl rfl

/-- Settles O31: an open session that is not PAUSED is all a PAUSE needs. -/
theorem pauseSuspendsASession : Obligations.PauseSuspendsASession := fun tag i measure s hready hopen hactive =>
  exec_sessionOrder_taken (tag := tag) (o := .pause measure) (t := pauseEffect i measure s) (slot := none) hready rfl
    (by simp [stateCause, stateMust, hopen, hactive]) rfl rfl

/-- Settles O34: BOUNDARY is all a CONTINUE needs. -/
theorem continueReturnsToSteady : Obligations.ContinueReturnsToSteady := fun tag i s hready hb =>
  exec_sessionOrder_taken (tag := tag) (o := .continueRung) (t := continueEffect i s) (slot := none) hready rfl
    (by simp [stateCause, stateMust, hb]) rfl rfl

/-! ### What the session governor reads after a recompute -/

@[simp] theorem recompute_work (s : State) (i : SessionId) : ((recompute s).session i).work = (s.session i).work :=
  (recompute_divides s).work i

@[simp] theorem recompute_prog (s : State) (i : SessionId) : ((recompute s).session i).prog = (s.session i).prog :=
  (recompute_divides s).prog i

/-! ### WINDOW -/

theorem clampedHi_eq (n : Nat) (hi : BitVec 3) : clampedHi n hi = min hi.toNat (n - 1) := by
  unfold clampedHi
  split <;> omega

theorem clampedLo_eq (hi : Nat) (lo : BitVec 3) : clampedLo hi lo = min lo.toNat hi := by
  unfold clampedLo
  split <;> omega

theorem clampRung_eq {p : Programmed} (h : p.lo ≤ p.hi) (rung : Nat) :
    clampRung p rung = min p.hi (max p.lo rung) :=
  clampTo_eq h rung

/-- The window a WINDOW writes (R28), each value clamped by a minimum or a maximum. -/
theorem windowedBy_eq (f : WindowFields) (p : Programmed) : windowedBy f p = { p with
    lo := min f.lo.toNat (min f.hi.toNat (p.ladder.length - 1))
    hi := min f.hi.toNat (p.ladder.length - 1)
    weight := max 1 f.weight.toNat } := by
  simp only [windowedBy, clampedHi_eq, clampedLo_eq, clampedWeight]

/-- Settles O30: the recompute changes nothing that the answer reads but the shares. -/
theorem windowActsByState : Obligations.WindowActsByState := by
  intro tag i f s hready x hi lo y u answer
  have taken : ∀ t, x.work.state ≠ .closed → takeWindow i u = t → answer t := by
    rintro t hopen rfl
    have effect : windowEffect i f s = takeWindow i u := by
      show takeWindow i (recompute (s.setSession i { x with prog := windowedBy f x.prog })) = _
      rw [windowedBy_eq]
    exact exec_sessionOrder_taken (o := .window f) (slot := none) hready rfl (if_neg hopen) rfl
      (congrArg (·, none) effect)
  have own : u.session i = { y with share := (u.session i).share } := by
    simpa using (recompute_divides (s.setSession i y)).session i
  have work : (u.session i).work = x.work := by rw [own]
  have prog : (u.session i).prog = y.prog := by rw [own]
  have advice : (u.session i).advice = x.advice := by rw [own]
  refine ⟨fun h => ?_, fun h => ?_, fun h => ?_, fun h => ?_⟩
  · exact taken _ (by simp [h]) (by simp only [takeWindow, work, h])
  · rcases h with h | h <;> exact taken _ (by simp [h]) (by simp only [takeWindow, work, h])
  · exact taken _ (by simp [h]) (by simp only [takeWindow, work, h, publishLo, prog]; rfl)
  · have inside : clampRung y.prog x.advice.rung = min hi (max lo x.advice.rung) := clampRung_eq (Nat.min_le_right ..) _
    refine taken _ (by simp [h]) ?_
    simp only [takeWindow, work, h, prog, advice, inside]
    rfl

/-! ### RESUME -/

/-- A probe whose bounds have not met goes on at their midpoint (R145, R172). -/
theorem continueProbe_apart {i : SessionId} {reason : Reason} {s : State} (h : (s.session i).work.state = .probing)
    (hab : (s.session i).work.a ≠ (s.session i).work.b) :
    continueProbe i reason s = publish i (probeMidpoint (s.session i).work.a (s.session i).work.b) reason s := by
  have same : s.setWork i { (s.session i).work with state := .probing } = s := by
    rw [← h]
    exact setSession_session s i
  simp only [continueProbe, if_neg hab, same]

/-- Settles O32: with a STALLED record `resumeToFallback`, with none the resume mode's own answer; the recompute changes nothing
that the answer reads but the shares. -/
theorem resumeByStallOrMode : Obligations.ResumeByStallOrMode := by
  intro tag i s hready hp x w left answer back
  have taken : ∀ t, resumeEffect i s = t → answer t := by
    rintro t rfl
    exact exec_sessionOrder_taken (o := .resume) (slot := none) hready rfl (by simp [stateCause, stateMust, hp]) rfl rfl
  have prog : ∀ v, ((recompute (s.setWork i v)).session i).prog = x.prog := fun v => by simp [x]
  have work : (back.session i).work = { w with state := w.prePause } := by simp [back]
  refine ⟨fun stalled => taken _ ?_, fun unstalled => ?_⟩
  · rw [resumeEffect, if_pos (hasStalled_iff.2 stalled), resumeToFallback, publishLo, prog]
  have byMode : resumeEffect i s = resumeByMode i s := by
    refine if_neg fun h => ?_
    obtain ⟨k, r, hr, hi, hs⟩ := hasStalled_iff.1 h
    exact unstalled k r hr hi hs
  have held : x.prog.resumeMode = .hold → resumeEffect i s = resumeHeld i back := fun hm => by
    rw [byMode, resumeByMode]
    simp only [show (s.session i).prog.resumeMode = _ from hm]
    rfl
  refine ⟨fun hm => taken _ ?_, fun hm => taken _ ?_, fun hm hb => taken _ ?_, fun hm hb => taken _ ?_,
    fun hm hb => taken _ ?_, fun hm hb hlt => taken _ ?_, fun hm hb heq => taken _ ?_⟩
  · rw [byMode, resumeByMode]
    simp only [show (s.session i).prog.resumeMode = _ from hm, publishLo, prog]
    rfl
  · rw [byMode, resumeByMode]
    simp only [show (s.session i).prog.resumeMode = _ from hm]
    rfl
  · simp only [held hm, resumeHeld, work, hb]
  · simp only [held hm, resumeHeld, work, hb]
  · have same : (back.session i).prog = x.prog := prog _
    simp only [held hm, resumeHeld, work, hb, publishLo, same]
  · have probing : (back.session i).work.state = .probing := by rw [work, hb]
    have goesOn := continueProbe_apart (reason := .resume) probing (by rw [work]; exact hlt.ne)
    simp only [held hm, resumeHeld, goesOn, work, hb]
    rfl
  · simp only [held hm, resumeHeld, continueProbe, work, hb, heq, if_true]

/-! ### RECOVER -/

/-- Starting a probe advises the midpoint of the window, which is lo where lo is hi (R169). -/
theorem startProbe_rung (i : SessionId) (reason : Reason) (s : State) :
    ((startProbe i reason s).session i).advice.rung = probeMidpoint (s.session i).prog.lo (s.session i).prog.hi := by
  unfold startProbe
  simp only
  split
  · next e => simp [convergeProbe, postProbeDone, publish_session, probeMidpoint, e]
  · simp [publish_session]

/-- Settles O33: RECOVERED carries the recover mode, which stays, and the rung the mode's own publication advises. -/
theorem recoverByMode : Obligations.RecoverByMode := by
  intro tag i s hready hf hlo x steady answer rung
  have taken : ∀ mode rung t, (s.session i).prog.recoverMode.code = mode → Governs i s t →
      (t.session i).advice.rung = rung → recoverSession i s = postRecovered i t → answer mode rung t := by
    rintro mode rung t rfl governs rfl hr
    have effect : orderEffect tag i .recover s = (postRecovered i t, none) := congrArg (·, none) hr
    rw [postRecovered, governs.prog] at effect
    exact exec_sessionOrder_taken hready rfl (by simp [stateCause, stateMust, hf]) rfl effect
  have begun : Governs i s steady := setWork_governs ..
  have inside : clampRung x.prog x.work.preFallback = rung := clampRung_eq hlo _
  refine ⟨fun hm => ?_, fun hm => ?_, fun hm => ?_⟩
  · refine taken _ _ _ (by rw [hm]; rfl) (begun.trans (publish_governs ..)) (by rw [publish_session]) ?_
    simp only [recoverSession, show (s.session i).prog.recoverMode = _ from hm]
    rw [inside]
  · refine taken _ _ _ (by rw [hm]; rfl) (begun.trans (publish_governs ..)) (by rw [publish_session]) ?_
    simp only [recoverSession, show (s.session i).prog.recoverMode = _ from hm]
    rfl
  · refine taken _ _ _ (by rw [hm]; rfl) (begun.trans (startProbe_governs ..)) ?_ ?_
    · have prog : (steady.session i).prog = x.prog := begun.prog
      rw [startProbe_rung, prog]
      rfl
    · simp only [recoverSession, show (s.session i).prog.recoverMode = _ from hm]
      rfl

end Sys2Proof.Machine
end

section
/-! PROOFS. The orders that start and announce, OPEN and FETCH, and those that free records, ABORT and RESET. -/

namespace Sys2Proof.Machine

/-! ### FETCH -/

theorem announcedKind_eq (f : FetchFields) : announcedKind f =
    if f.duration.toNat ≠ 0 then .media f.rung.toNat (min 20000 (max 100 f.duration.toNat)) else .other := by
  rw [announcedKind, clampTo_eq (by decide), ite_not]

theorem withinReach_eq (next : Serial) (position : Option Serial) :
    withinReach next position = position.filter fun p => decide ((next - p).toNat ≠ 32768) := by
  cases position with
  | none => rfl
  | some p =>
    show (if (next - p).toNat = 32768 then none else some p) = if decide _ = true then some p else none
    simp only [decide_eq_true_eq, ne_eq, ite_not]

/-- The lowest free slot is the first of the free slots. -/
theorem freeSlots_head {s : State} {k : Slot} (free : s.slot k = none) (lower : ∀ j, j < k → s.slot j ≠ none) :
    (freeSlots s).head? = some k := by
  have ascending : (freeSlots s).Pairwise (· < ·) := (List.pairwise_lt_finRange 16).filter _
  have mem : k ∈ freeSlots s := mem_freeSlots.2 free
  cases h : freeSlots s with
  | nil => simp [h] at mem
  | cons j rest =>
    rw [h] at ascending mem
    rcases List.mem_cons.1 mem with rfl | later
    · rfl
    · have first : s.slot j = none := mem_freeSlots.1 (h ▸ List.mem_cons_self)
      exact absurd first (lower j ((List.pairwise_cons.1 ascending).1 k later))

/-- Settles O35: the slot is the first of the free ones, and each field of the record and of the session is its rule's own. -/
theorem fetchFillsTheLowestFreeSlot : Obligations.FetchFillsTheLowestFreeSlot := by
  intro tag i f k s hready hopen hc free lower x media rung record work
  have announced : announcedRecord i f s = record := by
    simp only [announcedRecord, announcedKind_eq]
    rfl
  have session : announceTo (announcedKind f) x = { x with
      nextSerial := x.nextSerial + 1
      position := x.position.filter fun p => decide ((x.nextSerial + 1 - p).toNat ≠ 32768)
      work := work } := by
    by_cases hm : f.duration.toNat = 0
    · simp [announceTo, announcedKind_eq, withinReach_eq, work, media, hm]
    · simp [announceTo, announcedKind_eq, withinReach_eq, work, media, hm]
      exact ⟨rfl, rfl⟩
  have effect : orderEffect tag i (.fetch f) s = ((s.setSlot k (some record)).setSession i { x with
      nextSerial := x.nextSerial + 1
      position := x.position.filter fun p => decide ((x.nextSerial + 1 - p).toNat ≠ 32768)
      work := work }, some k) := by
    rw [← session, ← announced]
    simp only [orderEffect, fetchEffect, freeSlots_head free lower]
    rfl
  exact exec_sessionOrder_taken (o := .fetch f) hready rfl (if_neg hopen) hc effect

/-! ### OPEN -/

theorem programmedOf_eq (f : OpenFields) : programmedOf f =
    { ladder := f.ladder.map (·.toNat)
      lo := min f.lo.toNat (min f.hi.toNat (f.ladder.length - 1))
      hi := min f.hi.toNat (f.ladder.length - 1)
      weight := max 1 f.weight.toNat
      upCount := min 8 (max 1 f.upCount.toNat)
      clip := if f.stop then .stop else .clamp
      recoverMode := modeOf f.recoverMode
      autoRecover := f.autoRecover.toNat
      resumeMode := modeOf f.resumeMode
      consumerTag := f.consumerTag
      panic := f.panic.toNat
      comfort := max f.panic.toNat f.comfort.toNat } := by
  simp only [programmedOf, clampedHi_eq, clampedLo_eq, clampedWeight, clampTo_eq (show 1 ≤ 8 by decide)]

theorem seedValue_eq (seed : Word) : seedValue seed = min 16777215 (max 1 seed.toNat) := clampTo_eq (by decide) _

/-- A window of one rung has lo for its midpoint, so the first rung is the midpoint whenever no seed is given (R133). -/
theorem firstRung_none {p : Programmed} (safety : Nat) (h : p.lo ≤ p.hi) :
    firstRung p safety none = p.lo + (p.hi - p.lo + 1) / 2 := by
  simp only [firstRung, probeMidpoint]
  split <;> omega

/-- The link estimate that a seed gives: both estimates are 16 times it (R107, R109). -/
theorem takeSeed_eq {m : Meter} (h : m.set = false) (v : Nat) : takeSeed v m = { m with
    vFast := 16 * v, vSlow := 16 * v, set := true, link := some (16 * v * m.safety / 4096) } := by
  simp [takeSeed, h, withLink, linkEstimate]

/-- BAD_LADDER of an OPEN, on the rungs as written (R26). -/
theorem badLadder_rungs (ladder : List (BitVec 24)) : badLadder (ladder.map (·.toNat)) = true ↔
    ¬ ((∀ r ∈ ladder, r ≠ 0) ∧ ladder.Pairwise fun r r' => r.toNat < r'.toNat) := by
  have zero : ∀ r : BitVec 24, r.toNat ≠ 0 ↔ r ≠ 0 := fun r => by simp [BitVec.toNat_eq]
  rw [badLadder_iff, List.forall_mem_map, List.pairwise_map]
  simp only [zero]

/-- Where the stages before it pass, an order's content decides whether it is refused (R21). -/
theorem refusalCause_eq_contentCause {i : SessionId} {o : Order} {s : State} (length : lengthCause o = none)
    (state : stateCause i o s = none) : refusalCause (sessionField i) o s = contentCause i o s := by
  simp [refusalCause, numberCause_sessionField, length, state]

/-- An order of a session is refused with what its content stage finds, when the stages before it pass. -/
theorem exec_sessionOrder_refused {tag : Tag} {i : SessionId} {o : Order} {s : State} {cause : Cause} (h : Ready tag s)
    (length : lengthCause o = none) (state : stateCause i o s = none) (content : contentCause i o s = some cause) :
    exec (orderCommand tag (sessionField i) o) s = .next (refusedWith o.kind (sessionField i) cause s) := by
  obtain ⟨refused, -, -⟩ := ordersRefusedUnseenOrTruncating tag (sessionField i) o s
  exact refused cause h ((refusalCause_eq_contentCause length state).trans content)

/-- Settles O28: BAD_LADDER by `badLadder_rungs`; taken, each part of the opened session is its rule's own. -/
theorem openStartsASession : Obligations.OpenStartsASession := by
  refine ⟨⟨rfl, rfl, rfl, rfl⟩, ?_⟩
  intro tag i f s hready hclosed h1 h8 lawful n hi lo prog seed rung state session metered opened
  have length : lengthCause (.openSession f) = none := if_pos ⟨h1, h8⟩
  have closed : stateCause i (.openSession f) s = none := if_pos hclosed
  refine ⟨fun bad => ?_, fun good => ?_⟩
  · exact exec_sessionOrder_refused (o := .openSession f) hready length closed (if_pos ((badLadder_rungs f.ladder).2 bad))
  have programmed : programmedOf f = prog := programmedOf_eq f
  have seeded : f.seed.map seedValue = seed := by
    simp only [seed, funext seedValue_eq]
  have window : lo ≤ hi := Nat.min_le_right ..
  have first : firstRung prog s.meter.safety seed = rung := by
    cases h : seed with
    | none => simp only [rung, h]; exact firstRung_none s.meter.safety window
    | some v => simp only [rung, h]; rfl
  have started : firstState prog seed = state := by
    simp only [firstState, state, Bool.and_eq_true, Option.isNone_iff_eq_none, decide_eq_true_eq]
    rfl
  have begun : openedSession prog s.meter.safety seed s.timebase.tick = session := by
    simp only [openedSession, first, started]
    rfl
  have meter : seedMeter seed s = metered := by
    simp only [seedMeter, metered]
    cases seed with
    | none => rfl
    | some v =>
      by_cases hs : s.meter.set = true
      · simp only [hs, if_true]
      · simp [hs, takeSeed_eq (Bool.eq_false_iff.2 hs)]
  have effect : openEffect i f s
      = if seed = none ∧ lo = hi then post .probeDone (sessionField i) 0 (BitVec.ofNat 32 lo) 0 opened else opened := by
    simp only [openEffect, programmed, seeded, begun, meter, Bool.and_eq_true, Option.isNone_iff_eq_none, beq_iff_eq]
    rfl
  exact exec_sessionOrder_taken (o := .openSession f) (slot := none) hready length closed
    (if_neg fun bad => (badLadder_rungs f.ladder).1 bad good) (congrArg (·, none) effect)

end Sys2Proof.Machine
end

section
/-! PROOFS. The orders that free records, ABORT and RESET, and the stages that refuse an order: the session's number
and state, and the content of a FETCH. -/

namespace Sys2Proof.Machine

/-! ### ABORT -/

/-- Settles O36: a record of the base is what the content stage looks for, and freeing is `freeWhere_spec` with its parts
(`freeWhere_reads`). -/
theorem abortFreesTheRecord : Obligations.AbortFreesTheRecord := by
  refine ⟨fun tag i base k r s hready hopen hr hi hb => ?_, fun tag i base s hready hopen others => ?_, fun p s => ?_⟩
  · have found : (recordsOf s i).any (matchesBase i base.toNat) = true :=
      List.any_eq_true.2 ⟨r, mem_recordsOf.2 ⟨k, hr, hi⟩, by simp [matchesBase, hi, hb]⟩
    exact exec_sessionOrder_taken (o := .abort base) (t := abortEffect i base.toNat s) (slot := none) hready rfl
      (if_neg hopen) (if_pos found) rfl
  · have missing : ¬ (recordsOf s i).any (matchesBase i base.toNat) = true := by
      intro h
      obtain ⟨r, hm, hb⟩ := List.any_eq_true.1 h
      obtain ⟨k, hr, hi⟩ := mem_recordsOf.1 hm
      simp only [matchesBase, Bool.and_eq_true, beq_iff_eq] at hb
      exact others k r hr hi hb.2
    exact exec_sessionOrder_refused (o := .abort base) hready rfl (if_neg hopen) (if_neg missing)
  · obtain ⟨frees, slots, arrivals⟩ := freeWhere_spec p s
    exact ⟨slots, arrivals, freeWhere_reads p s, frees.eq⟩

/-! ### RESET -/

/-- What RESET frees (R37, R75): every record, with the standing of every arrival for one and of every part. -/
theorem freeAll_eq (s : State) : dropParts (fun _ => true) (freeWhere (fun _ => true) s) = { s with
    inFlight :=
      { orderWords := s.inFlight.orderWords
        arrivals := s.inFlight.arrivals.map fun a => if s.slot a.slot = none then a else { a with standing := false }
        consumerReads := s.inFlight.consumerReads.map (List.map fun c => { c with standing := false }) }
    tracker := { s.tracker with table := Vector.replicate 16 none } } := by
  obtain ⟨frees, slots, arrivals⟩ := freeWhere_spec (fun _ => true) s
  have reads := freeWhere_reads (fun _ => true) s
  have table : (freeWhere (fun _ => true) s).tracker.table = Vector.replicate 16 none :=
    table_ext fun k => by
      have free := slots k
      rw [State.slot] at free
      simp [free]
  have held : ∀ o : Option FetchRecord, o.any (fun _ => true) = true ↔ o ≠ none := fun o => by cases o <;> simp
  have arrived : (freeWhere (fun _ => true) s).inFlight.arrivals = s.inFlight.arrivals.map fun a =>
      if s.slot a.slot = none then a else { a with standing := false } := by
    simp only [arrivals, held, ne_eq, ite_not]
  have dropped : (freeWhere (fun _ => true) s).inFlight.consumerReads.map
      (List.map fun c => if true then { c with standing := false } else c)
        = s.inFlight.consumerReads.map (List.map fun c => { c with standing := false }) := by
    rw [reads, List.map_map]
    refine List.map_congr_left fun parts _ => ?_
    rw [Function.comp, List.map_map]
    refine List.map_congr_left fun c _ => ?_
    show (c.freedIf _).freedIf (fun _ => true) = _
    rw [freedIf_freedIf fun _ => rfl]
    simp [ConsumerPart.freedIf]
  rw [dropParts, mapParts, dropped, frees.eq, table, arrived]

/-- Settles O38: RESET has no check, and frees as `freeAll_eq` says. -/
theorem resetKeepsTheSettings : Obligations.ResetKeepsTheSettings := by
  intro tag field s hready
  have taken := exec_orderCommand_taken (o := .reset) (field := field) hready rfl
  simp only [orderEffect, resetEffect, freeAll_eq] at taken
  exact taken

/-! ### The session stages -/

theorem anyOpen_iff (s : State) : s.sessions.toList.any isOpen = true ↔ ∃ j, (s.session j).work.state ≠ .closed := by
  rw [List.any_eq_true]
  constructor
  · rintro ⟨x, hx, ho⟩
    obtain ⟨n, hn, rfl⟩ := List.mem_iff_getElem.1 hx
    exact ⟨⟨n, by simpa using hn⟩, by simpa [State.session, isOpen] using ho⟩
  · rintro ⟨j, hj⟩
    exact ⟨s.session j, by simp [State.session], by simpa [isOpen] using hj⟩

/-- An order that needs a session and whose kind has one state for it (R23). -/
theorem stateMust_eq (needed st : SessionState) : stateMust (· == needed) st =
    if st = .closed then some .noSession else if st ≠ needed then some .wrongState else none := by
  simp only [stateMust, beq_iff_eq, ne_eq, ite_not]

/-- Settles O25: the kinds of one row have one state stage, and a stage that passes hands on to the next. -/
theorem sessionStateStage : Obligations.SessionStateStage := by
  intro i field s st
  refine ⟨fun f => ⟨?_, ?_, rfl⟩, fun f => rfl, fun f g base o ho => ?_, fun m => ?_, stateMust_eq .., stateMust_eq ..,
    stateMust_eq .., fun o ho => ?_, fun e f g base m o ho => ?_, fun o cause hl hn => ?_, fun o cause hl hs => ?_,
    fun hle => ?_, fun o cause hl hn hs => ?_⟩
  · rw [← anyOpen_iff]
    simp [stateCause]
  · rw [← not_iff_not, not_forall, ← anyOpen_iff]
    simp [stateCause]
  · simp only [List.mem_cons, List.not_mem_nil, or_false] at ho
    rcases ho with rfl | rfl | rfl | rfl | rfl <;> rfl
  · simp only [stateCause, stateMust, bne_iff_ne, ne_eq, ite_not]
    rfl
  · simp only [List.mem_cons, List.not_mem_nil, or_false] at ho
    rcases ho with rfl | rfl <;> exact ⟨rfl, rfl⟩
  · have needs : needsSession o = true := by
      simp only [List.mem_cons, List.not_mem_nil, or_false] at ho
      rcases ho with rfl | rfl | rfl | rfl | rfl | rfl | rfl | rfl | rfl | rfl <;> rfl
    simp [numberCause, needs]
  · simp [refusalCause, hl, hn]
  · simp [refusalCause, hl, numberCause_sessionField, hs]
  · exact Nat.mod_eq_of_lt (by omega)
  · simp [refusalCause, hl, hn, hs]

/-! ### The content of a FETCH -/

/-- Two ranges that are not empty meet where they share an address (R34). -/
theorem rangesMeet_iff {base size base' size' : Nat} (h : 1 ≤ size) (h' : 1 ≤ size') :
    rangesMeet base size base' size' = true ↔ ∃ a, base ≤ a ∧ a < base + size ∧ base' ≤ a ∧ a < base' + size' := by
  rw [rangesMeet, Bool.and_eq_true, decide_eq_true_eq, decide_eq_true_eq]
  constructor
  · intro hm
    exact ⟨max base base', by omega⟩
  · rintro ⟨a, ha⟩
    omega

/-- BAD_RANGE (R34): a misaligned base, an empty or too large size, or a range past the channel or in the page. -/
theorem badRange_iff (base size page : Nat) : badRange base size page = true ↔
    base % 16 ≠ 0 ∨ size = 0 ∨ 67108864 < size ∨ 2 ^ 36 < base + size
      ∨ ∃ a, base ≤ a ∧ a < base + size ∧ page ≤ a ∧ a < page + 4096 := by
  simp only [badRange, Bool.or_eq_true, bne_iff_ne, beq_iff_eq, decide_eq_true_eq, or_assoc]
  rcases Nat.eq_zero_or_pos size with rfl | hp
  · simp
  · rw [rangesMeet_iff hp (by decide)]
    rfl

/-- OVERLAP (R34), where no tracked range is empty (R49, R76). -/
theorem meetsTracked_iff {base size : Nat} {s : State} (ok : TrackingOk s) (h : 1 ≤ size) :
    meetsTracked base size s = true ↔
      (∃ k r a, s.slot k = some r ∧ base ≤ a ∧ a < base + size ∧ r.base ≤ a ∧ a < r.base + r.size)
        ∨ ∃ j, ∃ g ∈ (s.session j).held, ∃ a, base ≤ a ∧ a < base + size ∧ g.base ≤ a ∧ a < g.base + g.size := by
  obtain ⟨records, held, -⟩ := ok
  have recordSize : ∀ {k r}, s.slot k = some r → 1 ≤ r.size := fun {k r} hr => by
    obtain ⟨⟨⟨size, -⟩, -⟩, -⟩ := records k r hr
    exact size
  have heldSize : ∀ {j g}, g ∈ (s.session j).held → 1 ≤ g.size := fun {j g} hg => by
    obtain ⟨⟨size, -⟩, -⟩ := held j g hg
    exact size
  simp only [meetsTracked, Bool.or_eq_true, List.any_eq_true, List.mem_finRange, true_and, Option.any_eq_true]
  refine or_congr (exists_congr fun k => ?_) (exists_congr fun j => exists_congr fun g => and_congr_right fun hg => ?_)
  · refine exists_congr fun r => ?_
    constructor
    · rintro ⟨hr, hm⟩
      obtain ⟨a, ha⟩ := (rangesMeet_iff h (recordSize hr)).1 hm
      exact ⟨a, hr, ha⟩
    · rintro ⟨a, hr, ha⟩
      exact ⟨hr, (rangesMeet_iff h (recordSize hr)).2 ⟨a, ha⟩⟩
  · exact rangesMeet_iff h (heldSize hg)

theorem freeSlots_isEmpty_iff (s : State) : (freeSlots s).isEmpty = true ↔ ∀ k, s.slot k ≠ none := by
  simp only [List.isEmpty_iff, List.eq_nil_iff_forall_not_mem, mem_freeSlots, ne_eq]

/-- Settles O26: the first of the five checks that fails names the cause. -/
theorem fetchContentChecks : Obligations.FetchContentChecks := by
  intro i f s ok base size bad rung meets full list
  refine ⟨fun hopen => refusalCause_eq_contentCause rfl (if_neg hopen), ?_⟩
  have range : badRange base size (pageBase s) = true ↔ bad := badRange_iff ..
  have table : (freeSlots s).isEmpty = true ↔ full := freeSlots_isEmpty_iff s
  by_cases hbad : bad
  · have cause : fetchCause i f s = some .badRange := if_pos (range.2 hbad)
    simp [cause, hbad]
  have overlap : meetsTracked base size s = true ↔ meets :=
    meetsTracked_iff ok (Nat.one_le_iff_ne_zero.2 fun h => hbad (.inr (.inl h)))
  have afterRange : fetchCause i f s = _ := if_neg (mt range.1 hbad)
  by_cases hrung : rung
  · have cause : fetchCause i f s = some .badRung := afterRange.trans (if_pos hrung)
    simp [cause, hbad, hrung]
  have afterRung := afterRange.trans (if_neg hrung)
  by_cases hmeets : meets
  · have cause : fetchCause i f s = some .overlap := afterRung.trans (if_pos (overlap.2 hmeets))
    simp [cause, hbad, hrung, hmeets]
  have afterOverlap := afterRung.trans (if_neg (mt overlap.1 hmeets))
  by_cases hfull : full
  · have cause : fetchCause i f s = some .tableFull := afterOverlap.trans (if_pos (table.2 hfull))
    simp [cause, hbad, hrung, hmeets, hfull]
  have afterTable := afterOverlap.trans (if_neg (mt table.1 hfull))
  by_cases hlist : list
  · have cause : fetchCause i f s = some .listFull := afterTable.trans (if_pos hlist)
    simp [cause, hbad, hrung, hmeets, hfull, hlist]
  · have cause : fetchCause i f s = none := afterTable.trans (if_neg hlist)
    simp [cause, hbad, hrung, hmeets, hfull, hlist]

end Sys2Proof.Machine
end

section
/-! PROOFS. The words of an order are the order: each field is read at the bits R194 gives it (R14, R194). -/

namespace Sys2Proof

/-! ### The header -/

theorem headerKind_append (kind : BitVec 8) (session length : BitVec 4) (ignored : BitVec 16) :
    headerKind (ignored ++ length ++ session ++ kind) = kind := by
  simp (disch := decide) only [headerKind, extract_low, extract_all]

theorem headerSession_append (kind : BitVec 8) (session length : BitVec 4) (ignored : BitVec 16) :
    headerSession (ignored ++ length ++ session ++ kind) = session := by
  simp (disch := decide) only [headerSession, extract_low, extract_high, extract_all, Nat.reduceSub]

theorem headerLength_append (kind : BitVec 8) (session length : BitVec 4) (ignored : BitVec 16) :
    headerLength (ignored ++ length ++ session ++ kind) = length.toNat := by
  simp (disch := decide) only [headerLength, extract_low, extract_high, extract_all, Nat.reduceSub]

/-! ### The bodies -/

theorem decodeSetup_append (f : SetupFields) (z : BitVec 1) (y : BitVec 3) (x : BitVec 8) :
    decodeSetup (f.orderTags ++ f.arrivalTags) (f.window ++ f.divider) (f.minProbe ++ f.safety) (f.tGap ++ f.tFirst)
      (x ++ f.kSlow ++ f.kFast ++ y ++ f.mask ++ z) = f := by
  simp (disch := decide) only [decodeSetup, extract_low, extract_high, extract_all, Nat.reduceSub]

theorem decodeWindow_append (f : WindowFields) (z : BitVec 8) (y x : BitVec 1) (w : BitVec 8) :
    decodeOrder 0x04 [w ++ f.weight ++ x ++ f.hi ++ y ++ f.lo ++ z] = .ok (.window f) := by
  show Except.ok (Order.window { lo := _, hi := _, weight := _ }) = _
  simp (disch := decide) only [extract_low, extract_high, extract_all, Nat.reduceSub]

theorem decodePause_append (measure : Bool) (z : BitVec 31) :
    decodeOrder 0x05 [z ++ BitVec.ofBool measure] = .ok (.pause measure) := by
  show Except.ok (Order.pause (BitVec.getLsbD _ 0)) = _
  simp (disch := decide) only [bit_low, BitVec.getLsbD_ofBool]
  simp

theorem decodeFetch_append (low size : Word) (high rung : BitVec 4) (duration : BitVec 16) (z : BitVec 28) (y : BitVec 12) :
    decodeOrder 0x09 [low, z ++ high, size, duration ++ y ++ rung]
      = .ok (.fetch { base := high ++ low, rung := rung, size := size, duration := duration }) := by
  show Except.ok (Order.fetch { base := _ ++ _, rung := _, size := _, duration := _ }) = _
  simp (disch := decide) only [extract_low, extract_high, extract_all, Nat.reduceSub]

theorem decodeAbort_append (low : Word) (high : BitVec 4) (z : BitVec 28) :
    decodeOrder 0x0A [low, z ++ high] = .ok (.abort (high ++ low)) := by
  show Except.ok (Order.abort (_ ++ _)) = _
  simp (disch := decide) only [extract_low, extract_all]

/-- Each rung is read from its word, whatever stands above it. -/
theorem rungs_append {tops : List (BitVec 8)} {ladder : List (BitVec 24)} (h : tops.length = ladder.length) :
    (List.zipWith (fun top rate => (top ++ rate : Word)) tops ladder).map (·.extractLsb' 0 24) = ladder := by
  induction tops generalizing ladder with
  | nil =>
    cases ladder with
    | nil => rfl
    | cons r ladder => simp at h
  | cons top tops ih =>
    cases ladder with
    | nil => simp at h
    | cons r ladder =>
      rw [List.zipWith_cons_cons, List.map_cons, ih (by simpa using h), extract_low _ _ _ _ (by decide), extract_all]

theorem decodeOpen_append (f : OpenFields) (z y : BitVec 1) (x : BitVec 2) (w : BitVec 8) (v : BitVec 16)
    (tops : List (BitVec 8)) (h1 : 1 ≤ f.ladder.length) (h8 : f.ladder.length ≤ 8) (ht : tops.length = f.ladder.length) :
    decodeOpen ([x ++ f.resumeMode ++ f.upCount ++ f.weight ++ y ++ f.hi ++ z ++ f.lo ++ f.recoverMode
          ++ BitVec.ofBool f.stop ++ BitVec.ofBool f.seed.isSome ++ BitVec.ofNat 4 f.ladder.length,
        w ++ f.autoRecover ++ f.consumerTag ++ f.panic, v ++ f.comfort]
        ++ List.zipWith (fun top rate => top ++ rate) tops f.ladder ++ f.seed.toList) = .ok f := by
  have count : (BitVec.ofNat 4 f.ladder.length).toNat = f.ladder.length := by
    rw [BitVec.toNat_ofNat]
    exact Nat.mod_eq_of_lt (by omega)
  have bit : ∀ b, (BitVec.ofBool b).getLsbD 0 = b := by decide
  have rungs := rungs_append ht
  have length : (List.zipWith (fun top rate => (top ++ rate : Word)) tops f.ladder).length = f.ladder.length := by
    rw [List.length_zipWith, ht, Nat.min_self]
  simp (disch := decide) only [decodeOpen, extract_low, extract_high, extract_all, Nat.reduceSub, bit_low, bit_high,
    List.cons_append, List.nil_append, count, bit]
  generalize List.zipWith (fun top rate => (top ++ rate : Word)) tops f.ladder = words at rungs length
  have seed : f.seed.toList.length = if f.seed.isSome = true then 1 else 0 := by cases f.seed <;> rfl
  have last : (if f.seed.isSome = true then (words ++ f.seed.toList)[f.ladder.length]? else none) = f.seed := by
    rw [List.getElem?_append_right (by omega), length, Nat.sub_self]
    cases f.seed <;> rfl
  rw [if_pos ⟨h1, h8, by rw [List.length_append, length, seed]⟩, last, List.take_left' length, rungs]

/-! ### Every kind -/

theorem base_halves (base : BitVec 36) : base.extractLsb' 32 4 ++ base.extractLsb' 0 32 = base := by
  rw [BitVec.extractLsb'_append_extractLsb'_eq_extractLsb' (by decide)]
  exact extract_all base

theorem body_length (o : Order) (h : Machine.orderFits o = true) : o.body.length ≤ 12 := by
  cases o with
  | openSession f =>
    simp only [Machine.orderFits, Bool.and_eq_true, decide_eq_true_eq] at h
    have seed : f.seed.toList.length ≤ 1 := by cases f.seed <;> simp
    simp only [Order.body, List.length_append, List.length_map, List.length_cons, List.length_nil]
    omega
  | setup f => exact (by decide : 5 ≤ 12)
  | window f => exact (by decide : 1 ≤ 12)
  | pause m => exact (by decide : 1 ≤ 12)
  | fetch f => exact (by decide : 4 ≤ 12)
  | abort base => exact (by decide : 2 ≤ 12)
  | closeSession | resume | recover | continueRung | flush | reset | reacquire => exact Nat.zero_le _

/-- The words of an order, every ignored bit zero, are read as that order. -/
theorem decodeOrder_body (o : Order) (h : Machine.orderFits o = true) : decodeOrder o.kind o.body = .ok o := by
  cases o with
  | setup f => exact congrArg (Except.ok ∘ Order.setup) (decodeSetup_append f ..)
  | openSession f =>
    simp only [Machine.orderFits, Bool.and_eq_true, decide_eq_true_eq] at h
    have body := decodeOpen_append f 0 0 0 0 0 (f.ladder.map fun _ => 0#8) h.1 h.2 (List.length_map ..)
    rw [List.zipWith_map_left, List.zipWith_self] at body
    exact congrArg (Except.map Order.openSession) body
  | window f => exact decodeWindow_append ..
  | pause m => exact decodePause_append ..
  | fetch f =>
    refine (decodeFetch_append ..).trans ?_
    rw [base_halves]
  | abort base =>
    refine (decodeAbort_append ..).trans ?_
    rw [base_halves]
  | closeSession => rfl
  | resume => rfl
  | recover => rfl
  | continueRung => rfl
  | flush => rfl
  | reset => rfl
  | reacquire => rfl

/-- The three fields of an order's header (R14, R194). -/
theorem header_fields (field : BitVec 4) (o : Order) (h : Machine.orderFits o = true) :
    headerKind (o.header field) = o.kind ∧ headerSession (o.header field) = field
      ∧ headerLength (o.header field) = o.body.length := by
  refine ⟨headerKind_append .., headerSession_append .., (headerLength_append ..).trans ?_⟩
  have := body_length o h
  rw [BitVec.toNat_ofNat]
  exact Nat.mod_eq_of_lt (by omega)

namespace Machine

/-- Settles O22: every field stands at its bits, in the header and in each kind's body. -/
theorem decodeOfEncodedOrder : Obligations.DecodeOfEncodedOrder := by
  refine ⟨fun field o h => ?_, fun kind session length ignored =>
      ⟨headerKind_append .., headerSession_append .., headerLength_append ..⟩,
    fun f z y x => congrArg (Except.ok ∘ Order.setup) (decodeSetup_append f z y x),
    fun f z y x w v tops h1 h8 ht => congrArg (Except.map Order.openSession) (decodeOpen_append f z y x w v tops h1 h8 ht),
    decodeWindow_append, decodePause_append, decodeFetch_append, decodeAbort_append⟩
  obtain ⟨kind, session, length⟩ := header_fields field o h
  exact ⟨by rw [kind]; exact decodeOrder_body o h, session, length⟩

end Machine

end Sys2Proof
end

section
/-! PROOFS. Order words one by one: how a record is framed, judged at its check word, and so is the order given whole. -/

namespace Sys2Proof.Machine

/-- The state with other order words in flight. -/
def State.withWords (s : State) (words : List OrderWord) : State :=
  { s with inFlight := { s.inFlight with orderWords := words } }

@[simp] theorem withWords_assembler (s : State) (words : List OrderWord) :
    (s.withWords words).assembler = s.assembler := rfl

theorem isHeader_iff (w : OrderWord) : w.isHeader = true ↔ w.whole = true ∧ w.offset = 0 := by
  simp [OrderWord.isHeader]

section front
variable {w : OrderWord} {rest : List OrderWord} {s : State}

theorem dropOrderWord_cons (h : s.inFlight.orderWords = w :: rest) : dropOrderWord s = s.withWords rest := by
  rw [dropOrderWord, h]
  rfl

/-- ORDER_HEADER_WORD takes the next word in flight, if it starts a record (R16). -/
theorem exec_orderHeaderWord (h : s.inFlight.orderWords = w :: rest) (whole : w.whole = true) (offset : w.offset = 0) :
    exec .orderHeaderWord s = .next (takeHeaderWord w (s.withWords rest)) := by
  have starts := (isHeader_iff w).2 ⟨whole, offset⟩
  simp only [exec, execOrderHeaderWord, takeNextWord, h, starts, if_true, takeWord, dropOrderWord_cons h]

/-- ORDER_BODY_WORD takes the next word in flight into the record under assembly, if it starts none (R17). -/
theorem exec_orderBodyWord {header : Word} {body : List Word} (h : s.inFlight.orderWords = w :: rest)
    (ha : s.assembler.assembly = .assembling header body) (other : ¬ (w.whole = true ∧ w.offset = 0)) :
    exec .orderBodyWord s = .next (takeBodyWord header body w (s.withWords rest)) := by
  have starts : w.isHeader = false := Bool.eq_false_iff.2 (mt (isHeader_iff w).1 other)
  simp [exec, execOrderBodyWord, takeNextWord, h, ha, starts, takeWord, dropOrderWord_cons h]

/-- In IDLE a header word starts a record and does nothing else (R16). -/
theorem takeHeaderWord_idle (idle : s.assembler.assembly = .idle) :
    takeHeaderWord w s = s.withAssembler { s.assembler with assembly := .assembling w.data [] } := by
  rw [takeHeaderWord, discardRecord_idle idle]
  rfl

/-- A word that is not whole discards the record (R17). -/
theorem takeBodyWord_part {header : Word} {body : List Word} (ha : s.assembler.assembly = .assembling header body)
    (part : w.whole = false) :
    takeBodyWord header body w s = refusedWith (headerKind header) (headerSession header) .badWrite s := by
  rw [takeBodyWord, part, Bool.not_false, if_pos rfl, discardRecord_assembling ha]

/-- A whole word elsewhere than the next offset discards the record (R17). -/
theorem takeBodyWord_elsewhere {header : Word} {body : List Word} (ha : s.assembler.assembly = .assembling header body)
    (whole : w.whole = true) (elsewhere : w.offset ≠ 4 * (body.length + 1)) :
    takeBodyWord header body w s = refusedWith (headerKind header) (headerSession header) .outOfSequence s := by
  simp only [takeBodyWord, whole, Bool.not_true, Bool.false_eq_true, if_false, if_pos elsewhere, discardRecord_assembling ha]

/-- A whole word at the next offset is a body word while the record lacks one (R17). -/
theorem takeBodyWord_held {header : Word} {body : List Word} (whole : w.whole = true)
    (next : w.offset = 4 * (body.length + 1)) (lacks : body.length < headerLength header) :
    takeBodyWord header body w s
      = s.withAssembler { s.assembler with assembly := .assembling header (body ++ [w.data]) } := by
  simp [takeBodyWord, whole, next, lacks]
  rfl

/-- A whole word at the next offset is the check word once the record lacks none (R17). -/
theorem takeBodyWord_check {header : Word} {body : List Word} (whole : w.whole = true)
    (next : w.offset = 4 * (body.length + 1)) (full : headerLength header ≤ body.length) :
    takeBodyWord header body w s = takeCheckWord w.tag header body w.data s := by
  simp [takeBodyWord, whole, next, Nat.not_lt.2 full]

end front

/-- Settles O21: in IDLE such a word goes nowhere. -/
theorem strayWordIsIgnored : Obligations.StrayWordIsIgnored := by
  intro w rest s h idle stray
  have starts : w.isHeader = false := Bool.eq_false_iff.2 (mt (isHeader_iff w).1 stray)
  have assembly : (dropOrderWord s).assembler.assembly = .idle := idle
  simp only [exec, execOrderStrayWord, takeNextWord, h, idle, starts, takeWord, assembly]
  exact congrArg Host.Outcome.next (dropOrderWord_cons h)

/-- Settles O19: the cases of R16 and R17, one by one. -/
theorem orderWordsAreFramed : Obligations.OrderWordsAreFramed := by
  intro w rest s h u
  constructor
  · intro whole offset idle
    rw [exec_orderHeaderWord h whole offset, takeHeaderWord_idle (s := s.withWords rest) idle]
    rfl
  intro header body ha discarded
  refine ⟨fun whole offset => ?_, fun part => ?_, fun whole offset elsewhere => ?_, fun whole next lacks => ?_⟩
  · rw [exec_orderHeaderWord h whole offset, takeHeaderWord, discardRecord_assembling (s := s.withWords rest) ha]
    rfl
  · rw [exec_orderBodyWord h ha (by simp [part]), takeBodyWord_part (s := s.withWords rest) ha part]
    rfl
  · rw [exec_orderBodyWord h ha (by simp [offset]), takeBodyWord_elsewhere (s := s.withWords rest) ha whole elsewhere]
    rfl
  · rw [exec_orderBodyWord h ha (by omega), takeBodyWord_held whole next lacks]
    rfl

/-! ### The check word -/

/-- How a record ends does not depend on what was under assembly, but on the last order result alone. -/
theorem finishRecord_withAssembler {s : State} {a : Assembler} (h : a.last = s.assembler.last) (kind : BitVec 8)
    (field : BitVec 4) (cause : Option Cause) (slot : Option Slot) :
    finishRecord kind field cause slot (s.withAssembler a) = finishRecord kind field cause slot s := by
  unfold finishRecord
  rw [withAssembler_assembler, h]
  rfl

/-- An order is judged alike, whatever was under assembly. -/
theorem judgeOrder_withAssembler {s : State} {a : Assembler} (h : a.last = s.assembler.last) (tag : Tag)
    (field : BitVec 4) (o : Order) : judgeOrder tag field o (s.withAssembler a) = judgeOrder tag field o s := by
  have effect := orderEffect_assembler tag (sessionOf field) o s
  simp only [judgeOrder, refusalCause_withAssembler, orderEffect_withAssembler]
  split
  · exact finishRecord_withAssembler h ..
  · exact finishRecord_withAssembler (by rw [effect]; exact h) ..

/-- An order command with no record under assembly is its order, judged. -/
theorem exec_orderCommand_ready {tag : Tag} {s : State} (h : Ready tag s) (field : BitVec 4) (o : Order) :
    exec (orderCommand tag field o) s = .next (judgeOrder tag field o s) := by
  rw [exec_orderCommand, giveOrder, if_pos h.1, discardRecord_idle h.2]

/-- The lengths of R22, by kind. -/
abbrev BodyFits (k : Nat) (body : List Word) : Prop :=
  (k = 0x01 ∧ body.length = 5) ∨ (k = 0x02 ∧ OpenBody body) ∨ ((k = 0x04 ∨ k = 0x05) ∧ body.length = 1)
    ∨ (k = 0x09 ∧ body.length = 4) ∨ (k = 0x0A ∧ body.length = 2)
    ∨ ((k = 0x03 ∨ (0x06 ≤ k ∧ k ≤ 0x08) ∨ (0x0B ≤ k ∧ k ≤ 0x0D)) ∧ body.length = 0)

/-- A body of its kind's length is read as an order of that kind (R21, R22). -/
theorem decodeOrder_fits {kind : BitVec 8} {body : List Word} (fits : BodyFits kind.toNat body) :
    ∃ o, decodeOrder kind body = .ok o ∧ o.kind = kind := by
  rcases fits with ⟨hk, hn⟩ | ⟨hk, hopen⟩ | ⟨hk | hk, hn⟩ | ⟨hk, hn⟩ | ⟨hk, hn⟩ | ⟨hk, hn⟩
  · obtain rfl : kind = 0x01 := BitVec.eq_of_toNat_eq hk
    match body, hn with
    | [_, _, _, _, _], _ => exact ⟨_, rfl, rfl⟩
  · obtain rfl : kind = 0x02 := BitVec.eq_of_toNat_eq hk
    obtain ⟨f, hf⟩ := (decodeOpen_spec body).1 hopen
    exact ⟨.openSession f, congrArg (Except.map Order.openSession) hf, rfl⟩
  · obtain rfl : kind = 0x04 := BitVec.eq_of_toNat_eq hk
    match body, hn with
    | [_], _ => exact ⟨_, rfl, rfl⟩
  · obtain rfl : kind = 0x05 := BitVec.eq_of_toNat_eq hk
    match body, hn with
    | [_], _ => exact ⟨_, rfl, rfl⟩
  · obtain rfl : kind = 0x09 := BitVec.eq_of_toNat_eq hk
    match body, hn with
    | [_, _, _, _], _ => exact ⟨_, rfl, rfl⟩
  · obtain rfl : kind = 0x0A := BitVec.eq_of_toNat_eq hk
    match body, hn with
    | [_, _], _ => exact ⟨_, rfl, rfl⟩
  · obtain rfl := List.eq_nil_of_length_eq_zero hn
    have empty : ∀ o : Order, kind.toNat = o.kind.toNat → decodeOrder o.kind [] = .ok o →
        ∃ o, decodeOrder kind [] = .ok o ∧ o.kind = kind := fun o he ho => by
      obtain rfl : kind = o.kind := BitVec.eq_of_toNat_eq he
      exact ⟨o, ho, rfl⟩
    have kinds : kind.toNat = 3 ∨ kind.toNat = 6 ∨ kind.toNat = 7 ∨ kind.toNat = 8 ∨ kind.toNat = 11 ∨ kind.toNat = 12
      ∨ kind.toNat = 13 := by omega
    rcases kinds with h | h | h | h | h | h | h
    · exact empty .closeSession h rfl
    · exact empty .resume h rfl
    · exact empty .recover h rfl
    · exact empty .continueRung h rfl
    · exact empty .flush h rfl
    · exact empty .reset h rfl
    · exact empty .reacquire h rfl

/-- A body of another length than its kind's is BAD_LENGTH (R22). -/
theorem decodeOrder_badLength {kind : BitVec 8} {body : List Word} (h1 : 1 ≤ kind.toNat) (h13 : kind.toNat ≤ 13)
    (unfit : ¬ BodyFits kind.toNat body) : decodeOrder kind body = .error .badLength := by
  have bare : ∀ o, (body.length = 0 → BodyFits kind.toNat body) → withoutBody o body = .error .badLength :=
    fun o fits => (withoutBody_spec o body).2 (mt fits unfit)
  unfold decodeOrder
  split
  case h_1 hk | h_4 hk | h_5 hk | h_9 hk | h_10 hk =>
    split
    · exact absurd (by simp [BodyFits, hk]) unfit
    · rfl
  case h_2 hk =>
    rw [(decodeOpen_spec body).2 fun h => unfit (by simp [BodyFits, hk, h])]
    rfl
  case h_3 hk | h_6 hk | h_7 hk | h_8 hk | h_11 hk | h_12 hk | h_13 hk => exact bare _ (by simp [BodyFits, hk])
  case h_14 =>
    simp only [imp_false] at *
    omega

/-- A kind that is none of the thirteen is UNKNOWN_KIND (R21). -/
theorem decodeOrder_unknownKind {kind : BitVec 8} (h : kind.toNat = 0 ∨ 13 < kind.toNat) (body : List Word) :
    decodeOrder kind body = .error .unknownKind := by
  unfold decodeOrder
  split
  case h_14 => rfl
  all_goals omega

/-- Settles O20: the check word, then the kind and its length (`decodeOrder_fits` and the two after it), then the order
judged. -/
theorem checkWordJudgesTheRecord : Obligations.CheckWordJudgesTheRecord := by
  intro w rest header body s h ha whole next complete u field refused k n openFits fits
  have taken : exec .orderBodyWord s = .next (takeCheckWord w.tag header body w.data u) := by
    rw [exec_orderBodyWord h ha (by omega), takeBodyWord_check whole next complete]
    rfl
  rw [← checkWord_eq]
  have fails : ∀ cause, takeCheckWord w.tag header body w.data u
      = finishRecord (headerKind header) field (some cause) none u → refused cause := fun cause e => by
    show exec .orderBodyWord s = _
    rw [taken, e, finishRecord_refused]
  refine ⟨fun wrong => fails _ (if_neg wrong), fun right => ?_⟩
  have read : takeCheckWord w.tag header body w.data u = _ := if_pos right
  refine ⟨fun unknown => fails _ ?_, fun h1 h13 unfit => fails _ ?_, fun fit => ?_⟩
  · rw [read, decodeOrder_unknownKind unknown]
  · rw [read, decodeOrder_badLength h1 h13 unfit]
  obtain ⟨o, spelt, kind⟩ := decodeOrder_fits (kind := headerKind header) fit
  have judged : exec .orderBodyWord s = .next (judgeOrder w.tag field o u) := by
    rw [taken, read, spelt]
  refine ⟨o, spelt, kind, fun cause hc => fails _ ?_, fun hc => ?_, fun observed => ?_⟩
  · have refuses : judgeOrder w.tag field o u = finishRecord o.kind field (some cause) none u := by
      simp only [judgeOrder, hc]
    rw [read, spelt, ← kind]
    exact refuses
  · rw [judged, ← kind]
    simp only [judgeOrder, hc, finishRecord_taken]
  · let idle : Assembler := { s.assembler with assembly := .idle }
    have given := exec_orderCommand_ready (s := u.withAssembler idle) ⟨observed, rfl⟩ field o
    rw [judgeOrder_withAssembler (s := u) (a := idle) rfl] at given
    exact judged.trans given.symm

/-! ### A whole record, word by word -/

/-- Words of `tag`, whole, at the offsets from word `n` of the aperture upward. -/
def wordsFrom (tag : Tag) (n : Nat) (words : List Word) : List OrderWord :=
  words.mapIdx fun j w => { tag := tag, offset := 4 * (n + j), whole := true, data := w }

theorem wordsFrom_cons (tag : Tag) (n : Nat) (w : Word) (words : List Word) :
    wordsFrom tag n (w :: words)
      = { tag := tag, offset := 4 * n, whole := true, data := w } :: wordsFrom tag (n + 1) words := by
  simp only [wordsFrom, List.mapIdx_cons, Nat.add_zero, Nat.add_assoc, Nat.add_comm 1]

theorem orderWordsOf_eq (tag : Tag) (words : List Word) : orderWordsOf tag words = wordsFrom tag 0 words := by
  simp only [orderWordsOf, wordsFrom, Nat.zero_add]

theorem execAll_cons {c : Instr} {rest : List Instr} {s t : State} (h : exec c s = .next t) :
    execAll (c :: rest) s = execAll rest t := by
  rw [execAll, h]

/-- The rest of a record under assembly, its body words and its check word, taken one by one: the order its words spell is
judged (R17, R19). -/
theorem execAll_orderBodyWords {tag : Tag} {header : Word} {o : Order} {all : List Word}
    (length : headerLength header = all.length) (spelt : decodeOrder (headerKind header) all = .ok o) {s : State}
    (rest body : List Word) (split : body ++ rest = all) (ha : s.assembler.assembly = .assembling header body) :
    execAll (List.replicate (rest.length + 1) .orderBodyWord)
        (s.withWords (wordsFrom tag (body.length + 1) (rest ++ [checkWord header all])))
      = .next (judgeOrder tag (headerSession header) o (s.withWords [])) := by
  induction rest generalizing body s with
  | nil =>
    rw [List.append_nil] at split
    subst split
    rw [List.nil_append, wordsFrom_cons]
    have taken := exec_orderBodyWord (s := s.withWords (_ :: wordsFrom tag (body.length + 1 + 1) [])) rfl ha
      (w := { tag := tag, offset := 4 * (body.length + 1), whole := true, data := checkWord header body }) (by simp)
    rw [takeBodyWord_check rfl rfl length.le] at taken
    have judged : takeCheckWord tag header body (checkWord header body) (s.withWords [])
        = judgeOrder tag (headerSession header) o (s.withWords []) := by
      rw [takeCheckWord, if_pos rfl, spelt]
    rw [List.length_nil, Nat.zero_add, List.replicate_one]
    exact (execAll_cons taken).trans (congrArg Host.Outcome.next judged)
  | cons w rest ih =>
    have lacks : body.length < headerLength header := by
      rw [length, ← split, List.length_append, List.length_cons]
      omega
    rw [List.cons_append, wordsFrom_cons]
    have taken := exec_orderBodyWord
      (s := s.withWords (_ :: wordsFrom tag (body.length + 1 + 1) (rest ++ [checkWord header all]))) rfl ha
      (w := { tag := tag, offset := 4 * (body.length + 1), whole := true, data := w }) (by simp)
    rw [takeBodyWord_held rfl rfl lacks] at taken
    let held : Assembler := { s.assembler with assembly := .assembling header (body ++ [w]) }
    have others := ih (s := s.withAssembler held) (body ++ [w]) (by rw [List.append_assoc]; exact split) rfl
    rw [List.length_append, List.length_singleton] at others
    have judged : judgeOrder tag (headerSession header) o ((s.withAssembler held).withWords [])
        = judgeOrder tag (headerSession header) o (s.withWords []) :=
      judgeOrder_withAssembler (s := s.withWords []) (a := held) rfl ..
    rw [judged] at others
    rw [List.length_cons, List.replicate_succ]
    exact (execAll_cons taken).trans others

/-- Settles O23: the header word starts the record (`exec_orderHeaderWord`), the others end in the order judged, and so does the
order given whole. -/
theorem recordWordByWordIsTheOrder : Obligations.RecordWordByWordIsTheOrder := by
  intro tag field o s hfits hready
  obtain ⟨kind, session, length⟩ := header_fields field o hfits
  have words : orderWordsOf tag (o.record field)
      = { tag := tag, offset := 0, whole := true, data := o.header field }
        :: wordsFrom tag 1 (o.body ++ [checkWord (o.header field) o.body]) := by
    rw [orderWordsOf_eq, Order.record, List.cons_append, wordsFrom_cons]
  let begun : Assembler := { s.assembler with assembly := .assembling (o.header field) [] }
  have started : exec .orderHeaderWord (s.withWords (orderWordsOf tag (o.record field)))
      = .next ((s.withWords (wordsFrom tag 1 (o.body ++ [checkWord (o.header field) o.body]))).withAssembler begun) :=
    (exec_orderHeaderWord (s := s.withWords _) words rfl rfl).trans
      (congrArg Host.Outcome.next (takeHeaderWord_idle hready.2))
  have others := execAll_orderBodyWords (tag := tag) (s := s.withAssembler begun) length
    (by rw [kind]; exact decodeOrder_body o hfits) o.body [] rfl rfl
  have judged : judgeOrder tag field o ((s.withAssembler begun).withWords []) = judgeOrder tag field o (s.withWords []) :=
    judgeOrder_withAssembler (s := s.withWords []) (a := begun) rfl ..
  rw [session, judged] at others
  have given := exec_orderCommand_ready (s := s.withWords []) hready field o
  exact (execAll_cons started).trans (others.trans given.symm)

end Sys2Proof.Machine
end

section
/-! PROOFS. The timebase and what its ticks bring due: one period of the clock, the tick and its deliveries, the deadline expiries, and
the loss, the return and the reacquiring of the reference. -/

namespace Sys2Proof.Machine

/-! ### The reference -/

/-- Settles O48: the presence and the source decide, as `loseReference` splits them. -/
theorem referenceLossAndReturn : Obligations.ReferenceLossAndReturn := by
  intro s
  have lost : exec .referenceLoss s = .next (loseReference s) := rfl
  refine ⟨fun present reference => ?_, fun present internal => ?_, fun absent => ?_, rfl⟩
  · simp only [lost, loseReference, present, reference]
    rfl
  · simp only [lost, loseReference, present, internal]
  · simp only [lost, loseReference, absent]

/-- REACQUIRE has no check but that of the reference's presence (R21, R47). -/
theorem refusalCause_reacquire (field : BitVec 4) (s : State) :
    refusalCause field .reacquire s = if s.timebase.presence = .absent then some .noReference else none := rfl

/-- Settles O39: refused by the presence; taken, the source decides what there is to do. -/
theorem reacquireTestsThePresence : Obligations.ReacquireTestsThePresence := by
  intro tag field s hready
  have taken : s.timebase.presence = .present →
      exec (.reacquireOrder tag field) s = .next (endedWith 0x0D field 0 0xFF (reacquireEffect s)) := fun present =>
    exec_orderCommand_taken (o := .reacquire) hready (by simp [refusalCause_reacquire, present])
  refine ⟨fun absent => ?_, fun present internal => ?_, fun present reference => ?_⟩
  · obtain ⟨refused, -, -⟩ := ordersRefusedUnseenOrTruncating tag field .reacquire s
    exact refused _ hready (if_pos absent)
  · simp only [taken present, reacquireEffect, internal]
  · simp only [taken present, reacquireEffect, reference]

/-! ### The clock -/

/-- Settles O2: with nothing waiting a step is `clockPeriod`, decided by the source, the presence and the cycle count. -/
theorem stepOnEmptyQueueIsOneClockPeriod : Obligations.StepOnEmptyQueueIsOneClockPeriod := by
  intro s idle
  have period : step s = .next (clockPeriod s) := by simp only [step, idle]
  have tick : exec (.tick .atOnce) s = .next (tickOnce .atOnce s) := rfl
  refine ⟨fun internal => ?_, fun reference absent => ?_, fun reference present counted => ?_,
    fun reference present reached => ?_⟩
  · simp only [period, tick, clockPeriod, internal]
  · simp only [period, clockPeriod, reference, absent]
  · simp only [period, clockPeriod, reference, present, if_neg counted.not_ge]
  · simp only [period, tick, clockPeriod, reference, present, if_pos reached]

/-! ### Deadline expiries -/

/-- The state a record waits in for its deadline: LANDING for the gap deadline, PENDING for the first-byte deadline (R65). -/
abbrev awaiting (gap : Bool) : FetchState := if gap then .landing else .pending

/-- The command by which a deadline of slot `k` expires. -/
abbrev expiryCommand (gap : Bool) (k : Slot) : Instr := if gap then .gapDeadlineExpiry k else .firstByteDeadlineExpiry k

theorem expiryDue_iff {state : FetchState} {s : State} {r : FetchRecord} :
    expiryDue state s r = true ↔ r.state = state ∧ r.deadline = some s.timebase.tick := by
  simp [expiryDue]

/-- The expiry of either deadline of slot `k`: the record stalls if its deadline is due (R65). -/
def expireDeadline (gap : Bool) (k : Slot) (s : State) : State :=
  match s.slot k with
  | some r => if expiryDue (awaiting gap) s r then stallRecord gap k r s else s
  | none => s

theorem expireFirstByte_eq (k : Slot) (s : State) : expireFirstByte k s = expireDeadline false k s := rfl

theorem expireGap_eq (k : Slot) (s : State) : expireGap k s = expireDeadline true k s := rfl

theorem exec_expiryCommand (gap : Bool) (k : Slot) (s : State) :
    exec (expiryCommand gap k) s = .next (expireDeadline gap k s) := by
  cases gap <;> rfl

theorem expireDeadline_due {gap : Bool} {k : Slot} {r : FetchRecord} {s : State} (hr : s.slot k = some r)
    (waiting : r.state = awaiting gap) (reached : r.deadline = some s.timebase.tick) :
    expireDeadline gap k s = stallRecord gap k r s := by
  simp only [expireDeadline, hr]
  exact if_pos (expiryDue_iff.2 ⟨waiting, reached⟩)

theorem expireDeadline_notDue {gap : Bool} {k : Slot} {s : State}
    (early : ∀ r, s.slot k = some r → ¬ (r.state = awaiting gap ∧ r.deadline = some s.timebase.tick)) :
    expireDeadline gap k s = s := by
  unfold expireDeadline
  split
  · next r hr => exact if_neg fun due => early r hr (expiryDue_iff.1 due)
  · rfl

/-- What a stall does to a session that is neither in FALLBACK nor PAUSED (R136). -/
theorem takeStall_deciding {i : SessionId} {s : State}
    (h : (s.session i).work.state = .probing ∨ (s.session i).work.state = .steady ∨ (s.session i).work.state = .boundary) :
    takeStall i s = enterFallback i s := by
  unfold takeStall
  rcases h with h | h | h <;> rw [h]

/-- Settles O49: an expiry that is due stalls its record, and the session's state names the consequence posted and taken. -/
theorem deadlineExpiryStalls : Obligations.DeadlineExpiryStalls := by
  intro gap k s command
  refine ⟨fun early => ?_, fun r hr waiting reached => ?_⟩
  · rw [exec_expiryCommand, expireDeadline_notDue early]
  intro i w u stalled
  have posted : exec command s = .next (takeStall i (stalled (stallConsequence w.state))) := by
    rw [exec_expiryCommand, expireDeadline_due hr waiting reached]
    rfl
  have session : ∀ n, (stalled n).session i = { s.session i with work := { w with stalls := min 65535 (w.stalls + 1) } } :=
    fun n => by simp [stalled, u]
  refine ⟨fun deciding => ?_, fun fallback => ?_, fun paused => ?_⟩
  · have consequence : stallConsequence w.state = 1 := by rcases deciding with h | h | h <;> rw [h] <;> rfl
    rw [posted, consequence, takeStall_deciding (by simpa only [session] using deciding)]
    simp only [enterFallback, publishLo, session, session_setWork_self]
  · rw [posted, fallback]
    simp only [takeStall, session, fallback]
    rfl
  · rw [posted, paused]
    simp only [takeStall, session, paused]
    rfl

/-! ### Ticks -/

theorem execAll_append {cs ds : List Instr} {s t : State} (h : execAll cs s = .next t) :
    execAll (cs ++ ds) s = execAll ds t := by
  induction cs generalizing s with
  | nil => cases h; rfl
  | cons c cs ih =>
    cases taken : exec c s with
    | next u =>
      rw [execAll_cons taken] at h
      rw [List.cons_append, execAll_cons taken, ih h]
    | fault f => cases f
    | refused r => simp [execAll, taken] at h

/-- Both expiries of each slot, commanded one after another, are the expiries of a tick in slot order. -/
theorem execAll_expiries (ks : List Slot) (s : State) :
    execAll (ks.flatMap fun k => [.firstByteDeadlineExpiry k, .gapDeadlineExpiry k]) s
      = .next (ks.foldl (fun s k => expireGap k (expireFirstByte k s)) s) := by
  induction ks generalizing s with
  | nil => rfl
  | cons k ks ih => exact (execAll_cons rfl).trans ((execAll_cons rfl).trans (ih _))

/-- With no deadline at the current tick, no expiry is due. -/
theorem expireAll_notDue {s : State} (h : ∀ k r, s.slot k = some r → r.deadline ≠ some s.timebase.tick) :
    expireAll s = s := by
  have early : ∀ gap k, expireDeadline gap k s = s := fun _ k =>
    expireDeadline_notDue fun r hr ⟨_, reached⟩ => h k r hr reached
  have kept : ∀ k, expireGap k (expireFirstByte k s) = s := fun k => by
    rw [expireFirstByte_eq, expireGap_eq, early, early]
  unfold expireAll
  induction List.finRange 16 with
  | nil => rfl
  | cons k ks ih => rw [List.foldl_cons, kept, ih]

/-- A tick that owes nothing has nothing to settle. -/
theorem settleTick_nothingOwed {s : State} (owed : s.meter.tickOwed = false)
    (h : ∀ k r, s.slot k = some r → r.deadline ≠ some s.timebase.tick) : settleTick s = s := by
  simp [settleTick, expireAll_notDue h, takeOwedTick, owed]

/-- Settles O47: the timebase by `tickOnce_spec`; a bare tick is `advanceTick` of what is settled, and what it yields is settled by
the commands of `execAll_expiries` and WINDOW_END. -/
theorem tickAdvancesAndIsDelivered : Obligations.TickAdvancesAndIsDelivered := by
  intro s
  refine ⟨fun d => ⟨tickOnce d s, rfl, (tickOnce_spec d s).1⟩, fun owed notDue => ?_, _, rfl, ?_⟩
  · show Host.Outcome.next (advanceTick (settleTick s)) = _
    rw [settleTick_nothingOwed owed notDue]
    rfl
  · rw [execAll_append (execAll_expiries ..)]
    rfl

end Sys2Proof.Machine
end

section
/-! PROOFS. What is tracked: the fetch records, the held segments and what the sessions they belong to must be. One invariant,
`Tracked`, carries the laws that O8 names; most acts of a step only keep or lower what is tracked (`KeepsTracked`), and the few
that fill a slot, hold a segment or start and end a session are taken one by one. -/

namespace Sys2Proof.Machine

/-! ### The invariant -/

/-- A session as the tracking law needs it: of an open session's law (R129, R130) a ladder of 8 rungs at most, which bounds the rung
of a FETCH, and a pre-pause state that is not CLOSED, which a RESUME enters. With `advised`, the buffer level of its published
advice is in range too (R155). -/
structure SessionTracked (advised : Prop) (x : Session) : Prop where
  held : ∀ h ∈ x.held, HeldOk h
  closed : x.work.state = .closed → x = Session.closed
  ladder : x.work.state ≠ .closed → x.prog.ladder.length ≤ 8
  prePause : x.work.state ≠ .closed → x.work.prePause ≠ .closed
  buffer : advised → x.advice.buffer ≤ 480000

/-- What every step keeps of the records, the held segments and the sessions, from itself alone. -/
structure Tracked (advised : Prop) (s : State) : Prop where
  record : ∀ k, ∀ r ∈ s.slot k, RecordOk r ∧ (s.session r.session).work.state ≠ .closed
  session : ∀ i, SessionTracked advised (s.session i)
  limit : LimitOk s

theorem tracked_iff {advised : Prop} {s : State} :
    Tracked advised s ↔ TrackingOk s ∧ LimitOk s ∧ (advised → AdviceOk s)
      ∧ ∀ i, (s.session i).work.state ≠ .closed →
          (s.session i).prog.ladder.length ≤ 8 ∧ (s.session i).work.prePause ≠ .closed := by
  constructor
  · rintro ⟨record, session, limit⟩
    exact ⟨⟨record, fun i => (session i).held, fun i => (session i).closed⟩, limit, fun ha i => (session i).buffer ha,
      fun i ho => ⟨(session i).ladder ho, (session i).prePause ho⟩⟩
  · rintro ⟨⟨record, held, closed⟩, limit, advice, opened⟩
    refine ⟨record, fun i => ⟨held i, closed i, fun ho => ?_, fun ho => ?_, fun ha => advice ha i⟩, limit⟩
    · exact (opened i ho).1
    · exact (opened i ho).2

/-- A CLOSED session tracks nothing. -/
theorem sessionTracked_closed (advised : Prop) : SessionTracked advised Session.closed :=
  ⟨nofun, fun _ => rfl, fun h => absurd rfl h, fun h => absurd rfl h, fun _ => Nat.zero_le _⟩

/-- A buffer level is at most the durations held (R79), each of 20,000 ms at most. -/
theorem bufferLevel_le {held : List HeldSegment} (ok : ∀ h ∈ held, HeldOk h) (length : held.length ≤ Config.trackedLimit) :
    bufferLevel held ≤ 480000 := by
  have level : bufferLevel held ≤ (held.map (·.duration)).sum := by
    cases held with
    | nil => exact Nat.zero_le _
    | cons h rest => exact Nat.sub_le ..
  have durations : (held.map (·.duration)).sum ≤ (held.map (·.duration)).length • 20000 :=
    List.sum_le_card_nsmul _ _ fun d hd => by
      obtain ⟨h, hm, rfl⟩ := List.mem_map.1 hd
      obtain ⟨-, ⟨-, duration⟩, -⟩ := ok h hm
      exact duration
  rw [List.length_map, smul_eq_mul] at durations
  have : held.length ≤ 24 := length
  omega

/-! ### The records of a session, counted -/

/-- What slot `k` adds to the records of session `i`. -/
def slotRecord (s : State) (i : SessionId) (k : Slot) : List FetchRecord :=
  ((s.slot k).filter fun r => r.session = i).toList

theorem recordsOf_eq (s : State) (i : SessionId) : recordsOf s i = (List.finRange 16).flatMap (slotRecord s i) := by
  rw [recordsOf, List.filterMap_eq_flatMap_toList]
  refine List.flatMap_congr fun k _ => ?_
  unfold slotRecord
  cases s.slot k with
  | none => rfl
  | some r => by_cases h : r.session = i <;> simp [h, Option.filter]

theorem recordsOf_congr {s t : State} (h : ∀ k, t.slot k = s.slot k) (i : SessionId) : recordsOf t i = recordsOf s i := by
  simp only [recordsOf, h]

/-- A session has no more records when no slot has a record of a session it had none of. -/
theorem recordsOf_length_le {s t : State} (h : ∀ k, ∀ r ∈ t.slot k, ∃ q ∈ s.slot k, q.session = r.session)
    (i : SessionId) : (recordsOf t i).length ≤ (recordsOf s i).length := by
  rw [recordsOf_eq, recordsOf_eq, List.length_flatMap, List.length_flatMap]
  refine List.sum_le_sum fun k _ => ?_
  unfold slotRecord
  cases ht : t.slot k with
  | none => exact Nat.zero_le _
  | some r =>
    obtain ⟨q, hq, e⟩ := h k r ht
    rw [show s.slot k = some q from hq]
    by_cases mine : r.session = i <;> simp [Option.filter, e, mine]

/-- The record of one slot, counted apart. -/
theorem recordsOf_slot (s : State) (i : SessionId) (k : Slot) :
    (recordsOf s i).length = (slotRecord s i k).length + (recordsOf (s.setSlot k none) i).length := by
  have others : recordsOf (s.setSlot k none) i = (List.finRange 16).flatMap (Function.update (slotRecord s i) k []) := by
    rw [recordsOf_eq]
    refine List.flatMap_congr fun j _ => ?_
    by_cases hj : j = k
    · subst hj; simp [slotRecord]
    · rw [slotRecord, slot_setSlot_of_ne _ _ hj, Function.update_of_ne hj]
      rfl
  rw [others, recordsOf_eq, (flatMap_perm_update (List.nodup_finRange 16) (List.mem_finRange k) _).length_eq, List.length_append]

/-- A record leaves its slot: its session has one less. -/
theorem recordsOf_free {s : State} {k : Slot} {r : FetchRecord} (h : s.slot k = some r) :
    (recordsOf s r.session).length = (recordsOf (s.setSlot k none) r.session).length + 1 := by
  rw [recordsOf_slot s r.session k, slotRecord, h]
  simp [Option.filter, Nat.add_comm]

/-- A record fills a free slot: its session has one more, the others as many. -/
theorem recordsOf_fill {s : State} {k : Slot} (h : s.slot k = none) (r : FetchRecord) (i : SessionId) :
    (recordsOf (s.setSlot k (some r)) i).length = (recordsOf s i).length + if r.session = i then 1 else 0 := by
  have free := recordsOf_slot s i k
  have fill := recordsOf_slot (s.setSlot k (some r)) i k
  simp only [slotRecord, h, slot_setSlot_self, setSlot_setSlot] at free fill
  rw [fill, free]
  by_cases e : r.session = i <;> simp [Option.filter, e, Nat.add_comm]

theorem recordsOf_eq_nil {s : State} {i : SessionId} (h : ∀ k, ∀ r ∈ s.slot k, r.session ≠ i) : recordsOf s i = [] := by
  refine List.eq_nil_iff_forall_not_mem.2 fun r hr => ?_
  obtain ⟨k, hk, hi⟩ := mem_recordsOf.1 hr
  exact h k r hk hi

/-! ### What only keeps or lowers what is tracked -/

/-- From `x` to `y` a session stays open if it was, and tracks no segment it did not. -/
structure SessionKept (x y : Session) : Prop where
  tracked : ∀ {advised}, SessionTracked advised x → x.held.length ≤ Config.trackedLimit → SessionTracked advised y
  opened : x.work.state ≠ .closed → y.work.state ≠ .closed
  length : y.held.length ≤ x.held.length

namespace SessionKept

variable {x y z : Session}

theorem refl (x : Session) : SessionKept x x := ⟨fun ok _ => ok, id, le_rfl⟩

theorem trans (h : SessionKept x y) (h' : SessionKept y z) : SessionKept x z where
  tracked ok length := h'.tracked (h.tracked ok length) (h.length.trans length)
  opened := h'.opened ∘ h.opened
  length := h'.length.trans h.length

/-- An open session that stays open keeps its ladder, and its held list but for consumption; an advice it published carries the
buffer level (R156). -/
theorem of_open (hx : x.work.state ≠ .closed) (hy : y.work.state ≠ .closed)
    (held : (∀ h ∈ x.held, HeldOk h) → ∀ h ∈ y.held, HeldOk h) (length : y.held.length ≤ x.held.length)
    (ladder : y.prog.ladder = x.prog.ladder) (prePause : x.work.prePause ≠ .closed → y.work.prePause ≠ .closed)
    (buffer : y.advice.buffer = x.advice.buffer ∨ y.advice.buffer = bufferLevel x.held) : SessionKept x y where
  tracked ok limit :=
    { held := held ok.held
      closed := fun h => absurd h hy
      ladder := fun _ => ladder ▸ ok.ladder hx
      prePause := fun _ => prePause (ok.prePause hx)
      buffer := fun ha => by
        rcases buffer with b | b <;> rw [b]
        · exact ok.buffer ha
        · exact bufferLevel_le ok.held limit }
  opened _ := hy
  length := length

end SessionKept

/-- From `s` to `t` every record is one that was there, lawful still, and every session is kept. -/
structure KeepsTracked (s t : State) : Prop where
  slot : ∀ k, ∀ r ∈ t.slot k, ∃ q ∈ s.slot k, q.session = r.session ∧ (RecordOk q → RecordOk r)
  session : ∀ i, SessionKept (s.session i) (t.session i)

namespace KeepsTracked

variable {s t u : State}

theorem refl (s : State) : KeepsTracked s s := ⟨fun _ r hr => ⟨r, hr, rfl, id⟩, fun _ => .refl _⟩

theorem trans (h : KeepsTracked s t) (h' : KeepsTracked t u) : KeepsTracked s u where
  slot k r hr := by
    obtain ⟨q, hq, session, ok⟩ := h'.slot k r hr
    obtain ⟨p, hp, session', ok'⟩ := h.slot k q hq
    exact ⟨p, hp, session'.trans session, ok ∘ ok'⟩
  session i := (h.session i).trans (h'.session i)

/-- `trans` with its second part first: that part names the state between. -/
theorem after (h' : KeepsTracked t u) (h : KeepsTracked s t) : KeepsTracked s u := h.trans h'

theorem opened (h : KeepsTracked s t) {i : SessionId} (ho : (s.session i).work.state ≠ .closed) :
    (t.session i).work.state ≠ .closed :=
  (h.session i).opened ho

theorem trackedCount_le (h : KeepsTracked s t) (i : SessionId) : trackedCount i t ≤ trackedCount i s :=
  Nat.add_le_add (recordsOf_length_le (fun k r hr => by
    obtain ⟨q, hq, session, -⟩ := h.slot k r hr
    exact ⟨q, hq, session⟩) i) (h.session i).length

theorem tracked (h : KeepsTracked s t) {advised : Prop} (ok : Tracked advised s) : Tracked advised t where
  record k r hr := by
    obtain ⟨q, hq, session, lawful⟩ := h.slot k r hr
    obtain ⟨recordOk, ho⟩ := ok.record k q hq
    exact ⟨lawful recordOk, h.opened (session ▸ ho)⟩
  session i := (h.session i).tracked (ok.session i) ((Nat.le_add_left ..).trans (ok.limit i))
  limit i := (h.trackedCount_le i).trans (ok.limit i)

/-- The table stays. -/
theorem of_slots (slot : ∀ k, t.slot k = s.slot k) (session : ∀ i, SessionKept (s.session i) (t.session i)) :
    KeepsTracked s t :=
  ⟨fun k r hr => ⟨r, slot k ▸ hr, rfl, id⟩, session⟩

/-- The table and the sessions stay. -/
theorem of_frame (table : t.tracker.table = s.tracker.table) (sessions : t.sessions = s.sessions) : KeepsTracked s t :=
  .of_slots (slot_congr table) fun i => session_congr sessions i ▸ .refl _

end KeepsTracked

theorem Tracked.of_frame {advised : Prop} {s t : State} (ok : Tracked advised s) (table : t.tracker.table = s.tracker.table)
    (sessions : t.sessions = s.sessions) : Tracked advised t :=
  (KeepsTracked.of_frame table sessions).tracked ok

theorem post_keepsTracked (kind : EventKind) (session : BitVec 4) (code : BitVec 8) (a b : Word) (s : State) :
    KeepsTracked s (post kind session code a b s) :=
  .of_frame (by rw [post_tracker]) (post_sessions ..)

theorem setSession_keepsTracked {s : State} {i : SessionId} {x : Session} (h : SessionKept (s.session i) x) :
    KeepsTracked s (s.setSession i x) :=
  .of_slots (fun _ => rfl) fun j => by
    rw [session_setSession]
    split
    · next e => exact e ▸ h
    · exact .refl _

/-- A working half that leaves the session open, with a pre-pause state as good as the old one. -/
theorem setWork_keepsTracked {s : State} {i : SessionId} {w : Working} (ho : (s.session i).work.state ≠ .closed)
    (hw : w.state ≠ .closed) (prePause : (s.session i).work.prePause ≠ .closed → w.prePause ≠ .closed) :
    KeepsTracked s (s.setWork i w) :=
  setSession_keepsTracked (.of_open ho hw id le_rfl rfl prePause (.inl rfl))

theorem setSlot_keepsTracked {s : State} {k : Slot} {q r : FetchRecord} (h : s.slot k = some q) (session : q.session = r.session)
    (ok : RecordOk q → RecordOk r) : KeepsTracked s (s.setSlot k (some r)) where
  slot j p hp := by
    rw [slot_setSlot] at hp
    split at hp
    · next e =>
      cases hp
      exact ⟨q, e ▸ h, session, ok⟩
    · exact ⟨p, hp, rfl, id⟩
  session _ := .refl _

theorem freeWhere_keepsTracked (p : FetchRecord → Bool) (s : State) : KeepsTracked s (freeWhere p s) := by
  obtain ⟨frees, slot, -⟩ := freeWhere_spec p s
  refine ⟨fun k r hr => ⟨r, ?_, rfl, id⟩, fun i => by rw [frees.session]; exact .refl _⟩
  rw [slot] at hr
  exact (Option.mem_filter_iff.1 hr).1

theorem mapParts_keepsTracked (f : ConsumerPart → ConsumerPart) (s : State) : KeepsTracked s (mapParts f s) := .of_frame rfl rfl

theorem freeSession_keepsTracked (i : SessionId) (s : State) : KeepsTracked s (freeSession i s) :=
  (freeWhere_keepsTracked _ s).trans (mapParts_keepsTracked ..)

/-! ### The share arbiter -/

/-- A claim with no weight and no demand is given nothing, in any round (R117, R122). -/
theorem rounds_claimless (n r j : Nat) {cs : List Claim} (h : cs[j]? = some ⟨0, 0, 0⟩) :
    (rounds n r cs).2[j]? = some ⟨0, 0, 0⟩ := by
  induction n generalizing r cs with
  | zero => exact h
  | succ n ih =>
    have round : (cs.map (giveTo r (unsaturatedWeight cs)))[j]? = some ⟨0, 0, 0⟩ := by
      rw [List.getElem?_map, h]
      simp [giveTo]
    unfold rounds
    simp only
    split <;> [skip; split]
    · exact h
    · exact round
    · exact ih _ round

/-- A session that is not active is given nothing (R117). -/
theorem divide_inactive {s : State} {i : SessionId} (h : isActive (s.session i) = false) : (divide s).2.2.getD i.val 0 = 0 := by
  have claim : (s.sessions.toList.map claimOf)[i.val]? = some ⟨0, 0, 0⟩ := by
    have : s.sessions.toList[i.val]? = some (s.session i) := by simp [State.session]
    rw [List.getElem?_map, this, Option.map_some, claimOf, h]
    rfl
  unfold divide
  split <;> [skip; split <;> [skip; split]]
  · rfl
  · rfl
  · rfl
  · rw [List.getD_eq_getElem?_getD, List.getElem?_map, rounds_claimless _ _ _ claim]
    rfl

/-- A recompute changes no more of a session than its share, and that of a CLOSED session stays 0 (R117). -/
theorem recompute_keepsTracked (s : State) : KeepsTracked s (recompute s) := by
  have divides := recompute_divides s
  refine .of_slots divides.slot fun i => ?_
  have own := divides.session i
  by_cases ho : (s.session i).work.state = .closed
  · refine ⟨fun ok _ => ?_, fun h => absurd ho h, by rw [own]⟩
    have closed := ok.closed ho
    have share : ((recompute s).session i).share = 0 := by
      rw [recompute_share, divide_inactive (by simp [isActive, ho]), activeFloor, isActive, ho]
      rfl
    rw [own, share, closed]
    exact sessionTracked_closed _
  · rw [own]
    exact .of_open ho ho id le_rfl rfl id (.inl rfl)

theorem handOverLink_keepsTracked (s : State) : KeepsTracked s (handOverLink s) := by
  unfold handOverLink
  split
  · exact .refl s
  · exact (recompute_keepsTracked _).after (.of_frame rfl rfl)

/-! ### The session governor -/

/-- The session stays open, its pre-pause state as it was. -/
def StaysOpen (v w : Working) : Prop := w.state ≠ .closed ∧ w.prePause = v.prePause

/-- What the governor does for an open session that stays open keeps what is tracked. -/
theorem Governs.keepsTracked {i : SessionId} {s t : State} (h : Governs i s t) (ho : (s.session i).work.state ≠ .closed)
    (stays : StaysOpen (s.session i).work (t.session i).work) : KeepsTracked s t :=
  .of_slots h.slot fun j => by
    by_cases hj : j = i
    · subst hj
      obtain ⟨opened, prePause⟩ := stays
      exact .of_open ho opened (by rw [h.held]; exact id) (by rw [h.held]) (by rw [h.prog]) (by rw [prePause]; exact id) h.buffer
    · rw [h.other j hj]
      exact .refl _

theorem StaysOpen.of_setWork {i : SessionId} {s : State} {v w : Working} (h : StaysOpen ((s.setWork i v).session i).work w)
    (prePause : v.prePause = (s.session i).work.prePause) : StaysOpen (s.session i).work w := by
  rw [session_setWork_self] at h
  exact ⟨h.1, h.2.trans prePause⟩

section StaysOpen
variable (i : SessionId) (reason : Reason) (s : State)

@[simp] theorem publish_work (rung : Nat) : ((publish i rung reason s).session i).work = (s.session i).work := by
  rw [publish_session]

theorem startProbe_staysOpen : StaysOpen (s.session i).work ((startProbe i reason s).session i).work := by
  unfold startProbe
  simp only
  split <;> simp [convergeProbe, postProbeDone, StaysOpen]

theorem continueProbe_staysOpen : StaysOpen (s.session i).work ((continueProbe i reason s).session i).work := by
  unfold continueProbe
  simp only
  split <;> simp [convergeProbe, postProbeDone, StaysOpen]

theorem steadyDecision_staysOpen (before : SessionState) :
    StaysOpen (s.session i).work ((steadyDecision i before reason s).session i).work := by
  unfold steadyDecision
  simp only
  split <;> [split; skip] <;> simp [StaysOpen]

theorem publishLo_staysOpen (ho : (s.session i).work.state ≠ .closed) :
    StaysOpen (s.session i).work ((publishLo i reason s).session i).work := by
  simp [publishLo, StaysOpen, ho]

theorem recoverSession_staysOpen : StaysOpen (s.session i).work ((recoverSession i s).session i).work := by
  unfold recoverSession postRecovered
  simp only [post_session]
  split
  · simp [StaysOpen]
  · simp [StaysOpen]
  · exact (startProbe_staysOpen ..).of_setWork rfl

end StaysOpen

/-- A governor's act that leaves a CLOSED session alone, and leaves an open one open. -/
theorem offerCompletion_keepsTracked (i : SessionId) (rung landing sample : Nat) (s : State) :
    KeepsTracked s (offerCompletion i rung landing sample s) := by
  unfold offerCompletion
  split
  · next h =>
    exact (probeStep_governs ..).keepsTracked (by simp [h]) ((continueProbe_staysOpen ..).of_setWork rfl)
  · next h => exact (steadyDecision_governs ..).keepsTracked (by simp [h]) (steadyDecision_staysOpen ..)
  · next h => exact (steadyDecision_governs ..).keepsTracked (by simp [h]) (steadyDecision_staysOpen ..)
  · next h =>
    refine (fallbackCompletion_governs ..).keepsTracked (by simp [h]) ?_
    unfold fallbackCompletion
    simp only
    split
    · exact (recoverSession_staysOpen ..).of_setWork rfl
    · simp [publishLo, StaysOpen, h]
  · exact .refl s
  · exact .refl s

theorem panicCrossing_keepsTracked (i : SessionId) (s : State) : KeepsTracked s (panicCrossing i s) := by
  unfold panicCrossing
  split
  · next h => exact (steadyDecision_governs ..).keepsTracked (by simp [h]) (steadyDecision_staysOpen ..)
  · next h => exact (steadyDecision_governs ..).keepsTracked (by simp [h]) (steadyDecision_staysOpen ..)
  all_goals exact .refl s

theorem takeStall_keepsTracked (i : SessionId) (s : State) : KeepsTracked s (takeStall i s) := by
  have entered : (s.session i).work.state ≠ .closed → KeepsTracked s (enterFallback i s) := fun ho =>
    (enterFallback_governs ..).keepsTracked ho (by simp [enterFallback, publishLo, StaysOpen])
  unfold takeStall
  split
  · next h => exact entered (by simp [h])
  · next h => exact entered (by simp [h])
  · next h => exact entered (by simp [h])
  · next h => exact setWork_keepsTracked (by simp [h]) (by simp [h]) id
  · exact .refl s
  · exact .refl s

theorem takeWindow_keepsTracked (i : SessionId) (s : State) : KeepsTracked s (takeWindow i s) := by
  have governs := takeWindow_governs i s
  by_cases ho : (s.session i).work.state = .closed
  · have unchanged : takeWindow i s = s := by simp only [takeWindow, ho]
    rw [unchanged]
    exact .refl s
  refine governs.keepsTracked ho ?_
  unfold takeWindow
  simp only
  split
  · exact startProbe_staysOpen ..
  · exact steadyDecision_staysOpen ..
  · exact steadyDecision_staysOpen ..
  · exact publishLo_staysOpen i _ s ho
  · split <;> simp [StaysOpen, ho]
  · next h => exact absurd h ho

theorem resumeHeld_staysOpen (i : SessionId) (s : State) (ho : (s.session i).work.state ≠ .closed) :
    StaysOpen (s.session i).work ((resumeHeld i s).session i).work := by
  unfold resumeHeld
  split
  · exact continueProbe_staysOpen ..
  · exact publishLo_staysOpen i _ s ho
  · exact steadyDecision_staysOpen ..

/-! ### A segment is held -/

/-- A session's next value, with the session's records counted beside it. -/
theorem Tracked.setSession {advised : Prop} {s : State} (ok : Tracked advised s) {i : SessionId} {x : Session}
    (hx : SessionTracked advised x) (records : ∀ k, ∀ r ∈ s.slot k, r.session = i → x.work.state ≠ .closed)
    (limit : (recordsOf s i).length + x.held.length ≤ Config.trackedLimit) : Tracked advised (s.setSession i x) where
  record k r hr := by
    obtain ⟨recordOk, ho⟩ := ok.record k r hr
    refine ⟨recordOk, ?_⟩
    rw [session_setSession]
    split
    · next e => exact records k r hr e
    · exact ho
  session j := by
    rw [session_setSession]
    split
    · exact hx
    · exact ok.session j
  limit j := by
    have same : recordsOf (s.setSession i x) j = recordsOf s j := recordsOf_congr (fun _ => rfl) j
    rw [trackedCount, same, session_setSession]
    split
    · next e => exact e ▸ limit
    · exact ok.limit j

theorem refillTest_keepsTracked {i : SessionId} {s : State} (ho : (s.session i).work.state ≠ .closed) :
    KeepsTracked s (refillTest i s) := by
  unfold refillTest
  simp only
  split
  · exact (post_keepsTracked ..).after (setSession_keepsTracked (.of_open ho ho id le_rfl rfl id (.inl rfl)))
  · exact .refl s

/-- A segment is held only if it is not read to its end, where there is room for it (R76, R81). -/
theorem completeSegment_tracked {advised : Prop} {i : SessionId} {h : HeldSegment} {s : State} (ok : Tracked advised s)
    (ho : (s.session i).work.state ≠ .closed) (room : trackedCount i s < Config.trackedLimit)
    (lawful : h.consumed ≠ h.size → HeldOk h) : Tracked advised (completeSegment i h s) := by
  unfold completeSegment
  simp only
  split <;> [skip; split]
  · refine (setWork_keepsTracked ho ?_ ?_).tracked ok
    · exact ho
    · exact id
  · exact ok
  · next unread =>
    have own := ok.session i
    have held : SessionTracked advised { s.session i with held := insertHeld h (s.session i).held } :=
      { own with
        closed := fun h => absurd h ho
        held := fun g hg => by
          rcases mem_insertHeld.1 hg with rfl | hg
          · exact lawful unread
          · exact own.held g hg }
    have inserted := ok.setSession (i := i) held (fun _ _ _ _ => ho) (by
      rw [length_insertHeld]
      exact room)
    exact (refillTest_keepsTracked (by simpa using ho)).tracked inserted

/-! ### Arrivals and stalls -/

/-- The segment of a MEDIA record that is not read to its end (R60 step 6, R76). -/
theorem heldOk_of_recordOk {r : FetchRecord} {rung duration : Nat} (ok : RecordOk r) (media : r.kind = .media rung duration)
    (unread : r.consumed ≠ r.size) :
    HeldOk { serial := r.serial, base := r.base, size := r.size, duration := duration, consumed := r.consumed } := by
  obtain ⟨range, ⟨-, consumed⟩, -, -, -, -, kind, -⟩ := ok
  simp only [kindOk, media, Bool.and_eq_true, decide_eq_true_eq] at kind
  obtain ⟨⟨-, shortest⟩, longest⟩ := kind
  exact ⟨range, ⟨shortest, longest⟩, Nat.lt_of_le_of_ne consumed unread⟩

/-- A completed fetch leaves its slot, which makes the room for the segment it becomes (R60). -/
theorem completeFetch_tracked {advised : Prop} {k : Slot} {r : FetchRecord} {s : State} (n : Nat) (ok : Tracked advised s)
    (h : s.slot k = some r) : Tracked advised (completeFetch k { r with landed := n } s) := by
  obtain ⟨recordOk, ho⟩ := ok.record k r h
  have freed : KeepsTracked s (passParts k (freeSlot k s)) := by
    refine ⟨fun j q hq => ⟨q, ?_, rfl, id⟩, fun _ => .refl _⟩
    rw [passParts_slot, freeSlot_slot] at hq
    split at hq
    · cases hq
    · exact hq
  have room : trackedCount r.session (passParts k (freeSlot k s)) < Config.trackedLimit := by
    have limit := ok.limit r.session
    have same : recordsOf (passParts k (freeSlot k s)) r.session = recordsOf (s.setSlot k none) r.session := rfl
    unfold trackedCount at limit ⊢
    rw [recordsOf_free h] at limit
    rw [same, passParts_session, freeSlot_session]
    omega
  have posted := post_keepsTracked .fetchDone (sessionField r.session) (BitVec.ofNat 8 k.val) (BitVec.ofNat 32 r.size)
    (landingTicks s.timebase.tick { r with landed := n }) (passParts k (freeSlot k s))
  have done := freed.trans posted
  unfold completeFetch handOverCompletion postFetchDone
  simp only
  split
  · exact done.tracked ok
  · next media =>
    exact (offerCompletion_keepsTracked ..).tracked (completeSegment_tracked (done.tracked ok) (done.opened ho)
      ((posted.trackedCount_le _).trans_lt room) (heldOk_of_recordOk recordOk media))

/-- A record that lands and does not complete is as R49 says. -/
theorem recordOk_landed {r : FetchRecord} (ok : RecordOk r) (now : Tick) (tGap : Nat) {landed : Nat} (h : landed < r.size) :
    RecordOk (landedRecord now tGap landed r) := by
  obtain ⟨range, ⟨-, consumed⟩, -, -, -, -, kind, stalls⟩ := ok
  exact ⟨range, ⟨h, consumed⟩, by simp [landedRecord], rfl, nofun, fun _ => by simp [landedRecord], kind, stalls⟩

/-- A record that stalls is as R49 says. -/
theorem recordOk_stalled {r : FetchRecord} (ok : RecordOk r) :
    RecordOk { r with state := .stalled, deadline := none, stalls := bump r.stalls } := by
  obtain ⟨range, bounds, -, arrivals, -, -, kind, -⟩ := ok
  exact ⟨range, bounds, by simp, arrivals, nofun, nofun, kind, bump_le _⟩

theorem postRevive_keepsTracked (k : Slot) (r : FetchRecord) (s : State) : KeepsTracked s (postRevive k r s) := by
  unfold postRevive
  split
  · exact post_keepsTracked ..
  · exact .refl s

theorem creditRise_keepsTracked (r : FetchRecord) (landed : Nat) (s : State) : KeepsTracked s (creditRise r landed s) := by
  unfold creditRise
  split
  · exact .of_frame rfl rfl
  · exact .refl s

theorem takeArrival_tracked {advised : Prop} {s : State} (a : Arrival) (ok : Tracked advised s) :
    Tracked advised (takeArrival a s) := by
  unfold takeArrival
  split <;> [split; skip]
  · next r hr standing =>
    have credited : ∀ n, KeepsTracked s (creditRise r n (postRevive a.slot r s)) := fun n =>
      (postRevive_keepsTracked ..).trans (creditRise_keepsTracked ..)
    have slot : ∀ n, (creditRise r n (postRevive a.slot r s)).slot a.slot = some r := fun n => by
      rw [creditRise_slot, postRevive_slot, hr]
    unfold countArrival
    simp only
    split
    · exact completeFetch_tracked _ ((credited _).tracked ok) (slot _)
    · next short =>
      refine ((credited _).trans (setSlot_keepsTracked (slot _) ?_ fun lawful => ?_)).tracked ok
      · rfl
      · exact recordOk_landed lawful _ _ (by omega)
  · exact ok
  · exact ok

theorem expireDeadline_tracked {advised : Prop} {s : State} (gap : Bool) (k : Slot) (ok : Tracked advised s) :
    Tracked advised (expireDeadline gap k s) := by
  unfold expireDeadline
  split <;> [split; skip]
  · next r hr _ =>
    obtain ⟨-, ho⟩ := ok.record k r hr
    have stalled : KeepsTracked s (s.setSlot k (some { r with state := .stalled, deadline := none, stalls := bump r.stalls })) :=
      setSlot_keepsTracked hr rfl recordOk_stalled
    have counted := setWork_keepsTracked (w := { (s.session r.session).work with stalls := bump (s.session r.session).work.stalls })
      (stalled.opened ho) ho id
    exact ((stalled.trans counted).trans ((post_keepsTracked ..).trans (takeStall_keepsTracked ..))).tracked ok
  · exact ok
  · exact ok

/-! ### Consumer reads -/

/-- A read of a record raises its consumed HWM at most to its size, and only that of a MEDIA record (R82, R83). -/
theorem recordOk_consumed {r : FetchRecord} (ok : RecordOk r) (media : r.kind ≠ .other) (e : Nat) :
    RecordOk { r with consumed := min r.size (max r.consumed e) } := by
  obtain ⟨range, ⟨landed, -⟩, deadline, arrivals, pending, landing, kind, stalls⟩ := ok
  refine ⟨range, ⟨landed, Nat.min_le_left ..⟩, deadline, arrivals, pending, landing, ?_, stalls⟩
  cases hk : r.kind with
  | other => exact absurd hk media
  | media rung duration => simpa [kindOk, hk] using kind

theorem readHeld_length (q : Serial) (e : Nat) (x : Session) : (readHeld q e x).held.length ≤ x.held.length := by
  simpa using (readHeld_range q e x).length_le

theorem readHeld_kept (q : Serial) (e : Nat) {x : Session} (ho : x.work.state ≠ .closed) : SessionKept x (readHeld q e x) := by
  have frame : (readHeld q e x).work.state = x.work.state ∧ (readHeld q e x).work.prePause = x.work.prePause
      ∧ (readHeld q e x).prog = x.prog ∧ (readHeld q e x).advice = x.advice := by
    unfold readHeld
    simp only
    split <;> exact ⟨rfl, rfl, rfl, rfl⟩
  obtain ⟨state, prePause, prog, advice⟩ := frame
  exact .of_open ho (by rw [state]; exact ho) (readHeld_heldOk q e) (readHeld_length q e x) (by rw [prog])
    (by rw [prePause]; exact id) (.inl (by rw [advice]))

/-- A session with a held segment is open. -/
theorem Tracked.open_of_held {advised : Prop} {s : State} (ok : Tracked advised s) {i : SessionId} {h : HeldSegment}
    (hm : h ∈ (s.session i).held) : (s.session i).work.state ≠ .closed := fun closed => by
  rw [(ok.session i).closed closed] at hm
  cases hm

theorem applyPart_keepsTracked {advised : Prop} {s : State} (part : ConsumerPart) (ok : Tracked advised s) :
    KeepsTracked s (applyPart part s) := by
  unfold applyPart
  split <;> [split; skip]
  · next kr hm =>
    obtain ⟨k, matched, hk⟩ := Option.bind_eq_some_iff.1 hm
    obtain ⟨r, hr, rfl⟩ := Option.map_eq_some_iff.1 hk
    obtain ⟨q, hq, -, -, media⟩ := matchedSlot_some matched
    obtain rfl : r = q := Option.some.inj (hr.symm.trans hq)
    obtain ⟨-, ho⟩ := ok.record k r hr
    have raised : KeepsTracked s (s.setSlot k (some { r with consumed := min r.size (max r.consumed part.endOffset) })) :=
      setSlot_keepsTracked hr rfl fun lawful => recordOk_consumed lawful media _
    have skipped : SessionKept (s.session r.session) (skipTo r.serial (s.session r.session)) :=
      .of_open ho ho (fun held h hm => held h (List.mem_filter.1 hm).1) (List.length_filter_le ..) rfl id (.inl rfl)
    exact raised.trans (setSession_keepsTracked skipped)
  · simp only
    split
    · next holds =>
      obtain ⟨h, hm, -⟩ := (holdsSerial_iff ..).1 holds
      exact setSession_keepsTracked (readHeld_kept _ _ (ok.open_of_held hm))
    · exact .refl s
  · exact .refl s

/-- The parts of a read keep what is tracked, and the sessions that had a segment removed are open. -/
theorem applyParts_keepsTracked {advised : Prop} {s : State} (parts : List ConsumerPart) (ok : Tracked advised s) :
    KeepsTracked s (applyParts parts s).1
      ∧ ∀ i ∈ (applyParts parts s).2, ((applyParts parts s).1.session i).work.state ≠ .closed := by
  induction parts generalizing s with
  | nil => exact ⟨.refl s, nofun⟩
  | cons part rest ih =>
    have applied := applyPart_keepsTracked part ok
    obtain ⟨kept, opened⟩ := ih (applied.tracked ok)
    refine ⟨applied.trans kept, fun i hi => ?_⟩
    rw [applyParts] at hi ⊢
    simp only at hi
    split at hi
    · next removes =>
      rcases List.mem_cons.1 hi with rfl | hi
      · obtain ⟨-, -, h, hm, -⟩ := (removesByConsumption_iff ..).1 removes
        exact (applied.trans kept).opened (ok.open_of_held hm)
      · exact opened i hi
    · exact opened i hi

theorem judgeRead_keepsTracked {before : Nat} {consumed : Bool} {i : SessionId} {s : State}
    (ho : consumed = true → (s.session i).work.state ≠ .closed) : KeepsTracked s (judgeRead before consumed i s) := by
  have counted : consumed = true → KeepsTracked s (underrun i s) := fun hc =>
    (post_keepsTracked ..).after (setSession_keepsTracked (.of_open (ho hc) (ho hc) id le_rfl rfl id (.inl rfl)))
  have judged : KeepsTracked s
      (if consumed && (s.session i).held.isEmpty && (s.session i).work.state != .paused then underrun i s else s) := by
    split
    · next h => exact counted (by simp_all)
    · exact .refl s
  unfold judgeRead
  simp only
  split
  · exact judged.trans (panicCrossing_keepsTracked ..)
  · exact judged

theorem takeConsumerRead_tracked {advised : Prop} {s : State} (parts : List ConsumerPart) (ok : Tracked advised s) :
    Tracked advised (takeConsumerRead parts s) := by
  obtain ⟨applied, opened⟩ := applyParts_keepsTracked parts ok
  have judged : ∀ (is : List SessionId) (t : State), (∀ i ∈ (applyParts parts s).2, (t.session i).work.state ≠ .closed) →
      KeepsTracked t (is.foldl (fun t i => if parts.any (fun p => p.session == i) then
        judgeRead (bufferLevel (s.session i).held) ((applyParts parts s).2.contains i) i t else t) t) := by
    intro is
    induction is with
    | nil => exact fun t _ => .refl t
    | cons i is ih =>
      intro t ho
      have one : KeepsTracked t (if parts.any (fun p => p.session == i) then
          judgeRead (bufferLevel (s.session i).held) ((applyParts parts s).2.contains i) i t else t) := by
        split
        · exact judgeRead_keepsTracked fun hc => ho i (List.contains_iff_mem.1 hc)
        · exact .refl t
      exact one.trans (ih _ fun j hj => one.opened (ho j hj))
  exact (applied.trans (judged _ _ opened)).tracked ok

/-! ### The orders -/

/-- A part without records, all of its sessions CLOSED, tracks nothing. -/
theorem tracked_of_empty {advised : Prop} {s : State} (slot : ∀ k, s.slot k = none)
    (session : ∀ i, s.session i = Session.closed) : Tracked advised s where
  record k r hr := by simp [slot] at hr
  session i := session i ▸ sessionTracked_closed _
  limit i := by
    rw [trackedCount, recordsOf_eq_nil fun k r hr => by simp [slot] at hr, session]
    exact Nat.zero_le _

/-- An OPEN finds its session CLOSED, so without records, and leaves it open with an empty held list (R133). -/
theorem openEffect_tracked {advised : Prop} {i : SessionId} {f : OpenFields} {s : State} (ladder : f.ladder.length ≤ 8)
    (closed : (s.session i).work.state = .closed) (ok : Tracked advised s) : Tracked advised (openEffect i f s) := by
  have seeded : KeepsTracked s (seedMeter (f.seed.map seedValue) s) := by
    unfold seedMeter
    split <;> [skip; split] <;> exact .of_frame rfl rfl
  have fresh : ∀ seed,
      SessionTracked advised (openedSession (programmedOf f) s.meter.safety seed s.timebase.tick) := fun seed => by
    have started : firstState (programmedOf f) seed ≠ .closed := by unfold firstState; split <;> nofun
    exact ⟨nofun, fun h => absurd h started, fun _ => by simpa [openedSession, programmedOf] using ladder, nofun,
      fun _ => Nat.zero_le _⟩
  have absent : ∀ k, ∀ r ∈ (seedMeter (f.seed.map seedValue) s).slot k, r.session ≠ i := fun k r hr e => by
    obtain ⟨q, hq, session, -⟩ := seeded.slot k r hr
    obtain ⟨-, ho⟩ := ok.record k q hq
    exact ho (by rw [session, e, closed])
  have opened := (seeded.tracked ok).setSession (fresh (f.seed.map seedValue)) (fun k r hr e => absurd e (absent k r hr))
    (by rw [recordsOf_eq_nil absent]; exact Nat.zero_le _)
  have divided := (recompute_keepsTracked _).tracked opened
  unfold openEffect
  simp only
  split
  · exact (post_keepsTracked ..).tracked divided
  · exact divided

/-- CLOSE frees the session's records before it is zero (R135). -/
theorem closeEffect_tracked {advised : Prop} {i : SessionId} {s : State} (ok : Tracked advised s) :
    Tracked advised (closeEffect i s) := by
  have absent : ∀ k, ∀ r ∈ (freeSession i s).slot k, r.session ≠ i := fun k r hr e => by
    obtain ⟨-, slot, -⟩ := freeWhere_spec (fun r => r.session == i) s
    rw [freeSession, dropParts_slot, slot] at hr
    obtain ⟨-, kept⟩ := Option.mem_filter_iff.1 hr
    simp [e] at kept
  have emptied := ((freeSession_keepsTracked i s).tracked ok).setSession (sessionTracked_closed advised)
    (fun k r hr e => absurd e (absent k r hr)) (by rw [recordsOf_eq_nil absent]; exact Nat.zero_le _)
  exact (recompute_keepsTracked _).tracked emptied

theorem pauseEffect_keepsTracked {i : SessionId} {measure : Bool} {s : State} (ho : (s.session i).work.state ≠ .closed) :
    KeepsTracked s (pauseEffect i measure s) :=
  (recompute_keepsTracked _).after (setWork_keepsTracked ho nofun fun _ => ho)

/-- A RESUME enters a state that is not CLOSED, the pre-pause state or one of its own (R144, R145). -/
theorem resumeEffect_keepsTracked {i : SessionId} {s : State} (ho : (s.session i).work.state ≠ .closed)
    (prePause : (s.session i).work.prePause ≠ .closed) : KeepsTracked s (resumeEffect i s) := by
  have answered : ∀ {w : Working} {t : State}, Governs i (recompute (s.setWork i w)) t → w.state ≠ .closed →
      w.prePause = (s.session i).work.prePause →
      (w.state ≠ .closed → StaysOpen ((recompute (s.setWork i w)).session i).work (t.session i).work) → KeepsTracked s t := by
    intro w t governs hw same stays
    have entered := (recompute_keepsTracked _).after (setWork_keepsTracked ho hw fun h => by rw [same]; exact h)
    exact entered.trans (governs.keepsTracked (entered.opened ho) (stays hw))
  unfold resumeEffect resumeToFallback resumeByMode
  simp only
  split <;> [skip; split]
  · exact answered (publishLo_governs ..) nofun rfl fun _ => publishLo_staysOpen _ _ _ (by simp)
  · exact answered (resumeHeld_governs ..) prePause rfl fun _ => resumeHeld_staysOpen _ _ (by simpa using prePause)
  · exact answered (publishLo_governs ..) nofun rfl fun _ => publishLo_staysOpen _ _ _ (by simp)
  · exact answered (startProbe_governs ..) nofun rfl fun _ => startProbe_staysOpen ..

/-- The range, the rung and the duration of a FETCH that passes its checks are as R49 says (R33, R34). -/
theorem recordOk_announced {i : SessionId} {f : FetchFields} {s : State} (h : fetchCause i f s = none)
    (ladder : (s.session i).prog.ladder.length ≤ 8) : RecordOk (announcedRecord i f s) := by
  unfold fetchCause at h
  simp only at h
  split_ifs at h with bad rung
  rw [badRange_iff] at bad
  have range : 1 ≤ f.size.toNat ∧ f.size.toNat ≤ Config.maxFetchSize ∧ f.base.toNat % 16 = 0
      ∧ f.base.toNat + f.size.toNat ≤ Config.channelSize := by
    have size : Config.maxFetchSize = 67108864 := rfl
    have channel : Config.channelSize = 2 ^ 36 := rfl
    omega
  have kind : kindOk (announcedRecord i f s) = true := by
    simp only [kindOk, announcedRecord, announcedKind_eq]
    by_cases media : f.duration.toNat ≠ 0
    · have : f.rung.toNat ≤ 7 := by omega
      simp [media, this]
    · simp [media]
  exact ⟨range, ⟨range.1, Nat.zero_le _⟩, by simp [announcedRecord], rfl, fun _ => ⟨rfl, rfl⟩, nofun, kind,
    Nat.zero_le _⟩

/-- A record fills a free slot where its session has room for it (R34, R76). -/
theorem Tracked.fill {advised : Prop} {s : State} (ok : Tracked advised s) {k : Slot} {r : FetchRecord} (free : s.slot k = none)
    (recordOk : RecordOk r) (ho : (s.session r.session).work.state ≠ .closed)
    (room : trackedCount r.session s < Config.trackedLimit) : Tracked advised (s.setSlot k (some r)) where
  record j q hq := by
    rw [slot_setSlot] at hq
    split at hq
    · cases hq
      exact ⟨recordOk, ho⟩
    · exact ok.record j q hq
  session := ok.session
  limit i := by
    have others := ok.limit i
    unfold trackedCount at others room ⊢
    rw [recordsOf_fill free, setSlot_session]
    split
    · next e =>
      subst e
      omega
    · exact others

/-- A taken FETCH adds one record to a session with room for it, and announces it to that session. -/
theorem fetchEffect_tracked {advised : Prop} {i : SessionId} {f : FetchFields} {s : State} (h : fetchCause i f s = none)
    (ho : (s.session i).work.state ≠ .closed) (ok : Tracked advised s) : Tracked advised (fetchEffect i f s).1 := by
  have room : trackedCount i s < Config.trackedLimit := by
    unfold fetchCause at h
    simp only at h
    split_ifs at h
    omega
  unfold fetchEffect
  split
  · exact ok
  · next k hk =>
    have free : s.slot k = none := mem_freeSlots.1 (List.mem_of_mem_head? hk)
    have filled := ok.fill free (recordOk_announced h ((ok.session i).ladder ho)) ho room
    have announced : SessionKept (s.session i) (announceTo (announcedKind f) (s.session i)) := by
      unfold announceTo
      cases announcedKind f <;> exact .of_open ho ho id le_rfl rfl id (.inl rfl)
    exact (setSession_keepsTracked (s := s.setSlot k _) announced).tracked filled

theorem setupEffect_keepsTracked (tag : Tag) (f : SetupFields) (s : State) : KeepsTracked s (setupEffect tag f s) := by
  unfold setupEffect
  simp only
  split
  · exact (handOverLink_keepsTracked _).after (.of_frame rfl rfl)
  · exact .of_frame rfl rfl

/-- An order that needs a session, other than an OPEN, passes its state stage only while the session is open (R23). -/
theorem open_of_stateCause {i : SessionId} {o : Order} {s : State} (h : stateCause i o s = none) (needs : needsSession o = true)
    (other : ∀ f, o ≠ .openSession f) : (s.session i).work.state ≠ .closed := by
  intro closed
  cases o with
  | openSession f => exact other f rfl
  | setup | reset | reacquire => cases needs
  | closeSession | window | pause | resume | recover | continueRung | fetch | abort | flush =>
    simp [stateCause, stateMust, closed] at h

theorem orderEffect_tracked {advised : Prop} (tag : Tag) (field : BitVec 4) (o : Order) (s : State)
    (h : refusalCause field o s = none) (ok : Tracked advised s) :
    Tracked advised (orderEffect tag (sessionOf field) o s).1 := by
  obtain ⟨length, -, state, content⟩ := refusalCause_eq_none_iff.1 h
  generalize sessionOf field = i at state content ⊢
  have own := ok.session i
  cases o <;> simp only [orderEffect]
  case setup f => exact (setupEffect_keepsTracked ..).tracked ok
  case openSession f => exact openEffect_tracked (by simp [lengthCause] at length; omega) (by simpa [stateCause] using state) ok
  case closeSession => exact closeEffect_tracked ok
  case window f =>
    have ho := open_of_stateCause state rfl nofun
    have windowed : SessionKept (s.session i) { s.session i with prog := windowedBy f (s.session i).prog } :=
      .of_open ho ho id le_rfl rfl id (.inl rfl)
    exact (((setSession_keepsTracked windowed).trans (recompute_keepsTracked _)).trans (takeWindow_keepsTracked ..)).tracked ok
  case pause m => exact (pauseEffect_keepsTracked (open_of_stateCause state rfl nofun)).tracked ok
  case resume =>
    have ho := open_of_stateCause state rfl nofun
    exact (resumeEffect_keepsTracked ho (own.prePause ho)).tracked ok
  case recover =>
    have ho := open_of_stateCause state rfl nofun
    exact ((recoverSession_governs ..).keepsTracked ho (recoverSession_staysOpen ..)).tracked ok
  case continueRung =>
    have ho := open_of_stateCause state rfl nofun
    have steady : KeepsTracked s (continueEffect i s) := setWork_keepsTracked ho nofun id
    exact steady.tracked ok
  case fetch f => exact fetchEffect_tracked content (open_of_stateCause state rfl nofun) ok
  case abort base => exact (freeWhere_keepsTracked ..).tracked ok
  case flush =>
    have ho := open_of_stateCause state rfl nofun
    have emptied : ∀ t, (t.session i).work.state ≠ .closed →
        KeepsTracked t (t.setSession i { t.session i with held := [], position := none, rebuffering := false }) := fun t ht =>
      setSession_keepsTracked (.of_open ht ht (fun _ => nofun) (Nat.zero_le _) rfl id (.inl rfl))
    have freed := freeSession_keepsTracked i s
    exact (freed.trans (emptied _ (freed.opened ho))).tracked ok
  case reset =>
    rw [resetEffect, freeAll_eq]
    exact tracked_of_empty (fun k => by simp [State.slot]) fun j => by simp [State.session]
  case reacquire =>
    have acquired : KeepsTracked s (reacquireEffect s) := by
      unfold reacquireEffect
      split <;> exact .of_frame rfl rfl
    exact acquired.tracked ok

/-! ### Every step -/

theorem endWindow_keepsTracked (s : State) : KeepsTracked s (endWindow s) := by
  unfold endWindow
  simp only
  split
  · exact .of_frame rfl rfl
  · exact (handOverLink_keepsTracked _).after (.of_frame rfl rfl)

theorem takeOwedTick_keepsTracked (s : State) : KeepsTracked s (takeOwedTick s) := by
  unfold takeOwedTick meterTick
  simp only
  split <;> [split; skip]
  · exact (endWindow_keepsTracked _).after (.of_frame rfl rfl)
  · exact .of_frame rfl rfl
  · exact .refl s

theorem loseReference_keepsTracked (s : State) : KeepsTracked s (loseReference s) := by
  unfold loseReference
  split
  · exact .refl s
  · exact .of_frame rfl rfl
  · exact (post_keepsTracked ..).after (.of_frame rfl rfl)

/-- A read of an advice slot sets the flag of an open session alone (R182). -/
theorem markTaken_keepsTracked (address length : Nat) (s : State) : KeepsTracked s (markTaken address length s) :=
  .of_slots (fun _ => rfl) fun i => by
    have own : (markTaken address length s).session i = { s.session i with
        taken := (s.session i).taken || (isOpen (s.session i) && overlapsSlot s address length i) } :=
      Vector.getElem_ofFn ..
    rw [own]
    by_cases ho : (s.session i).work.state = .closed
    · have unmarked : ((s.session i).taken || (isOpen (s.session i) && overlapsSlot s address length i))
          = (s.session i).taken := by
        simp [isOpen, ho]
      rw [unmarked]
      exact .refl _
    · exact .of_open ho ho id le_rfl rfl id (.inl rfl)

theorem tracked_stepClosed (advised : Prop) : StepClosed fun s t => Tracked advised s → Tracked advised t where
  refl _ := id
  trans h h' := h' ∘ h
  outside _ _ _ _ _ ok := ok.of_frame rfl rfl
  powerOn _ _ _ _ := tracked_of_empty (fun k => by simp [State.slot, powerOn, State.reset]) fun i => by
    simp [State.session, powerOn, State.reset]
  post _ _ _ _ _ _ := (post_keepsTracked ..).tracked
  order := orderEffect_tracked
  arrival a _ := takeArrival_tracked a
  consumerRead parts _ := takeConsumerRead_tracked parts
  pop _ ok := ok.of_frame (by rw [popEvent_eq]) (by rw [popEvent_eq])
  mark _ _ _ := (markTaken_keepsTracked ..).tracked
  firstByte k _ := expireDeadline_tracked false k
  gap k _ := expireDeadline_tracked true k
  owedTick _ := (takeOwedTick_keepsTracked _).tracked
  tick _ ok := ok.of_frame rfl rfl
  edge _ _ ok := ok.of_frame rfl rfl
  loss _ := (loseReference_keepsTracked _).tracked
  regain _ ok := ok.of_frame rfl rfl

/-- Settles O8: of the session law `Tracked` keeps by itself what the tracking law rests on, so no step needs the rest of it. -/
theorem stepsKeepTheTrackingLaw : Obligations.StepsKeepTheTrackingLaw := by
  intro s t sessions tracking limit hs
  have opened : ∀ i, (s.session i).work.state ≠ .closed →
      (s.session i).prog.ladder.length ≤ 8 ∧ (s.session i).work.prePause ≠ .closed := fun i ho => by
    obtain ⟨⟨⟨⟨-, ladder⟩, -⟩, -⟩, -, ⟨prePause, -⟩, -⟩ := sessions i ho
    exact ⟨ladder, prePause⟩
  have step := (tracked_stepClosed (AdviceOk s)).step hs (tracked_iff.2 ⟨tracking, limit, id, opened⟩)
  obtain ⟨tracking', limit', advice, -⟩ := tracked_iff.1 step
  exact ⟨tracking', limit', advice⟩

end Sys2Proof.Machine
end

section
/-! PROOFS. Arrivals, the completion of a fetch and what the session governor makes of it, and the end of a window. -/

namespace Sys2Proof.Machine

/-! ### Arrivals -/

theorem isMeasuring_iff {x : Session} : isMeasuring x = true ↔ x.work.state ≠ .paused ∨ x.work.measure = true := by
  simp [isMeasuring]

/-- Posting REVIVE changes only the event queue (R59). -/
theorem postRevive_governs (i : SessionId) (k : Slot) (r : FetchRecord) (s : State) : Governs i s (postRevive k r s) := by
  unfold postRevive
  split
  · exact post_governs ..
  · exact .refl ..

/-- The credited bytes of the window once the landed HWM of `r` has risen to `landed` (R56, R99). -/
def creditedAfter (r : FetchRecord) (landed : Nat) (s : State) : Nat :=
  if (s.session r.session).work.state ≠ .paused ∨ (s.session r.session).work.measure = true
    then min (2 ^ 48 - 1) (s.meter.credited + (landed - r.landed)) else s.meter.credited

/-- Before an arrival is counted, REVIVE is posted and the rise credited (R56, R59). -/
theorem creditRise_postRevive (k : Slot) (r : FetchRecord) (landed : Nat) (s : State) :
    creditRise r landed (postRevive k r s)
      = { postRevive k r s with meter := { s.meter with credited := creditedAfter r landed s } } := by
  have governs := postRevive_governs r.session k r s
  have session : (postRevive k r s).session r.session = s.session r.session := by
    unfold postRevive
    split <;> simp
  unfold creditRise creditedAfter
  simp only [session, isMeasuring_iff]
  split
  · rw [credit, governs.meter]
    rfl
  · rw [← governs.meter]

/-- Before an arrival is counted, the time, the timeouts and what is in flight stay. -/
theorem creditRise_postRevive_frame (k : Slot) (r : FetchRecord) (landed : Nat) (s : State) :
    (creditRise r landed (postRevive k r s)).timebase = s.timebase
      ∧ (creditRise r landed (postRevive k r s)).tracker = s.tracker
      ∧ (creditRise r landed (postRevive k r s)).inFlight = s.inFlight := by
  have governs := postRevive_governs r.session k r s
  rw [creditRise_postRevive]
  exact ⟨governs.timebase, governs.tracker, governs.inFlight⟩

/-- An arrival short of the size (R55 to R59). -/
theorem countArrival_short (k : Slot) {e : Nat} {r : FetchRecord} (s : State) (h : max r.landed e < r.size) :
    countArrival k e r s
      = { postRevive k r s with meter := { s.meter with credited := creditedAfter r (max r.landed e) s } }.setSlot k
          (some (landedRecord s.timebase.tick s.tracker.tGap (max r.landed e) r)) := by
  obtain ⟨timebase, tracker, -⟩ := creditRise_postRevive_frame k r (max r.landed e) s
  simp only [countArrival, Nat.min_eq_right h.le, if_neg h.ne]
  rw [timebase, tracker, creditRise_postRevive]

/-- An arrival that reaches the size (R60). -/
theorem countArrival_whole (k : Slot) {e : Nat} {r : FetchRecord} (s : State) (h : r.size ≤ max r.landed e) :
    countArrival k e r s = completeFetch k { r with landed := r.size }
      { postRevive k r s with meter := { s.meter with credited := creditedAfter r r.size s } } := by
  simp only [countArrival, Nat.min_eq_left h, if_true, creditRise_postRevive]

theorem exec_arrival {n : Nat} {a : Arrival} {s : State} (h : s.inFlight.arrivals[n]? = some a) :
    exec (.arrival n) s
      = .next (takeArrival a { s with inFlight := { s.inFlight with arrivals := s.inFlight.arrivals.eraseIdx n } }) := by
  show Host.Outcome.next (takeArrivalAt n s) = _
  simp only [takeArrivalAt, h]

theorem takeArrival_standing {a : Arrival} {r : FetchRecord} {s : State} (hr : s.slot a.slot = some r)
    (standing : a.standing = true) : takeArrival a s = countArrival a.slot a.endOffset r s := by
  simp only [takeArrival, hr, standing, if_true]

/-- Settles O40: an arrival whose record is gone is dropped, and one short of the size is `countArrival_short`. -/
theorem arrivalIsCountedOrDropped : Obligations.ArrivalIsCountedOrDropped := by
  intro n a s ha u
  have taken : exec (.arrival n) s = .next (takeArrival a u) := exec_arrival ha
  refine ⟨fun dropped => ?_, ?_⟩
  · rw [taken, takeArrival]
    rcases dropped with fallen | free
    · split <;> simp [fallen]
    · simp only [show u.slot a.slot = none from free]
  · intro r standing hr hle landed v measuring credited short
    rw [taken, takeArrival_standing (s := u) hr standing, countArrival_short a.slot u short]
    rfl

/-- The slot of a completed fetch is free and what is in flight for it is marked (R54, R60, R82), before FETCH_DONE is posted and
the segment handed over. -/
theorem completeFetch_eq (k : Slot) (r : FetchRecord) {s : State} {f : InFlight} {now : Tick} (hf : s.inFlight = f)
    (hnow : s.timebase.tick = now) :
    completeFetch k r s = handOverCompletion r (landingTicks now r) (postFetchDone k r (landingTicks now r)
      { s.setSlot k none with inFlight :=
        { orderWords := f.orderWords
          arrivals := f.arrivals.map fun a => if a.slot = k then { a with standing := false } else a
          consumerReads := f.consumerReads.map (List.map fun c => if c.slot = some k then { c with slot := none } else c) } }) := by
  subst hf hnow
  rfl

/-- Settles O41: `countArrival_whole` completes the fetch, and the kind of the record says whether a segment is handed over. -/
theorem arrivalCompletesTheFetch : Obligations.ArrivalCompletesTheFetch := by
  intro n a r s ha standing hr hle whole u v measuring credited landing sample done
  have taken : exec (.arrival n) s = .next (takeArrival a u) := exec_arrival ha
  have governs : Governs r.session u v := postRevive_governs r.session a.slot r u
  have completed : exec (.arrival n) s = .next (handOverCompletion { r with landed := r.size } landing done) := by
    rw [taken, takeArrival_standing (s := u) hr standing, countArrival_whole a.slot u whole,
      completeFetch_eq (f := u.inFlight) (now := s.timebase.tick)]
    · rfl
    · exact governs.inFlight
    · exact congrArg Timebase.tick governs.timebase
  refine ⟨fun other => ?_, fun rung duration media => ?_⟩
  · rw [completed, handOverCompletion]
    simp only [other]
  · rw [completed, handOverCompletion]
    simp only [media]
    rfl

/-! ### The session governor at a completion -/

/-- A probe that goes on (R145, R172): at the midpoint of its bounds, or converged where they have met. -/
theorem continueProbe_eq (i : SessionId) (reason : Reason) (s : State) {w : Working} (hw : (s.session i).work = w) :
    continueProbe i reason s =
      if w.a = w.b then
        post .probeDone (sessionField i) 0 (BitVec.ofNat 32 w.a) (BitVec.ofNat 32 w.probeSteps)
          (publish i w.a reason (s.setWork i { w with state := .steady, upStreak := 0 }))
      else publish i (w.a + (w.b - w.a + 1) / 2) reason (s.setWork i { w with state := .probing }) := by
  subst hw
  rfl

/-- Settles O43: the session's state names the act, and a probe step goes on by its narrowed bounds. -/
theorem completionReachesTheGovernor : Obligations.CompletionReachesTheGovernor := by
  intro i rung landing sample s x p offered f good ab stepped counted
  have probed : x.work.state = .probing → offered = continueProbe i .probe (s.setWork i stepped) := fun h => by
    show offerCompletion i rung landing sample s = _
    simp only [offerCompletion, show (s.session i).work.state = _ from h]
    rfl
  have bounds : ((s.setWork i stepped).session i).work = stepped := by simp
  have fallback : x.work.state = .fallback → offered = fallbackCompletion i s := fun h => by
    show offerCompletion i rung landing sample s = _
    simp only [offerCompletion, show (s.session i).work.state = _ from h]
  refine ⟨fun h apart => ?_, fun h met => ?_, fun h => ?_, fun h below => ?_, fun h enabled reached => ?_, fun h => ?_⟩
  · have probing : { stepped with state := .probing } = stepped := by rw [← h]
    rw [probed h, continueProbe_eq i _ _ bounds, if_neg apart, probing, setWork_setWork]
  · rw [probed h, continueProbe_eq i _ _ bounds, if_pos met, setWork_setWork]
  · show offerCompletion i rung landing sample s = _
    rcases h with h | h <;> simp only [offerCompletion, show (s.session i).work.state = _ from h, h] <;> rfl
  · have stays : ((s.setWork i { x.work with recovering := counted }).session i).prog = p := by simp [x, p]
    rw [fallback h, fallbackCompletion]
    simp only
    rw [if_neg below, publishLo, stays]
  · rw [fallback h]
    exact if_pos ⟨enabled, reached⟩
  · show offerCompletion i rung landing sample s = _
    simp only [offerCompletion, show (s.session i).work.state = _ from h]

/-! ### The end of a window -/

/-- The landing set holds a record (R69). -/
theorem landingSetEmpty_eq_false_iff (s : State) : landingSetEmpty s = false ↔ ∃ k r, s.slot k = some r ∧ r.state = .landing
    ∧ ((s.session r.session).work.state ≠ .paused ∨ (s.session r.session).work.measure = true) := by
  rw [landingSetEmpty, List.all_eq_false]
  simp only [List.mem_finRange, true_and]
  refine exists_congr fun k => ?_
  cases s.slot k with
  | none => simp
  | some r => simp [isMeasuring_iff]

/-- The state once the tick the meter is owed is counted, as busy with `landing` (R97). -/
def tickCounted (landing : Bool) (s : State) : State :=
  { s with meter := { s.meter with
      tickOwed := false, elapsed := s.meter.elapsed + 1, busy := s.meter.busy + if landing then 1 else 0 } }

/-- The tick the meter is owed: counted, and the end of the window if it makes W (R97, R98). -/
theorem exec_windowEnd {landing : Bool} {s : State} (owed : s.meter.tickOwed = true) (h : landingSetEmpty s = !landing) :
    exec .windowEnd s = .next (if s.meter.elapsed + 1 = s.meter.window then endWindow (tickCounted landing s)
      else tickCounted landing s) := by
  have counted : { s with meter := { s.meter with
      tickOwed := false
      elapsed := s.meter.elapsed + 1
      busy := if landingSetEmpty s then s.meter.busy else s.meter.busy + 1 } } = tickCounted landing s := by
    rw [h]
    cases landing <;> rfl
  show Host.Outcome.next (takeOwedTick s) = _
  rw [takeOwedTick, if_pos owed, meterTick]
  simp only [counted]

/-- A window that was busy for half its length or more gives its sample (R100). -/
theorem endWindow_sampled {s : State} (h : s.meter.window ≤ 2 * s.meter.busy) :
    endWindow s = handOverLink { s with meter := restartWindow (takeSample s.timebase.coarse (windowSample s.meter) s.meter) } := by
  simp [endWindow, windowDiscarded, h]

/-- Settles O50: the tick is counted, and at W `endWindow` discards the window or takes its sample, by the meter's state. -/
theorem windowEndJudgesTheWindow : Obligations.WindowEndJudgesTheWindow := by
  intro landing s owed hlanding m busy next x toward linked
  have empty : landingSetEmpty s = !landing := by
    rw [← landingSetEmpty_eq_false_iff] at hlanding
    cases landing <;> simp_all
  have ended : m.elapsed + 1 = m.window → exec .windowEnd s = .next (endWindow (tickCounted landing s)) := fun h => by
    rw [exec_windowEnd owed empty, if_pos h]
  have sampled : m.elapsed + 1 = m.window → m.window ≤ 2 * busy → exec .windowEnd s = .next (handOverLink
      { s with meter := restartWindow (takeSample s.timebase.coarse x (tickCounted landing s).meter) }) := fun h half => by
    rw [ended h, endWindow_sampled half]
    rfl
  refine ⟨fun h => ?_, fun h idle => ?_, fun h half unset => ?_, fun h half set => ?_⟩
  · rw [exec_windowEnd owed empty, if_neg h]
    rfl
  · have discarded : endWindow (tickCounted landing s) = { s with meter := next } :=
      if_pos (decide_eq_true (show 2 * (tickCounted landing s).meter.busy < _ from idle))
    rw [ended h, discarded]
  · have meter : restartWindow (takeSample s.timebase.coarse x (tickCounted landing s).meter)
        = restartWindow (withLink { (tickCounted landing s).meter with vFast := 16 * x, vSlow := 16 * x, set := true }) :=
      congrArg restartWindow (if_neg (by simp [tickCounted, show s.meter.set = false from unset]))
    rw [sampled h half, meter]
    rfl
  · have meter : restartWindow (takeSample s.timebase.coarse x (tickCounted landing s).meter)
        = restartWindow (withLink { (tickCounted landing s).meter with
            vFast := if s.timebase.coarse then m.vFast else smoothed m.vFast x m.kFast
            vSlow := smoothed m.vSlow x m.kSlow }) :=
      congrArg restartWindow (if_pos set)
    rw [sampled h half, meter]
    rfl

end Sys2Proof.Machine
end

section
/-! PROOFS. The report aperture, block by block: each word at its place, with its fields at the bits R195 gives them. A word is
compared as a number: `word_eq` and `append_toNat` leave an equation between sums of fields. -/

namespace Sys2Proof.Machine

section blocks
variable (pops : Bool) (s : State)

/-- The summary word, field by field (R178). -/
theorem summaryWord_eq : summaryWord s =
    0#3 ++ BitVec.ofNat 5 ((List.finRange 16).countP fun k => (s.slot k).isSome) ++ 0#4
      ++ BitVec.ofBool (isOpen (s.session 3)) ++ BitVec.ofBool (isOpen (s.session 2))
      ++ BitVec.ofBool (isOpen (s.session 1)) ++ BitVec.ofBool (isOpen (s.session 0)) ++ 0#5
      ++ BitVec.ofBool (s.assembler.assembly != .idle) ++ BitVec.ofBool s.meter.set
      ++ BitVec.ofBool s.arbiter.starved ++ BitVec.ofBool s.timebase.coarse ++ BitVec.ofBool s.report.lost
      ++ BitVec.ofNat 6 s.report.events.length := by
  refine word_eq ?_
  simp only [field, flag_toNat, openMask_eq, fetchCount, isAssembling, append_toNat, BitVec.toNat_ofNat]
  omega

/-- The summary word stands at six places of the aperture (R178). -/
theorem reportWord_summary : reportWord pops s 0x200 = summaryWord s ∧ reportWord pops s 0x240 = summaryWord s
    ∧ ∀ i : SessionId, reportWord pops s (0x280 + 32 * i.val) = summaryWord s := by
  refine ⟨rfl, rfl, fun i => ?_⟩
  have hi := i.isLt
  have first : (0x280 + 32 * i.val) % 32 / 4 = 0 := by omega
  unfold reportWord
  simp only [first]
  rw [if_neg (by omega), if_neg (by omega), if_neg (by omega), if_pos (by omega), if_pos trivial]

/-- The status block after the summary word (R179). -/
theorem reportWord_status :
    reportWord pops s 0x204 = s.assembler.last.slot ++ s.assembler.last.code ++ 0#4 ++ s.assembler.last.session
        ++ s.assembler.last.kind
      ∧ reportWord pops s 0x208 = 0#16 ++ s.assembler.last.count
      ∧ reportWord pops s 0x20C = s.timebase.tick
      ∧ reportWord pops s 0x210 = 0#4 ++ s.classifier.straps ++ 0#14 ++ BitVec.ofBool (s.timebase.presence == .absent)
          ++ BitVec.ofBool (s.timebase.source == .internal)
      ∧ reportWord pops s 0x214 = (s.session 1).nextSerial ++ (s.session 0).nextSerial
      ∧ reportWord pops s 0x218 = (s.session 3).nextSerial ++ (s.session 2).nextSerial
      ∧ reportWord pops s 0x21C = 0
      ∧ reportWord pops s 0x220 = BitVec.ofNat 16 s.meter.window ++ BitVec.ofNat 16 s.timebase.divider
      ∧ reportWord pops s 0x224 = BitVec.ofNat 16 s.minProbe ++ BitVec.ofNat 16 s.meter.safety
      ∧ reportWord pops s 0x228 = BitVec.ofNat 16 (s.tracker.tGap / 10) ++ BitVec.ofNat 16 (s.tracker.tFirst / 10)
      ∧ reportWord pops s 0x22C = 0#8 ++ BitVec.ofNat 4 s.meter.kSlow ++ BitVec.ofNat 4 s.meter.kFast ++ s.report.mask
      ∧ ∀ j < 4, reportWord pops s (0x230 + 4 * j) = 0 := by
  refine ⟨word_eq ?_, word_eq ?_, word_eq ?_, word_eq ?_, word_eq ?_, word_eq ?_, rfl, word_eq ?_, word_eq ?_, word_eq ?_,
    word_eq ?_, fun j hj => ?_⟩
  case refine_11 => interval_cases j <;> rfl
  all_goals
    simp only [statusWord, field, flag_toNat, append_toNat, BitVec.toNat_ofNat, Config.ticksPerMs]
    omega

/-- The event window after the summary word (R186 to R188). -/
theorem reportWord_eventWindow :
    reportWord pops s 0x244 = 0 ∧ reportWord pops s 0x248 = 0 ∧ reportWord pops s 0x24C = 0
      ∧ reportWord pops s 0x250 = 0#8 ++ (windowRecord pops s).code ++ 0#4 ++ (windowRecord pops s).session
          ++ (windowRecord pops s).kind.code
      ∧ reportWord pops s 0x254 = (windowRecord pops s).stamp ∧ reportWord pops s 0x258 = (windowRecord pops s).valueA
      ∧ reportWord pops s 0x25C = (windowRecord pops s).valueB := by
  refine ⟨rfl, rfl, rfl, word_eq ?_, word_eq ?_, word_eq ?_, word_eq ?_⟩
  all_goals
    simp only [eventWord, field, append_toNat, BitVec.toNat_ofNat]
    omega

/-- The link block (R113, R180). -/
theorem reportWord_link :
    reportWord pops s 0x260 = BitVec.ofNat 32 (s.meter.link.getD 0)
      ∧ reportWord pops s 0x264 = BitVec.ofNat 32 (s.meter.vFast / 16)
      ∧ reportWord pops s 0x268 = BitVec.ofNat 32 (s.meter.vSlow / 16)
      ∧ reportWord pops s 0x26C = BitVec.ofNat 32 s.arbiter.headroom
      ∧ reportWord pops s 0x270 = 0#31 ++ BitVec.ofBool s.meter.set
      ∧ reportWord pops s 0x274 = BitVec.ofNat 16 s.meter.busy ++ BitVec.ofNat 16 s.meter.elapsed
      ∧ reportWord pops s 0x278 = BitVec.ofNat 32 (min s.meter.credited 4294967295) ∧ reportWord pops s 0x27C = 0 := by
  refine ⟨rfl, rfl, rfl, rfl, word_eq ?_, word_eq ?_, rfl, rfl⟩
  all_goals
    simp only [linkWord, field, flag_toNat, append_toNat, BitVec.toNat_ofNat]
    omega

end blocks

/-! ### The blocks of a session and of a slot -/

/-- An advice slot of an open session after the summary word (R181). -/
theorem adviceWord_open {x : Session} (ho : isOpen x = true) :
    BitVec.ofNat 32 (adviceWord x 1) = 0#6 ++ BitVec.ofBool x.taken ++ BitVec.ofBool x.advice.superseded ++ 0#5
        ++ BitVec.ofNat 3 x.advice.state.code ++ 0#4 ++ BitVec.ofNat 4 x.advice.reason.code ++ 0#5 ++ BitVec.ofNat 3 x.advice.rung
      ∧ BitVec.ofNat 32 (adviceWord x 2) = 0#16 ++ x.advice.count
      ∧ BitVec.ofNat 32 (adviceWord x 3) = BitVec.ofNat 32 x.advice.buffer
      ∧ BitVec.ofNat 32 (adviceWord x 4) = x.advice.tick
      ∧ BitVec.ofNat 32 (adviceWord x 5) = BitVec.ofNat 32 x.share
      ∧ BitVec.ofNat 32 (adviceWord x 6) = 0 ∧ BitVec.ofNat 32 (adviceWord x 7) = 0 := by
  refine ⟨word_eq ?_, word_eq ?_, congrArg _ (if_pos ho), word_eq ?_, congrArg _ (if_pos ho), congrArg _ (if_pos ho),
    congrArg _ (if_pos ho)⟩
  all_goals
    simp only [adviceWord, ho, if_true, field, flag_toNat, append_toNat, BitVec.toNat_ofNat]
    omega

/-- The programmed half in a snapshot (R152, R183). -/
theorem openSnapshotWord_programmed (x : Session) :
    BitVec.ofNat 32 (openSnapshotWord x 0) = 0#2 ++ BitVec.ofNat 2 x.prog.resumeMode.code ++ BitVec.ofNat 4 x.prog.upCount
        ++ BitVec.ofNat 8 x.prog.weight ++ 0#1 ++ BitVec.ofNat 3 x.prog.hi ++ 0#1 ++ BitVec.ofNat 3 x.prog.lo
        ++ BitVec.ofNat 2 x.prog.recoverMode.code ++ BitVec.ofNat 1 x.prog.clip.code ++ 0#1 ++ BitVec.ofNat 4 x.prog.ladder.length
      ∧ BitVec.ofNat 32 (openSnapshotWord x 1) = 0#8 ++ BitVec.ofNat 4 x.prog.autoRecover ++ x.prog.consumerTag
        ++ BitVec.ofNat 16 x.prog.panic
      ∧ BitVec.ofNat 32 (openSnapshotWord x 2) = 0#16 ++ BitVec.ofNat 16 x.prog.comfort
      ∧ BitVec.ofNat 32 (openSnapshotWord x 3) = 0
      ∧ ∀ j < 8, BitVec.ofNat 32 (openSnapshotWord x (4 + j)) = 0#8 ++ BitVec.ofNat 24 (x.prog.ladder.getD j 0) := by
  have rung : ∀ j < 8, openSnapshotWord x (4 + j) = field (x.prog.ladder.getD j 0) 24 0 := fun j hj => by
    interval_cases j <;> rfl
  refine ⟨word_eq ?_, word_eq ?_, word_eq ?_, rfl, fun j hj => word_eq ?_⟩
  case refine_4 => rw [rung j hj]; simp only [field, append_toNat, BitVec.toNat_ofNat]; omega
  all_goals
    simp only [openSnapshotWord, field, append_toNat, BitVec.toNat_ofNat]
    omega

/-- The working half and the advice's count in a snapshot (R152, R183). -/
theorem openSnapshotWord_working (x : Session) :
    BitVec.ofNat 32 (openSnapshotWord x 12) = 0#1 ++ BitVec.ofNat 3 x.work.preFallback ++ BitVec.ofNat 4 x.work.upStreak ++ 0#1
        ++ BitVec.ofNat 3 x.work.b ++ 0#1 ++ BitVec.ofNat 3 x.work.a ++ 0#1 ++ BitVec.ofNat 3 x.advice.rung ++ 0#1
        ++ BitVec.ofNat 3 x.work.current ++ BitVec.ofBool x.work.measure ++ BitVec.ofNat 3 x.work.prePause.code ++ 0#1
        ++ BitVec.ofNat 3 x.work.state.code
      ∧ BitVec.ofNat 32 (openSnapshotWord x 13) = BitVec.ofNat 16 x.work.probeSteps ++ 0#12 ++ BitVec.ofNat 4 x.work.recovering
      ∧ BitVec.ofNat 32 (openSnapshotWord x 14) = BitVec.ofNat 16 x.work.rebuffers ++ x.advice.count
      ∧ BitVec.ofNat 32 (openSnapshotWord x 15) = BitVec.ofNat 16 x.work.skips ++ BitVec.ofNat 16 x.work.stalls
      ∧ BitVec.ofNat 32 (openSnapshotWord x 16) = 0#16 ++ BitVec.ofNat 16 x.work.overrides
      ∧ BitVec.ofNat 32 (openSnapshotWord x 17) = BitVec.ofNat 32 x.share := by
  refine ⟨word_eq ?_, word_eq ?_, word_eq ?_, word_eq ?_, word_eq ?_, rfl⟩
  all_goals
    simp only [openSnapshotWord, field, flag_toNat, append_toNat, BitVec.toNat_ofNat]
    omega

/-- The held list in a snapshot (R95, R183): its length, the consumer position, the buffer level and the head. -/
theorem openSnapshotWord_held (x : Session) :
    BitVec.ofNat 32 (openSnapshotWord x 18) = x.position.getD 0 ++ 0#6 ++ BitVec.ofBool x.position.isNone
        ++ BitVec.ofBool x.rebuffering ++ 0#3 ++ BitVec.ofNat 5 x.held.length
      ∧ BitVec.ofNat 32 (openSnapshotWord x 19) = BitVec.ofNat 32 (bufferLevel x.held)
      ∧ (x.held = [] → BitVec.ofNat 32 (openSnapshotWord x 20) = 0 ∧ BitVec.ofNat 32 (openSnapshotWord x 21) = 0)
      ∧ (∀ h rest, x.held = h :: rest → BitVec.ofNat 32 (openSnapshotWord x 20) = BitVec.ofNat 16 h.duration ++ h.serial
          ∧ BitVec.ofNat 32 (openSnapshotWord x 21) = BitVec.ofNat 32 h.consumed)
      ∧ ∀ j, 22 ≤ j → j < 32 → BitVec.ofNat 32 (openSnapshotWord x j) = 0 := by
  refine ⟨word_eq ?_, rfl, fun empty => ?_, fun h rest head => ⟨word_eq ?_, ?_⟩, fun j low high => ?_⟩
  · simp only [openSnapshotWord, field, flag_toNat, append_toNat, BitVec.toNat_ofNat]
    omega
  · simp only [openSnapshotWord, empty]
    exact ⟨rfl, rfl⟩
  · simp only [openSnapshotWord, head, field, append_toNat, BitVec.toNat_ofNat]
    omega
  · simp only [openSnapshotWord, head]
  · interval_cases j <;> rfl

/-- The fetch view entry of a record (R71). -/
theorem recordWord_eq (r : FetchRecord) :
    BitVec.ofNat 32 (recordWord r 0) = BitVec.ofNat 24 (min (arrivalInterval r) 16777215) ++ 0#1 ++ BitVec.ofNat 2 r.session.val
        ++ BitVec.ofBool r.lastArrival.isSome ++ BitVec.ofBool r.firstArrival.isSome ++ BitVec.ofBool (r.kind != .other)
        ++ BitVec.ofNat 2 r.state.code
      ∧ BitVec.ofNat 32 (recordWord r 1) = 0#1 ++ BitVec.ofNat 15 (mediaFields r.kind).2 ++ r.serial
      ∧ BitVec.ofNat 32 (recordWord r 2) = BitVec.ofNat 32 (r.base / 16)
      ∧ BitVec.ofNat 32 (recordWord r 3) = 0#1 ++ BitVec.ofNat 3 (mediaFields r.kind).1 ++ 0#1 ++ BitVec.ofNat 27 r.size
      ∧ BitVec.ofNat 32 (recordWord r 4) = BitVec.ofNat 5 (min r.stalls 31) ++ BitVec.ofNat 27 r.landed
      ∧ BitVec.ofNat 32 (recordWord r 5) = 0#5 ++ BitVec.ofNat 27 r.consumed
      ∧ BitVec.ofNat 32 (recordWord r 6) = r.announce
      ∧ BitVec.ofNat 32 (recordWord r 7) = r.lastArrival.getD 0 := by
  refine ⟨word_eq ?_, word_eq ?_, rfl, word_eq ?_, word_eq ?_, word_eq ?_, word_eq ?_, word_eq ?_⟩
  all_goals
    simp only [recordWord, shown, field, flag_toNat, append_toNat, BitVec.toNat_ofNat]
    omega

theorem isOpen_iff {x : Session} : isOpen x = true ↔ x.work.state ≠ .closed := by simp [isOpen]

/-- The two blocks of a session that is CLOSED read as zeros (R181, R183). -/
theorem reportWord_closed (pops : Bool) (s : State) {i : SessionId} (hc : (s.session i).work.state = .closed) :
    (∀ j, 1 ≤ j → j < 8 → reportWord pops s (0x280 + 32 * i.val + 4 * j) = 0)
      ∧ ∀ j < 32, reportWord pops s (0x300 + 128 * i.val + 4 * j) = 0 := by
  have closed : ¬ isOpen (s.session i) = true := fun ho => isOpen_iff.1 ho hc
  exact ⟨fun j low high => (reportWord_slot pops s i low high).trans (congrArg _ (if_neg closed)),
    fun j high => (reportWord_snapshot pops s i high).trans (congrArg _ (if_neg closed))⟩

/-- Word `k` of an open session's snapshot at its place (R183). -/
theorem reportWord_openSnapshot (pops : Bool) {s : State} {i : SessionId} (ho : isOpen (s.session i) = true) {k : Nat}
    (h : k < 32) :
    reportWord pops s (0x300 + 128 * i.val + 4 * k) = BitVec.ofNat 32 (openSnapshotWord (s.session i) k) :=
  (reportWord_snapshot pops s i h).trans (congrArg _ (if_pos ho))

/-- Word `j` of the fetch view entry of a record at its place (R71). -/
theorem reportWord_record (pops : Bool) {s : State} {k : Slot} {r : FetchRecord} (hr : s.slot k = some r) {j : Nat} (h : j < 8) :
    reportWord pops s (0x500 + 32 * k.val + 4 * j) = BitVec.ofNat 32 (recordWord r j) := by
  rw [reportWord_fetchView pops s k h, fetchViewWord, hr]

/-- Settles O60: the blocks of the aperture one after another. -/
theorem reportWordsShowTheState : Obligations.ReportWordsShowTheState := by
  refine ⟨fun pops s => ?_, rfl, rfl, rfl, rfl, rfl, rfl, rfl⟩
  intro word bit opened summary r e
  have places := reportWord_summary pops s
  rw [summaryWord_eq] at places
  refine ⟨places, reportWord_status pops s, reportWord_eventWindow pops s, reportWord_link pops s, fun i => ?_, fun k => ?_,
    fun o low high => ?_⟩
  · intro x p w slot snap
    refine ⟨reportWord_closed pops s, fun hopen => ?_⟩
    have ho : isOpen x = true := isOpen_iff.2 hopen
    have advice : ∀ {v : Word} k, BitVec.ofNat 32 (adviceWord x k) = v → 1 ≤ k ∧ k < 8 → slot (4 * k) = v :=
      fun k hv ⟨low, high⟩ => (reportWord_slot pops s i low high).trans hv
    have snapshot : ∀ {v : Word} k, BitVec.ofNat 32 (openSnapshotWord x k) = v → k < 32 → snap (4 * k) = v := fun k hv high =>
      (reportWord_openSnapshot pops ho high).trans hv
    obtain ⟨a1, a2, a3, a4, a5, a6, a7⟩ := adviceWord_open ho
    obtain ⟨p0, p1, p2, p3, ladder⟩ := openSnapshotWord_programmed x
    obtain ⟨w12, w13, w14, w15, w16, w17⟩ := openSnapshotWord_working x
    obtain ⟨h18, h19, empty, head, rest⟩ := openSnapshotWord_held x
    refine ⟨⟨advice 1 a1 ?_, advice 2 a2 ?_, advice 3 a3 ?_, advice 4 a4 ?_, advice 5 a5 ?_, advice 6 a6 ?_, advice 7 a7 ?_⟩,
      snapshot 0 p0 ?_, snapshot 1 p1 ?_, snapshot 2 p2 ?_, snapshot 3 p3 ?_, fun j hj => ?_, snapshot 12 w12 ?_,
      snapshot 13 w13 ?_, snapshot 14 w14 ?_, snapshot 15 w15 ?_, snapshot 16 w16 ?_, snapshot 17 w17 ?_, snapshot 18 h18 ?_,
      snapshot 19 h19 ?_, fun he => ?_, fun h tail ht => ?_, fun j low high => snapshot j (rest j low high) high⟩
    case refine_12 =>
      have place : (0x10 + 4 * j : Nat) = 4 * (4 + j) := by omega
      rw [place]
      exact snapshot (4 + j) (ladder j hj) (by omega)
    case refine_21 => exact ⟨snapshot 20 (empty he).1 (by decide), snapshot 21 (empty he).2 (by decide)⟩
    case refine_22 => exact ⟨snapshot 20 (head h tail ht).1 (by decide), snapshot 21 (head h tail ht).2 (by decide)⟩
    all_goals decide
  · intro entry
    refine ⟨fun free j hj => ?_, ?_⟩
    · rw [show entry (4 * j) = _ from reportWord_fetchView pops s k hj, fetchViewWord, free]
      rfl
    · intro q hq interval media
      have shows : ∀ {v : Word} j, BitVec.ofNat 32 (recordWord q j) = v → j < 8 → entry (4 * j) = v := fun j hv hj =>
        (reportWord_record pops hq hj).trans hv
      have first : min (arrivalInterval q) 16777215 = interval := by
        simp only [arrivalInterval, interval]
        cases q.firstArrival <;> rfl
      obtain ⟨r0, r1, r2, r3, r4, r5, r6, r7⟩ := recordWord_eq q
      rw [first] at r0
      refine ⟨shows 0 r0 ?_, shows 1 r1 ?_, shows 2 r2 ?_, shows 3 r3 ?_, shows 4 r4 ?_, shows 5 r5 ?_, shows 6 r6 ?_,
        shows 7 r7 ?_⟩
      all_goals decide
  · show reportWord pops s o = 0
    unfold reportWord
    simp only
    rw [if_neg (by omega), if_neg (by omega), if_neg (by omega), if_neg (by omega), if_neg (by omega), if_neg (by omega)]

end Sys2Proof.Machine
end

section
/-! PROOFS. The held list and its buffer level: a completed segment joins the list at its serial's place or is declined, and the level
is the unread time. -/

namespace Sys2Proof.Machine

/-! ### The buffer level -/

/-- The consumed part of a lawful segment is less than its duration: there is a byte left to read. -/
theorem HeldOk.consumed_lt_duration {h : HeldSegment} (ok : HeldOk h) : h.duration * h.consumed / h.size < h.duration := by
  obtain ⟨-, ⟨duration, -⟩, unread⟩ := ok
  refine Nat.div_lt_of_lt_mul ?_
  rw [Nat.mul_comm]
  exact Nat.mul_lt_mul_of_pos_right unread (by omega)

theorem bufferLevel_cons (h : HeldSegment) (rest : List HeldSegment) :
    bufferLevel (h :: rest) = h.duration + (rest.map (·.duration)).sum - h.duration * h.consumed / h.size := by
  rw [bufferLevel, List.map_cons, List.sum_cons]

/-- A lawful list has a level of 0 exactly while it is empty. -/
theorem bufferLevel_eq_zero_iff {held : List HeldSegment} (ok : ∀ h ∈ held, HeldOk h) : bufferLevel held = 0 ↔ held = [] := by
  cases held with
  | nil => simp [bufferLevel_nil]
  | cons h rest =>
    have unread := HeldOk.consumed_lt_duration (ok h List.mem_cons_self)
    rw [bufferLevel_cons]
    simp only [reduceCtorEq, iff_false]
    omega

/-- Settles O46: `bufferLevel_le` bounds the level, and a segment with a byte left keeps it above 0. -/
theorem bufferLevelIsTheUnreadTime : Obligations.BufferLevelIsTheUnreadTime :=
  ⟨bufferLevel_nil, bufferLevel_cons, fun _ length ok => ⟨bufferLevel_le ok length, bufferLevel_eq_zero_iff ok⟩⟩

/-! ### The order of the list -/

theorem older_iff (q p : Serial) : older q p = true ↔ 1 ≤ (p - q).toNat ∧ (p - q).toNat ≤ 32767 := by
  simp [older]

/-- No serial is older than itself. -/
@[simp] theorem older_self (q : Serial) : older q q = false := by
  simp [older]

/-- Within reach of `oldest`, R78's comparison is that of the distances from it. -/
theorem older_iff_distance_lt {q p oldest : Serial} (hq : (q - oldest).toNat ≤ 32767) (hp : (p - oldest).toNat ≤ 32767) :
    older q p = true ↔ (q - oldest).toNat < (p - oldest).toNat := by
  rw [older_iff]
  bv_omega

/-- A segment joins an ordered list at its place, where R78 orders them all (R81). -/
theorem insertHeld_pairwise {h : HeldSegment} {held : List HeldSegment} {oldest : Serial}
    (reach : ∀ g ∈ h :: held, (g.serial - oldest).toNat ≤ 32767) (fresh : ∀ g ∈ held, g.serial ≠ h.serial)
    (ordered : held.Pairwise fun g g' => (g.serial - oldest).toNat < (g'.serial - oldest).toNat) :
    (insertHeld h held).Pairwise fun g g' => (g.serial - oldest).toNat < (g'.serial - oldest).toNat := by
  induction held with
  | nil => exact List.pairwise_singleton ..
  | cons g rest ih =>
    obtain ⟨first, tail⟩ := List.pairwise_cons.1 ordered
    have hh := reach h (by simp)
    have hg := reach g (by simp)
    have place := older_iff_distance_lt hh hg
    unfold insertHeld
    split
    · next before =>
      have lt := place.1 before
      refine List.pairwise_cons.2 ⟨fun f hf => ?_, ordered⟩
      rcases List.mem_cons.1 hf with rfl | hf
      · exact lt
      · exact lt.trans (first f hf)
    · next notBefore =>
      have ne : g.serial ≠ h.serial := fresh g (by simp)
      have lt : (g.serial - oldest).toNat < (h.serial - oldest).toNat := by
        have ge := mt place.2 notBefore
        bv_omega
      refine List.pairwise_cons.2 ⟨fun f hf => ?_, ih (fun f hf => reach f ?_) (fun f hf => fresh f (by simp [hf])) tail⟩
      · rcases mem_insertHeld.1 hf with rfl | hf
        · exact lt
        · exact first f hf
      · rcases List.mem_cons.1 hf with rfl | hf <;> simp [*]

/-! ### A completed segment -/

theorem behindPosition_iff (position : Option Serial) (q : Serial) :
    behindPosition position q = true ↔ ∃ p, position = some p ∧ 1 ≤ (p - q).toNat ∧ (p - q).toNat ≤ 32767 := by
  cases position <;> simp [behindPosition, older_iff]

/-- The refill test right after an insertion (R88), on the session as the insertion left it. -/
theorem refillTest_setSession (i : SessionId) (y : Session) (s : State) :
    refillTest i (s.setSession i y) =
      if y.rebuffering = true ∧ y.prog.comfort ≤ bufferLevel y.held then
        post .refilled (sessionField i) 0 (BitVec.ofNat 32 (bufferLevel y.held)) 0
          (s.setSession i { y with rebuffering := false })
      else s.setSession i y := by
  simp only [refillTest, session_setSession_self, setSession_setSession]

/-- Settles O42: the branches of `completeSegment`, the last by `refillTest_setSession`, and the order by `insertHeld_pairwise`. -/
theorem completedSegmentIsHeldOrDeclined : Obligations.CompletedSegmentIsHeldOrDeclined := by
  refine ⟨?_, fun h held oldest reach fresh ordered => ⟨insertHeld_perm h held, insertHeld_pairwise reach fresh ordered⟩⟩
  intro i h s x y behind level
  have position : behindPosition x.position h.serial = true ↔ behind := behindPosition_iff ..
  have holds : ¬ behind → h.consumed ≠ h.size → completeSegment i h s = refillTest i (s.setSession i y) := fun hb hc => by
    rw [completeSegment]
    simp only
    rw [if_neg (mt position.1 hb), if_neg hc]
  refine ⟨fun hb => if_pos (position.2 hb), fun hb hc => ?_, fun hb hc low => ?_, fun hb hc dry full => ?_⟩
  · exact (if_neg (mt position.1 hb)).trans (if_pos hc)
  · rw [holds hb hc, refillTest_setSession]
    exact if_neg low
  · rw [holds hb hc, refillTest_setSession]
    exact if_pos ⟨dry, full⟩

end Sys2Proof.Machine
end

section
/-! PROOFS. Consumer reads: what a read of any number of parts can touch, what each part makes of its record or held segment, and the
one judgement of each session after them. -/

namespace Sys2Proof.Machine

/-! ### What a read touches -/

/-- From `s` to `t` a consumer read ran: only the consumed HWMs of records, the sessions `named`, and the event queue with LOST have
changed. -/
structure Consumes (named : SessionId → Prop) (s t : State) : Prop where
  eq : t = { s with
    tracker := { s.tracker with table := t.tracker.table }
    sessions := t.sessions
    report := { s.report with events := t.report.events, lost := t.report.lost } }
  slot : ∀ k, (t.slot k).map (fun r => { r with consumed := 0 }) = (s.slot k).map fun r => { r with consumed := 0 }
  unnamed : ∀ i, ¬ named i → t.session i = s.session i

namespace Consumes

variable {named : SessionId → Prop} {s t u : State}

theorem refl (named : SessionId → Prop) (s : State) : Consumes named s s := ⟨rfl, fun _ => rfl, fun _ _ => rfl⟩

theorem trans (h : Consumes named s t) (h' : Consumes named t u) : Consumes named s u where
  eq := by have e := h'.eq; rw [h.eq] at e; exact e
  slot k := (h'.slot k).trans (h.slot k)
  unnamed i hi := (h'.unnamed i hi).trans (h.unnamed i hi)

end Consumes

theorem Governs.consumes {named : SessionId → Prop} {i : SessionId} {s t : State} (h : Governs i s t) (hi : named i) :
    Consumes named s t where
  eq := by have e := h.eq; rw [e]
  slot k := by rw [h.slot]
  unnamed _ hj := h.other _ fun e => hj (e ▸ hi)

theorem setSession_consumes {named : SessionId → Prop} (s : State) {i : SessionId} (x : Session) (hi : named i) :
    Consumes named s (s.setSession i x) where
  eq := rfl
  slot _ := rfl
  unnamed _ hj := session_setSession_of_ne s x fun e => hj (e ▸ hi)

/-- What a part can do (R82, R83): nothing, or a read of the record or of the held segments that it matches. -/
theorem applyPart_cases (part : ConsumerPart) (s : State) :
    applyPart part s = s
    ∨ (∃ k r, s.slot k = some r ∧ r.session = part.session ∧ applyPart part s = readRecord k r part.endOffset s)
    ∨ applyPart part s
        = s.setSession part.session (readHeld part.serial part.endOffset (s.session part.session)) := by
  unfold applyPart
  split <;> [split; skip]
  · next kr hm =>
    obtain ⟨k, matched, hk⟩ := Option.bind_eq_some_iff.1 hm
    obtain ⟨r, hr, rfl⟩ := Option.map_eq_some_iff.1 hk
    obtain ⟨q, hq, own, -⟩ := matchedSlot_some matched
    obtain rfl : r = q := Option.some.inj (hr.symm.trans hq)
    exact .inr (.inl ⟨k, r, hr, own, rfl⟩)
  · simp only
    split
    · exact .inr (.inr rfl)
    · exact .inl rfl
  · exact .inl rfl

/-- A part touches its own session alone: the record it matches is of that session. -/
theorem applyPart_consumes {named : SessionId → Prop} (part : ConsumerPart) (s : State) (hp : named part.session) :
    Consumes named s (applyPart part s) := by
  rcases applyPart_cases part s with same | ⟨k, r, -, own, read⟩ | read
  · rw [same]
    exact .refl _ s
  · refine ⟨?_, applyPart_slot part s, ?_⟩
    · rw [read]
      rfl
    · rw [read]
      exact (setSession_consumes _ _ (own ▸ hp)).unnamed
  · rw [read]
    exact setSession_consumes s _ hp

theorem applyParts_consumes {named : SessionId → Prop} (parts : List ConsumerPart) (s : State)
    (hp : ∀ p ∈ parts, named p.session) : Consumes named s (applyParts parts s).1 := by
  induction parts generalizing s with
  | nil => exact .refl _ s
  | cons part rest ih =>
    exact (applyPart_consumes part s (hp part (by simp))).trans (ih _ fun p hm => hp p (by simp [hm]))

theorem underrun_consumes {named : SessionId → Prop} {i : SessionId} (s : State) (hi : named i) :
    Consumes named s (underrun i s) :=
  (setSession_consumes s _ hi).trans ((post_governs i ..).consumes hi)

theorem judgeRead_consumes {named : SessionId → Prop} (before : Nat) (consumed : Bool) {i : SessionId} (s : State)
    (hi : named i) : Consumes named s (judgeRead before consumed i s) := by
  unfold judgeRead
  simp only
  generalize (consumed && (s.session i).held.isEmpty && (s.session i).work.state != .paused) = starving
  have judged : Consumes named s (if starving then underrun i s else s) := by
    cases starving
    · exact .refl _ s
    · exact underrun_consumes s hi
  split
  · exact judged.trans ((panicCrossing_governs ..).consumes hi)
  · exact judged

theorem takeConsumerRead_consumes (parts : List ConsumerPart) (s : State) :
    Consumes (fun i => ∃ p ∈ parts, p.session = i) s (takeConsumerRead parts s) := by
  unfold takeConsumerRead
  simp only
  refine (applyParts_consumes parts s fun p hm => ⟨p, hm, rfl⟩).trans ?_
  generalize (applyParts parts s).1 = t
  generalize List.finRange 4 = is
  induction is generalizing t with
  | nil => exact .refl _ t
  | cons i is ih =>
    rw [List.foldl_cons]
    refine .trans ?_ (ih _)
    split
    · next named => exact judgeRead_consumes _ _ t (by simpa using named)
    · exact .refl _ t

/-- The state once the consumer read at place `n` is no longer in flight. -/
def withoutRead (n : Nat) (s : State) : State :=
  { s with inFlight := { s.inFlight with consumerReads := s.inFlight.consumerReads.eraseIdx n } }

theorem exec_consumerRead {n : Nat} {parts : List ConsumerPart} {s : State} (h : s.inFlight.consumerReads[n]? = some parts) :
    exec (.consumerRead n) s = .next (takeConsumerRead parts (withoutRead n s)) := by
  show Host.Outcome.next (takeConsumerReadAt n s) = _
  simp only [takeConsumerReadAt, h, withoutRead]

/-- With no consumer read at place `n` nothing changes. -/
theorem exec_consumerRead_none {n : Nat} {s : State} (h : s.inFlight.consumerReads[n]? = none) :
    exec (.consumerRead n) s = .next (withoutRead n s) := by
  show Host.Outcome.next (takeConsumerReadAt n s) = _
  simp only [takeConsumerReadAt, h, withoutRead, List.eraseIdx_of_length_le (List.getElem?_eq_none_iff.1 h)]

/-- CONSUMER_READ touches no more than R82 says. -/
theorem exec_consumerRead_frame (n : Nat) (s : State) : ∃ t, exec (.consumerRead n) s = .next t
    ∧ Consumes (fun i => ∃ parts, s.inFlight.consumerReads[n]? = some parts ∧ ∃ p ∈ parts, p.session = i) (withoutRead n s) t
    ∧ s.report.events <+: t.report.events := by
  cases h : s.inFlight.consumerReads[n]? with
  | none => exact ⟨_, exec_consumerRead_none h, .refl _ _, List.prefix_refl _⟩
  | some parts =>
    refine ⟨_, exec_consumerRead h, ?_, (takeConsumerRead_runs parts (withoutRead n s)).events⟩
    obtain ⟨eq, slot, unnamed⟩ := takeConsumerRead_consumes parts (withoutRead n s)
    exact ⟨eq, slot, fun i hi => unnamed i fun named => hi ⟨parts, rfl, named⟩⟩

/-! ### The judgement after the parts -/

theorem panicCrossing_eq (i : SessionId) (s : State) {state : SessionState} (h : (s.session i).work.state = state) :
    panicCrossing i s = if state = .steady ∨ state = .boundary then steadyDecision i state .panic s else s := by
  rw [panicCrossing, h]
  cases state <;> simp

/-- An underrun leaves the state of the session as it is (R87). -/
theorem underrun_state (i : SessionId) (s : State) : ((underrun i s).session i).work.state = (s.session i).work.state := by
  simp [underrun]

/-- The judgement of one session (R84): an underrun, then a panic crossing, by what the parts left of it. -/
theorem judgeRead_eq (before : Nat) (consumed : Bool) (i : SessionId) (s : State) {x : Session} (hx : s.session i = x) :
    judgeRead before consumed i s =
      let v := if consumed = true ∧ x.held = [] ∧ x.work.state ≠ .paused then underrun i s else s
      if x.prog.panic ≤ before ∧ bufferLevel x.held < x.prog.panic ∧ (x.work.state = .steady ∨ x.work.state = .boundary)
        then steadyDecision i x.work.state .panic v else v := by
  subst hx
  have starving : (consumed && (s.session i).held.isEmpty && (s.session i).work.state != .paused) = true
      ↔ consumed = true ∧ (s.session i).held = [] ∧ (s.session i).work.state ≠ .paused := by
    simp [and_assoc]
  have state : ∀ (c : Prop) [Decidable c],
      ((if c then underrun i s else s).session i).work.state = (s.session i).work.state := fun c _ => by
    split
    · exact underrun_state i s
    · rfl
  simp only [judgeRead, starving, panicCrossing_eq _ _ (state _)]
  rw [← ite_and]
  simp only [and_assoc]

/-- A session whose level a read left as it was, and that had no segment removed, is judged neither way. -/
theorem judgeRead_self (i : SessionId) (s : State) : judgeRead (bufferLevel (s.session i).held) false i s = s := by
  have level : ¬ ((s.session i).prog.panic ≤ bufferLevel (s.session i).held
      ∧ bufferLevel (s.session i).held < (s.session i).prog.panic
      ∧ ((s.session i).work.state = .steady ∨ (s.session i).work.state = .boundary)) := fun ⟨high, low, _⟩ => by omega
  rw [judgeRead_eq _ _ _ _ rfl]
  simp only [if_neg level]
  exact if_neg (by simp)

/-- A read of any number of parts (R82, R84). -/
theorem takeConsumerRead_eq (parts : List ConsumerPart) (s : State) :
    takeConsumerRead parts s = ((List.finRange 4).filter fun i => parts.any fun p => p.session == i).foldl
      (fun t i => judgeRead (bufferLevel (s.session i).held) ((applyParts parts s).2.contains i) i t)
      (parts.foldl (fun t p => applyPart p t) s) := by
  rw [List.foldl_filter, ← applyParts_state]
  rfl

/-- A read of one part names one session. -/
theorem takeConsumerRead_singleton (part : ConsumerPart) (s : State) :
    takeConsumerRead [part] s = judgeRead (bufferLevel (s.session part.session).held) (removesByConsumption part s) part.session
      (applyPart part s) := by
  have named : ((List.finRange 4).filter fun i => [part].any fun p => p.session == i) = [part.session] := by
    simp only [List.any_cons, List.any_nil, Bool.or_false]
    generalize part.session = i
    revert i
    decide
  have removed : (applyParts [part] s).2.contains part.session = removesByConsumption part s := by
    simp only [applyParts]
    cases removesByConsumption part s <;> simp
  rw [takeConsumerRead_eq, named, List.foldl_cons, List.foldl_nil, removed]
  rfl

/-! ### A part that matches a record -/

/-- What R83 makes of a session by a range of serial `q`: the skips are counted by the length the list loses. -/
theorem skipTo_eq (q : Serial) (x : Session) :
    skipTo q x = { x with
      held := x.held.filter fun h => !older h.serial q
      work := { x.work with
        skips := min 65535 (x.work.skips + (x.held.length - (x.held.filter fun h => !older h.serial q).length)) }
      position := some (match x.position with
        | none => q
        | some p => if older p q then q else p) } := by
  have skipped : x.held.countP (fun h => older h.serial q) = x.held.length - (x.held.filter fun h => !older h.serial q).length := by
    have total := x.held.length_eq_countP_add_countP fun h => older h.serial q
    simp only [Bool.not_eq_true, Bool.decide_eq_false] at total
    rw [← List.countP_eq_length_filter]
    omega
  unfold skipTo
  rw [skipped]
  cases x.position with
  | none => rfl
  | some p => simp only [apply_ite some]; rfl

/-- The matched record of session `i` with serial `q` is read (R83). -/
theorem readRecord_eq (k : Slot) {r : FetchRecord} (e : Nat) (s : State) {i : SessionId} {q : Serial} (hi : r.session = i)
    (hq : r.serial = q) :
    readRecord k r e s =
      (s.setSlot k (some { r with consumed := min r.size (max r.consumed e) })).setSession i (skipTo q (s.session i)) := by
  subst hi hq
  rfl

/-- Of a part that is dropped nothing is judged. -/
theorem takeConsumerRead_dropped {part : ConsumerPart} {s : State} (h : part.standing = false
    ∨ (∀ k r, s.slot k = some r → ¬ (r.session = part.session ∧ r.serial = part.serial ∧ r.kind ≠ .other))
      ∧ ∀ h ∈ (s.session part.session).held, h.serial ≠ part.serial) : takeConsumerRead [part] s = s := by
  have kept : removesByConsumption part s = false := by
    rw [← Bool.not_eq_true, removesByConsumption_iff]
    rintro ⟨standing, -, g, hm, hg, -⟩
    rcases h with fallen | ⟨-, unheld⟩
    · simp [fallen] at standing
    · exact unheld g hm hg
  have dropped : applyPart part s = s := by
    rcases h with fallen | ⟨unrecorded, unheld⟩
    · simp [applyPart, fallen]
    · have none : matchedSlot part s = none := (matchedSlot_eq_none ..).2 (.inr unrecorded)
      have absent : ¬ holdsSerial part.serial (s.session part.session) = true := by
        rw [holdsSerial_iff]
        exact fun ⟨g, hm, hg⟩ => unheld g hm hg
      simp [applyPart, none, absent]
  rw [takeConsumerRead_singleton, kept, dropped, judgeRead_self]

theorem applyPart_record {part : ConsumerPart} {s : State} {k : Slot} {r : FetchRecord} (standing : part.standing = true)
    (matched : matchedSlot part s = some k) (hr : s.slot k = some r) :
    applyPart part s = readRecord k r part.endOffset s := by
  simp only [applyPart, standing, if_true, matched, Option.bind_some, hr, Option.map_some]

/-- A read of a record removes no segment, so a panic crossing alone is judged (R83, R86). -/
theorem takeConsumerRead_record {part : ConsumerPart} {s : State} {k : Slot} {r : FetchRecord} (standing : part.standing = true)
    (matched : matchedSlot part s = some k) (hr : s.slot k = some r) (hi : r.session = part.session) :
    takeConsumerRead [part] s =
      let x := s.session part.session
      if x.prog.panic ≤ bufferLevel x.held ∧ bufferLevel (skipTo r.serial x).held < x.prog.panic
          ∧ (x.work.state = .steady ∨ x.work.state = .boundary)
        then steadyDecision part.session x.work.state .panic (readRecord k r part.endOffset s)
        else readRecord k r part.endOffset s := by
  have kept : removesByConsumption part s = false := by simp [removesByConsumption, matched]
  have read : (readRecord k r part.endOffset s).session part.session = skipTo r.serial (s.session part.session) := by
    simp [readRecord, ← hi]
  rw [takeConsumerRead_singleton, kept, applyPart_record standing matched hr, judgeRead_eq _ _ _ _ read]
  simp only [Bool.false_eq_true, false_and, if_false]
  rfl

/-- A part matches the record of its own slot, or else the one record that bears its serial (R82; log entry 28). -/
theorem matchedSlot_record {part : ConsumerPart} {s : State} {k : Slot} {r : FetchRecord} (hr : s.slot k = some r)
    (hm : r.session = part.session ∧ r.serial = part.serial ∧ r.kind ≠ .other)
    (only : part.slot = some k
      ∨ (part.slot = none → ∀ h ∈ (s.session part.session).held, h.serial ≠ part.serial)
        ∧ ∀ j r', s.slot j = some r' → r'.session = part.session ∧ r'.serial = part.serial ∧ r'.kind ≠ .other → j = k) :
    matchedSlot part s = some k := by
  rcases only with own | ⟨unheld, unique⟩
  · exact matchedSlot_own own hr hm
  · cases found : matchedSlot part s with
    | none =>
      rcases (matchedSlot_eq_none ..).1 found with ⟨free, h, hh, hs⟩ | unrecorded
      · exact absurd hs (unheld free h hh)
      · exact absurd hm (unrecorded k r hr)
    | some j =>
      obtain ⟨r', hr', hm'⟩ := matchedSlot_some found
      rw [unique j r' hr' hm']

/-- Settles O44: the frame is `exec_consumerRead_frame`, the fold `takeConsumerRead_eq` with `judgeRead_eq` for each session, and of one
part `takeConsumerRead_dropped` and `takeConsumerRead_record`. -/
theorem consumerReadOfARecord : Obligations.ConsumerReadOfARecord := by
  refine ⟨?_, ?_, ?_⟩
  · intro n s
    obtain ⟨t, taken, ⟨eq, slot, unnamed⟩, events⟩ := exec_consumerRead_frame n s
    exact ⟨t, taken, eq, events, slot, fun i hi => unnamed i fun ⟨parts, hn, p, hm, hp⟩ => hi parts hn p hm hp⟩
  · intro n parts s hn u applied
    refine ⟨fun i => (applyParts parts u).2.contains i, fun i => ?_, ?_⟩
    · rw [List.contains_iff_mem, mem_applyParts]
      refine exists_congr fun earlier => exists_congr fun p => exists_congr fun later => and_congr_right fun _ => ?_
      refine and_congr_right fun hp => ?_
      rw [removesByConsumption_iff, hp]
    · rw [exec_consumerRead hn, takeConsumerRead_eq]
      simp only [judgeRead_eq _ _ _ _ rfl]
      rfl
  · intro n part s hn u i x matching
    refine ⟨fun dropped => ?_, ?_⟩
    · exact (exec_consumerRead hn).trans (congrArg Host.Outcome.next (takeConsumerRead_dropped (s := u) dropped))
    · intro k r standing hr hm only kept y read
      have matched : matchedSlot part u = some k := matchedSlot_record (s := u) hr hm only
      obtain ⟨session, serial, -⟩ := hm
      have raised : readRecord k r part.endOffset u = read := by
        rw [readRecord_eq k _ u session serial, skipTo_eq]
        rfl
      refine (exec_consumerRead hn).trans (congrArg Host.Outcome.next ?_)
      rw [show withoutRead n s = u from rfl, takeConsumerRead_record (s := u) standing matched hr session, raised, serial]
      rfl

/-! ### A part that matches a held segment -/

/-- Of a segment that alone bears its serial, the list with its consumed HWM raised (R83 step 1). -/
theorem raiseHeld_eq {h : HeldSegment} {held : List HeldSegment} (only : ∀ g ∈ held, g.serial = h.serial → g = h) (e : Nat) :
    raiseHeld h.serial e held
      = held.map fun g => if g.serial = h.serial then { g with consumed := min h.size (max h.consumed e) } else g := by
  refine List.map_congr_left fun g hg => ?_
  split
  · next same => rw [only g hg same]
  · rfl

/-- After the skips, the raised segment is still there, and it has been read to its size exactly when its mark is there
(R83 step 4). -/
theorem readToEnd_raised {h : HeldSegment} {held : List HeldSegment} (hm : h ∈ held)
    (only : ∀ g ∈ held, g.serial = h.serial → g = h) (e : Nat) :
    readToEnd h.serial ((raiseHeld h.serial e held).filter fun g => !older g.serial h.serial) = true
      ↔ min h.size (max h.consumed e) = h.size := by
  simp only [readToEnd, List.any_filter, raiseHeld, List.any_map, List.any_eq_true, Function.comp_apply]
  constructor
  · rintro ⟨g, hg, read⟩
    by_cases same : g.serial = h.serial
    · obtain rfl := only g hg same
      simpa using read
    · simp [same] at read
  · intro full
    exact ⟨h, hm, by simp [full]⟩

/-- What a read makes of the session of the segment it matches (R83): the list, the skips and the position. -/
theorem readHeld_eq {h : HeldSegment} {x : Session} (hm : h ∈ x.held) (only : ∀ g ∈ x.held, g.serial = h.serial → g = h)
    (e : Nat) :
    readHeld h.serial e x =
      let mark := min h.size (max h.consumed e)
      let kept := (x.held.map fun g => if g.serial = h.serial then { g with consumed := mark } else g).filter
        fun g => !older g.serial h.serial
      { x with
        held := if mark = h.size then kept.filter fun g => g.serial != h.serial else kept
        work := { x.work with skips := min 65535 (x.work.skips + (x.held.length - kept.length)) }
        position := some (match x.position with
          | none => h.serial
          | some p => if older p h.serial then h.serial else p) } := by
  have full := readToEnd_raised hm only e
  rw [raiseHeld_eq only] at full
  simp only [readHeld, skipTo_eq, raiseHeld_eq only, List.length_map, full]
  split <;> rfl

/-- A read of a held segment is judged both ways: an underrun if it takes the last one (R87, R89), and a panic crossing (R86). -/
theorem takeConsumerRead_held {part : ConsumerPart} {h : HeldSegment} {s : State} (standing : part.standing = true)
    (unrecorded : part.slot = none
      ∨ ∀ k r, s.slot k = some r → ¬ (r.session = part.session ∧ r.serial = part.serial ∧ r.kind ≠ .other))
    (hm : h ∈ (s.session part.session).held) (serial : h.serial = part.serial)
    (only : ∀ g ∈ (s.session part.session).held, g.serial = h.serial → g = h) {y : Session}
    (hy : readHeld h.serial part.endOffset (s.session part.session) = y) :
    takeConsumerRead [part] s =
      let i := part.session
      let v := if min h.size (max h.consumed part.endOffset) = h.size ∧ y.held = [] ∧ y.work.state ≠ .paused
        then underrun i (s.setSession i y) else s.setSession i y
      if y.prog.panic ≤ bufferLevel (s.session i).held ∧ bufferLevel y.held < y.prog.panic
          ∧ (y.work.state = .steady ∨ y.work.state = .boundary)
        then steadyDecision i y.work.state .panic v else v := by
  have unmatched : matchedSlot part s = none :=
    (matchedSlot_eq_none ..).2 (unrecorded.imp_left fun free => ⟨free, h, hm, serial⟩)
  have removes : removesByConsumption part s = true ↔ min h.size (max h.consumed part.endOffset) = h.size := by
    rw [removesByConsumption_iff, min_eq_left_iff]
    constructor
    · rintro ⟨-, -, g, hg, same, read⟩
      rwa [← only g hg (same.trans serial.symm)]
    · exact fun read => ⟨standing, unrecorded, h, hm, serial, read⟩
  have applied : applyPart part s = s.setSession part.session y := by
    have holds : holdsSerial part.serial (s.session part.session) = true := (holdsSerial_iff ..).2 ⟨h, hm, serial⟩
    rw [← hy, serial]
    simp [applyPart, standing, unmatched, holds]
  have after : (s.setSession part.session y).session part.session = y := session_setSession_self ..
  rw [takeConsumerRead_singleton, applied, judgeRead_eq _ _ _ _ after]
  simp only [removes]

/-- Settles O45: `takeConsumerRead_held`, with the session that `readHeld_eq` writes out. -/
theorem consumerReadOfAHeldSegment : Obligations.ConsumerReadOfAHeldSegment := by
  intro n part h s hn u i x standing unrecorded hm serial only mark raised kept left y dry count read
  have hy : readHeld h.serial part.endOffset (u.session i) = y := readHeld_eq (x := u.session i) hm only part.endOffset
  have counted : underrun i (u.setSession i y) = post .underrun (sessionField i) 0 (BitVec.ofNat 32 count) 0
      (u.setSession i { y with work := { y.work with rebuffers := count }, rebuffering := true }) := by
    simp only [underrun, session_setSession_self, setSession_setSession]
    rfl
  refine (exec_consumerRead hn).trans (congrArg Host.Outcome.next ?_)
  rw [show withoutRead n s = u from rfl, takeConsumerRead_held (s := u) standing unrecorded hm serial only hy]
  simp only
  rw [counted]
  rfl

end Sys2Proof.Machine
end

section
/-! PROOFS. The link meter: how an update rounds, and that every step keeps the meter's law. The law says something of the meter, read
part by part (`MeterRanges`, `CountsOk`, `Linked`), and of the L the arbiter received; every act leaves both alone, but a credit, a
taken tick, a SETUP, a seed and the two resets. -/

namespace Sys2Proof.Machine

/-! ### The rounding of an update -/

/-- At or below the sample, an update adds the whole part of the difference over 2^k (R104). -/
theorem smoothed_of_le {v x : Nat} (h : v ≤ 16 * x) (k : Nat) : smoothed v x k = v + (16 * x - v) / 2 ^ k := by
  have risen : (v : Int) + (16 * (x : Int) - v) / 2 ^ k = ((v + (16 * x - v) / 2 ^ k : Nat) : Int) := by
    push_cast [h]
    rfl
  rw [smoothed, risen, Int.toNat_natCast]

/-- Above the sample, an update takes away at least 1, the floor of a negative quotient, and never reaches past the sample (R104,
R105). -/
theorem smoothed_of_gt {v x : Nat} (h : 16 * x < v) (k : Nat) : 16 * x ≤ smoothed v x k ∧ smoothed v x k < v := by
  have positive : (0 : Int) < 2 ^ k := by positivity
  have falls : (16 * (x : Int) - v) / 2 ^ k < 0 := Int.ediv_neg_of_neg_of_pos (by omega) positive
  have stays : 16 * (x : Int) - v ≤ (16 * (x : Int) - v) / 2 ^ k :=
    (Int.le_ediv_iff_mul_le positive).2 (by nlinarith)
  unfold smoothed
  omega

/-- Settles O51: `smoothed_of_gt` from above; from below `smoothed_of_le`, whose quotient is 0 exactly under the divisor. -/
theorem estimateSettlesFromAboveAndBelow : Obligations.EstimateSettlesFromAboveAndBelow := by
  intro v x k _ _
  refine ⟨fun above => smoothed_of_gt above k, fun below => ?_⟩
  have part : (16 * x - v) / 2 ^ k ≤ 16 * x - v := Nat.div_le_self ..
  rw [smoothed_of_le below]
  refine ⟨rfl, by omega, ?_⟩
  rw [Nat.add_eq_left, Nat.div_eq_zero_iff]
  simp

/-- No update leaves the range of R102. -/
theorem smoothed_le {v x : Nat} (hv : v ≤ 268435455) (hx : x ≤ Config.maxRate) (k : Nat) : smoothed v x k ≤ 268435455 := by
  unfold Config.maxRate at hx
  rcases Nat.lt_or_ge (16 * x) v with above | below
  · have := smoothed_of_gt above k
    omega
  · have := Nat.div_le_self (16 * x - v) (2 ^ k)
    rw [smoothed_of_le below]
    omega

/-! ### The law, part by part -/

/-- The meter's settings and its two estimates are in range (R96, R102). -/
structure MeterRanges (m : Meter) : Prop where
  window : 500 ≤ m.window ∧ m.window ≤ 60000
  shifts : 1 ≤ m.kFast ∧ m.kFast < m.kSlow ∧ m.kSlow ≤ 6
  safety : 128 ≤ m.safety ∧ m.safety ≤ 256
  estimates : m.vFast ≤ 268435455 ∧ m.vSlow ≤ 268435455

/-- The counts of the window in progress are in range (R96). -/
structure CountsOk (m : Meter) : Prop where
  ticks : m.elapsed < m.window ∧ m.busy ≤ m.elapsed
  credited : m.credited ≤ Config.creditLimit

/-- L is absent while UNSET, and the link estimate otherwise (R96, R107). -/
def Linked (m : Meter) : Prop := m.link = if m.set then some (linkEstimate m) else none

theorem meterOk_iff (s : State) :
    MeterOk s ↔ MeterRanges s.meter ∧ CountsOk s.meter ∧ Linked s.meter ∧ s.arbiter.received = s.meter.link := by
  have linked : Linked s.meter ↔ (s.meter.set = false → s.meter.link = none)
      ∧ (s.meter.set = true → s.meter.link = some (min s.meter.vFast s.meter.vSlow * s.meter.safety / 4096)) := by
    unfold Linked linkEstimate
    cases s.meter.set <;> simp
  rw [linked]
  exact ⟨fun ⟨window, shifts, safety, ticks, credited, estimates, unset, set, received⟩ =>
      ⟨⟨window, shifts, safety, estimates⟩, ⟨ticks, credited⟩, ⟨unset, set⟩, received⟩,
    fun ⟨⟨window, shifts, safety, estimates⟩, ⟨ticks, credited⟩, ⟨unset, set⟩, received⟩ =>
      ⟨window, shifts, safety, ticks, credited, estimates, unset, set, received⟩⟩

/-! ### The operations of the meter -/

theorem withLink_linked {m : Meter} (set : m.set = true) : Linked (withLink m) := by
  simp [Linked, withLink, linkEstimate, set]

theorem withLink_ranges {m : Meter} (ranges : MeterRanges m) : MeterRanges (withLink m) :=
  ⟨ranges.window, ranges.shifts, ranges.safety, ranges.estimates⟩

/-- A window that starts afresh has its counts in range, whatever they were (R98, R111). -/
theorem restartWindow_countsOk {m : Meter} (ranges : MeterRanges m) : CountsOk (restartWindow m) where
  ticks := ⟨Nat.lt_of_lt_of_le (Nat.succ_pos 499) ranges.window.1, le_rfl⟩
  credited := Nat.zero_le _

theorem restartWindow_ranges {m : Meter} (ranges : MeterRanges m) : MeterRanges (restartWindow m) :=
  ⟨ranges.window, ranges.shifts, ranges.safety, ranges.estimates⟩

/-- A sample, once SET or not, leaves estimates within the range of R102. -/
theorem takeSample_ranges {m : Meter} {x : Nat} (coarse : Bool) (hx : x ≤ Config.maxRate) (ranges : MeterRanges m) :
    MeterRanges (takeSample coarse x m) := by
  obtain ⟨window, shifts, safety, fast, slow⟩ := ranges
  unfold takeSample
  split
  · refine ⟨window, shifts, safety, ?_, smoothed_le slow hx _⟩
    show (if coarse = true then m.vFast else smoothed m.vFast x m.kFast) ≤ 268435455
    split
    · exact fast
    · exact smoothed_le fast hx _
  · have whole : 16 * x ≤ 268435455 := by
      unfold Config.maxRate at hx
      omega
    exact ⟨window, shifts, safety, whole, whole⟩

theorem takeSample_linked (coarse : Bool) (x : Nat) (m : Meter) : Linked (takeSample coarse x m) := by
  unfold takeSample
  split
  · next set => exact withLink_linked set
  · exact withLink_linked rfl

theorem shiftCounts_mem (kFast kSlow : BitVec 4) :
    1 ≤ (shiftCounts kFast kSlow).1 ∧ (shiftCounts kFast kSlow).1 < (shiftCounts kFast kSlow).2
      ∧ (shiftCounts kFast kSlow).2 ≤ 6 := by
  have fast := clampTo_mem (low := 1) (high := 6) (by decide) kFast.toNat
  have slow := clampTo_mem (low := 1) (high := 6) (by decide) kSlow.toNat
  unfold shiftCounts
  simp only
  split_ifs <;> simp only <;> omega

/-! ### Acts that leave the meter alone -/

/-- From `s` to `t` neither the meter nor the L that the arbiter last received has changed. -/
structure KeepsMeter (s t : State) : Prop where
  meter : t.meter = s.meter
  received : t.arbiter.received = s.arbiter.received

namespace KeepsMeter

variable {s t u : State}

theorem refl (s : State) : KeepsMeter s s := ⟨rfl, rfl⟩

theorem trans (h : KeepsMeter s t) (h' : KeepsMeter t u) : KeepsMeter s u :=
  ⟨h'.meter.trans h.meter, h'.received.trans h.received⟩

/-- `trans` with its second part first: that part names the state between. -/
theorem after (h' : KeepsMeter t u) (h : KeepsMeter s t) : KeepsMeter s u := h.trans h'

theorem meterOk (h : KeepsMeter s t) (ok : MeterOk s) : MeterOk t := by
  rw [meterOk_iff] at ok ⊢
  rw [h.meter, h.received]
  exact ok

end KeepsMeter

theorem Governs.keepsMeter {i : SessionId} {s t : State} (h : Governs i s t) : KeepsMeter s t :=
  ⟨h.meter, congrArg Arbiter.received h.arbiter⟩

theorem Divides.keepsMeter {s t : State} (h : Divides s t) : KeepsMeter s t := ⟨h.meter, h.received⟩

theorem FreesOnly.keepsMeter {s t : State} (h : FreesOnly s t) : KeepsMeter s t := by
  rw [h.eq]
  exact ⟨rfl, rfl⟩

theorem Consumes.keepsMeter {named : SessionId → Prop} {s t : State} (h : Consumes named s t) : KeepsMeter s t := by
  rw [h.eq]
  exact ⟨rfl, rfl⟩

theorem post_keepsMeter (kind : EventKind) (session : BitVec 4) (code : BitVec 8) (a b : Word) (s : State) :
    KeepsMeter s (post kind session code a b s) :=
  (post_governs 0 kind session code a b s).keepsMeter

theorem recompute_keepsMeter (s : State) : KeepsMeter s (recompute s) := (recompute_divides s).keepsMeter

theorem setSession_keepsMeter (s : State) (i : SessionId) (x : Session) : KeepsMeter s (s.setSession i x) := ⟨rfl, rfl⟩

theorem mapParts_keepsMeter (f : ConsumerPart → ConsumerPart) (s : State) : KeepsMeter s (mapParts f s) := ⟨rfl, rfl⟩

theorem freeWhere_keepsMeter (p : FetchRecord → Bool) (s : State) : KeepsMeter s (freeWhere p s) :=
  (freeWhere_spec p s).1.keepsMeter

theorem freeSession_keepsMeter (i : SessionId) (s : State) : KeepsMeter s (freeSession i s) :=
  (freeWhere_keepsMeter _ s).trans (mapParts_keepsMeter ..)

theorem completeSegment_keepsMeter (i : SessionId) (h : HeldSegment) (s : State) : KeepsMeter s (completeSegment i h s) := by
  unfold completeSegment refillTest
  simp only
  split <;> [skip; split <;> [skip; split]]
  · exact (setWork_governs ..).keepsMeter
  · exact .refl s
  · exact (post_keepsMeter ..).after ⟨rfl, rfl⟩
  · exact ⟨rfl, rfl⟩

theorem completeFetch_keepsMeter (k : Slot) (r : FetchRecord) (s : State) : KeepsMeter s (completeFetch k r s) := by
  have done : ∀ landing, KeepsMeter s (postFetchDone k r landing (passParts k (freeSlot k s))) := fun _ =>
    (post_keepsMeter ..).after ⟨rfl, rfl⟩
  unfold completeFetch handOverCompletion
  simp only
  split
  · exact done _
  · exact (offerCompletion_governs ..).keepsMeter.after ((done _).trans (completeSegment_keepsMeter ..))

theorem expireDeadline_keepsMeter (gap : Bool) (k : Slot) (s : State) : KeepsMeter s (expireDeadline gap k s) := by
  have stalled : ∀ r, KeepsMeter s (stallRecord gap k r s) := fun r =>
    (takeStall_governs ..).keepsMeter.after ((post_keepsMeter ..).after ⟨rfl, rfl⟩)
  unfold expireDeadline
  split <;> [split; skip]
  · exact stalled _
  · exact .refl s
  · exact .refl s

theorem loseReference_keepsMeter (s : State) : KeepsMeter s (loseReference s) := by
  unfold loseReference
  split
  · exact .refl s
  · exact ⟨rfl, rfl⟩
  · exact (post_keepsMeter ..).after ⟨rfl, rfl⟩

theorem fetchEffect_keepsMeter (i : SessionId) (f : FetchFields) (s : State) : KeepsMeter s (fetchEffect i f s).1 := by
  unfold fetchEffect
  split <;> exact ⟨rfl, rfl⟩

theorem reacquireEffect_keepsMeter (s : State) : KeepsMeter s (reacquireEffect s) := by
  unfold reacquireEffect
  split <;> exact ⟨rfl, rfl⟩

/-! ### Acts on the meter -/

/-- After a hand-over the arbiter has received L (R108), so that the law needs of the state before it no more than the meter's own
part. -/
theorem handOverLink_meterOk {s : State} (ranges : MeterRanges s.meter) (counts : CountsOk s.meter) (linked : Linked s.meter) :
    MeterOk (handOverLink s) := by
  unfold handOverLink
  split
  · next received => exact (meterOk_iff s).2 ⟨ranges, counts, linked, received.symm⟩
  · exact (recompute_keepsMeter _).meterOk ((meterOk_iff _).2 ⟨ranges, counts, linked, rfl⟩)

/-- A credit stops at the limit of the count (R96, R99). -/
theorem creditRise_meterOk (r : FetchRecord) (landed : Nat) {s : State} (ok : MeterOk s) : MeterOk (creditRise r landed s) := by
  unfold creditRise
  split
  · obtain ⟨window, shifts, safety, ticks, -, rest⟩ := ok
    exact ⟨window, shifts, safety, ticks, Nat.min_le_left .., rest⟩
  · exact ok

theorem takeArrival_meterOk (a : Arrival) {s : State} (ok : MeterOk s) : MeterOk (takeArrival a s) := by
  have credited : ∀ k r n, MeterOk (creditRise r n (postRevive k r s)) := fun k r n =>
    creditRise_meterOk r n ((postRevive_governs 0 k r s).keepsMeter.meterOk ok)
  unfold takeArrival countArrival
  simp only
  split <;> [split <;> [split; skip]; skip]
  · exact (completeFetch_keepsMeter ..).meterOk (credited ..)
  · exact credited ..
  · exact ok
  · exact ok

/-- At its end a window is discarded or sampled; either way the counts start afresh (R98, R100). -/
theorem endWindow_meterOk {s : State} (ranges : MeterRanges s.meter) (linked : Linked s.meter)
    (received : s.arbiter.received = s.meter.link) : MeterOk (endWindow s) := by
  unfold endWindow
  simp only
  split
  · exact (meterOk_iff _).2 ⟨restartWindow_ranges ranges, restartWindow_countsOk ranges, linked, received⟩
  · have sampled := takeSample_ranges s.timebase.coarse (Nat.min_le_left .. : windowSample s.meter ≤ _) ranges
    exact handOverLink_meterOk (restartWindow_ranges sampled) (restartWindow_countsOk sampled)
      (takeSample_linked s.timebase.coarse (windowSample s.meter) s.meter)

/-- A tick either ends the window or leaves the elapsed ticks short of its length (R97, R98). -/
theorem takeOwedTick_meterOk {s : State} (ok : MeterOk s) : MeterOk (takeOwedTick s) := by
  obtain ⟨⟨window, shifts, safety, estimates⟩, ⟨⟨inside, busy⟩, credited⟩, linked, received⟩ := (meterOk_iff s).1 ok
  unfold takeOwedTick meterTick
  simp only
  split <;> [split; skip]
  · exact endWindow_meterOk ⟨window, shifts, safety, estimates⟩ linked received
  · next short =>
    refine (meterOk_iff _).2 ⟨⟨window, shifts, safety, estimates⟩, ⟨⟨?_, ?_⟩, credited⟩, linked, received⟩
    · show s.meter.elapsed + 1 < s.meter.window
      omega
    · show (if landingSetEmpty s = true then s.meter.busy else s.meter.busy + 1) ≤ s.meter.elapsed + 1
      split <;> omega
  · exact ok

/-- A seed is taken while UNSET alone, and the arbiter receives the L it gives (R109, R134). -/
theorem seedMeter_meterOk (seed : Option Word) {s : State} (ok : MeterOk s) : MeterOk (seedMeter (seed.map seedValue) s) := by
  obtain ⟨⟨window, shifts, safety, -⟩, ⟨ticks, credited⟩, -, -⟩ := (meterOk_iff s).1 ok
  cases seed with
  | none => exact ok
  | some word =>
    unfold seedMeter
    simp only [Option.map_some]
    split
    · exact ok
    · next unset =>
      have value : 16 * seedValue word ≤ 268435455 := by
        rw [seedValue_eq]
        omega
      have taken : takeSeed (seedValue word) s.meter = withLink { s.meter with
          vFast := 16 * seedValue word, vSlow := 16 * seedValue word, set := true } := if_neg unset
      rw [taken]
      exact (meterOk_iff _).2 ⟨⟨window, shifts, safety, value, value⟩, ⟨ticks, credited⟩, withLink_linked rfl, rfl⟩

/-! ### The orders -/

/-- SETUP clamps its settings, starts the window afresh, and while SET hands over the L that the new safety factor gives (R25,
R111). -/
theorem setupEffect_meterOk (tag : Tag) (f : SetupFields) {s : State} (ok : MeterOk s) : MeterOk (setupEffect tag f s) := by
  obtain ⟨⟨-, -, -, estimates⟩, -, linked, received⟩ := (meterOk_iff s).1 ok
  have written : MeterRanges (restartWindow { s.meter with
      window := clampTo 500 60000 f.window.toNat
      kFast := (shiftCounts f.kFast f.kSlow).1
      kSlow := (shiftCounts f.kFast f.kSlow).2
      safety := clampTo 128 256 f.safety.toNat }) :=
    ⟨clampTo_mem (by decide) _, shiftCounts_mem .., clampTo_mem (by decide) _, estimates⟩
  have counts := restartWindow_countsOk written
  unfold setupEffect
  simp only
  split
  · next set => exact handOverLink_meterOk (withLink_ranges written) ⟨counts.ticks, counts.credited⟩ (withLink_linked set)
  · next unset =>
    have absent : s.meter.link = none := linked.trans (if_neg unset)
    exact (meterOk_iff _).2 ⟨written, counts, absent.trans (if_neg unset).symm, received⟩

theorem openEffect_meterOk (i : SessionId) (f : OpenFields) {s : State} (ok : MeterOk s) : MeterOk (openEffect i f s) := by
  have opened : ∀ x, MeterOk (recompute ((seedMeter (f.seed.map seedValue) s).setSession i x)) := fun x =>
    (recompute_keepsMeter _).meterOk (seedMeter_meterOk f.seed ok)
  unfold openEffect
  simp only
  split
  · exact (post_keepsMeter ..).meterOk (opened _)
  · exact opened _

/-- RESET leaves the settings and puts the rest of the meter back to its first values, with nothing received (R112, R128). -/
theorem resetEffect_meterOk {s : State} (ok : MeterOk s) : MeterOk (resetEffect s) := by
  obtain ⟨⟨window, shifts, safety, -⟩, -, -, -⟩ := (meterOk_iff s).1 ok
  have cleared : MeterRanges { s.meter with vFast := 0, vSlow := 0, set := false, link := none } :=
    ⟨window, shifts, safety, Nat.zero_le _, Nat.zero_le _⟩
  rw [resetEffect, freeAll_eq]
  exact (meterOk_iff _).2 ⟨restartWindow_ranges cleared, restartWindow_countsOk cleared, rfl, rfl⟩

theorem closeEffect_keepsMeter (i : SessionId) (s : State) : KeepsMeter s (closeEffect i s) :=
  (recompute_keepsMeter _).after ((freeSession_keepsMeter i s).trans (setSession_keepsMeter ..))

theorem windowEffect_keepsMeter (i : SessionId) (f : WindowFields) (s : State) : KeepsMeter s (windowEffect i f s) :=
  (takeWindow_governs ..).keepsMeter.after ((recompute_keepsMeter _).after (setSession_keepsMeter ..))

theorem pauseEffect_keepsMeter (i : SessionId) (measure : Bool) (s : State) : KeepsMeter s (pauseEffect i measure s) :=
  (recompute_keepsMeter _).after (setWork_governs ..).keepsMeter

theorem resumeEffect_keepsMeter (i : SessionId) (s : State) : KeepsMeter s (resumeEffect i s) := by
  obtain ⟨w, answered⟩ := resumeEffect_parts i s
  exact answered.keepsMeter.after ((recompute_keepsMeter _).after (setWork_governs ..).keepsMeter)

theorem abortEffect_keepsMeter (i : SessionId) (base : Nat) (s : State) : KeepsMeter s (abortEffect i base s) :=
  freeWhere_keepsMeter _ s

theorem flushEffect_keepsMeter (i : SessionId) (s : State) : KeepsMeter s (flushEffect i s) :=
  (freeSession_keepsMeter i s).trans (setSession_keepsMeter ..)

theorem orderEffect_meterOk (tag : Tag) (i : SessionId) (o : Order) {s : State} (ok : MeterOk s) :
    MeterOk (orderEffect tag i o s).1 := by
  cases o <;> simp only [orderEffect]
  case setup f => exact setupEffect_meterOk tag f ok
  case openSession f => exact openEffect_meterOk i f ok
  case closeSession => exact (closeEffect_keepsMeter i s).meterOk ok
  case window f => exact (windowEffect_keepsMeter i f s).meterOk ok
  case pause m => exact (pauseEffect_keepsMeter i m s).meterOk ok
  case resume => exact (resumeEffect_keepsMeter i s).meterOk ok
  case recover => exact (recoverSession_governs i s).keepsMeter.meterOk ok
  case continueRung => exact (setWork_governs i s _).keepsMeter.meterOk ok
  case fetch f => exact (fetchEffect_keepsMeter i f s).meterOk ok
  case abort base => exact (abortEffect_keepsMeter i base.toNat s).meterOk ok
  case flush => exact (flushEffect_keepsMeter i s).meterOk ok
  case reset => exact resetEffect_meterOk ok
  case reacquire => exact (reacquireEffect_keepsMeter s).meterOk ok

/-! ### Every step -/

theorem meterOk_stepClosed : StepClosed fun s t => MeterOk s → MeterOk t where
  refl _ := id
  trans h h' := h' ∘ h
  outside _ _ _ _ _ := id
  powerOn _ _ _ _ := by
    obtain ⟨-, -, meter, -⟩ := resetMeetsEveryLaw
    exact meter
  post _ _ _ _ _ _ := (post_keepsMeter ..).meterOk
  order tag _ o _ _ := orderEffect_meterOk tag _ o
  arrival a _ := takeArrival_meterOk a
  consumerRead _ _ := (takeConsumerRead_consumes ..).keepsMeter.meterOk
  pop s := by rw [popEvent_eq]; exact id
  mark _ _ _ := id
  firstByte _ _ := (expireDeadline_keepsMeter false ..).meterOk
  gap _ _ := (expireDeadline_keepsMeter true ..).meterOk
  owedTick _ := takeOwedTick_meterOk
  tick _ := id
  edge _ _ := id
  loss _ := (loseReference_keepsMeter _).meterOk
  regain _ := id

/-- Settles O6: each act leaves the meter alone or keeps its law, and `StepClosed.step` puts them together. -/
theorem stepsKeepTheMeterLaw : Obligations.StepsKeepTheMeterLaw :=
  fun _ _ ok hs => meterOk_stepClosed.step hs ok

end Sys2Proof.Machine
end

section
/-! PROOFS. A recompute: the outcome of the division case by case, what the rounds keep (the remainder with what is given, and each
session's demand), and the shares and the posting that follow. -/

namespace Sys2Proof.Machine

/-! ### What the rounds keep -/

/-- One session's gift of a round (R122). -/
def gift (r weights : Nat) (c : Claim) : Nat := min (r * c.weight / weights) c.remaining

theorem giveTo_given (r weights : Nat) (c : Claim) : (giveTo r weights c).given = c.given + gift r weights c := rfl

theorem unsaturatedWeight_cons (c : Claim) (cs : List Claim) :
    unsaturatedWeight (c :: cs) = (if 0 < c.remaining then c.weight else 0) + unsaturatedWeight cs := by
  unfold unsaturatedWeight
  split <;> simp [*]

/-- The gifts of a round together are no more than the unsaturated weights' part of the remainder: a saturated session is given
nothing, and each floor loses only what the floor of the sum keeps. -/
theorem gifts_le_part (r weights : Nat) (cs : List Claim) :
    (cs.map (gift r weights)).sum ≤ r * unsaturatedWeight cs / weights := by
  induction cs with
  | nil => exact Nat.zero_le _
  | cons c cs ih =>
    have own : gift r weights c ≤ r * (if 0 < c.remaining then c.weight else 0) / weights := by
      unfold gift
      split
      · exact Nat.min_le_left ..
      · next saturated => rw [Nat.eq_zero_of_not_pos saturated, Nat.min_zero]; exact Nat.zero_le _
    calc ((c :: cs).map (gift r weights)).sum
      _ = gift r weights c + (cs.map (gift r weights)).sum := by rw [List.map_cons, List.sum_cons]
      _ ≤ r * (if 0 < c.remaining then c.weight else 0) / weights + r * unsaturatedWeight cs / weights := Nat.add_le_add own ih
      _ ≤ r * unsaturatedWeight (c :: cs) / weights := by
        rw [unsaturatedWeight_cons, Nat.mul_add]
        exact Nat.div_add_div_le_add_div ..

/-- A round gives no more than the remainder it begins with (R122). -/
theorem gifts_le (r : Nat) (cs : List Claim) : (cs.map (gift r (unsaturatedWeight cs))).sum ≤ r :=
  (gifts_le_part ..).trans (Nat.div_le_of_le_mul (Nat.mul_comm .. ▸ le_rfl))

/-- A round adds its gifts to what has been given. -/
theorem givenSum_round (r weights : Nat) (cs : List Claim) :
    givenSum (cs.map (giveTo r weights)) = givenSum cs + (cs.map (gift r weights)).sum := by
  unfold givenSum
  rw [List.map_map, ← List.sum_map_add]
  exact congrArg List.sum (List.map_congr_left fun c _ => giveTo_given r weights c)

/-- The final remainder and what was given make up the remainder the rounds begin with (R123). -/
theorem rounds_conserve (n r : Nat) (cs : List Claim) :
    (rounds n r cs).1 + givenSum (rounds n r cs).2 = r + givenSum cs := by
  induction n generalizing r cs with
  | zero => rfl
  | succ n ih =>
    have round := givenSum_round r (unsaturatedWeight cs) cs
    have gave := gifts_le r cs
    unfold rounds
    simp only
    split <;> [skip; split]
    · rfl
    · simp only
      omega
    · rw [ih]
      omega

/-- What a session was given and its remaining demand make up its demand before the rounds (R122). -/
theorem rounds_demand (n r : Nat) (cs : List Claim) :
    (rounds n r cs).2.map (fun c => c.given + c.remaining) = cs.map fun c => c.given + c.remaining := by
  induction n generalizing r cs with
  | zero => rfl
  | succ n ih =>
    have round : (cs.map (giveTo r (unsaturatedWeight cs))).map (fun c => c.given + c.remaining)
        = cs.map fun c => c.given + c.remaining := by
      rw [List.map_map]
      exact List.map_congr_left fun c _ => (giveTo_sum r _ c).2
    unfold rounds
    simp only
    split <;> [skip; split]
    · rfl
    · exact round
    · rw [ih, round]

/-! ### The four sessions as a list -/

theorem sessions_toList (s : State) : s.sessions.toList = (List.finRange 4).map s.session :=
  List.ext_getElem (by simp) fun _ _ _ => by simp [State.session]

theorem floorSum_eq (s : State) : floorSum s = ((List.finRange 4).map fun i => activeFloor (s.session i)).sum := by
  rw [floorSum, sessions_toList, List.map_map]
  rfl

theorem shareSum_eq (s : State) : shareSum s = ((List.finRange 4).map fun i => (s.session i).share).sum := by
  rw [shareSum, sessions_toList, List.map_map]
  rfl

theorem sum_getD_finRange {n : Nat} {l : List Nat} (length : l.length = n) :
    ((List.finRange n).map fun i => l.getD i.val 0).sum = l.sum := by
  subst length
  exact congrArg List.sum (List.ext_getElem (by simp) fun j _ _ => by simp)

theorem activeFloor_of_active {x : Session} (h : isActive x = true) : activeFloor x = rate x.prog x.prog.lo := if_pos h

theorem activeFloor_of_inactive {x : Session} (h : isActive x = false) : activeFloor x = 0 := by
  simp [activeFloor, h]

theorem isActive_iff {x : Session} : isActive x = true ↔ x.work.state ≠ .closed ∧ x.work.state ≠ .paused := by
  simp [isActive]

/-! ### The division, case by case -/

/-- The rounds of a division of `l`: from what the floors leave, with each session's own claim (R122). -/
def divisionRounds (l : Nat) (s : State) : Nat × List Claim :=
  rounds (l - floorSum s) (l - floorSum s) ((List.finRange 4).map fun i => claimOf (s.session i))

theorem claimOf_given (x : Session) : (claimOf x).given = 0 := by
  unfold claimOf
  split <;> rfl

theorem divide_absent {s : State} (h : s.arbiter.received = none) : divide s = (0, false, []) := by
  rw [divide, h]

theorem divide_idle {s : State} {l : Nat} (h : s.arbiter.received = some l) (idle : someActive s = false) :
    divide s = (l, false, []) := by
  simp [divide, h, idle]

theorem divide_starved {s : State} {l : Nat} (h : s.arbiter.received = some l) (active : someActive s = true)
    (short : l ≤ floorSum s) : divide s = (0, true, []) := by
  simp [divide, h, active, short]

theorem divide_rounds {s : State} {l : Nat} (h : s.arbiter.received = some l) (active : someActive s = true)
    (room : floorSum s < l) :
    divide s = ((divisionRounds l s).1, false, (divisionRounds l s).2.map (·.given)) := by
  rw [divisionRounds, show (fun i => claimOf (s.session i)) = claimOf ∘ s.session from rfl, ← List.map_map, ← sessions_toList]
  simp [divide, h, active, Nat.not_le.2 room]

theorem divisionRounds_length (l : Nat) (s : State) : (divisionRounds l s).2.length = 4 := by
  simp [divisionRounds]

/-- Each session's part of the rounds: what it is given is of its demand (R122). -/
theorem divisionRounds_claim (l : Nat) (s : State) (i : SessionId) :
    ∃ c, (divisionRounds l s).2[i.val]? = some c ∧ c.given + c.remaining = (claimOf (s.session i)).remaining := by
  have demand := congrArg (·[i.val]?) (rounds_demand (l - floorSum s) (l - floorSum s)
    ((List.finRange 4).map fun i => claimOf (s.session i)))
  have asked : ((List.finRange 4).map fun i => claimOf (s.session i))[i.val]? = some (claimOf (s.session i)) := by simp
  simp only [List.getElem?_map, asked, Option.map_some, claimOf_given, Nat.zero_add] at demand
  exact Option.map_eq_some_iff.1 demand

/-! ### The shares -/

/-- The headroom and STARVED are the division's. -/
theorem recompute_arbiter_of {s : State} {headroom : Nat} {starved : Bool} {given : List Nat}
    (h : divide s = (headroom, starved, given)) :
    (recompute s).arbiter = { s.arbiter with headroom := headroom, starved := starved } := by
  rw [recompute_arbiter, h]

/-- An active session that is given nothing has its floor (R121). -/
theorem recompute_share_floor {s : State} {i : SessionId} {headroom : Nat} {starved : Bool}
    (h : divide s = (headroom, starved, [])) (active : isActive (s.session i) = true) :
    ((recompute s).session i).share = rate (s.session i).prog (s.session i).prog.lo := by
  rw [recompute_share, h, activeFloor_of_active active]
  rfl

/-- After rounds an active session has its floor and what they gave it (R123). -/
theorem recompute_share_rounds {s : State} {l : Nat} {i : SessionId} {c : Claim} (h : s.arbiter.received = some l)
    (room : floorSum s < l) (active : isActive (s.session i) = true) (claim : (divisionRounds l s).2[i.val]? = some c) :
    ((recompute s).session i).share = rate (s.session i).prog (s.session i).prog.lo + c.given := by
  rw [recompute_share, divide_rounds h ((someActive_iff s).2 ⟨i, active⟩) room, activeFloor_of_active active,
    List.getD_eq_getElem?_getD, List.getElem?_map, claim]
  rfl

/-- After rounds the shares and the headroom sum to L (R123, R124). -/
theorem recompute_shareSum {s : State} {l : Nat} (h : s.arbiter.received = some l) (active : someActive s = true)
    (room : floorSum s < l) : shareSum (recompute s) + (recompute s).arbiter.headroom = l := by
  have divided := divide_rounds h active room
  have shares : shareSum (recompute s) = floorSum s + givenSum (divisionRounds l s).2 := by
    simp only [shareSum_eq, recompute_share, divided, List.sum_map_add, ← floorSum_eq]
    rw [sum_getD_finRange (by rw [List.length_map, divisionRounds_length])]
    rfl
  have unasked : givenSum ((List.finRange 4).map fun i => claimOf (s.session i)) = 0 := by
    simp [givenSum, Function.comp_def, claimOf_given]
  have conserved := rounds_conserve (l - floorSum s) (l - floorSum s) ((List.finRange 4).map fun i => claimOf (s.session i))
  rw [shares, recompute_arbiter_of divided]
  show floorSum s + givenSum (divisionRounds l s).2 + (divisionRounds l s).1 = l
  rw [unasked, ← divisionRounds] at conserved
  omega

/-! ### What a recompute posts -/

/-- Posting reads neither the arbiter nor the sessions. -/
theorem post_setShares (kind : EventKind) (session : BitVec 4) (code : BitVec 8) (a b : Word) (s : State) (arbiter : Arbiter)
    (sessions : Vector Session 4) : post kind session code a b { s with arbiter := arbiter, sessions := sessions }
      = { post kind session code a b s with arbiter := arbiter, sessions := sessions } := by
  unfold post
  simp only
  split_ifs <;> rfl

/-- STARVED is posted with the L and the F of the state before the recompute: the shares enter neither (R125). -/
theorem postStarved_setShares (on : Bool) (given : List Nat) (s : State) (headroom : Nat) :
    postStarved on (setShares given { s with arbiter := { s.arbiter with headroom := headroom, starved := on } })
      = { postStarved on s with
          arbiter := { s.arbiter with headroom := headroom, starved := on }
          sessions := (setShares given s).sessions } := by
  have floors : floorSum (setShares given { s with arbiter := { s.arbiter with headroom := headroom, starved := on } })
      = floorSum s := by
    simp only [floorSum_eq, setShares_session]
    rfl
  rw [postStarved, floors]
  exact post_setShares .starved noSession _ _ _ s { s.arbiter with headroom := headroom, starved := on }
    (setShares given s).sessions

/-- A recompute changes the arbiter and the sessions, and posts STARVED if the flag moves (R125). -/
theorem recompute_eq (s : State) : recompute s =
    { (if (divide s).2.1 = s.arbiter.starved then s else postStarved (divide s).2.1 s) with
      arbiter := (recompute s).arbiter, sessions := (recompute s).sessions } := by
  by_cases stays : (divide s).2.1 = s.arbiter.starved
  · have divided : recompute s = setShares (divide s).2.2
        { s with arbiter := { s.arbiter with headroom := (divide s).1, starved := (divide s).2.1 } } := if_pos stays
    rw [divided, if_pos stays]
    rfl
  · have divided : recompute s = postStarved (divide s).2.1 (setShares (divide s).2.2
        { s with arbiter := { s.arbiter with headroom := (divide s).1, starved := (divide s).2.1 } }) := if_neg stays
    rw [divided, if_neg stays, postStarved_setShares]

/-- Settles O52: the four cases by `divide_absent` to `divide_rounds`; in the last the rounds conserve the remainder and each
session's demand, and the posting is `recompute_eq`. -/
theorem recomputeDividesTheLink : Obligations.RecomputeDividesTheLink := by
  intro s t active floor cap sum
  have isActive_of : ∀ {i}, active i → isActive (s.session i) = true := fun h => isActive_iff.2 h
  have inactive_of : ∀ {i}, ¬ active i → isActive (s.session i) = false := fun h =>
    Bool.eq_false_iff.2 fun ha => h (isActive_iff.1 ha)
  have someActive_of : (∃ i, active i) → someActive s = true := fun ⟨i, h⟩ => (someActive_iff s).2 ⟨i, isActive_of h⟩
  have floors : floorSum s = sum := floorSum_eq s
  have starved : t.arbiter.starved = (divide s).2.1 := congrArg Arbiter.starved (recompute_arbiter s)
  refine ⟨(recompute_divides s).session, fun i h => ?_, fun h => ?_, fun l h idle => ?_, fun l h someone short => ?_,
    fun l h someone room window => ⟨?_, fun i ha => ?_, ?_⟩, fun l h someone room => ?_, ?_,
    fun same => if_pos same, fun moved => if_neg moved⟩
  · rw [recompute_share, divide_inactive (inactive_of h), activeFloor_of_inactive (inactive_of h)]
  · exact ⟨recompute_arbiter_of (divide_absent h), fun i ha => recompute_share_floor (divide_absent h) (isActive_of ha)⟩
  · have nobody : someActive s = false := Bool.eq_false_iff.2 fun ha =>
      have ⟨i, hi⟩ := (someActive_iff s).1 ha
      idle i (isActive_iff.1 hi)
    exact recompute_arbiter_of (divide_idle h nobody)
  · have divided := divide_starved h (someActive_of someone) (floors ▸ short)
    exact ⟨recompute_arbiter_of divided, fun i ha => recompute_share_floor divided (isActive_of ha)⟩
  · have divided := recompute_arbiter_of (divide_rounds h (someActive_of someone) (floors ▸ room))
    show (recompute s).arbiter = { s.arbiter with headroom := (recompute s).arbiter.headroom, starved := false }
    rw [divided]
  · obtain ⟨c, claim, demand⟩ := divisionRounds_claim l s i
    have asked : (claimOf (s.session i)).remaining = cap i - floor i := by
      rw [claimOf, if_pos (isActive_of ha)]
      rfl
    have ordered := window i ha
    have share : (t.session i).share = floor i + c.given :=
      recompute_share_rounds h (floors ▸ room) (isActive_of ha) claim
    omega
  · exact recompute_shareSum h (someActive_of someone) (floors ▸ room)
  · intro out
    have rounded : divisionRounds l s = out := by
      rw [divisionRounds, floors]
      rfl
    refine ⟨?_, fun i ha => ?_⟩
    · rw [← rounded]
      exact congrArg Arbiter.headroom (recompute_arbiter_of (divide_rounds h (someActive_of someone) (floors ▸ room)))
    · obtain ⟨c, claim, -⟩ := divisionRounds_claim l s i
      rw [← rounded, claim]
      exact congrArg Option.some (recompute_share_rounds h (floors ▸ room) (isActive_of ha) claim).symm
  · rw [starved, ← floors]
    exact recompute_eq s

end Sys2Proof.Machine
end

section
/-! PROOFS. Every step keeps the shares as R124 says. Of a session the law reads only its claim: the programmed half, the share, and
whether it is open or PAUSED. Most acts keep the arbiter and every claim (`KeepsClaims`). Where a claim changes, the act recomputes,
and a recompute divides afresh from whatever claims it finds (`recompute_divided`); so the law rests on no more of the session law
than `Claimable`, which the steps keep with it. -/

namespace Sys2Proof.Machine

/-! ### The law -/

/-- An open session's part of the session law that a division rests on: its window lies in a strictly increasing ladder, so that its
floor is at most its cap (R118, R129); and it was active before its pause, so that a RESUME makes it active (R145). -/
structure Claimable (x : Session) : Prop where
  ladder : x.prog.ladder.Pairwise (· < ·)
  window : x.prog.lo ≤ x.prog.hi ∧ x.prog.hi < x.prog.ladder.length
  prePause : x.work.prePause ≠ .closed ∧ x.work.prePause ≠ .paused

/-- The shares as R124 has them, for the L that the arbiter received. -/
structure Divided (s : State) : Prop where
  inactive : ∀ i, isActive (s.session i) = false → (s.session i).share = 0
  window : ∀ i, isActive (s.session i) = true →
    floorRate (s.session i) ≤ (s.session i).share ∧ (s.session i).share ≤ capRate (s.session i)
  floors : s.arbiter.starved = true ∨ s.arbiter.received = none →
    ∀ i, isActive (s.session i) = true → (s.session i).share = floorRate (s.session i)
  sum : s.arbiter.starved = false → ∀ l, s.arbiter.received = some l → shareSum s + s.arbiter.headroom = l

/-- What every step keeps of the shares, from itself alone. -/
structure Apportioned (s : State) : Prop where
  claimable : ∀ i, (s.session i).work.state ≠ .closed → Claimable (s.session i)
  divided : Divided s

/-- Under the meter's law the L received is the meter's, absent exactly while UNSET (R96, R108). -/
theorem sharesOk_iff {s : State} (ok : MeterOk s) : SharesOk s ↔ Divided s := by
  obtain ⟨-, -, -, -, -, -, unset, set, received⟩ := ok
  have absent : s.arbiter.received = none ↔ s.meter.set = false := by
    rw [received]
    refine ⟨fun none => ?_, unset⟩
    by_contra h
    rw [set (by simpa using h)] at none
    cases none
  constructor
  · rintro ⟨inactive, window, floors, sum⟩
    exact ⟨inactive, window, by rwa [absent], by rwa [received]⟩
  · rintro ⟨inactive, window, floors, sum⟩
    exact ⟨inactive, window, by rwa [absent] at floors, by rwa [received] at sum⟩

theorem apportioned_of_laws {s : State} (meter : MeterOk s) (sessions : SessionsOk s) (shares : SharesOk s) : Apportioned s := by
  refine ⟨fun i ho => ?_, (sharesOk_iff meter).1 shares⟩
  obtain ⟨⟨⟨-, -, ladder⟩, window, -⟩, -, prePause, -⟩ := sessions i ho
  exact ⟨ladder, window, prePause⟩

/-- Along a strictly increasing ladder the rates rise, so a session's floor is at most its cap (R118). -/
theorem Claimable.floor_le_cap {x : Session} (h : Claimable x) : floorRate x ≤ capRate x := by
  obtain ⟨ordered, inside⟩ := h.window
  rcases ordered.eq_or_lt with same | below
  · rw [floorRate, capRate, same]
  · have rises := List.pairwise_iff_getElem.1 h.ladder _ _ (below.trans inside) inside below
    rw [floorRate, capRate, rate, rate, List.getD_eq_getElem _ _ (below.trans inside), List.getD_eq_getElem _ _ inside]
    exact rises.le

/-- A part with every session CLOSED and no L received has nothing to divide. -/
theorem apportioned_of_empty {s : State} (received : s.arbiter.received = none) (session : ∀ i, s.session i = Session.closed) :
    Apportioned s := by
  have inactive : ∀ i, isActive (s.session i) = false := fun i => by rw [session]; rfl
  refine ⟨fun i ho => absurd (by rw [session]; rfl) ho, fun i _ => by rw [session]; rfl, fun i ha => ?_, fun _ i ha => ?_,
    fun _ l h => ?_⟩
  · simp [inactive] at ha
  · simp [inactive] at ha
  · simp [received] at h

/-! ### A recompute -/

/-- The law after a recompute, said of the sessions before it: of each only the share is new. -/
theorem recompute_divided_of {s : State}
    (window : ∀ i, isActive (s.session i) = true →
      floorRate (s.session i) ≤ ((recompute s).session i).share ∧ ((recompute s).session i).share ≤ capRate (s.session i))
    (floors : (recompute s).arbiter.starved = true ∨ s.arbiter.received = none →
      ∀ i, isActive (s.session i) = true → ((recompute s).session i).share = floorRate (s.session i))
    (sum : (recompute s).arbiter.starved = false → ∀ l, s.arbiter.received = some l →
      shareSum (recompute s) + (recompute s).arbiter.headroom = l) : Divided (recompute s) := by
  have active : ∀ i, isActive ((recompute s).session i) = isActive (s.session i) := fun i => by simp [isActive]
  have floor : ∀ i, floorRate ((recompute s).session i) = floorRate (s.session i) := fun i => by simp [floorRate]
  have cap : ∀ i, capRate ((recompute s).session i) = capRate (s.session i) := fun i => by simp [capRate]
  have received := (recompute_divides s).received
  refine ⟨fun i h => ?_, ?_, ?_, ?_⟩
  · rw [active] at h
    rw [recompute_share, divide_inactive h, activeFloor_of_inactive h]
  · simpa only [active, floor, cap] using window
  · simpa only [active, floor, received] using floors
  · simpa only [received] using sum

/-- A recompute leaves the shares as R124 says, whatever they were: each active session at its floor, but for an L above the floors,
which the rounds share out (R121 to R123). -/
theorem recompute_divided {s : State}
    (ordered : ∀ i, isActive (s.session i) = true → floorRate (s.session i) ≤ capRate (s.session i)) :
    Divided (recompute s) := by
  obtain ⟨-, zero, absent, idle, starved, rounds, -⟩ := recomputeDividesTheLink s
  have atFloor : (∀ i, isActive (s.session i) = true → ((recompute s).session i).share = floorRate (s.session i)) →
      ((recompute s).arbiter.starved = false → ∀ l, s.arbiter.received = some l →
        shareSum (recompute s) + (recompute s).arbiter.headroom = l) → Divided (recompute s) := fun floors =>
    recompute_divided_of (fun i h => by rw [floors i h]; exact ⟨le_rfl, ordered i h⟩) fun _ => floors
  cases received : s.arbiter.received with
  | none =>
    obtain ⟨-, floors⟩ := absent received
    exact atFloor (fun i h => floors i (isActive_iff.1 h)) fun _ l h => by simp [received] at h
  | some l =>
    have only : ∀ m, s.arbiter.received = some m → l = m := fun m h => Option.some.inj (received.symm.trans h)
    by_cases someone : ∃ i, isActive (s.session i) = true
    · simp only [isActive_iff] at someone
      rcases Nat.lt_or_ge (floorSum s) l with room | short
      · rw [floorSum_eq] at room
        obtain ⟨arbiter, window, sum⟩ := rounds l received someone room fun i h => ordered i (isActive_iff.2 h)
        refine recompute_divided_of (fun i h => window i (isActive_iff.1 h)) (fun h => ?_) fun _ m h => only m h ▸ sum
        rw [arbiter, received] at h
        simp at h
      · rw [floorSum_eq] at short
        obtain ⟨arbiter, floors⟩ := starved l received someone short
        exact atFloor (fun i h => floors i (isActive_iff.1 h)) fun h => by simp [arbiter] at h
    · have nobody : ∀ i, ¬ isActive (s.session i) = true := not_exists.1 someone
      have arbiter := idle l received fun i h => nobody i (isActive_iff.2 h)
      have nothing : shareSum (recompute s) = 0 := by
        rw [shareSum_eq]
        exact List.sum_eq_zero (by
          simp only [List.mem_map]
          rintro _ ⟨i, -, rfl⟩
          exact zero i fun h => nobody i (isActive_iff.2 h))
      refine atFloor (fun i h => absurd h (nobody i)) fun _ m h => ?_
      rw [nothing, arbiter, ← only m h]
      exact Nat.zero_add l

/-- A recompute divides afresh, and keeps what a division rests on. -/
theorem recompute_apportioned {s : State} (claimable : ∀ i, (s.session i).work.state ≠ .closed → Claimable (s.session i)) :
    Apportioned (recompute s) where
  claimable i ho := by
    rw [recompute_work] at ho
    obtain ⟨ladder, window, prePause⟩ := claimable i ho
    exact ⟨by rwa [recompute_prog], by rwa [recompute_prog], by rwa [recompute_work]⟩
  divided := recompute_divided fun i ha => (claimable i (isActive_iff.1 ha).1).floor_le_cap

/-- A hand-over divides afresh or finds the L that was received (R108). -/
theorem handOverLink_apportioned {s : State} (ok : Apportioned s) : Apportioned (handOverLink s) := by
  unfold handOverLink
  split
  · exact ok
  · exact recompute_apportioned ok.claimable

/-! ### Acts that keep every claim -/

/-- The session is open, and PAUSED, exactly as before; its pre-pause state is as it was. -/
structure SameActivity (v w : Working) : Prop where
  closed : w.state = .closed ↔ v.state = .closed
  paused : w.state = .paused ↔ v.state = .paused
  prePause : w.prePause = v.prePause

/-- All that the share arbiter and its law read of the session is as it was. -/
structure SameClaim (x y : Session) : Prop where
  prog : y.prog = x.prog
  share : y.share = x.share
  activity : SameActivity x.work y.work

/-- From `s` to `t` the arbiter and every session's claim stay. -/
structure KeepsClaims (s t : State) : Prop where
  arbiter : t.arbiter = s.arbiter
  session : ∀ i, SameClaim (s.session i) (t.session i)

theorem SameActivity.of_state {v w : Working} (state : w.state = v.state) (prePause : w.prePause = v.prePause) :
    SameActivity v w :=
  ⟨by rw [state], by rw [state], prePause⟩

theorem SameActivity.refl (v : Working) : SameActivity v v := .of_state rfl rfl

/-- An active session that stays active. -/
theorem SameActivity.of_active {v w : Working} (active : v.state ≠ .closed ∧ v.state ≠ .paused) (stays : StaysOpen v w)
    (unpaused : w.state ≠ .paused) : SameActivity v w := by
  obtain ⟨opened, prePause⟩ := stays
  exact ⟨iff_of_false opened active.1, iff_of_false unpaused active.2, prePause⟩

namespace SameClaim

variable {x y z : Session}

theorem refl (x : Session) : SameClaim x x := ⟨rfl, rfl, .refl _⟩

theorem trans (h : SameClaim x y) (h' : SameClaim y z) : SameClaim x z where
  prog := h'.prog.trans h.prog
  share := h'.share.trans h.share
  activity :=
    { closed := h'.activity.closed.trans h.activity.closed
      paused := h'.activity.paused.trans h.activity.paused
      prePause := h'.activity.prePause.trans h.activity.prePause }

theorem isActive (h : SameClaim x y) : isActive y = isActive x := by
  rw [Bool.eq_iff_iff, isActive_iff, isActive_iff, ne_eq, ne_eq, h.activity.closed, h.activity.paused]

theorem floorRate (h : SameClaim x y) : floorRate y = floorRate x := by
  rw [Machine.floorRate, Machine.floorRate, h.prog]

theorem capRate (h : SameClaim x y) : capRate y = capRate x := by
  rw [Machine.capRate, Machine.capRate, h.prog]

theorem claimable (h : SameClaim x y) (ok : Claimable x) : Claimable y := by
  obtain ⟨ladder, window, prePause⟩ := ok
  exact ⟨by rwa [h.prog], by rwa [h.prog], by rwa [h.activity.prePause]⟩

end SameClaim

namespace KeepsClaims

variable {s t u : State}

theorem refl (s : State) : KeepsClaims s s := ⟨rfl, fun _ => .refl _⟩

theorem trans (h : KeepsClaims s t) (h' : KeepsClaims t u) : KeepsClaims s u :=
  ⟨h'.arbiter.trans h.arbiter, fun i => (h.session i).trans (h'.session i)⟩

/-- `trans` with its second part first: that part names the state between. -/
theorem after (h' : KeepsClaims t u) (h : KeepsClaims s t) : KeepsClaims s u := h.trans h'

/-- The arbiter and the sessions stay. -/
theorem of_frame (arbiter : t.arbiter = s.arbiter) (sessions : t.sessions = s.sessions) : KeepsClaims s t :=
  ⟨arbiter, fun i => session_congr sessions i ▸ .refl _⟩

theorem claimable (h : KeepsClaims s t) (ok : ∀ i, (s.session i).work.state ≠ .closed → Claimable (s.session i)) :
    ∀ i, (t.session i).work.state ≠ .closed → Claimable (t.session i) := fun i ho =>
  (h.session i).claimable (ok i fun closed => ho ((h.session i).activity.closed.2 closed))

theorem divided (h : KeepsClaims s t) (ok : Divided s) : Divided t := by
  have active : ∀ i, isActive (t.session i) = isActive (s.session i) := fun i => (h.session i).isActive
  have floor : ∀ i, floorRate (t.session i) = floorRate (s.session i) := fun i => (h.session i).floorRate
  have cap : ∀ i, capRate (t.session i) = capRate (s.session i) := fun i => (h.session i).capRate
  have share : ∀ i, (t.session i).share = (s.session i).share := fun i => (h.session i).share
  have sum : shareSum t = shareSum s := by simp only [shareSum_eq, share]
  obtain ⟨inactive, window, floors, total⟩ := ok
  refine ⟨?_, ?_, ?_, ?_⟩
  · simpa only [active, share] using inactive
  · simpa only [active, share, floor, cap] using window
  · simpa only [active, share, floor, h.arbiter] using floors
  · simpa only [sum, h.arbiter] using total

theorem apportioned (h : KeepsClaims s t) (ok : Apportioned s) : Apportioned t :=
  ⟨h.claimable ok.claimable, h.divided ok.divided⟩

end KeepsClaims

theorem Apportioned.of_frame {s t : State} (ok : Apportioned s) (arbiter : t.arbiter = s.arbiter)
    (sessions : t.sessions = s.sessions) : Apportioned t :=
  (KeepsClaims.of_frame arbiter sessions).apportioned ok

theorem setSession_keepsClaims {s : State} {i : SessionId} {x : Session} (h : SameClaim (s.session i) x) :
    KeepsClaims s (s.setSession i x) :=
  ⟨rfl, fun j => by
    rw [session_setSession]
    split
    · next e => exact e ▸ h
    · exact .refl _⟩

theorem setWork_keepsClaims {s : State} {i : SessionId} {w : Working} (h : SameActivity (s.session i).work w) :
    KeepsClaims s (s.setWork i w) :=
  setSession_keepsClaims ⟨rfl, rfl, h⟩

theorem post_keepsClaims (kind : EventKind) (session : BitVec 4) (code : BitVec 8) (a b : Word) (s : State) :
    KeepsClaims s (post kind session code a b s) :=
  .of_frame (post_arbiter ..) (post_sessions ..)

theorem FreesOnly.keepsClaims {s t : State} (h : FreesOnly s t) : KeepsClaims s t :=
  .of_frame (by rw [h.eq]) (by rw [h.eq])

theorem freeWhere_keepsClaims (p : FetchRecord → Bool) (s : State) : KeepsClaims s (freeWhere p s) :=
  (freeWhere_spec p s).1.keepsClaims

theorem mapParts_keepsClaims (f : ConsumerPart → ConsumerPart) (s : State) : KeepsClaims s (mapParts f s) := .of_frame rfl rfl

theorem freeSession_keepsClaims (i : SessionId) (s : State) : KeepsClaims s (freeSession i s) :=
  (freeWhere_keepsClaims _ s).trans (mapParts_keepsClaims ..)

/-! ### The session governor -/

theorem Governs.keepsClaims {i : SessionId} {s t : State} (h : Governs i s t)
    (activity : SameActivity (s.session i).work (t.session i).work) : KeepsClaims s t where
  arbiter := h.arbiter
  session j := by
    by_cases hj : j = i
    · subst hj
      exact ⟨h.prog, h.share, activity⟩
    · rw [h.other j hj]
      exact .refl _

section Unpaused
variable (i : SessionId) (reason : Reason) (s : State)

theorem startProbe_unpaused : ((startProbe i reason s).session i).work.state ≠ .paused := by
  unfold startProbe
  simp only
  split <;> simp [convergeProbe, postProbeDone]

theorem continueProbe_unpaused : ((continueProbe i reason s).session i).work.state ≠ .paused := by
  unfold continueProbe
  simp only
  split <;> simp [convergeProbe, postProbeDone]

theorem steadyDecision_unpaused (before : SessionState) :
    ((steadyDecision i before reason s).session i).work.state ≠ .paused := by
  unfold steadyDecision
  simp only
  split <;> [split; skip] <;> simp

theorem recoverSession_unpaused : ((recoverSession i s).session i).work.state ≠ .paused := by
  unfold recoverSession postRecovered
  simp only [post_session]
  split
  · simp
  · simp
  · exact startProbe_unpaused _ _ _

theorem publishLo_keepsClaims : KeepsClaims s (publishLo i reason s) :=
  (publishLo_governs ..).keepsClaims (by rw [publishLo, publish_work]; exact .refl _)

variable {i s}

theorem startProbe_keepsClaims (active : (s.session i).work.state ≠ .closed ∧ (s.session i).work.state ≠ .paused) :
    KeepsClaims s (startProbe i reason s) :=
  (startProbe_governs ..).keepsClaims (.of_active active (startProbe_staysOpen ..) (startProbe_unpaused i reason s))

theorem continueProbe_keepsClaims (active : (s.session i).work.state ≠ .closed ∧ (s.session i).work.state ≠ .paused) :
    KeepsClaims s (continueProbe i reason s) :=
  (continueProbe_governs ..).keepsClaims (.of_active active (continueProbe_staysOpen ..) (continueProbe_unpaused i reason s))

theorem steadyDecision_keepsClaims (before : SessionState)
    (active : (s.session i).work.state ≠ .closed ∧ (s.session i).work.state ≠ .paused) :
    KeepsClaims s (steadyDecision i before reason s) :=
  (steadyDecision_governs ..).keepsClaims (.of_active active (steadyDecision_staysOpen ..) (steadyDecision_unpaused i reason s before))

theorem recoverSession_keepsClaims (active : (s.session i).work.state ≠ .closed ∧ (s.session i).work.state ≠ .paused) :
    KeepsClaims s (recoverSession i s) :=
  (recoverSession_governs ..).keepsClaims (.of_active active (recoverSession_staysOpen ..) (recoverSession_unpaused i s))

end Unpaused

theorem fallbackCompletion_keepsClaims {i : SessionId} {s : State} (h : (s.session i).work.state = .fallback) :
    KeepsClaims s (fallbackCompletion i s) := by
  have counted : ∀ n, KeepsClaims s (s.setWork i { (s.session i).work with recovering := n }) := fun _ =>
    setWork_keepsClaims (.of_state rfl rfl)
  unfold fallbackCompletion
  simp only
  split
  · exact (recoverSession_keepsClaims (by simp [h])).after (counted _)
  · exact (publishLo_keepsClaims ..).after (counted _)

/-- A completion moves an active session among the active states, and leaves the others alone (R62, R143). -/
theorem offerCompletion_keepsClaims (i : SessionId) (rung landing sample : Nat) (s : State) :
    KeepsClaims s (offerCompletion i rung landing sample s) := by
  unfold offerCompletion
  split
  · next h => exact (continueProbe_keepsClaims _ (by simp [h])).after (setWork_keepsClaims (.of_state rfl rfl))
  · next h => exact steadyDecision_keepsClaims _ _ (by simp [h])
  · next h => exact steadyDecision_keepsClaims _ _ (by simp [h])
  · next h => exact fallbackCompletion_keepsClaims h
  · exact .refl s
  · exact .refl s

theorem panicCrossing_keepsClaims (i : SessionId) (s : State) : KeepsClaims s (panicCrossing i s) := by
  unfold panicCrossing
  split
  · next h => exact steadyDecision_keepsClaims _ _ (by simp [h])
  · next h => exact steadyDecision_keepsClaims _ _ (by simp [h])
  all_goals exact .refl s

/-- A stall moves an active session to FALLBACK, and leaves the others alone (R136, R143). -/
theorem takeStall_keepsClaims (i : SessionId) (s : State) : KeepsClaims s (takeStall i s) := by
  have entered : (s.session i).work.state ≠ .closed ∧ (s.session i).work.state ≠ .paused → KeepsClaims s (enterFallback i s) :=
    fun active => (publishLo_keepsClaims ..).after (setWork_keepsClaims (.of_active active ⟨nofun, rfl⟩ nofun))
  unfold takeStall
  split
  · next h => exact entered (by simp [h])
  · next h => exact entered (by simp [h])
  · next h => exact entered (by simp [h])
  · exact setWork_keepsClaims (.of_state rfl rfl)
  · exact .refl s
  · exact .refl s

/-- A new window is answered in the state it finds (R147, R148). -/
theorem takeWindow_keepsClaims (i : SessionId) (s : State) : KeepsClaims s (takeWindow i s) := by
  unfold takeWindow
  simp only
  split
  · next h => exact startProbe_keepsClaims _ (by simp [h])
  · next h => exact steadyDecision_keepsClaims _ _ (by simp [h])
  · next h => exact steadyDecision_keepsClaims _ _ (by simp [h])
  · exact publishLo_keepsClaims ..
  · have published : ∀ t rung reason, KeepsClaims t (publish i rung reason t) := fun t _ _ =>
      (publish_governs ..).keepsClaims (by rw [publish_work]; exact .refl _)
    refine (published ..).after ?_
    split
    · exact setWork_keepsClaims (.of_state rfl rfl)
    · exact .refl s
  · exact .refl s

theorem resumeHeld_keepsClaims {i : SessionId} {s : State}
    (active : (s.session i).work.state ≠ .closed ∧ (s.session i).work.state ≠ .paused) : KeepsClaims s (resumeHeld i s) := by
  unfold resumeHeld
  split
  · exact continueProbe_keepsClaims _ active
  · exact publishLo_keepsClaims ..
  · exact steadyDecision_keepsClaims _ _ active

/-! ### Arrivals, stalls and consumer reads -/

theorem completeSegment_keepsClaims (i : SessionId) (h : HeldSegment) (s : State) : KeepsClaims s (completeSegment i h s) := by
  have held : ∀ list rebuffering, KeepsClaims s (s.setSession i { s.session i with held := list, rebuffering := rebuffering }) :=
    fun _ _ => setSession_keepsClaims ⟨rfl, rfl, .refl _⟩
  unfold completeSegment refillTest
  simp only
  split <;> [skip; split <;> [skip; split]]
  · exact setWork_keepsClaims (.of_state rfl rfl)
  · exact .refl s
  · rw [setSession_setSession, session_setSession_self]
    exact (post_keepsClaims ..).after (held _ false)
  · exact held _ _

theorem completeFetch_keepsClaims (k : Slot) (r : FetchRecord) (s : State) : KeepsClaims s (completeFetch k r s) := by
  have done : ∀ landing, KeepsClaims s (postFetchDone k r landing (passParts k (freeSlot k s))) := fun _ =>
    (post_keepsClaims ..).after (.of_frame rfl rfl)
  unfold completeFetch handOverCompletion
  simp only
  split
  · exact done _
  · exact (offerCompletion_keepsClaims ..).after ((done _).trans (completeSegment_keepsClaims ..))

theorem takeArrival_keepsClaims (a : Arrival) (s : State) : KeepsClaims s (takeArrival a s) := by
  have credited : ∀ k r n, KeepsClaims s (creditRise r n (postRevive k r s)) := fun k r n => by
    have revived : KeepsClaims s (postRevive k r s) := by
      unfold postRevive
      split
      · exact post_keepsClaims ..
      · exact .refl s
    unfold creditRise
    split
    · exact revived.trans (.of_frame rfl rfl)
    · exact revived
  unfold takeArrival countArrival
  simp only
  split <;> [split <;> [split; skip]; skip]
  · exact (completeFetch_keepsClaims ..).after (credited ..)
  · exact (credited ..).trans (.of_frame rfl rfl)
  · exact .refl s
  · exact .refl s

theorem expireDeadline_keepsClaims (gap : Bool) (k : Slot) (s : State) : KeepsClaims s (expireDeadline gap k s) := by
  have stalled : ∀ r, KeepsClaims s (stallRecord gap k r s) := fun r => by
    have marked : ∀ q, KeepsClaims s (s.setSlot k q) := fun _ => .of_frame rfl rfl
    have counted : ∀ (t : State) n,
        KeepsClaims t (t.setWork r.session { (t.session r.session).work with stalls := n }) := fun _ _ =>
      setWork_keepsClaims (.of_state rfl rfl)
    exact ((marked _).trans (counted _ _)).trans ((post_keepsClaims ..).trans (takeStall_keepsClaims ..))
  unfold expireDeadline
  split <;> [split; skip]
  · exact stalled _
  · exact .refl s
  · exact .refl s

theorem readHeld_sameClaim (q : Serial) (e : Nat) (x : Session) : SameClaim x (readHeld q e x) := by
  unfold readHeld
  simp only
  split <;> exact ⟨rfl, rfl, .of_state rfl rfl⟩

theorem applyPart_keepsClaims (part : ConsumerPart) (s : State) : KeepsClaims s (applyPart part s) := by
  rcases applyPart_cases part s with same | ⟨k, r, -, -, read⟩ | read
  · rw [same]
    exact .refl s
  · rw [read]
    have marked : ∀ q, KeepsClaims s (s.setSlot k q) := fun _ => .of_frame rfl rfl
    exact (marked _).trans (setSession_keepsClaims ⟨rfl, rfl, .of_state rfl rfl⟩)
  · rw [read]
    exact setSession_keepsClaims (readHeld_sameClaim ..)

theorem applyParts_keepsClaims (parts : List ConsumerPart) (s : State) : KeepsClaims s (applyParts parts s).1 := by
  induction parts generalizing s with
  | nil => exact .refl s
  | cons part rest ih => exact (applyPart_keepsClaims part s).trans (ih _)

theorem judgeRead_keepsClaims (before : Nat) (consumed : Bool) (i : SessionId) (s : State) :
    KeepsClaims s (judgeRead before consumed i s) := by
  have starved : ∀ b : Bool, KeepsClaims s (if b then underrun i s else s) := by
    rintro (_ | _)
    · exact .refl s
    · exact (post_keepsClaims ..).after (setSession_keepsClaims ⟨rfl, rfl, .of_state rfl rfl⟩)
  unfold judgeRead
  simp only
  split
  · exact (starved _).trans (panicCrossing_keepsClaims ..)
  · exact starved _

theorem takeConsumerRead_keepsClaims (parts : List ConsumerPart) (s : State) : KeepsClaims s (takeConsumerRead parts s) := by
  unfold takeConsumerRead
  simp only
  refine (applyParts_keepsClaims parts s).trans ?_
  generalize (applyParts parts s).1 = t
  generalize List.finRange 4 = is
  induction is generalizing t with
  | nil => exact .refl t
  | cons i is ih =>
    rw [List.foldl_cons]
    refine .trans ?_ (ih _)
    split
    · exact judgeRead_keepsClaims ..
    · exact .refl t

/-! ### Time and reads -/

theorem endWindow_apportioned {s : State} (ok : Apportioned s) : Apportioned (endWindow s) := by
  unfold endWindow
  simp only
  split
  · exact ok.of_frame rfl rfl
  · exact handOverLink_apportioned (ok.of_frame rfl rfl)

theorem takeOwedTick_apportioned {s : State} (ok : Apportioned s) : Apportioned (takeOwedTick s) := by
  unfold takeOwedTick meterTick
  simp only
  split <;> [split; skip]
  · exact endWindow_apportioned (ok.of_frame rfl rfl)
  · exact ok.of_frame rfl rfl
  · exact ok

theorem loseReference_keepsClaims (s : State) : KeepsClaims s (loseReference s) := by
  unfold loseReference
  split
  · exact .refl s
  · exact .of_frame rfl rfl
  · exact (post_keepsClaims ..).after (.of_frame rfl rfl)

theorem markTaken_keepsClaims (address length : Nat) (s : State) : KeepsClaims s (markTaken address length s) :=
  ⟨rfl, fun i => by
    have own : (markTaken address length s).session i = { s.session i with
        taken := (s.session i).taken || (isOpen (s.session i) && overlapsSlot s address length i) } :=
      Vector.getElem_ofFn ..
    rw [own]
    exact ⟨rfl, rfl, .refl _⟩⟩

/-! ### The orders -/

/-- A session replaced before a recompute need only be claimable itself. -/
theorem recompute_setSession_apportioned {s : State}
    (claimable : ∀ j, (s.session j).work.state ≠ .closed → Claimable (s.session j)) {i : SessionId} {x : Session}
    (h : x.work.state ≠ .closed → Claimable x) : Apportioned (recompute (s.setSession i x)) :=
  recompute_apportioned fun j ho => by
    rw [session_setSession] at ho ⊢
    split
    · next e =>
      rw [if_pos e] at ho
      exact h ho
    · next e =>
      rw [if_neg e] at ho
      exact claimable j ho

/-- A recompute that session `i` enters with its working half written. -/
theorem recompute_setWork_apportioned {s : State} (ok : Apportioned s) {i : SessionId} {w : Working}
    (ho : (s.session i).work.state ≠ .closed) (prePause : w.prePause ≠ .closed ∧ w.prePause ≠ .paused) :
    Apportioned (recompute (s.setWork i w)) :=
  recompute_setSession_apportioned ok.claimable fun _ =>
    have own := ok.claimable i ho
    ⟨own.ladder, own.window, prePause⟩

theorem setupEffect_apportioned (tag : Tag) (f : SetupFields) {s : State} (ok : Apportioned s) :
    Apportioned (setupEffect tag f s) := by
  unfold setupEffect
  simp only
  split
  · exact handOverLink_apportioned (ok.of_frame rfl rfl)
  · exact ok.of_frame rfl rfl

/-- The window of an OPEN lies in its ladder, and a ladder that is not refused is strictly increasing (R26). -/
theorem openedSession_claimable {f : OpenFields} (rungs : 1 ≤ f.ladder.length) (good : badLadder (f.ladder.map (·.toNat)) = false)
    (safety : Nat) (seed : Option Nat) (now : Tick) : Claimable (openedSession (programmedOf f) safety seed now) := by
  obtain ⟨-, ladder⟩ : (∀ r ∈ f.ladder.map (·.toNat), r ≠ 0) ∧ (f.ladder.map (·.toNat)).Pairwise (· < ·) := by
    by_contra bad
    rw [(badLadder_iff _).2 bad] at good
    cases good
  refine ⟨?_, ?_, nofun, nofun⟩
  · exact ladder
  · simp only [openedSession, programmedOf_eq, List.length_map]
    omega

/-- An OPEN divides with its session active and the L of its seed received (R109, R134). -/
theorem openEffect_apportioned {i : SessionId} {f : OpenFields} {s : State} (ok : Apportioned s) (rungs : 1 ≤ f.ladder.length)
    (good : badLadder (f.ladder.map (·.toNat)) = false) : Apportioned (openEffect i f s) := by
  have seeded : (seedMeter (f.seed.map seedValue) s).sessions = s.sessions := by
    unfold seedMeter
    split <;> [skip; split] <;> rfl
  have opened := recompute_setSession_apportioned (fun j => by rw [session_congr seeded]; exact ok.claimable j) (i := i) fun _ =>
    openedSession_claimable rungs good s.meter.safety (f.seed.map seedValue) s.timebase.tick
  unfold openEffect
  simp only
  split
  · exact (post_keepsClaims ..).apportioned opened
  · exact opened

theorem windowEffect_apportioned {i : SessionId} {s : State} (f : WindowFields) (ok : Apportioned s)
    (ho : (s.session i).work.state ≠ .closed) : Apportioned (windowEffect i f s) := by
  have own := ok.claimable i ho
  have windowed : Claimable { s.session i with prog := windowedBy f (s.session i).prog } := by
    refine ⟨own.ladder, ?_, own.prePause⟩
    have rungs := own.window.2
    rw [windowedBy_eq]
    simp only
    omega
  exact (takeWindow_keepsClaims ..).apportioned (recompute_setSession_apportioned ok.claimable fun _ => windowed)

/-- A RESUME enters an active state, the pre-pause state or one of its own, and the answer leaves the session active (R144, R145). -/
theorem resumeEffect_apportioned {i : SessionId} {s : State} (ok : Apportioned s) (ho : (s.session i).work.state ≠ .closed) :
    Apportioned (resumeEffect i s) := by
  have prePause := (ok.claimable i ho).prePause
  have entered : ∀ w : Working, w.prePause = (s.session i).work.prePause → Apportioned (recompute (s.setWork i w)) := fun w same =>
    recompute_setWork_apportioned ok ho (same ▸ prePause)
  have active : ∀ w : Working, w.state ≠ .closed ∧ w.state ≠ .paused →
      ((recompute (s.setWork i w)).session i).work.state ≠ .closed
        ∧ ((recompute (s.setWork i w)).session i).work.state ≠ .paused := fun w h => by simpa using h
  unfold resumeEffect resumeToFallback resumeByMode
  simp only
  split <;> [skip; split]
  · exact (publishLo_keepsClaims ..).apportioned (entered _ rfl)
  · exact (resumeHeld_keepsClaims (active _ prePause)).apportioned (entered _ rfl)
  · exact (publishLo_keepsClaims ..).apportioned (entered _ rfl)
  · exact (startProbe_keepsClaims _ (active _ (by simp))).apportioned (entered _ rfl)

theorem fetchEffect_keepsClaims (i : SessionId) (f : FetchFields) (s : State) : KeepsClaims s (fetchEffect i f s).1 := by
  have announced : ∀ kind (x : Session), SameClaim x (announceTo kind x) := fun kind x => by
    cases kind <;> exact ⟨rfl, rfl, .of_state rfl rfl⟩
  unfold fetchEffect
  split
  · exact .refl s
  · next k _ =>
    have filled : ∀ q, KeepsClaims s (s.setSlot k q) := fun _ => .of_frame rfl rfl
    exact (filled _).trans (setSession_keepsClaims (announced ..))

theorem flushEffect_keepsClaims (i : SessionId) (s : State) : KeepsClaims s (flushEffect i s) :=
  have emptied : ∀ t : State,
      KeepsClaims t (t.setSession i { t.session i with held := [], position := none, rebuffering := false }) := fun _ =>
    setSession_keepsClaims ⟨rfl, rfl, .refl _⟩
  (freeSession_keepsClaims i s).trans (emptied _)

theorem reacquireEffect_keepsClaims (s : State) : KeepsClaims s (reacquireEffect s) := by
  unfold reacquireEffect
  split
  · exact .refl s
  · exact .of_frame rfl rfl

/-- PAUSE, RECOVER and CONTINUE pass their state stage only while their session is active (R23). -/
theorem active_of_stateCause {i : SessionId} {o : Order} {s : State} (h : stateCause i o s = none)
    (kind : (∃ m, o = .pause m) ∨ o = .recover ∨ o = .continueRung) :
    (s.session i).work.state ≠ .closed ∧ (s.session i).work.state ≠ .paused := by
  refine ⟨fun closed => ?_, fun paused => ?_⟩
  · rcases kind with ⟨m, rfl⟩ | rfl | rfl <;> simp [stateCause, stateMust, closed] at h
  · rcases kind with ⟨m, rfl⟩ | rfl | rfl <;> simp [stateCause, stateMust, paused] at h

theorem orderEffect_apportioned (tag : Tag) (field : BitVec 4) (o : Order) (s : State) (h : refusalCause field o s = none)
    (ok : Apportioned s) : Apportioned (orderEffect tag (sessionOf field) o s).1 := by
  obtain ⟨length, -, state, content⟩ := refusalCause_eq_none_iff.1 h
  generalize sessionOf field = i at state content ⊢
  cases o <;> simp only [orderEffect]
  case setup f => exact setupEffect_apportioned tag f ok
  case openSession f =>
    exact openEffect_apportioned ok (by simp [lengthCause] at length; omega) (by simpa [contentCause] using content)
  case closeSession =>
    exact recompute_setSession_apportioned ((freeSession_keepsClaims i s).apportioned ok).claimable fun h => absurd rfl h
  case window f => exact windowEffect_apportioned f ok (open_of_stateCause state rfl nofun)
  case pause m =>
    have active := active_of_stateCause state (by simp)
    exact recompute_setWork_apportioned ok active.1 active
  case resume => exact resumeEffect_apportioned ok (open_of_stateCause state rfl nofun)
  case recover => exact (recoverSession_keepsClaims (active_of_stateCause state (by simp))).apportioned ok
  case continueRung =>
    have active := active_of_stateCause state (by simp)
    have steady : KeepsClaims s (continueEffect i s) := setWork_keepsClaims (.of_active active ⟨nofun, rfl⟩ nofun)
    exact steady.apportioned ok
  case fetch f => exact (fetchEffect_keepsClaims ..).apportioned ok
  case abort base => exact (freeWhere_keepsClaims ..).apportioned ok
  case flush => exact (flushEffect_keepsClaims ..).apportioned ok
  case reset =>
    rw [resetEffect, freeAll_eq]
    exact apportioned_of_empty rfl fun j => by simp [State.session]
  case reacquire => exact (reacquireEffect_keepsClaims s).apportioned ok

/-! ### Every step -/

theorem apportioned_stepClosed : StepClosed fun s t => Apportioned s → Apportioned t where
  refl _ := id
  trans h h' := h' ∘ h
  outside _ _ _ _ _ ok := ok.of_frame rfl rfl
  powerOn _ _ _ _ := apportioned_of_empty rfl fun i => by simp [State.session, powerOn, State.reset]
  post _ _ _ _ _ _ := (post_keepsClaims ..).apportioned
  order := orderEffect_apportioned
  arrival _ _ := (takeArrival_keepsClaims ..).apportioned
  consumerRead _ _ := (takeConsumerRead_keepsClaims ..).apportioned
  pop _ ok := ok.of_frame (by rw [popEvent_eq]) (by rw [popEvent_eq])
  mark _ _ _ := (markTaken_keepsClaims ..).apportioned
  firstByte _ _ := (expireDeadline_keepsClaims false ..).apportioned
  gap _ _ := (expireDeadline_keepsClaims true ..).apportioned
  owedTick _ := takeOwedTick_apportioned
  tick _ ok := ok.of_frame rfl rfl
  edge _ _ ok := ok.of_frame rfl rfl
  loss _ := (loseReference_keepsClaims _).apportioned
  regain _ ok := ok.of_frame rfl rfl

/-- Settles O10: of the session law `Apportioned` keeps by itself what a division rests on; the meter's law, kept by every step
(`stepsKeepTheMeterLaw`), turns the L received into the meter's. -/
theorem stepsKeepTheShareLaw : Obligations.StepsKeepTheShareLaw := fun s t meter sessions shares hs =>
  have kept := apportioned_stepClosed.step hs (apportioned_of_laws meter sessions shares)
  (sharesOk_iff (stepsKeepTheMeterLaw s t meter hs)).2 kept.divided

end Sys2Proof.Machine
end

section
/-! PROOFS. The rounds one by one: when they end, what a round leaves to the next, and why the last one was the last (R122, R123). -/

namespace Sys2Proof.Machine

/-! ### One round -/

/-- What the gifts of a round together give (R122). -/
def roundGifts (r : Nat) (cs : List Claim) : Nat := (cs.map (gift r (unsaturatedWeight cs))).sum

/-- The claims a round leaves (R122). -/
def afterRound (r : Nat) (cs : List Claim) : List Claim := cs.map (giveTo r (unsaturatedWeight cs))

/-- Why rounds end (R123): nothing is left, every session is saturated, or every gift is 0. -/
def RoundsEnd (r : Nat) (cs : List Claim) : Prop := r = 0 ∨ (∀ c ∈ cs, c.remaining = 0) ∨ roundGifts r cs = 0

theorem roundGifts_eq_zero_iff {r : Nat} {cs : List Claim} :
    roundGifts r cs = 0 ↔ ∀ c ∈ cs, gift r (unsaturatedWeight cs) c = 0 := by
  rw [roundGifts, List.sum_eq_zero_iff, List.forall_mem_map]

/-- With every session saturated there is nothing to give. -/
theorem roundGifts_of_saturated {r : Nat} {cs : List Claim} (h : ∀ c ∈ cs, c.remaining = 0) : roundGifts r cs = 0 :=
  roundGifts_eq_zero_iff.2 fun c hc => by rw [gift, h c hc, Nat.min_zero]

/-- A round that gives nothing changes no claim. -/
theorem afterRound_of_noGifts {r : Nat} {cs : List Claim} (h : roundGifts r cs = 0) : afterRound r cs = cs := by
  have unchanged : ∀ c ∈ cs, giveTo r (unsaturatedWeight cs) c = c := fun c hc => by
    have nothing : min (r * c.weight / unsaturatedWeight cs) c.remaining = 0 := roundGifts_eq_zero_iff.1 h c hc
    simp only [giveTo, nothing, Nat.sub_zero, Nat.add_zero]
  exact (List.map_congr_left unchanged).trans (List.map_id' cs)

/-- The rounds, one round at a time: the case that ends them and the case that goes on (R123). -/
theorem rounds_succ (n r : Nat) (cs : List Claim) : rounds (n + 1) r cs =
    if r = 0 ∨ (∀ c ∈ cs, c.remaining = 0) then (r, cs)
    else if roundGifts r cs = 0 then (r, afterRound r cs) else rounds n (r - roundGifts r cs) (afterRound r cs) := by
  have gave : givenSum (afterRound r cs) - givenSum cs = roundGifts r cs := by
    rw [afterRound, givenSum_round, Nat.add_sub_cancel_left, roundGifts]
  rw [← gave]
  simp only [rounds, List.all_eq_true, beq_iff_eq]
  rfl

theorem rounds_of_end {r : Nat} {cs : List Claim} (h : RoundsEnd r cs) : rounds r r cs = (r, cs) := by
  cases r with
  | zero => rfl
  | succ n =>
    rw [rounds_succ]
    split <;> [skip; split]
    · rfl
    · next nothing => rw [afterRound_of_noGifts nothing]
    · next going gave => exact absurd h (by rw [RoundsEnd, ← or_assoc]; exact not_or.2 ⟨going, gave⟩)

/-- A round that gives something is followed by the rounds from what it leaves. -/
theorem rounds_of_gifts {r : Nat} {cs : List Claim} (left : 0 < r) (gave : 0 < roundGifts r cs) :
    rounds r r cs = rounds (r - roundGifts r cs) (r - roundGifts r cs) (afterRound r cs) := by
  obtain ⟨n, rfl⟩ := Nat.exists_eq_add_one.2 left
  have unsaturated : ¬ ∀ c ∈ cs, c.remaining = 0 := fun h => gave.ne' (roundGifts_of_saturated h)
  rw [rounds_succ, if_neg (not_or.2 ⟨left.ne', unsaturated⟩), if_neg gave.ne']
  exact rounds_fuel _ _ _ (by omega)

/-! ### All the rounds -/

/-- The rounds end only where they must: what they leave would end them at once. -/
theorem rounds_end (r : Nat) (cs : List Claim) : RoundsEnd (rounds r r cs).1 (rounds r r cs).2 := by
  induction r using Nat.strong_induction_on generalizing cs with
  | _ r ih =>
    by_cases ended : RoundsEnd r cs
    · rwa [rounds_of_end ended]
    · obtain ⟨left, -, gave⟩ : r ≠ 0 ∧ (¬ ∀ c ∈ cs, c.remaining = 0) ∧ roundGifts r cs ≠ 0 := by
        simpa only [RoundsEnd, not_or] using ended
      rw [rounds_of_gifts (Nat.pos_of_ne_zero left) (Nat.pos_of_ne_zero gave)]
      exact ih _ (by omega) _

/-- What no gift changes of a claim, no round changes. -/
theorem rounds_map_eq {α : Type} {f : Claim → α} (h : ∀ r w c, f (giveTo r w c) = f c) (n r : Nat) (cs : List Claim) :
    (rounds n r cs).2.map f = cs.map f := by
  have round : ∀ r cs, (afterRound r cs).map f = cs.map f := fun r cs => by
    rw [afterRound, List.map_map]
    exact List.map_congr_left fun c _ => h r _ c
  induction n generalizing r cs with
  | zero => rfl
  | succ n ih =>
    rw [rounds_succ]
    split <;> [skip; split]
    · rfl
    · exact round r cs
    · rw [ih, round]

/-- Settles O53: `rounds_of_end` and `rounds_of_gifts` are the round written out; the rounds conserve the remainder and each demand,
and end as `rounds_end` says. -/
theorem roundsShareTheRemainder : Obligations.RoundsShareTheRemainder := by
  refine ⟨fun r cs => ⟨rounds_of_end, rounds_of_gifts⟩, fun r cs fresh => ⟨?_, ?_, ?_⟩⟩
  · have ungiven : givenSum cs = 0 := List.sum_eq_zero_iff.2 (List.forall_mem_map.2 fresh)
    rw [rounds_conserve, ungiven, Nat.add_zero]
  · have kept : ∀ r w c, ((giveTo r w c).weight, (giveTo r w c).given + (giveTo r w c).remaining)
        = (c.weight, c.given + c.remaining) := fun r w c => by rw [(giveTo_sum r w c).1, (giveTo_sum r w c).2]
    rw [rounds_map_eq (f := fun c => (c.weight, c.given + c.remaining)) kept]
    exact List.map_congr_left fun c hc => by rw [fresh c hc, Nat.zero_add]
  · refine (rounds_end r cs).imp_right (Or.imp_right fun noGifts c hc unsaturated => ?_)
    have nothing : gift (rounds r r cs).1 (unsaturatedWeight (rounds r r cs).2) c = 0 := roundGifts_eq_zero_iff.1 noGifts c hc
    unfold gift at nothing
    omega

end Sys2Proof.Machine
end

section
/-! PROOFS. Every step keeps every open session's context lawful, each session's from itself alone. The law of an open session is
split in two: what it asks of the context in any state (`ContextOk`), and what the state asks of the advised rung and the probe bounds
(`AnswerOk`). The session governor passes through contexts whose rung is not yet the state's; every act of its own ends in a
publication, which answers for the state it is made in. All other acts leave a context as it is but for its tallies (`SameContext`). -/

namespace Sys2Proof.Machine

/-! ### The law -/

/-- The current rung and the counts of R130 that other blocks than the session governor raise. -/
structure TalliesOk (w : Working) : Prop where
  current : w.current ≤ 7
  rebuffers : w.rebuffers ≤ Config.countLimit
  stalls : w.stalls ≤ Config.countLimit
  skips : w.skips ≤ Config.countLimit
  overrides : w.overrides ≤ Config.countLimit

/-- What the session law asks of an open session's context in any of its states (R129, R130). -/
structure ContextOk (p : Programmed) (w : Working) : Prop extends TalliesOk w where
  programmed : ProgrammedOk p
  prePause : w.prePause ≠ .closed ∧ w.prePause ≠ .paused
  preFallback : w.preFallback ≤ 7
  streak : w.upStreak ≤ p.upCount
  recovering : w.recovering ≤ 15
  probeSteps : w.probeSteps ≤ Config.countLimit

/-- The bounds of a search lie in the window, and its streak is 0 (R169). -/
structure BoundsOk (p : Programmed) (w : Working) : Prop where
  lower : p.lo ≤ w.a
  ordered : w.a ≤ w.b
  upper : w.b ≤ p.hi
  streak : w.upStreak = 0

/-- What a session's state asks of the rung it advises and of its probe bounds (R131, R165, R168, R169). -/
structure AnswerOk (p : Programmed) (w : Working) (rung : Nat) : Prop where
  window : p.lo ≤ rung ∧ rung ≤ p.hi
  fallback : w.state = .fallback → rung = p.lo
  boundary : w.state = .boundary → rung = p.hi ∧ w.upStreak = p.upCount ∧ p.clip = .stop
  searching : Searching w → BoundsOk p w
  probing : w.state = .probing → rung = probeMidpoint w.a w.b

/-- The law of one session: lawful if it is open. -/
def SessionLawful (x : Session) : Prop := x.work.state ≠ .closed → OpenOk x

theorem openOk_iff {x : Session} : OpenOk x ↔ ContextOk x.prog x.work ∧ AnswerOk x.prog x.work x.advice.rung := by
  constructor
  · rintro ⟨programmed, window, prePause, fallback, boundary, searching, probing, ⟨current, preFallback, streak, recovering⟩,
      probeSteps, rebuffers, stalls, skips, overrides⟩
    refine ⟨⟨⟨current, rebuffers, stalls, skips, overrides⟩, programmed, prePause, preFallback, streak, recovering, probeSteps⟩,
      ⟨window, fallback, boundary, fun h => ?_, probing⟩⟩
    obtain ⟨lower, ordered, upper, idle⟩ := searching h
    exact ⟨lower, ordered, upper, idle⟩
  · rintro ⟨⟨⟨current, rebuffers, stalls, skips, overrides⟩, programmed, prePause, preFallback, streak, recovering, probeSteps⟩,
      ⟨window, fallback, boundary, searching, probing⟩⟩
    refine ⟨programmed, window, prePause, fallback, boundary, fun h => ?_, probing, ⟨current, preFallback, streak, recovering⟩,
      probeSteps, rebuffers, stalls, skips, overrides⟩
    obtain ⟨lower, ordered, upper, idle⟩ := searching h
    exact ⟨lower, ordered, upper, idle⟩

theorem ContextOk.window {p : Programmed} {w : Working} (h : ContextOk p w) : p.lo ≤ p.hi := by
  obtain ⟨-, ⟨ordered, -⟩, -⟩ := h.programmed
  exact ordered

namespace AnswerOk

variable {p : Programmed} {w : Working} {rung : Nat}

/-- STEADY asks only for a rung in the window. -/
theorem of_steady (state : w.state = .steady) (window : p.lo ≤ rung ∧ rung ≤ p.hi) : AnswerOk p w rung := by
  refine ⟨window, ?_, ?_, ?_, ?_⟩ <;> simp [Searching, state]

/-- FALLBACK asks for lo (R136). -/
theorem of_fallback (state : w.state = .fallback) (window : p.lo ≤ p.hi) : AnswerOk p w p.lo := by
  refine ⟨⟨le_rfl, window⟩, fun _ => rfl, ?_, ?_, ?_⟩ <;> simp [Searching, state]

/-- BOUNDARY asks for hi, in STOP clip mode, with the streak at U (R165, R168). -/
theorem of_boundary (state : w.state = .boundary) (window : p.lo ≤ p.hi) (streak : w.upStreak = p.upCount)
    (clip : p.clip = .stop) : AnswerOk p w p.hi := by
  refine ⟨⟨window, le_rfl⟩, ?_, fun _ => ⟨rfl, streak, clip⟩, ?_, ?_⟩ <;> simp [Searching, state]

/-- PROBING asks for the midpoint of its bounds (R169), which lies between them. -/
theorem of_probing (state : w.state = .probing) (bounds : BoundsOk p w) : AnswerOk p w (probeMidpoint w.a w.b) := by
  obtain ⟨above, below⟩ := probeMidpoint_mem bounds.ordered
  refine ⟨⟨bounds.lower.trans above, below.trans bounds.upper⟩, ?_, ?_, fun _ => bounds, fun _ => rfl⟩ <;> simp [state]

/-- PAUSED asks for a rung in the window, and for the bounds of the search it will go on with (R145). -/
theorem of_paused (state : w.state = .paused) (window : p.lo ≤ rung ∧ rung ≤ p.hi)
    (searching : w.prePause = .probing → BoundsOk p w) : AnswerOk p w rung := by
  refine ⟨window, ?_, ?_, ?_, ?_⟩
  · simp [state]
  · simp [state]
  · rintro (probing | ⟨-, before⟩)
    · simp [state] at probing
    · exact searching before
  · simp [state]

end AnswerOk

/-! ### Sessions that are kept -/

/-- From `x` to `y` the context stays but for its tallies, and with them in range. -/
structure SameContext (x y : Session) : Prop where
  prog : y.prog = x.prog
  rung : y.advice.rung = x.advice.rung
  work : y.work = { x.work with
    current := y.work.current, rebuffers := y.work.rebuffers, stalls := y.work.stalls, skips := y.work.skips
    overrides := y.work.overrides }
  tallies : ProgrammedOk x.prog → TalliesOk x.work → TalliesOk y.work

/-- A context whose working half stays too. -/
theorem SameContext.of_work {x y : Session} (prog : y.prog = x.prog) (rung : y.advice.rung = x.advice.rung)
    (work : y.work = x.work) : SameContext x y :=
  ⟨prog, rung, by rw [work], fun _ ok => work ▸ ok⟩

theorem SameContext.lawful {x y : Session} (h : SameContext x y) (ok : SessionLawful x) : SessionLawful y := by
  intro ho
  rw [h.work] at ho
  obtain ⟨context, answer⟩ := openOk_iff.1 (ok ho)
  have tallies := h.tallies context.programmed context.toTalliesOk
  rw [openOk_iff, h.prog, h.rung, h.work]
  exact ⟨{ context with toTalliesOk := { tallies with } },
    { answer with searching := fun searching => { answer.searching searching with } }⟩

/-- From `s` to `t` each session's law is kept, from itself alone. -/
structure KeepsSessions (s t : State) : Prop where
  session : ∀ i, SessionLawful (s.session i) → SessionLawful (t.session i)

namespace KeepsSessions

variable {s t u : State}

theorem refl (s : State) : KeepsSessions s s := ⟨fun _ => id⟩

theorem trans (h : KeepsSessions s t) (h' : KeepsSessions t u) : KeepsSessions s u :=
  ⟨fun i => h'.session i ∘ h.session i⟩

/-- `trans` with its second part first: that part names the state between. -/
theorem after (h' : KeepsSessions t u) (h : KeepsSessions s t) : KeepsSessions s u := h.trans h'

/-- The sessions stay. -/
theorem of_frame (sessions : t.sessions = s.sessions) : KeepsSessions s t :=
  ⟨fun i => by
    rw [session_congr sessions]
    exact id⟩

theorem of_sameContext (h : ∀ i, SameContext (s.session i) (t.session i)) : KeepsSessions s t :=
  ⟨fun i => (h i).lawful⟩

end KeepsSessions

theorem sessionLawful_closed : SessionLawful Session.closed := fun h => absurd rfl h

theorem keepsSessions_of_closed {s t : State} (h : ∀ i, t.session i = Session.closed) : KeepsSessions s t :=
  ⟨fun i _ => by
    rw [h]
    exact sessionLawful_closed⟩

theorem setSession_keepsSessions {s : State} {i : SessionId} {x : Session} (h : SessionLawful (s.session i) → SessionLawful x) :
    KeepsSessions s (s.setSession i x) :=
  ⟨fun j => by
    rw [session_setSession]
    split
    · next e => exact e ▸ h
    · exact id⟩

theorem post_keepsSessions (kind : EventKind) (session : BitVec 4) (code : BitVec 8) (a b : Word) (s : State) :
    KeepsSessions s (post kind session code a b s) :=
  .of_frame (post_sessions ..)

theorem FreesOnly.keepsSessions {s t : State} (h : FreesOnly s t) : KeepsSessions s t := .of_frame (by rw [h.eq])

theorem mapParts_keepsSessions (f : ConsumerPart → ConsumerPart) (s : State) : KeepsSessions s (mapParts f s) := .of_frame rfl

theorem freeSession_keepsSessions (i : SessionId) (s : State) : KeepsSessions s (freeSession i s) :=
  (freeWhere_spec _ s).1.keepsSessions.trans (mapParts_keepsSessions ..)

/-- A recompute changes no more of a session than its share, which the law does not read. -/
theorem recompute_keepsSessions (s : State) : KeepsSessions s (recompute s) :=
  .of_sameContext fun i => by
    rw [(recompute_divides s).session i]
    exact .of_work rfl rfl rfl

theorem handOverLink_keepsSessions (s : State) : KeepsSessions s (handOverLink s) := by
  unfold handOverLink
  split
  · exact .refl s
  · exact (recompute_keepsSessions _).after (.of_frame rfl)

/-- What the governor does for a session keeps the law if it keeps that session's. -/
theorem Governs.keepsSessions {i : SessionId} {s t : State} (h : Governs i s t)
    (own : SessionLawful (s.session i) → SessionLawful (t.session i)) : KeepsSessions s t :=
  ⟨fun j => by
    by_cases hj : j = i
    · exact hj ▸ own
    · rw [h.other j hj]
      exact id⟩

/-- A session replaced, a recompute, and the governor's answer for that session: only what the answer leaves need be lawful. -/
theorem Governs.keepsSessions_of_recompute {i : SessionId} {x : Session} {s t : State}
    (h : Governs i (recompute (s.setSession i x)) t) (own : SessionLawful (s.session i) → SessionLawful (t.session i)) :
    KeepsSessions s t :=
  ⟨fun j ok => by
    by_cases hj : j = i
    · subst hj
      exact own ok
    · rw [h.other j hj]
      refine (recompute_keepsSessions _).session j ?_
      rwa [session_setSession_of_ne _ _ hj]⟩

/-! ### Publication -/

section Publication
variable {i : SessionId} {reason : Reason} {s : State}

theorem publish_openOk {rung : Nat} (context : ContextOk (s.session i).prog (s.session i).work)
    (answer : AnswerOk (s.session i).prog (s.session i).work rung) : OpenOk ((publish i rung reason s).session i) := by
  rw [publish_session]
  exact openOk_iff.2 ⟨context, answer⟩

/-- A publication in the state that a new working half enters. -/
theorem publish_setWork_openOk {rung : Nat} {w : Working} (context : ContextOk (s.session i).prog w)
    (answer : AnswerOk (s.session i).prog w rung) : OpenOk ((publish i rung reason (s.setWork i w)).session i) :=
  publish_openOk (by rwa [session_setWork_self]) (by rwa [session_setWork_self])

theorem publishLo_openOk (context : ContextOk (s.session i).prog (s.session i).work)
    (state : (s.session i).work.state = .fallback ∨ (s.session i).work.state = .steady) :
    OpenOk ((publishLo i reason s).session i) := by
  refine publish_openOk context ?_
  rcases state with fallback | steady
  · exact .of_fallback fallback context.window
  · exact .of_steady steady ⟨le_rfl, context.window⟩

/-! ### The steady decision -/

/-- A steady decision answers with hi in BOUNDARY, or with a rung of the window in STEADY (R164, R165). -/
theorem steadyDecision_openOk (before : SessionState) (context : ContextOk (s.session i).prog (s.session i).work) :
    OpenOk ((steadyDecision i before reason s).session i) := by
  unfold steadyDecision
  simp only
  split
  · next holds =>
    simp only [holdsBoundary, Bool.and_eq_true, beq_iff_eq] at holds
    obtain ⟨⟨stop, -⟩, atTop⟩ := holds
    have decided : OpenOk ((publish i (steadyRung s.timebase.coarse (s.session i)) reason
        (s.setWork i { (s.session i).work with state := .boundary, upStreak := (s.session i).prog.upCount })).session i) := by
      rw [atTop]
      exact publish_setWork_openOk { context with streak := le_rfl }
        (.of_boundary rfl context.window rfl stop)
    split
    · exact decided
    · rwa [post_session]
  · exact publish_setWork_openOk
      { context with streak := steadyTarget_streak_le .. }
      (.of_steady rfl (steadyRung_mem _ context.window))

/-! ### The probe -/

theorem convergeProbe_openOk {rung : Nat} (context : ContextOk (s.session i).prog (s.session i).work)
    (window : (s.session i).prog.lo ≤ rung ∧ rung ≤ (s.session i).prog.hi) :
    OpenOk ((convergeProbe i rung reason s).session i) := by
  rw [convergeProbe, postProbeDone, post_session]
  exact publish_setWork_openOk { context with streak := Nat.zero_le _ } (.of_steady rfl window)

/-- A probe starts over the whole window (R169). -/
theorem startProbe_openOk (context : ContextOk (s.session i).prog (s.session i).work) :
    OpenOk ((startProbe i reason s).session i) := by
  have started : ContextOk (s.session i).prog { (s.session i).work with
      state := .probing, a := (s.session i).prog.lo, b := (s.session i).prog.hi, probeSteps := 0, upStreak := 0 } :=
    { context with streak := Nat.zero_le _, probeSteps := Nat.zero_le _ }
  unfold startProbe
  simp only
  split
  · refine convergeProbe_openOk ?_ ?_ <;> rw [session_setWork_self]
    · exact started
    · exact ⟨le_rfl, context.window⟩
  · exact publish_setWork_openOk started (.of_probing rfl ⟨le_rfl, context.window, le_rfl, rfl⟩)

/-- A probe goes on inside its bounds, or ends where they meet (R145, R172). -/
theorem continueProbe_openOk (context : ContextOk (s.session i).prog (s.session i).work)
    (bounds : BoundsOk (s.session i).prog (s.session i).work) : OpenOk ((continueProbe i reason s).session i) := by
  unfold continueProbe
  simp only
  split
  · exact convergeProbe_openOk context ⟨bounds.lower, bounds.ordered.trans bounds.upper⟩
  · exact publish_setWork_openOk { context with } (.of_probing rfl { bounds with })

/-- A probe step narrows the bounds inside the window (R171). -/
theorem probeStep_openOk (rung landing sample : Nat) (context : ContextOk (s.session i).prog (s.session i).work)
    (bounds : BoundsOk (s.session i).prog (s.session i).work) : OpenOk ((probeStep i rung landing sample s).session i) := by
  obtain ⟨above, below⟩ := clampRung_mem context.window rung
  obtain ⟨lower, ordered, upper⟩ := narrowed_mem bounds.lower bounds.ordered bounds.upper above below
    (supports s.minProbe s.meter.safety (s.session i).prog (clampRung (s.session i).prog rung) landing sample)
  refine continueProbe_openOk ?_ ?_ <;> rw [session_setWork_self]
  · exact { context with probeSteps := bump_le _ }
  · exact ⟨lower, ordered, upper, bounds.streak⟩

/-! ### Fallback and recovery -/

/-- Entering FALLBACK keeps the rung last fetched, and advises lo (R136). -/
theorem enterFallback_openOk (context : ContextOk (s.session i).prog (s.session i).work) :
    OpenOk ((enterFallback i s).session i) := by
  refine publishLo_openOk ?_ (.inl ?_) <;> rw [session_setWork_self]
  exact { context with
    preFallback := context.current, streak := Nat.zero_le _, recovering := Nat.zero_le _ }

/-- A recovery answers in STEADY with a rung of the window, or starts a probe (R139). -/
theorem recoverSession_openOk (context : ContextOk (s.session i).prog (s.session i).work) :
    OpenOk ((recoverSession i s).session i) := by
  have steady : ContextOk (s.session i).prog { (s.session i).work with state := .steady, upStreak := 0, recovering := 0 } :=
    { context with streak := Nat.zero_le _, recovering := Nat.zero_le _ }
  unfold recoverSession postRecovered
  simp only [post_session]
  split
  · exact publish_setWork_openOk steady (.of_steady rfl (clampRung_mem context.window _))
  · exact publish_setWork_openOk steady (.of_steady rfl ⟨le_rfl, context.window⟩)
  · exact startProbe_openOk (by rwa [session_setWork_self])

theorem fallbackCompletion_openOk (context : ContextOk (s.session i).prog (s.session i).work)
    (fallback : (s.session i).work.state = .fallback) : OpenOk ((fallbackCompletion i s).session i) := by
  have counted : ContextOk (s.session i).prog
      { (s.session i).work with recovering := min 15 ((s.session i).work.recovering + 1) } :=
    { context with recovering := Nat.min_le_left .. }
  unfold fallbackCompletion
  simp only
  split
  · exact recoverSession_openOk (by rwa [session_setWork_self])
  · refine publishLo_openOk ?_ (.inl ?_) <;> rwa [session_setWork_self]

end Publication

/-! ### The session governor -/

/-- The governor answers for an open session. -/
theorem Governs.keepsSessions_of_open {i : SessionId} {s t : State} (h : Governs i s t) (ho : (s.session i).work.state ≠ .closed)
    (own : ContextOk (s.session i).prog (s.session i).work →
      AnswerOk (s.session i).prog (s.session i).work (s.session i).advice.rung → OpenOk (t.session i)) : KeepsSessions s t :=
  h.keepsSessions fun ok _ => by
    obtain ⟨context, answer⟩ := openOk_iff.1 (ok ho)
    exact own context answer

theorem steadyDecision_keepsSessions {i : SessionId} (before : SessionState) (reason : Reason) {s : State}
    (ho : (s.session i).work.state ≠ .closed) : KeepsSessions s (steadyDecision i before reason s) :=
  (steadyDecision_governs ..).keepsSessions_of_open ho fun context _ => steadyDecision_openOk before context

theorem offerCompletion_keepsSessions (i : SessionId) (rung landing sample : Nat) (s : State) :
    KeepsSessions s (offerCompletion i rung landing sample s) := by
  unfold offerCompletion
  split
  · next h =>
    exact (probeStep_governs ..).keepsSessions_of_open (by simp [h]) fun context answer =>
      probeStep_openOk _ _ _ context (answer.searching (.inl h))
  · next h => exact steadyDecision_keepsSessions _ _ (by simp [h])
  · next h => exact steadyDecision_keepsSessions _ _ (by simp [h])
  · next h =>
    exact (fallbackCompletion_governs ..).keepsSessions_of_open (by simp [h]) fun context _ => fallbackCompletion_openOk context h
  · exact .refl s
  · exact .refl s

theorem panicCrossing_keepsSessions (i : SessionId) (s : State) : KeepsSessions s (panicCrossing i s) := by
  unfold panicCrossing
  split
  · next h => exact steadyDecision_keepsSessions _ _ (by simp [h])
  · next h => exact steadyDecision_keepsSessions _ _ (by simp [h])
  all_goals exact .refl s

/-- A stall enters FALLBACK, or begins its recovery count again, which no state's answer reads (R136, R137). -/
theorem takeStall_keepsSessions (i : SessionId) (s : State) : KeepsSessions s (takeStall i s) := by
  have entered : (s.session i).work.state ≠ .closed → KeepsSessions s (enterFallback i s) := fun ho =>
    (enterFallback_governs ..).keepsSessions_of_open ho fun context _ => enterFallback_openOk context
  unfold takeStall
  split
  · next h => exact entered (by simp [h])
  · next h => exact entered (by simp [h])
  · next h => exact entered (by simp [h])
  · next h =>
    refine (setWork_governs ..).keepsSessions_of_open (by simp [h]) fun context answer => ?_
    rw [session_setWork_self]
    have lo := answer.fallback h
    refine openOk_iff.2 ⟨{ context with recovering := Nat.zero_le _ }, ?_⟩
    simp only [lo]
    exact .of_fallback h context.window
  · exact .refl s
  · exact .refl s

/-! ### Arrivals, stalls and consumer reads -/

theorem completeSegment_keepsSessions (i : SessionId) (h : HeldSegment) (s : State) : KeepsSessions s (completeSegment i h s) := by
  have held : ∀ list rebuffering, KeepsSessions s (s.setSession i { s.session i with held := list, rebuffering := rebuffering }) :=
    fun _ _ => setSession_keepsSessions (SameContext.of_work rfl rfl rfl).lawful
  unfold completeSegment refillTest
  simp only
  split <;> [skip; split <;> [skip; split]]
  · exact setSession_keepsSessions (SameContext.lawful ⟨rfl, rfl, rfl, fun _ ok => { ok with skips := bump_le _ }⟩)
  · exact .refl s
  · rw [setSession_setSession, session_setSession_self]
    exact (post_keepsSessions ..).after (held _ false)
  · exact held _ _

theorem completeFetch_keepsSessions (k : Slot) (r : FetchRecord) (s : State) : KeepsSessions s (completeFetch k r s) := by
  have done : ∀ landing, KeepsSessions s (postFetchDone k r landing (passParts k (freeSlot k s))) := fun _ =>
    (post_keepsSessions ..).after (.of_frame rfl)
  unfold completeFetch handOverCompletion
  simp only
  split
  · exact done _
  · exact (offerCompletion_keepsSessions ..).after ((done _).trans (completeSegment_keepsSessions ..))

theorem postRevive_sessions (k : Slot) (r : FetchRecord) (s : State) : (postRevive k r s).sessions = s.sessions := by
  unfold postRevive
  split
  · exact post_sessions ..
  · rfl

theorem creditRise_sessions (r : FetchRecord) (landed : Nat) (s : State) : (creditRise r landed s).sessions = s.sessions := by
  unfold creditRise
  split <;> rfl

theorem takeArrival_keepsSessions (a : Arrival) (s : State) : KeepsSessions s (takeArrival a s) := by
  have credited : ∀ k r n, KeepsSessions s (creditRise r n (postRevive k r s)) := fun k r n =>
    .of_frame ((creditRise_sessions ..).trans (postRevive_sessions ..))
  unfold takeArrival countArrival
  simp only
  split <;> [split <;> [split; skip]; skip]
  · exact (completeFetch_keepsSessions ..).after (credited ..)
  · exact (credited ..).trans (.of_frame rfl)
  · exact .refl s
  · exact .refl s

theorem expireDeadline_keepsSessions (gap : Bool) (k : Slot) (s : State) : KeepsSessions s (expireDeadline gap k s) := by
  have stalled : ∀ r, KeepsSessions s (stallRecord gap k r s) := fun r => by
    have marked : ∀ q, KeepsSessions s (s.setSlot k q) := fun _ => .of_frame rfl
    have counted : ∀ t : State, KeepsSessions t
        (t.setWork r.session { (t.session r.session).work with stalls := bump (t.session r.session).work.stalls }) := fun _ =>
      setSession_keepsSessions (SameContext.lawful ⟨rfl, rfl, rfl, fun _ ok => { ok with stalls := bump_le _ }⟩)
    exact ((marked _).trans (counted _)).trans ((post_keepsSessions ..).trans (takeStall_keepsSessions ..))
  unfold expireDeadline
  split <;> [split; skip]
  · exact stalled _
  · exact .refl s
  · exact .refl s

theorem skipTo_sameContext (q : Serial) (x : Session) : SameContext x (skipTo q x) :=
  ⟨rfl, rfl, rfl, fun _ ok => { ok with skips := Nat.min_le_left .. }⟩

theorem readHeld_sameContext (q : Serial) (e : Nat) (x : Session) : SameContext x (readHeld q e x) := by
  obtain ⟨prog, rung, work, tallies⟩ := skipTo_sameContext q { x with held := raiseHeld q e x.held }
  unfold readHeld
  simp only
  split <;> exact ⟨prog, rung, work, tallies⟩

theorem applyPart_keepsSessions (part : ConsumerPart) (s : State) : KeepsSessions s (applyPart part s) := by
  rcases applyPart_cases part s with same | ⟨k, r, -, -, read⟩ | read
  · rw [same]
    exact .refl s
  · rw [read]
    have marked : ∀ q, KeepsSessions s (s.setSlot k q) := fun _ => .of_frame rfl
    exact (marked _).trans (setSession_keepsSessions (skipTo_sameContext ..).lawful)
  · rw [read]
    exact setSession_keepsSessions (readHeld_sameContext ..).lawful

theorem applyParts_keepsSessions (parts : List ConsumerPart) (s : State) : KeepsSessions s (applyParts parts s).1 := by
  induction parts generalizing s with
  | nil => exact .refl s
  | cons part rest ih => exact (applyPart_keepsSessions part s).trans (ih _)

theorem underrun_keepsSessions (i : SessionId) (s : State) : KeepsSessions s (underrun i s) :=
  (post_keepsSessions ..).after
    (setSession_keepsSessions (SameContext.lawful ⟨rfl, rfl, rfl, fun _ ok => { ok with rebuffers := bump_le _ }⟩))

theorem judgeRead_keepsSessions (before : Nat) (consumed : Bool) (i : SessionId) (s : State) :
    KeepsSessions s (judgeRead before consumed i s) := by
  have judged : ∀ b : Bool, KeepsSessions s (if b then underrun i s else s) := by
    rintro (_ | _)
    · exact .refl s
    · exact underrun_keepsSessions ..
  unfold judgeRead
  simp only
  split
  · exact (judged _).trans (panicCrossing_keepsSessions ..)
  · exact judged _

theorem takeConsumerRead_keepsSessions (parts : List ConsumerPart) (s : State) : KeepsSessions s (takeConsumerRead parts s) := by
  unfold takeConsumerRead
  simp only
  refine (applyParts_keepsSessions parts s).trans ?_
  generalize (applyParts parts s).1 = t
  generalize List.finRange 4 = is
  induction is generalizing t with
  | nil => exact .refl t
  | cons i is ih =>
    rw [List.foldl_cons]
    refine .trans ?_ (ih _)
    split
    · exact judgeRead_keepsSessions ..
    · exact .refl t

/-! ### Time and reads -/

theorem endWindow_keepsSessions (s : State) : KeepsSessions s (endWindow s) := by
  unfold endWindow
  simp only
  split
  · exact .of_frame rfl
  · exact (handOverLink_keepsSessions _).after (.of_frame rfl)

theorem takeOwedTick_keepsSessions (s : State) : KeepsSessions s (takeOwedTick s) := by
  unfold takeOwedTick meterTick
  simp only
  split <;> [split; skip]
  · exact (endWindow_keepsSessions _).after (.of_frame rfl)
  · exact .of_frame rfl
  · exact .refl s

theorem loseReference_keepsSessions (s : State) : KeepsSessions s (loseReference s) := by
  unfold loseReference
  split
  · exact .refl s
  · exact .of_frame rfl
  · exact (post_keepsSessions ..).after (.of_frame rfl)

theorem markTaken_keepsSessions (address length : Nat) (s : State) : KeepsSessions s (markTaken address length s) :=
  .of_sameContext fun i => by
    have own : (markTaken address length s).session i = { s.session i with
        taken := (s.session i).taken || (isOpen (s.session i) && overlapsSlot s address length i) } :=
      Vector.getElem_ofFn ..
    rw [own]
    exact .of_work rfl rfl rfl

/-! ### OPEN -/

theorem highestRung_mem {low high : Nat} (h : low ≤ high) (p : Programmed) (x : Nat) :
    low ≤ highestRung p low high x ∧ highestRung p low high x ≤ high := by
  unfold highestRung
  cases last : ((List.range (high + 1)).filter fun i => decide (low ≤ i) && decide (rate p i ≤ x)).getLast? with
  | none => exact ⟨le_rfl, h⟩
  | some j =>
    have member := List.mem_of_getLast? last
    simp only [List.mem_filter, List.mem_range, Bool.and_eq_true, decide_eq_true_eq] at member
    exact ⟨member.2.1, Nat.le_of_lt_succ member.1⟩

/-- The first rung of an OPEN lies in the window (R133). -/
theorem firstRung_mem {p : Programmed} (h : p.lo ≤ p.hi) (safety : Nat) (seed : Option Nat) :
    p.lo ≤ firstRung p safety seed ∧ firstRung p safety seed ≤ p.hi := by
  cases seed with
  | none => rw [firstRung_none safety h]; omega
  | some v => exact highestRung_mem h p _

/-- The clamps of an OPEN, and the two checks of its ladder, leave a programmed half in its ranges (R26, R129). -/
theorem programmedOf_ok {f : OpenFields} (rungs : 1 ≤ f.ladder.length ∧ f.ladder.length ≤ 8)
    (good : badLadder (f.ladder.map (·.toNat)) = false) : ProgrammedOk (programmedOf f) := by
  obtain ⟨nonzero, rising⟩ : (∀ r ∈ f.ladder.map (·.toNat), r ≠ 0) ∧ (f.ladder.map (·.toNat)).Pairwise (· < ·) := by
    by_contra bad
    rw [(badLadder_iff _).2 bad] at good
    cases good
  have rates : ∀ r ∈ f.ladder.map (·.toNat), 1 ≤ r ∧ r ≤ Config.maxRate := fun r hr => by
    obtain ⟨v, -, rfl⟩ := List.mem_map.1 hr
    exact ⟨Nat.one_le_iff_ne_zero.2 (nonzero _ hr), Nat.le_of_lt_succ v.isLt⟩
  have weight := f.weight.isLt
  have auto := f.autoRecover.isLt
  have panic := f.panic.isLt
  have comfort := f.comfort.isLt
  rw [programmedOf_eq]
  refine ⟨⟨by simpa using rungs, rates, rising⟩, ?_⟩
  simp only [List.length_map]
  omega

/-- The session an OPEN leaves is lawful: PROBING over its window, or STEADY where a seed or a window of one rung settles the rung
(R133). -/
theorem openedSession_openOk {p : Programmed} (programmed : ProgrammedOk p) (safety : Nat) (seed : Option Nat) (now : Tick) :
    OpenOk (openedSession p safety seed now) := by
  have ⟨⟨⟨_, ladder⟩, _⟩, ⟨ordered, top⟩, _⟩ := programmed
  have first := firstRung_mem ordered safety seed
  have context : ContextOk p (openedSession p safety seed now).work := by
    refine ⟨⟨?_, Nat.zero_le _, Nat.zero_le _, Nat.zero_le _, Nat.zero_le _⟩, programmed, ⟨nofun, nofun⟩, ?_, Nat.zero_le _,
      Nat.zero_le _, Nat.zero_le _⟩
    · show firstRung p safety seed ≤ 7
      omega
    · show p.lo ≤ 7
      omega
  refine openOk_iff.2 ⟨context, ?_⟩
  by_cases probing : seed.isNone = true ∧ p.lo < p.hi
  · have state : (openedSession p safety seed now).work.state = .probing := by
      simp [openedSession, firstState, probing]
    have rung : (openedSession p safety seed now).advice.rung = probeMidpoint p.lo p.hi := by
      obtain ⟨unseeded, apart⟩ := probing
      rw [Option.isNone_iff_eq_none.1 unseeded]
      exact if_pos apart
    rw [rung]
    exact .of_probing state ⟨le_rfl, ordered, le_rfl, rfl⟩
  · have state : (openedSession p safety seed now).work.state = .steady := by
      simpa [openedSession, firstState] using probing
    exact .of_steady state first

theorem openEffect_keepsSessions {i : SessionId} {f : OpenFields} (s : State) (programmed : ProgrammedOk (programmedOf f)) :
    KeepsSessions s (openEffect i f s) := by
  have seeded : KeepsSessions s (seedMeter (f.seed.map seedValue) s) := by
    unfold seedMeter
    split <;> [skip; split] <;> exact .of_frame rfl
  have opened := fun t => (recompute_keepsSessions _).after (seeded.trans (setSession_keepsSessions (i := i) fun _ _ =>
    openedSession_openOk programmed s.meter.safety (f.seed.map seedValue) t))
  unfold openEffect
  simp only
  split
  · exact (opened _).trans (post_keepsSessions ..)
  · exact opened _

/-! ### WINDOW -/

/-- A new window lies in the ladder it finds (R28, R129). -/
theorem windowedBy_ok (f : WindowFields) {p : Programmed} (ok : ProgrammedOk p) : ProgrammedOk (windowedBy f p) := by
  obtain ⟨⟨⟨rungs, most⟩, rates⟩, -, -, rest⟩ := ok
  have weight := f.weight.isLt
  rw [windowedBy_eq]
  refine ⟨⟨⟨rungs, most⟩, rates⟩, ?_, ?_, rest⟩
  · simp only
    omega
  · simp only
    omega

/-- Every open state answers to a new window (R147, R148); a pause of a search begins it again over the window. -/
theorem takeWindow_openOk {i : SessionId} {s : State} (ho : (s.session i).work.state ≠ .closed)
    (context : ContextOk (s.session i).prog (s.session i).work)
    (streak : Searching (s.session i).work → (s.session i).work.upStreak = 0) : OpenOk ((takeWindow i s).session i) := by
  unfold takeWindow
  simp only
  split
  · exact startProbe_openOk context
  · exact steadyDecision_openOk _ context
  · exact steadyDecision_openOk _ context
  · next h => exact publishLo_openOk context (.inl h)
  · next paused =>
    have inside := clampRung_mem context.window (s.session i).advice.rung
    split
    · next before =>
      exact publish_setWork_openOk { context with }
        (.of_paused paused inside fun _ => ⟨le_rfl, context.window, le_rfl, streak (.inr ⟨paused, before⟩)⟩)
    · next before => exact publish_openOk context (.of_paused paused inside fun h => absurd h before)
  · next h => exact absurd h ho

theorem windowEffect_keepsSessions {i : SessionId} {s : State} (f : WindowFields) (ho : (s.session i).work.state ≠ .closed) :
    KeepsSessions s (windowEffect i f s) :=
  (takeWindow_governs ..).keepsSessions_of_recompute fun ok _ => by
    obtain ⟨context, answer⟩ := openOk_iff.1 (ok ho)
    have windowed : ContextOk (windowedBy f (s.session i).prog) (s.session i).work :=
      { context with programmed := windowedBy_ok f context.programmed }
    refine takeWindow_openOk ?_ ?_ ?_ <;> simp only [recompute_work, recompute_prog, session_setSession_self]
    · exact ho
    · exact windowed
    · exact fun searching => (answer.searching searching).streak

/-! ### PAUSE and RESUME -/

/-- A PAUSE keeps the advised rung, and the bounds of a search it suspends (R142). -/
theorem pauseEffect_keepsSessions {i : SessionId} (measure : Bool) {s : State}
    (active : (s.session i).work.state ≠ .closed ∧ (s.session i).work.state ≠ .paused) :
    KeepsSessions s (pauseEffect i measure s) := by
  refine (recompute_keepsSessions _).after (setSession_keepsSessions fun ok _ => ?_)
  obtain ⟨context, answer⟩ := openOk_iff.1 (ok active.1)
  exact openOk_iff.2 ⟨{ context with prePause := active },
    .of_paused rfl answer.window fun probing => { answer.searching (.inl probing) with }⟩

/-- In HOLD mode the session answers in its pre-pause state (R145). -/
theorem resumeHeld_openOk {i : SessionId} {s : State} (context : ContextOk (s.session i).prog (s.session i).work)
    (bounds : (s.session i).work.state = .probing → BoundsOk (s.session i).prog (s.session i).work) :
    OpenOk ((resumeHeld i s).session i) := by
  unfold resumeHeld
  split
  · next h => exact continueProbe_openOk context (bounds h)
  · next h => exact publishLo_openOk context (.inl h)
  · exact steadyDecision_openOk _ context

/-- A RESUME enters FALLBACK, its pre-pause state, STEADY or PROBING, and answers in it (R144, R145). -/
theorem resumeEffect_keepsSessions {i : SessionId} {s : State} (paused : (s.session i).work.state = .paused) :
    KeepsSessions s (resumeEffect i s) := by
  have entered : ∀ {w : Working} {t : State}, Governs i (recompute (s.setWork i w)) t →
      (ContextOk (s.session i).prog (s.session i).work →
        AnswerOk (s.session i).prog (s.session i).work (s.session i).advice.rung → OpenOk (t.session i)) → KeepsSessions s t :=
    fun governs own => governs.keepsSessions_of_recompute fun ok _ => by
      obtain ⟨context, answer⟩ := openOk_iff.1 (ok (by simp [paused]))
      exact own context answer
  have prog : ∀ w, ((recompute (s.setWork i w)).session i).prog = (s.session i).prog := fun w => by simp
  have work : ∀ w, ((recompute (s.setWork i w)).session i).work = w := fun w => by simp
  have left : (s.session i).work.recovering ≤ 15 →
      (if (s.session i).work.prePause = .fallback then 0 else (s.session i).work.recovering) ≤ 15 := fun h => by
    split <;> omega
  unfold resumeEffect resumeToFallback resumeByMode
  simp only
  split <;> [skip; split]
  · refine entered (publishLo_governs ..) fun context _ => publishLo_openOk ?_ (.inl ?_) <;> rw [work]
    rw [prog]
    refine { context with
      preFallback := ?_, streak := Nat.zero_le _, recovering := Nat.zero_le _ }
    show (if _ then _ else _) ≤ 7
    split
    · exact context.preFallback
    · exact context.current
  · refine entered (resumeHeld_governs ..) fun context answer => resumeHeld_openOk ?_ ?_ <;> rw [prog, work]
    · exact { context with }
    · exact fun probing => { answer.searching (.inr ⟨paused, probing⟩) with }
  · refine entered (publishLo_governs ..) fun context _ => publishLo_openOk ?_ (.inr ?_) <;> rw [work]
    rw [prog]
    exact { context with
      streak := Nat.zero_le _, recovering := left context.recovering }
  · refine entered (startProbe_governs ..) fun context _ => startProbe_openOk ?_
    rw [prog, work]
    exact { context with recovering := left context.recovering }

/-! ### FETCH -/

/-- A MEDIA fetch is of a rung of the ladder, which has 8 at most (R34, R129). -/
theorem announceTo_sameContext {i : SessionId} {f : FetchFields} {s : State} (h : fetchCause i f s = none) :
    SameContext (s.session i) (announceTo (announcedKind f) (s.session i)) := by
  unfold fetchCause at h
  simp only at h
  split_ifs at h with _ badRung
  rw [announcedKind_eq]
  split
  · next media =>
    refine ⟨rfl, rfl, rfl, fun ⟨⟨⟨_, ladder⟩, _⟩, _⟩ ok => { ok with current := ?_, overrides := ?_ }⟩
    · show f.rung.toNat ≤ 7
      omega
    · show (if _ then _ else _) ≤ Config.countLimit
      split
      · exact ok.overrides
      · exact bump_le _
  · exact .of_work rfl rfl rfl

theorem fetchEffect_keepsSessions {i : SessionId} {f : FetchFields} {s : State} (h : fetchCause i f s = none) :
    KeepsSessions s (fetchEffect i f s).1 := by
  unfold fetchEffect
  split
  · exact .refl s
  · next k _ =>
    have filled : ∀ q, KeepsSessions s (s.setSlot k q) := fun _ => .of_frame rfl
    exact (filled _).trans (setSession_keepsSessions (announceTo_sameContext h).lawful)

/-! ### The other orders -/

theorem setupEffect_keepsSessions (tag : Tag) (f : SetupFields) (s : State) : KeepsSessions s (setupEffect tag f s) := by
  unfold setupEffect
  simp only
  split
  · exact (handOverLink_keepsSessions _).after (.of_frame rfl)
  · exact .of_frame rfl

/-- A CONTINUE keeps the rung, in STEADY (R149). -/
theorem continueEffect_keepsSessions {i : SessionId} {s : State} (ho : (s.session i).work.state ≠ .closed) :
    KeepsSessions s (continueEffect i s) :=
  setSession_keepsSessions fun ok _ => by
    obtain ⟨context, answer⟩ := openOk_iff.1 (ok ho)
    exact openOk_iff.2 ⟨{ context with }, .of_steady rfl answer.window⟩

theorem flushEffect_keepsSessions (i : SessionId) (s : State) : KeepsSessions s (flushEffect i s) :=
  have emptied : ∀ t : State,
      KeepsSessions t (t.setSession i { t.session i with held := [], position := none, rebuffering := false }) := fun _ =>
    setSession_keepsSessions (SameContext.of_work rfl rfl rfl).lawful
  (freeSession_keepsSessions i s).trans (emptied _)

theorem reacquireEffect_keepsSessions (s : State) : KeepsSessions s (reacquireEffect s) := by
  unfold reacquireEffect
  split
  · exact .refl s
  · exact .of_frame rfl

theorem orderEffect_keepsSessions (tag : Tag) (field : BitVec 4) (o : Order) (s : State) (h : refusalCause field o s = none) :
    KeepsSessions s (orderEffect tag (sessionOf field) o s).1 := by
  obtain ⟨length, -, state, content⟩ := refusalCause_eq_none_iff.1 h
  generalize sessionOf field = i at state content ⊢
  cases o <;> simp only [orderEffect]
  case setup f => exact setupEffect_keepsSessions ..
  case openSession f =>
    exact openEffect_keepsSessions s
      (programmedOf_ok (by simp [lengthCause] at length; omega) (by simpa [contentCause] using content))
  case closeSession =>
    exact (recompute_keepsSessions _).after
      ((freeSession_keepsSessions i s).trans (setSession_keepsSessions fun _ => sessionLawful_closed))
  case window f => exact windowEffect_keepsSessions f (open_of_stateCause state rfl nofun)
  case pause m => exact pauseEffect_keepsSessions m (active_of_stateCause state (by simp))
  case resume =>
    have ho := open_of_stateCause state rfl nofun
    exact resumeEffect_keepsSessions (by simpa [stateCause, stateMust, ho] using state)
  case recover =>
    exact (recoverSession_governs ..).keepsSessions_of_open (open_of_stateCause state rfl nofun) fun context _ =>
      recoverSession_openOk context
  case continueRung => exact continueEffect_keepsSessions (open_of_stateCause state rfl nofun)
  case fetch f => exact fetchEffect_keepsSessions content
  case abort base => exact (freeWhere_spec _ s).1.keepsSessions
  case flush => exact flushEffect_keepsSessions i s
  case reset => exact keepsSessions_of_closed fun j => by simp [resetEffect, State.session]
  case reacquire => exact reacquireEffect_keepsSessions s

/-! ### Every step -/

theorem keepsSessions_stepClosed : StepClosed KeepsSessions where
  refl := .refl
  trans := .trans
  outside _ _ _ _ _ := .of_frame rfl
  powerOn _ _ _ := keepsSessions_of_closed fun i => by simp [State.session, powerOn, State.reset]
  post := post_keepsSessions
  order := orderEffect_keepsSessions
  arrival := takeArrival_keepsSessions
  consumerRead := takeConsumerRead_keepsSessions
  pop _ := .of_frame (by rw [popEvent_eq])
  mark := markTaken_keepsSessions
  firstByte := expireDeadline_keepsSessions false
  gap := expireDeadline_keepsSessions true
  owedTick := takeOwedTick_keepsSessions
  tick _ := .of_frame rfl
  edge _ _ := .of_frame rfl
  loss := loseReference_keepsSessions
  regain _ := .of_frame rfl

/-- Settles O7: each act of a step keeps each session's law from itself alone, and `StepClosed.step` puts them together. -/
theorem stepsKeepTheSessionLaw : Obligations.StepsKeepTheSessionLaw := fun _ _ ok hs i =>
  (keepsSessions_stepClosed.step hs).session i (ok i)

end Sys2Proof.Machine
end

section
/-! PROOFS. What is posted and published: an event, and an advice (R156, R157, R184 to R190). -/

namespace Sys2Proof.Machine

section posted
variable {kind : EventKind} {session : BitVec 4} {code : BitVec 8} {a b : Word} {s : State}

/-- R184, R185: an event of a kind that is not enabled is dropped. -/
theorem post_of_disabled (off : s.report.mask.getLsbD kind.code.toNat = false) : post kind session code a b s = s := by
  simp only [post, off, Bool.false_eq_true, if_false]

/-- R184, R189: an event that finds the queue full is lost. -/
theorem post_of_full (on : s.report.mask.getLsbD kind.code.toNat = true) (full : Config.queueDepth ≤ s.report.events.length) :
    post kind session code a b s = { s with report := { s.report with lost := true } } := by
  simp only [post, if_pos on, if_pos full]

/-- R184: an event of an enabled kind that finds room joins the end of the queue, stamped. -/
theorem post_of_room (on : s.report.mask.getLsbD kind.code.toNat = true) (room : s.report.events.length < Config.queueDepth) :
    post kind session code a b s = { s with report := { s.report with
      events := s.report.events ++ [⟨kind, session, code, s.timebase.tick, a, b⟩] } } := by
  simp only [post, if_pos on, if_neg room.not_ge]

/-- R190: the event line says whether the queue holds a record. -/
theorem eventLine_iff : eventLine s = true ↔ s.report.events ≠ [] := by simp [eventLine]

/-- R190: a queue that is full already asserts the line, and one with room gains a record. -/
theorem eventLine_post_iff : eventLine (post kind session code a b s) = true
    ↔ eventLine s = true ∨ s.report.mask.getLsbD kind.code.toNat = true := by
  cases on : s.report.mask.getLsbD kind.code.toNat with
  | false => simp [post_of_disabled on]
  | true =>
    rcases Nat.lt_or_ge s.report.events.length Config.queueDepth with room | full
    · simp [post_of_room on room, eventLine_iff]
    · have held : s.report.events ≠ [] := List.ne_nil_of_length_pos (Nat.lt_of_lt_of_le (by decide) full)
      simp [post_of_full on full, eventLine_iff, held]

end posted

/-- Settles O55: the three cases of a posting, the event line after it, and whether the published rung moved. -/
theorem postingAndPublication : Obligations.PostingAndPublication := by
  constructor
  · intro kind session code a b s posted
    exact ⟨post_of_disabled, post_of_full, post_of_room, eventLine_iff, eventLine_post_iff⟩
  · intro i rung reason s x u
    exact ⟨fun same => if_pos same, fun moved => if_neg moved⟩

end Sys2Proof.Machine
end

section
/-! PROOFS. The probe: where it starts, and how a test narrows its bounds (R169 to R172). -/

namespace Sys2Proof.Machine

/-! ### The bounds after a test -/

/-- R171, the supported row: the rungs below `f` go, and `b` follows where they all lay below. -/
theorem narrowed_supported (lo a b f : Nat) : narrowed lo a b f true = (max a f, max b (max a f)) := rfl

/-- R171, the row of a rung `lo` that is not supported: only `lo` is left. -/
theorem narrowed_unsupported_lo (lo a b : Nat) : narrowed lo a b lo false = (min a lo, lo) := by
  simp [narrowed]

/-- R171, the row of any other rung that is not supported: `f` and the rungs above it go. -/
theorem narrowed_unsupported {lo f : Nat} (above : lo < f) (a b : Nat) :
    narrowed lo a b f false = (min a (min b (f - 1)), min b (f - 1)) := by
  simp [narrowed, above.ne']

/-- Settles O56: the three rows, with each minimum and maximum read by which side is the greater. -/
theorem probeBoundsAfterATest : Obligations.ProbeBoundsAfterATest := by
  intro lo a b hi f hlo hab hhi hf hfhi good poor
  have goodRow : good = (max a f, max b (max a f)) := narrowed_supported ..
  have loRow : f = lo → poor = (min a lo, lo) := by
    rintro rfl
    exact narrowed_unsupported_lo ..
  have aboveRow : lo < f → poor = (min a (min b (f - 1)), min b (f - 1)) := fun above => narrowed_unsupported above ..
  obtain ⟨goodLower, goodOrdered, goodUpper⟩ := narrowed_mem hlo hab hhi hf hfhi true
  refine ⟨?_, fun e => ?_, fun above => ?_, ⟨goodLower, goodOrdered, goodUpper, narrowed_mem hlo hab hhi hf hfhi false⟩,
    fun below => ?_, fun beyond => ?_, fun e => ?_, fun above below => ?_⟩
  · rw [goodRow, Prod.mk.injEq]; split <;> omega
  · rw [loRow e, Prod.mk.injEq]; split <;> omega
  · rw [aboveRow above, Prod.mk.injEq]; split <;> omega
  · rw [goodRow, Prod.mk.injEq]; omega
  · rw [goodRow, Prod.mk.injEq]; omega
  · rw [loRow e, Prod.mk.injEq]; omega
  · rw [aboveRow above, Prod.mk.injEq]; omega

/-! ### Start and halving -/

/-- The midpoint lies above `a`, so a test of it without overrides is never one of `lo` (R169, R171). -/
theorem lt_probeMidpoint {a b : Nat} (h : a < b) : a < probeMidpoint a b := by
  unfold probeMidpoint; omega

/-- R172: a midpoint supported leaves the rungs from it to `b`, one not supported those from `a` to below it. -/
theorem narrowed_probeMidpoint {lo a b : Nat} (hlo : lo ≤ a) (h : a < b) (good : Bool) :
    narrowed lo a b (probeMidpoint a b) good = if good then (probeMidpoint a b, b) else (a, probeMidpoint a b - 1) := by
  have above := lt_probeMidpoint h
  have inside := (probeMidpoint_mem h.le).2
  cases good with
  | true =>
    rw [narrowed_supported, if_pos rfl, Prod.mk.injEq]
    omega
  | false =>
    rw [narrowed_unsupported (hlo.trans_lt above), if_neg Bool.false_ne_true, Prod.mk.injEq]
    omega

/-- Settles O57: the start has the two cases of its window, and each half that a test of the midpoint leaves
(`narrowed_probeMidpoint`) holds at most half the rungs, rounded up. -/
theorem probeHalvesItsWindow : Obligations.ProbeHalvesItsWindow := by
  constructor
  · intro i reason s x p started
    refine ⟨fun wide => if_neg wide.ne, fun single => (if_pos single).trans ?_⟩
    simp only [convergeProbe, postProbeDone, session_setWork_self, setWork_setWork]
    rfl
  · intro lo a b good hlo hab m out
    refine ⟨lt_probeMidpoint hab, (probeMidpoint_mem hab.le).2, ?_⟩
    have left : out = if good then (m, b) else (a, m - 1) := narrowed_probeMidpoint hlo hab good
    have middle : m = a + (b - a + 1) / 2 := rfl
    rw [left]
    cases good <;> simp only [Bool.false_eq_true, if_false, if_true] <;> omega

end Sys2Proof.Machine
end

section
/-! PROOFS. The steady decision: the candidates, the steps to its target, and the clip (R160 to R165). -/

namespace Sys2Proof.Machine

/-! ### The candidates -/

/-- The rungs from `low` to `high` with a bitrate at or below `x`, in ascending order. -/
def qualifyingRungs (p : Programmed) (low high x : Nat) : List Nat :=
  (List.range (high + 1)).filter fun i => decide (low ≤ i) && decide (rate p i ≤ x)

theorem highestRung_eq (p : Programmed) (low high x : Nat) :
    highestRung p low high x = (qualifyingRungs p low high x).getLast?.getD low := rfl

theorem mem_qualifyingRungs {p : Programmed} {low high x i : Nat} :
    i ∈ qualifyingRungs p low high x ↔ low ≤ i ∧ i ≤ high ∧ rate p i ≤ x := by
  simp [qualifyingRungs, and_left_comm]

theorem qualifyingRungs_ascending (p : Programmed) (low high x : Nat) :
    (qualifyingRungs p low high x).Pairwise (· < ·) :=
  List.pairwise_lt_range.filter _

/-- R160: a rung of the range that qualifies, or `low` where none does. -/
theorem highestRung_qualifies (p : Programmed) (low high x : Nat) :
    rate p (highestRung p low high x) ≤ x
      ∨ highestRung p low high x = low ∧ ∀ i, low ≤ i → i ≤ high → x < rate p i := by
  rw [highestRung_eq]
  cases last : (qualifyingRungs p low high x).getLast? with
  | none =>
    have empty := List.eq_nil_iff_forall_not_mem.1 (List.getLast?_eq_none_iff.1 last)
    exact .inr ⟨rfl, fun i above below =>
      not_le.1 fun qualifies => empty i (mem_qualifyingRungs.2 ⟨above, below, qualifies⟩)⟩
  | some j =>
    obtain ⟨-, -, qualifies⟩ := mem_qualifyingRungs.1 (List.mem_of_getLast? last)
    exact .inl qualifies

/-- R160: no rung that qualifies stands above it. -/
theorem le_highestRung {p : Programmed} {low high x i : Nat} (above : low ≤ i) (below : i ≤ high) (qualifies : rate p i ≤ x) :
    i ≤ highestRung p low high x := by
  rw [highestRung_eq]
  have member : i ∈ qualifyingRungs p low high x := mem_qualifyingRungs.2 ⟨above, below, qualifies⟩
  cases last : (qualifyingRungs p low high x).getLast? with
  | none =>
    rw [List.getLast?_eq_none_iff.1 last] at member
    cases member
  | some j =>
    obtain ⟨earlier, parted⟩ := List.getLast?_eq_some_iff.1 last
    have ascending := qualifyingRungs_ascending p low high x
    rw [parted] at member ascending
    rcases List.mem_append.1 member with before | top
    · exact ((List.pairwise_append.1 ascending).2.2 i before j (List.mem_singleton_self j)).le
    · exact (List.mem_singleton.1 top).le

/-! ### The target -/

section target
variable {coarse : Bool} {x : Session}

/-- R161: below B_panic the target is lo. -/
theorem steadyTarget_panic (panic : bufferLevel x.held < x.prog.panic) : steadyTarget coarse x = (x.prog.lo, 0) := if_pos panic

/-- R162: with the candidate above, the rung is kept until the streak has reached U. -/
theorem steadyTarget_up (calm : x.prog.panic ≤ bufferLevel x.held) (up : x.work.current < throughputCandidate x) :
    steadyTarget coarse x =
      if coarse = true ∨ x.rebuffering = true ∨ bufferLevel x.held < x.prog.comfort then (x.work.current, 0)
      else if min x.prog.upCount (x.work.upStreak + 1) < x.prog.upCount then
        (x.work.current, min x.prog.upCount (x.work.upStreak + 1))
      else (x.work.current + 1, 0) := by
  simp only [steadyTarget, if_neg calm.not_gt, if_pos up, Bool.or_eq_true, decide_eq_true_eq, or_assoc]

/-- R163: with the candidate below, one rung down in comfort, and all the way to the candidate otherwise. -/
theorem steadyTarget_down (calm : x.prog.panic ≤ bufferLevel x.held) (down : throughputCandidate x < x.work.current) :
    steadyTarget coarse x =
      if x.prog.comfort ≤ bufferLevel x.held then (max (throughputCandidate x) (x.work.current - 1), 0)
      else (throughputCandidate x, 0) := by
  simp only [steadyTarget, if_neg calm.not_gt, if_neg down.not_gt, if_pos down]

/-- R164: with the candidate at the current rung, that rung is held. -/
theorem steadyTarget_hold (calm : x.prog.panic ≤ bufferLevel x.held) (same : throughputCandidate x = x.work.current) :
    steadyTarget coarse x = (x.work.current, 0) := by
  simp only [steadyTarget, if_neg calm.not_gt, same, lt_irrefl, if_false]

end target

/-! ### The clip -/

/-- R165: STOP, a full candidate above hi, and a decision for hi. -/
theorem holdsBoundary_iff (coarse : Bool) (headroom : Nat) (x : Session) : holdsBoundary coarse headroom x = true
    ↔ x.prog.clip = .stop ∧ x.prog.hi < fullCandidate headroom x ∧ steadyRung coarse x = x.prog.hi := by
  simp [holdsBoundary, and_assoc]

/-- Settles O54: the candidates by `highestRung_qualifies` and `le_highestRung`, the target step by step, and the clip by
`holdsBoundary_iff`. -/
theorem steadyDecisionFollowsTheSteps : Obligations.SteadyDecisionFollowsTheSteps := by
  refine ⟨fun p low high x window => ?_, fun coarse x => ?_, fun i before reason s => ?_⟩
  · obtain ⟨above, below⟩ := highestRung_mem window p x
    refine ⟨above, below, fun i higher inside => ?_, highestRung_qualifies ..⟩
    by_contra qualifies
    exact higher.not_ge (le_highestRung (above.trans higher.le) inside (not_lt.1 qualifies))
  · intro p level t c streak bad target
    refine ⟨steadyTarget_panic, fun calm up isBad => ?_, fun calm up fine short => ?_, fun calm up fine full => ?_,
      fun calm down comfort => ?_, fun calm down scarce => ?_, steadyTarget_hold⟩
    · exact (steadyTarget_up calm up).trans (if_pos isBad)
    · exact (steadyTarget_up calm up).trans ((if_neg fine).trans (if_pos short))
    · exact (steadyTarget_up calm up).trans ((if_neg fine).trans (if_neg full.not_lt))
    · exact (steadyTarget_down calm down).trans (if_pos comfort)
    · exact (steadyTarget_down calm down).trans (if_neg scarce.not_ge)
  · intro x p target rung full held stays
    have clip : holdsBoundary s.timebase.coarse s.arbiter.headroom x = true ↔ held := holdsBoundary_iff ..
    refine ⟨fun free => ?_, fun holds kept => ?_, fun holds entered => ?_⟩
    · exact if_neg (clip.not.2 free)
    · exact (if_pos (clip.2 holds)).trans (if_pos kept)
    · exact (if_pos (clip.2 holds)).trans (if_neg entered)

end Sys2Proof.Machine
end

section
/-! PROOFS. The queue's front decides a step. -/

namespace Sys2Proof.Machine

/-- A step with a command waiting takes it off the queue and runs it. -/
theorem step_of_pending {s : State} {c : Instr} {rest : List Instr} (front : s.pending = c :: rest) :
    step s = exec c { s with pending := rest } := by
  simp only [step, front]

/-- Settles O1: the queue is `c :: rest`, and the state left with `rest` waiting has nothing else changed. -/
theorem stepRunsTheFrontCommand : Obligations.StepRunsTheFrontCommand :=
  fun _ _ _ => step_of_pending rfl

end Sys2Proof.Machine
end
